-- ==== Sys2Proof/Word.lean ====
section
/-! DEFINITION. The word, byte and sample types (00_scope.md R8, R9) and the two channels (R7 `CHANNELS`, 10_state.md R21). -/

namespace Sys2Proof

/-- A command or response word: 32 bits, bit 31 the most significant (R8). -/
abbrev Word := BitVec 32

/-- A byte of scale-file text or of a description (R9). -/
abbrev Byte := BitVec 8

/-- An IEEE 754 binary32 bit pattern (R9). -/
abbrev F32 := BitVec 32

/-- A channel number, 0 or 1 (R81 `CH`). -/
inductive Chan where
  | ch0
  | ch1
deriving DecidableEq, Repr

end Sys2Proof
end

