-- ==== Sys2Proof/Machine/Float.lean ====
section
/-! DEFINITION. IEEE 754 binary32 as data (40_lifecycle_sys.md R106, R107): classification, comparison, exact value,
rounding to nearest even, and the conversions of 00_scope.md R10. Nothing here takes a draw.

A finite pattern is an exact integer multiple of 2^-149, the smallest subnormal: `unitsOf` is that multiple. Every
operation computes an exact rational number of units and rounds once, in `roundMag`. -/

namespace Sys2Proof.Machine

/-- The sign bit. -/
def isNeg (v : F32) : Bool := decide (0x80000000 ≤ v.toNat)

/-- Exponent and fraction bits as one number: it orders the magnitudes. -/
def magOf (v : F32) : Nat := v.toNat % 0x80000000

/-- The pattern with this sign and these 31 low bits. -/
def mkF (neg : Bool) (mag : Nat) : F32 := BitVec.ofNat 32 (if neg then 0x80000000 + mag else mag)

/-- R107: exponent field all ones and fraction non-zero. -/
def isNaN (v : F32) : Bool := decide (0x7F800000 < magOf v)

/-- Exponent field all ones and fraction zero. -/
def isInf (v : F32) : Bool := decide (magOf v = 0x7F800000)

/-- R107: the exponent field is not all ones. -/
def isFinite (v : F32) : Bool := decide (magOf v < 0x7F800000)

/-- +0.0 or -0.0. -/
def isZero (v : F32) : Bool := decide (magOf v = 0)

/-- The signed magnitude: on patterns that are not NaN it orders the values, both zeros at 0. -/
def key (v : F32) : Int := if isNeg v then -(magOf v : Int) else (magOf v : Int)

/-- `a < b` (R107: false when an operand is NaN). -/
def flt (a b : F32) : Bool := !isNaN a && !isNaN b && decide (key a < key b)

/-- `a ≤ b` (R107). -/
def fle (a b : F32) : Bool := !isNaN a && !isNaN b && decide (key a ≤ key b)

/-- `a == b` (R107: +0.0 == -0.0, false on NaN). -/
def feq (a b : F32) : Bool := !isNaN a && !isNaN b && decide (key a = key b)

/-- Sign flipped. -/
def fneg (v : F32) : F32 := mkF (!isNeg v) (magOf v)

/-- Sign cleared. -/
def fabs (v : F32) : F32 := mkF false (magOf v)

/-- The magnitude of a finite pattern in units of 2^-149. -/
def unitsOf (v : F32) : Nat :=
  let e := magOf v / 0x800000
  let f := magOf v % 0x800000
  if e = 0 then f else (0x800000 + f) * 2 ^ (e - 1)

/-- The exact value of a finite pattern in units of 2^-149. -/
def intOf (v : F32) : Int := if isNeg v then -(unitsOf v : Int) else (unitsOf v : Int)

/-- One unit's reciprocal: 1.0 is this many units. -/
def unitsPerOne : Nat := 2 ^ 149

/-- The integer nearest to `p / q`, ties to even. -/
def nearestEven (p q : Nat) : Nat :=
  let n := p / q
  let r := p % q
  if q < 2 * r ∨ (2 * r = q ∧ n % 2 = 1) then n + 1 else n

/-- The exponent step of a magnitude of about `p / q` units: its quantum is `2 ^ quantum p q` units. -/
def quantum (p q : Nat) : Nat := Nat.log2 (p / q) - 23

/-- Round to nearest, ties to even (R106): the low 31 bits of the pattern nearest to `p / q` units; overflow gives the
infinity's. -/
def roundMag (p q : Nat) : Nat :=
  let k := quantum p q
  min (k * 0x800000 + nearestEven p (q * 2 ^ k)) 0x7F800000

/-- The pattern nearest to `± p / q` units. -/
def roundTo (neg : Bool) (p q : Nat) : F32 := mkF neg (roundMag p q)

/-- R10: an integer as the nearest binary32, exact for |i| ≤ 2^24. It is also `toF32r` of 46_quantizer.md R314. -/
def toF32 (i : Int) : F32 := roundTo (decide (i < 0)) (i.natAbs * unitsPerOne) 1

/-- R10: the integer at or below a finite value. -/
def floorI (v : F32) : Int := intOf v / (unitsPerOne : Int)

/-- R10: the integer at or above a finite value. -/
def ceilI (v : F32) : Int := -((-(intOf v)) / (unitsPerOne : Int))

/-- 40_lifecycle_sys.md R105, the clamp of every setter. A NaN gives the lower bound. -/
def fclamp (v lo hi : F32) : F32 :=
  if isNaN v then lo else if flt v lo then lo else if flt hi v then hi else v

/-- 46_quantizer.md R294: the exact remainder with truncated quotient, with the sign of `a`. -/
def fmodf (a b : F32) : F32 := roundTo (isNeg a) (unitsOf a % unitsOf b) 1

/-- One step of the bitwise integer square root: keep bit `i` when the square still fits. -/
def isqrtBits (n : Nat) : Nat → Nat → Nat
  | 0, acc => acc
  | i + 1, acc => isqrtBits n i (if (acc + 2 ^ i) * (acc + 2 ^ i) ≤ n then acc + 2 ^ i else acc)

/-- The integer square root of a number below 2^428 (the largest one `fsqrt` asks for is below 2^427). -/
def isqrt (n : Nat) : Nat := isqrtBits n 214 0

/-- The pattern nearest to the square root of `n` units: the root is taken to a whole number of units, a marker half
unit stands for a non-zero remainder, and the quantum is far above one unit, so one rounding decides. -/
def sqrtMag (n : Nat) : Nat :=
  let x := n * unitsPerOne
  let r := isqrt x
  roundMag (2 * r + (if r * r = x then 0 else 1)) 2

-- The literals of the rules, each the binary32 nearest to the decimal in its name's comment.
/-- 0.0 -/ def f0 : F32 := 0x00000000
/-- 0.5 -/ def fHalf : F32 := 0x3F000000
/-- 1.0 -/ def f1 : F32 := 0x3F800000
/-- -1.0 -/ def fm1 : F32 := 0xBF800000
/-- 2.0 -/ def f2 : F32 := 0x40000000
/-- -2.0 -/ def fm2 : F32 := 0xC0000000
/-- 3.0 -/ def f3 : F32 := 0x40400000
/-- 4.0 -/ def f4 : F32 := 0x40800000
/-- 5.0 -/ def f5 : F32 := 0x40A00000
/-- 15.0 -/ def f15 : F32 := 0x41700000
/-- 40.0 -/ def f40 : F32 := 0x42200000
/-- 100.0 -/ def f100 : F32 := 0x42C80000
/-- 1000.0 -/ def f1000 : F32 := 0x447A0000
/-- 1200.0 -/ def f1200 : F32 := 0x44960000
/-- 0.1 -/ def f0p1 : F32 := 0x3DCCCCCD
/-- 0.8 -/ def f0p8 : F32 := 0x3F4CCCCD
/-- 0.95 -/ def f0p95 : F32 := 0x3F733333
/-- 1.05 -/ def f1p05 : F32 := 0x3F866666
/-- 1.1 -/ def f1p1 : F32 := 0x3F8CCCCD
/-- 1.2 -/ def f1p2 : F32 := 0x3F99999A
/-- `PI` of R108 -/ def fPi : F32 := 0x40490FDB
/-- `TWO_PI` of R108 -/ def fTwoPi : F32 := 0x40C90FDB

end Sys2Proof.Machine
end

