-- ==== Sys2Proof/Machine/NumWitness.lean ====
section
/-! DEFINITION. Functions that meet the named properties of 40_lifecycle_sys.md R108, with their proofs: they show that the properties can hold together, so that the opaque record `Config.num` exists. They are
not the hardware's functions and nothing can be proved from them about `Config.num`. `tuningGap`
alone is part of a property; `tableWitness` is for the tables of `Config.Open`. -/

namespace Sys2Proof.Config

open Sys2Proof.Machine


/-- A sign function, for T1 to T5. -/
def tanhWitness (x : F32) : F32 := if isNaN x then x else if isZero x then x else if isNeg x then fm1 else f1
/-- For S1 to S3. -/
def sinWitness (x : F32) : F32 := if isFinite x then (if isZero x then x else f0) else 0x7FC00000
/-- For S1 to S3. -/
def cosWitness (x : F32) : F32 := if isFinite x then f1 else 0x7FC00000
/-- For A1 and A2. -/
def atan2Witness (y x : F32) : F32 :=
  if isNaN y || isNaN x then 0x7FC00000 else if isZero y && flt f0 x then y else f0
/-- A step function, for E1 to E4. -/
def exp2Witness (x : F32) : F32 :=
  if isNaN x then x else if fle f1 x then f2 else if fle f0 x then f1 else if fle fm1 x then fHalf
  else if fle 0xC2FC0000 x then 0x00800000 else f0
/-- For L1 to L3. -/
def log2Witness (x : F32) : F32 :=
  if isNaN x then x else if isZero x then 0xFF800000 else if isNeg x then 0x7FC00000 else if x = f2 then f1 else f0
/-- For W1 and W2. -/
def pow10Witness (_ : F32) : F32 := f1
/-- 2^-7 cents, half an ulp of the largest values the quantizer answers (46_quantizer.md R306). -/
def tuningGap : F32 := 0x3C000000
/-- Twelve steps of 100 cents, for 46_quantizer.md R293, R296 and R306. -/
def tableWitness (k : Nat) : F32 := toF32 (100 * (k : Int))
/-- For P1 to P3. -/
def wrapPiWitness (r : F32) : F32 :=
  if isFinite r then (if flt (fneg fPi) r && fle r fPi then r else f0) else 0x7FC00000

theorem tanhWitness_range (x : F32) (h : isNaN x = false) : fle fm1 (tanhWitness x) = true ∧ fle (tanhWitness x) f1 = true := by
  unfold tanhWitness
  split
  · simp_all
  split
  · rename_i hz
    simp only [isZero, decide_eq_true_eq] at hz
    have hk : key x = 0 := by unfold key; split <;> simp [hz]
    have hm : key fm1 ≤ 0 := by decide
    have hp : (0 : Int) ≤ key f1 := by decide
    have hn : isNaN fm1 = false := by decide
    have hn' : isNaN f1 = false := by decide
    simp [fle, h, hk, hm, hp, hn, hn']
  · split <;> decide

theorem tanhWitness_mono (x y : F32) (h : fle x y = true) : fle (tanhWitness x) (tanhWitness y) = true := by
  have hn : isNaN fm1 = false := by decide
  have hn' : isNaN f1 = false := by decide
  have km : key fm1 = -0x3F800000 := by decide
  have kp : key f1 = 0x3F800000 := by decide
  simp only [fle, Bool.and_eq_true, Bool.not_eq_true', decide_eq_true_eq] at h
  obtain ⟨⟨hx, hy⟩, hk⟩ := h
  unfold tanhWitness
  simp only [hx, hy, isZero, decide_eq_true_eq, Bool.false_eq_true, ↓reduceIte]
  unfold key at hk
  (repeat' split) <;> simp_all [fle, key]
  omega

theorem tanhWitness_odd (x : F32) (h : isNaN x = false) : tanhWitness (fneg x) = fneg (tanhWitness x) := by
  have hmag : magOf (fneg x) = magOf x := by
    simp only [magOf, fneg, mkF, BitVec.toNat_ofNat]; split <;> omega
  have hneg : isNeg (fneg x) = !isNeg x := by
    simp only [isNeg, fneg, mkF, magOf, BitVec.toNat_ofNat]
    by_cases hb : 0x80000000 ≤ x.toNat <;> simp [hb] <;> omega
  have h' : isNaN (fneg x) = false := by simpa [isNaN, hmag] using h
  unfold tanhWitness
  simp only [h, h', isZero, hmag, hneg, Bool.false_eq_true, ↓reduceIte, decide_eq_true_eq]
  split
  · rfl
  · cases isNeg x <;> simp <;> decide

theorem sinWitness_range (x : F32) (h : isFinite x = true) : fle fm1 (sinWitness x) = true ∧ fle (sinWitness x) f1 = true := by
  unfold sinWitness
  rw [if_pos h]
  split
  · rename_i hz
    have hz' : magOf x = 0 := by simpa [isZero] using hz
    have hk : key x = 0 := by unfold key; split <;> simp [hz']
    have hx : isNaN x = false := by simp [isNaN, hz']
    have hm : key fm1 ≤ 0 := by decide
    have hp : (0 : Int) ≤ key f1 := by decide
    have hn : isNaN fm1 = false := by decide
    have hn' : isNaN f1 = false := by decide
    simp [fle, hx, hk, hm, hp, hn, hn']
  · decide

theorem atan2Witness_range (y x : F32) (hy : isNaN y = false) (hx : isNaN x = false) :
    fle (fneg fPi) (atan2Witness y x) = true ∧ fle (atan2Witness y x) fPi = true := by
  unfold atan2Witness
  simp only [hy, hx, Bool.or_self, Bool.false_eq_true, ↓reduceIte]
  split
  · rename_i hz
    have hz' : magOf y = 0 := by
      simp only [isZero, Bool.and_eq_true, decide_eq_true_eq] at hz; exact hz.1
    have hk : key y = 0 := by unfold key; split <;> simp [hz']
    have hm : key (fneg fPi) ≤ 0 := by decide
    have hp : (0 : Int) ≤ key fPi := by decide
    have hn : isNaN (fneg fPi) = false := by decide
    have hn' : isNaN fPi = false := by decide
    simp [fle, hy, hk, hm, hp, hn, hn']
  · decide

theorem exp2Witness_nonneg (x : F32) (h : isNaN x = false) : fle f0 (exp2Witness x) = true := by
  unfold exp2Witness
  simp only [h, Bool.false_eq_true, ↓reduceIte]
  repeat' split
  all_goals decide

theorem exp2Witness_pos (x : F32) (h : fle 0xC2FC0000 x = true) : flt f0 (exp2Witness x) = true := by
  have hx : isNaN x = false := by
    simp only [fle, Bool.and_eq_true, Bool.not_eq_true'] at h; exact h.1.2
  unfold exp2Witness
  simp only [hx, h, Bool.false_eq_true, ↓reduceIte]
  repeat' split
  all_goals decide

theorem exp2Witness_mono (x y : F32) (h : fle x y = true) : fle (exp2Witness x) (exp2Witness y) = true := by
  simp only [fle, Bool.and_eq_true, Bool.not_eq_true', decide_eq_true_eq] at h
  obtain ⟨⟨hx, hy⟩, hk⟩ := h
  have t (c : F32) (hc : fle c x = true) : fle c y = true := by
    simp only [fle, Bool.and_eq_true, Bool.not_eq_true', decide_eq_true_eq] at hc ⊢
    exact ⟨⟨hc.1.1, hy⟩, Int.le_trans hc.2 hk⟩
  unfold exp2Witness
  simp only [hx, hy, Bool.false_eq_true, ↓reduceIte]
  repeat' split
  all_goals first
    | decide
    | exact absurd (t _ (by assumption)) (by assumption)

theorem log2Witness_finite (x : F32) (_ : isFinite x = true) (hp : flt f0 x = true) : isFinite (log2Witness x) = true := by
  have hk : 0 < key x := by
    simp only [flt, Bool.and_eq_true, decide_eq_true_eq] at hp
    have : key f0 = 0 := by decide
    omega
  have hn : isNaN x = false := by
    simp only [flt, Bool.and_eq_true, Bool.not_eq_true'] at hp; exact hp.1.2
  have hneg : isNeg x = false := by
    unfold key at hk
    cases hh : isNeg x
    · rfl
    · simp only [hh, ↓reduceIte] at hk; omega
  have hz : isZero x = false := by
    simp only [key, hneg, Bool.false_eq_true, ↓reduceIte] at hk
    simp only [isZero, decide_eq_false_iff_not]; omega
  unfold log2Witness
  simp only [hn, hz, hneg, Bool.false_eq_true, ↓reduceIte]
  split <;> decide

theorem wrapPiWitness_range (r : F32) (h : isFinite r = true) :
    fle (fneg fPi) (wrapPiWitness r) = true ∧ fle (wrapPiWitness r) fPi = true := by
  unfold wrapPiWitness
  rw [if_pos h]
  split
  · rename_i hz
    simp only [Bool.and_eq_true] at hz
    refine ⟨?_, hz.2⟩
    have hz := hz.1
    simp only [flt, fle, Bool.and_eq_true, Bool.not_eq_true', decide_eq_true_eq] at hz ⊢
    exact ⟨hz.1, by omega⟩
  · decide

theorem tanhWitness_pos_zero : tanhWitness f0 = f0 := by
  decide

theorem tanhWitness_neg_zero : tanhWitness 0x80000000 = 0x80000000 := by
  decide

theorem tanhWitness_pos_inf : tanhWitness 0x7F800000 = f1 := by
  decide

theorem tanhWitness_neg_inf : tanhWitness 0xFF800000 = fm1 := by
  decide

theorem tanhWitness_nan : ∀ x, isNaN x = true → isNaN (tanhWitness x) = true := by
  intro x h; show isNaN (tanhWitness x) = true; simp only [tanhWitness, h, if_true]

theorem sinWitness_pos_zero : sinWitness f0 = f0 := by
  decide

theorem sinWitness_neg_zero : sinWitness 0x80000000 = 0x80000000 := by
  decide

theorem cosWitness_zero : ∀ x, isZero x = true → cosWitness x = f1 := by
  intro x h
  show cosWitness x = f1
  have : isFinite x = true := by simp only [isZero, isFinite, decide_eq_true_eq] at *; omega
  simp only [cosWitness, this, if_true]

theorem cosWitness_range : ∀ x, isFinite x = true → fle fm1 (cosWitness x) = true ∧ fle (cosWitness x) f1 = true := by
  intro x h
  show fle fm1 (cosWitness x) = true ∧ fle (cosWitness x) f1 = true
  simp only [cosWitness, h, if_true]; decide

theorem sinWitness_nan : ∀ x, isFinite x = false → isNaN (sinWitness x) = true := by
  intro x h
  show isNaN (sinWitness x) = true
  simp only [sinWitness, h, Bool.false_eq_true, if_false]; decide

theorem cosWitness_nan : ∀ x, isFinite x = false → isNaN (cosWitness x) = true := by
  intro x h
  show isNaN (cosWitness x) = true
  simp only [cosWitness, h, Bool.false_eq_true, if_false]; decide

theorem atan2Witness_zero : ∀ y x, isZero y = true → flt f0 x = true → atan2Witness y x = y := by
  intro y x hy hx
  show atan2Witness y x = y
  have hn : isNaN x = false := by simp only [flt, Bool.and_eq_true, Bool.not_eq_true'] at hx; exact hx.1.2
  have hm : isNaN y = false := by simp only [isZero, isNaN, decide_eq_true_eq, decide_eq_false_iff_not] at *; omega
  simp [atan2Witness, hn, hm, hy, hx]

theorem atan2Witness_origin : atan2Witness f0 f0 = f0 := by
  decide

theorem atan2Witness_nan : ∀ y x, (isNaN y || isNaN x) = true → isNaN (atan2Witness y x) = true := by
  intro y x h
  show isNaN (atan2Witness y x) = true
  simp only [atan2Witness, h, if_true]; decide

theorem exp2Witness_zero : ∀ x, isZero x = true → exp2Witness x = f1 := by
  intro x h
  show exp2Witness x = f1
  have hz : magOf x = 0 := by simpa [isZero] using h
  have hn : isNaN x = false := by simp [isNaN, hz]
  have hk : key x = 0 := by unfold key; split <;> simp [hz]
  have h1 : fle f1 x = false := by
    have : key f1 = 0x3F800000 := by decide
    simp [fle, hk, this]
  have h0 : fle f0 x = true := by
    have h : isNaN f0 = false := by decide
    have : key f0 = 0 := by decide
    simp [fle, hk, this, hn, h]
  simp [exp2Witness, hn, h1, h0]

theorem exp2Witness_one : exp2Witness f1 = f2 := by
  decide

theorem exp2Witness_neg_one : exp2Witness fm1 = fHalf := by
  decide

theorem exp2Witness_nan : ∀ x, isNaN x = true → isNaN (exp2Witness x) = true := by
  intro x h; show isNaN (exp2Witness x) = true; simp only [exp2Witness, h, if_true]

theorem log2Witness_one : log2Witness f1 = f0 := by
  decide

theorem log2Witness_two : log2Witness f2 = f1 := by
  decide

theorem log2Witness_nan : ∀ x, (isNaN x || flt x f0) = true → isNaN (log2Witness x) = true := by
  intro x h
  show isNaN (log2Witness x) = true
  simp only [Bool.or_eq_true] at h
  rcases h with h | h
  · simp only [log2Witness, h, if_true]
  · have hn : isNaN x = false := by simp only [flt, Bool.and_eq_true, Bool.not_eq_true'] at h; exact h.1.1
    have hk : key x < 0 := by
      simp only [flt, Bool.and_eq_true, decide_eq_true_eq] at h
      have : key f0 = 0 := by decide
      omega
    have hneg : isNeg x = true := by
      unfold key at hk
      cases hh : isNeg x
      · simp only [hh, Bool.false_eq_true, if_false] at hk; omega
      · rfl
    have hz : isZero x = false := by
      simp only [key, hneg, if_true] at hk
      simp only [isZero, decide_eq_false_iff_not]; omega
    simp only [log2Witness, hn, hz, hneg, if_true, Bool.false_eq_true, if_false]; decide

theorem log2Witness_zero : ∀ x, isZero x = true → log2Witness x = 0xFF800000 := by
  intro x h
  show log2Witness x = 0xFF800000
  have hn : isNaN x = false := by simp only [isZero, isNaN, decide_eq_true_eq, decide_eq_false_iff_not] at *; omega
  simp [log2Witness, hn, h]

theorem pow10Witness_zero : ∀ x, isZero x = true → pow10Witness x = f1 := by
  intro x _; rfl

theorem pow10Witness_pos : ∀ x, fle fm2 x = true → fle x f2 = true → flt f0 (pow10Witness x) = true := by
  intro x _ _; show flt f0 f1 = true; decide

theorem wrapPiWitness_id : ∀ r, flt (fneg fPi) r = true → fle r fPi = true → wrapPiWitness r = r := by
  intro r h1 h2
  show wrapPiWitness r = r
  have hk := h1
  have hk' := h2
  simp only [flt, fle, Bool.and_eq_true, decide_eq_true_eq] at hk hk'
  have hl : key (fneg fPi) = -0x40490FDB := by decide
  have hh : key fPi = 0x40490FDB := by decide
  have : isFinite r = true := by
    have e : key r = if isNeg r then -(magOf r : Int) else (magOf r : Int) := rfl
    simp only [isFinite, decide_eq_true_eq]
    split at e <;> omega
  simp [wrapPiWitness, this, h1, h2]

theorem wrapPiWitness_nan : ∀ r, isFinite r = false → isNaN (wrapPiWitness r) = true := by
  intro r h
  show isNaN (wrapPiWitness r) = true
  simp only [wrapPiWitness, h, Bool.false_eq_true, if_false]; decide

theorem tableWitness_range : ∀ k, k ≤ 11 → fle f0 (tableWitness k) = true ∧ flt (tableWitness k) f1200 = true := by
  decide

theorem tableWitness_ascending : ∀ k, k < 11 → flt (tableWitness k) (tableWitness (k + 1)) = true := by decide

theorem tableWitness_apart : ∀ k, k < 11 →
    intOf tuningGap < intOf (tableWitness (k + 1)) - intOf (tableWitness k) := by decide

theorem tableWitness_closure : intOf tuningGap < intOf f1200 - intOf (tableWitness 11) := by decide

end Sys2Proof.Config
end

