-- ==== Sys2Proof/Config.lean ====
section
/-! DEFINITION. What an implementation fixes and what the spec leaves open: the draws (60_exceptions.md R362), the answers of
the `AUTH` port (46_quantizer.md R318), the numerics record `NUM` (40_lifecycle_sys.md R108) and the parameters of
00_scope.md R7. A parameter with a default has it; an OPEN one is a field of an opaque record of which only the named
constraints can be used. -/

namespace Sys2Proof.Config

open Sys2Proof.Machine

/-- The free bits behind every `draw(S)` (R362, R107), by the step's index and the place in the step (log 3, log 4);
one constant for every instance (log 24). -/
opaque drawBits : Nat → List Nat → BitVec 32

/-- The answers of `AUTH.isConnected()`, by step index and place (R318, log 10), for every instance (log 24). -/
opaque authConnected : Nat → List Nat → Bool

/-- The answers of `AUTH.retuningInSemitones(note)`: any F32 pattern (R318, log 10), for every instance (log 24). -/
opaque authRetuning : Nat → List Nat → BitVec 32 → BitVec 32

/-- 40_lifecycle_sys.md R108: the numerics record `NUM`, total functions of their arguments alone, with the named
properties the rules rely on and no other (log 9): of the transform, only that it is a function of its argument (D1, D2). `dft x k` is bin `k` of the forward transform of the samples `x`;
`idftReal S n` is sample `n` of the inverse transform of the bins `S`, each a pair (re, im). -/
structure Num where
  tanh : F32 → F32 := tanhWitness
  sin : F32 → F32 := sinWitness
  cos : F32 → F32 := cosWitness
  atan2 : F32 → F32 → F32 := atan2Witness
  exp2 : F32 → F32 := exp2Witness
  log2 : F32 → F32 := log2Witness
  pow10 : F32 → F32 := pow10Witness
  wrapPi : F32 → F32 := wrapPiWitness
  dft : List F32 → Nat → F32 × F32 := fun _ _ => (f0, f0)
  idftReal : List (F32 × F32) → Nat → F32 := fun _ _ => f0
  /-- T1 -/
  tanh_pos_zero : tanh f0 = f0 := by exact tanhWitness_pos_zero
  /-- T1 -/
  tanh_neg_zero : tanh 0x80000000 = 0x80000000 := by exact tanhWitness_neg_zero
  /-- T2 -/
  tanh_range : ∀ x, isNaN x = false → fle fm1 (tanh x) = true ∧ fle (tanh x) f1 = true := by exact tanhWitness_range
  /-- T2 -/
  tanh_pos_inf : tanh 0x7F800000 = f1 := by exact tanhWitness_pos_inf
  /-- T2 -/
  tanh_neg_inf : tanh 0xFF800000 = fm1 := by exact tanhWitness_neg_inf
  /-- T3 -/
  tanh_nan : ∀ x, isNaN x = true → isNaN (tanh x) = true := by exact tanhWitness_nan
  /-- T4 -/
  tanh_mono : ∀ x y, fle x y = true → fle (tanh x) (tanh y) = true := by exact tanhWitness_mono
  /-- T5 (on arguments that are not NaN) -/
  tanh_odd : ∀ x, isNaN x = false → tanh (fneg x) = fneg (tanh x) := by exact tanhWitness_odd
  /-- S1 -/
  sin_pos_zero : sin f0 = f0 := by exact sinWitness_pos_zero
  /-- S1 -/
  sin_neg_zero : sin 0x80000000 = 0x80000000 := by exact sinWitness_neg_zero
  /-- S1 -/
  cos_zero : ∀ x, isZero x = true → cos x = f1 := by exact cosWitness_zero
  /-- S2 -/
  sin_range : ∀ x, isFinite x = true → fle fm1 (sin x) = true ∧ fle (sin x) f1 = true := by exact sinWitness_range
  /-- S2 -/
  cos_range : ∀ x, isFinite x = true → fle fm1 (cos x) = true ∧ fle (cos x) f1 = true := by exact cosWitness_range
  /-- S3 -/
  sin_nan : ∀ x, isFinite x = false → isNaN (sin x) = true := by exact sinWitness_nan
  /-- S3 -/
  cos_nan : ∀ x, isFinite x = false → isNaN (cos x) = true := by exact cosWitness_nan
  /-- A1 -/
  atan2_range : ∀ y x, isNaN y = false → isNaN x = false → fle (fneg fPi) (atan2 y x) = true ∧ fle (atan2 y x) fPi = true := by exact atan2Witness_range
  /-- A1 -/
  atan2_zero : ∀ y x, isZero y = true → flt f0 x = true → atan2 y x = y := by exact atan2Witness_zero
  /-- A1 -/
  atan2_origin : atan2 f0 f0 = f0 := by exact atan2Witness_origin
  /-- A2 -/
  atan2_nan : ∀ y x, (isNaN y || isNaN x) = true → isNaN (atan2 y x) = true := by exact atan2Witness_nan
  /-- E1 -/
  exp2_zero : ∀ x, isZero x = true → exp2 x = f1 := by exact exp2Witness_zero
  /-- E1 -/
  exp2_one : exp2 f1 = f2 := by exact exp2Witness_one
  /-- E1 -/
  exp2_neg_one : exp2 fm1 = fHalf := by exact exp2Witness_neg_one
  /-- E2 -/
  exp2_nonneg : ∀ x, isNaN x = false → fle f0 (exp2 x) = true := by exact exp2Witness_nonneg
  /-- E2: above zero from -126.0 (0xC2FC0000) on -/
  exp2_pos : ∀ x, fle 0xC2FC0000 x = true → flt f0 (exp2 x) = true := by exact exp2Witness_pos
  /-- E3 -/
  exp2_mono : ∀ x y, fle x y = true → fle (exp2 x) (exp2 y) = true := by exact exp2Witness_mono
  /-- E4 -/
  exp2_nan : ∀ x, isNaN x = true → isNaN (exp2 x) = true := by exact exp2Witness_nan
  /-- L1 -/
  log2_one : log2 f1 = f0 := by exact log2Witness_one
  /-- L1 -/
  log2_two : log2 f2 = f1 := by exact log2Witness_two
  /-- L2 -/
  log2_finite : ∀ x, isFinite x = true → flt f0 x = true → isFinite (log2 x) = true := by exact log2Witness_finite
  /-- L3 -/
  log2_nan : ∀ x, (isNaN x || flt x f0) = true → isNaN (log2 x) = true := by exact log2Witness_nan
  /-- L3 -/
  log2_zero : ∀ x, isZero x = true → log2 x = 0xFF800000 := by exact log2Witness_zero
  /-- W1 -/
  pow10_zero : ∀ x, isZero x = true → pow10 x = f1 := by exact pow10Witness_zero
  /-- W2 -/
  pow10_pos : ∀ x, fle fm2 x = true → fle x f2 = true → flt f0 (pow10 x) = true := by exact pow10Witness_pos
  /-- P1 -/
  wrapPi_range : ∀ r, isFinite r = true → fle (fneg fPi) (wrapPi r) = true ∧ fle (wrapPi r) fPi = true := by exact wrapPiWitness_range
  /-- P2 -/
  wrapPi_id : ∀ r, flt (fneg fPi) r = true → fle r fPi = true → wrapPi r = r := by exact wrapPiWitness_id
  /-- P3 -/
  wrapPi_nan : ∀ r, isFinite r = false → isNaN (wrapPi r) = true := by exact wrapPiWitness_nan
deriving Inhabited

/-- The numerics record of this hardware: nothing but its named properties is known (R108, log 9). -/
opaque num : Num

/-- What the inverse transform over the reals uses of the bins `S[0..Nf/2]` (43_pitchshifter.md R185): every real part, and
every imaginary part but those of the first and the last bin. For the two hypotheses below. -/
def idftParts (S : List (F32 × F32)) : List F32 := S.map Prod.fst ++ S.tail.dropLast.map Prod.snd

/-- A named HYPOTHESIS about the inverse transform, for claims that need it (R108); the model does not assume it (log 9).
A NaN in a part the transform uses makes every sample NaN, as test vector V-PS7 of 95_test_vectors.md presumes. -/
def IdftPropagatesNaN : Prop := ∀ S n, (idftParts S).any isNaN = true → isNaN (num.idftReal S n) = true

/-- The stronger named HYPOTHESIS for infinities as well, not assumed either (log 9): no sample is finite. -/
def IdftPropagatesNonFinite : Prop :=
  ∀ S n, (idftParts S).all isFinite = false → isFinite (num.idftReal S n) = false

/-! ### Parameters with a default (R7): this hardware takes the default (log 7) -/

/-- `SR_MIN` = 1000.0 -/
def srMin : F32 := 0x447A0000
/-- `SR_MAX` = 768000.0 -/
def srMax : F32 := 0x493B8000
/-- `MAX_DELAY_MS` = 2000.0 -/
def maxDelayMs : F32 := 0x44FA0000
/-- `DL_RAM_DEPTH` -/
def dlRamDepth : Nat := 1536001
/-- `TP_MAX_DELAY_MS` = 2000.0 -/
def tpMaxDelayMs : F32 := 0x44FA0000
/-- `TP_RAM_DEPTH` -/
def tpRamDepth : Nat := 1843202
/-- `FFT_SIZE`, abbreviated `Nf` in the PS rules -/
def fftSize : Nat := 2048
/-- `HOP` = `FFT_SIZE / 4` -/
def hop : Nat := 512
/-- `PITCH_CENTS_MIN` = -2400.0 -/
def pitchCentsMin : F32 := 0xC5160000
/-- `PITCH_CENTS_MAX` = 2400.0 -/
def pitchCentsMax : F32 := 0x45160000
/-- `DRIFT_RATE_MAX` = 10.0 -/
def driftRateMax : F32 := 0x41200000
/-- `DRIFT_DEPTH_MAX` = 50.0 -/
def driftDepthMax : F32 := 0x42480000
/-- `BQ_F_MIN` = 10.0 -/
def bqFMin : F32 := 0x41200000
/-- `BQ_F_MAX_FRAC` = 0.49 -/
def bqFMaxFrac : F32 := 0x3EFAE148
/-- `BQ_Q_MIN` = 0.1 -/
def bqQMin : F32 := 0x3DCCCCCD
/-- `BQ_Q_MAX` = 20.0 -/
def bqQMax : F32 := 0x41A00000
/-- `BQ_GAIN_MIN_DB` = -24.0 -/
def bqGainMinDb : F32 := 0xC1C00000
/-- `BQ_GAIN_MAX_DB` = 24.0 -/
def bqGainMaxDb : F32 := 0x41C00000
/-- `WF_DEPTH_MAX` = 0.1 -/
def wfDepthMax : F32 := 0x3DCCCCCD
/-- `SAT_DRIVE_MAX` = 10.0 -/
def satDriveMax : F32 := 0x41200000
/-- `INST_MAX` = 0.05 -/
def instMax : F32 := 0x3D4CCCCD
/-- `SCALE_MAX_ENTRIES` -/
def scaleMaxEntries : Nat := 128
/-- `SCL_BUF_BYTES` -/
def sclBufBytes : Nat := 65536
/-- `DESC_MAX_BYTES` -/
def descMaxBytes : Nat := 255
/-- `QUANT_CENTS_MAX` = 153600.0 -/
def quantCentsMax : F32 := 0x48160000
/-- `AUTH_REF_NOTE` = 60.0 -/
def authRefNote : F32 := 0x42700000
/-- `AUTH_POLL_PERIOD` -/
def authPollPeriod : Nat := 64

/-! ### OPEN parameters (R7; 92_eei_decisions.md section 9): opaque, with R7's constraints (log 8) -/

/-- In `[lo, hi]`. -/
def within (lo hi v : F32) : Bool := fle lo v && fle v hi

/-- Finite and at least zero. -/
def level (v : F32) : Bool := isFinite v && fle f0 v

/-- A rate of an LFO: R7's "finite, ≥ 0", and below `SR_MIN` as 40_lifecycle_sys.md R112 says of every rate of the block. -/
def lfoRate (v : F32) : Bool := level v && flt v srMin

/-- Every OPEN value and function of R7 but `NUM`. The defaults written here only show that the constraints can be met:
`Config.params` below is opaque. -/
structure Open where
  /-- `PRE_EMPH_FREQ`. R7's "in the BQ ranges" has no top here: the range ends at a fraction of a sample rate that the
  parameter does not know, and every configure clamps to it (42_biquad.md R152). DESIGN CHOICE (log 22): finite and at
  least `BQ_F_MIN`, no other bound. -/
  preEmphFreq : F32 := bqFMin
  /-- `PRE_EMPH_GAIN_DB` -/
  preEmphGainDb : F32 := f0
  /-- `PRE_EMPH_Q` -/
  preEmphQ : F32 := f1
  /-- `HB_DEFAULT_FREQ`, bounded as `PRE_EMPH_FREQ` is (DESIGN CHOICE, log 22). -/
  hbFreq : F32 := bqFMin
  /-- `HB_DEFAULT_GAIN_DB` -/
  hbGainDb : F32 := f0
  /-- `HB_DEFAULT_Q` -/
  hbQ : F32 := f1
  /-- `ROLL_DEFAULT_FREQ`, bounded as `PRE_EMPH_FREQ` is (DESIGN CHOICE, log 22). -/
  rollFreq : F32 := bqFMin
  /-- `ROLL_DEFAULT_Q` -/
  rollQ : F32 := f1
  /-- `HEAD_DELAY_MS[k][h]` -/
  headDelayMs : Fin 4 → Fin 4 → F32 := fun k h => if h ≤ k then f1 else f0
  /-- `headCombine(k, ch, t0, t1, t2, t3)` -/
  headCombine : Nat → Chan → F32 → F32 → F32 → F32 → F32 := fun _ _ t _ _ _ => t
  /-- `JITTER_MAX` -/
  jitterMax : F32 := f0
  /-- `RW_STEP` -/
  rwStep : F32 := f0
  /-- `ageCoef(a2, sr)` -/
  ageCoef : F32 → F32 → F32 := fun _ _ => f1
  /-- `ageDropProb(a)` -/
  ageDropProb : F32 → F32 := fun _ => f0
  /-- `AGE_DROP_GAIN` -/
  ageDropGain : F32 := f0
  /-- `AGE_DROP_LEN` -/
  ageDropLen : Nat := 1
  /-- `INST_RATE_AMP`. R7's word "slow" has no threshold: DESIGN CHOICE (log 22), no bound but `lfoRate`. -/
  instRateAmp : F32 := f0
  /-- `INST_RATE_SPEED`, as `INST_RATE_AMP` (DESIGN CHOICE, log 22). -/
  instRateSpeed : F32 := f0
  /-- `instDropProb(i)` -/
  instDropProb : F32 → F32 := fun _ => f0
  /-- Where an instability amount begins to be "high" (R7: the probability is 0 below it). The spec gives no number: the
  threshold is open too (log 8). -/
  instDropHigh : F32 := fHalf
  /-- `INST_DROP_LEN` -/
  instDropLen : Nat := 1
  /-- `HUM_FREQ` -/
  humFreq : F32 := f0
  /-- `HUM_LEVEL[0..2]` -/
  humLevel : Fin 3 → F32 := fun _ => f0
  /-- `RUMBLE_FREQ` -/
  rumbleFreq : F32 := f0
  /-- `RUMBLE_LEVEL` -/
  rumbleLevel : F32 := f0
  /-- `PINK_LEVEL` -/
  pinkLevel : F32 := f0
  /-- `ARTIFACT_PROB` -/
  artifactProb : F32 := f0
  /-- `ARTIFACT_LEVEL` -/
  artifactLevel : F32 := f0
  /-- `NOISE_CLAMP`. R7's "a small fixed fraction of full scale" bounds it by full scale, 1.0; "small" has no threshold:
  DESIGN CHOICE (log 22), no smaller bound. -/
  noiseClamp : F32 := fHalf
  /-- `DECORR_RATE` -/
  decorrRate : F32 := f0
  /-- `DECORR_DEPTH`. R7's word "small" has no threshold: DESIGN CHOICE (log 22), finite and no other bound. -/
  decorrDepth : F32 := f0
  /-- `DECORR_OFFSET[ch]` -/
  decorrOffset : Chan → F32 := fun _ => f0
  /-- `TUNING_TABLE[id][k]`, id in 7..10 -/
  tuningTable : Nat → Nat → F32 := fun _ k => tableWitness k
  pre_emph_freq_legal : isFinite preEmphFreq = true ∧ fle bqFMin preEmphFreq = true := by decide
  pre_emph_gain_legal : within f0 bqGainMaxDb preEmphGainDb = true := by decide
  pre_emph_q_legal : within bqQMin bqQMax preEmphQ = true := by decide
  hb_freq_legal : isFinite hbFreq = true ∧ fle bqFMin hbFreq = true := by decide
  hb_gain_legal : within bqGainMinDb bqGainMaxDb hbGainDb = true := by decide
  hb_q_legal : within bqQMin bqQMax hbQ = true := by decide
  roll_freq_legal : isFinite rollFreq = true ∧ fle bqFMin rollFreq = true := by decide
  roll_q_legal : within bqQMin bqQMax rollQ = true := by decide
  /-- R224, R227: an enabled head's delay is in range. -/
  head_delay_enabled : ∀ k h : Fin 4, h ≤ k → within f1 tpMaxDelayMs (headDelayMs k h) = true := by decide
  /-- R224, R227: a head above the configuration is disabled. -/
  head_delay_disabled : ∀ k h : Fin 4, k < h → headDelayMs k h = f0 := by decide
  /-- R227: "single = one head". -/
  head_combine_single : ∀ c t0 t1 t2 t3, headCombine 0 c t0 t1 t2 t3 = t0 := by intros; rfl
  /-- R227: configuration `k` does not depend on the heads above `k`. -/
  head_combine_above : ∀ k c t0 t1 t2 t3 u1 u2 u3,
    headCombine k c t0 t1 t2 t3 =
      headCombine k c t0 (if 1 ≤ k then t1 else u1) (if 2 ≤ k then t2 else u2) (if 3 ≤ k then t3 else u3) := by
    intros; rfl
  jitter_max_level : level jitterMax = true := by decide
  rw_step_level : level rwStep = true := by decide
  /-- R260: `0 < k ≤ 1`. -/
  age_coef_range : ∀ a2 sr, flt f0 (ageCoef a2 sr) = true ∧ fle (ageCoef a2 sr) f1 = true := by intros; decide
  age_drop_prob_range : ∀ a, within f0 f1 (ageDropProb a) = true := by intros; decide
  /-- R260: non-decreasing. -/
  age_drop_prob_mono : ∀ a b, fle a b = true → fle (ageDropProb a) (ageDropProb b) = true := by intros; decide
  /-- R260: no dropout starts at amount 0. -/
  age_drop_prob_zero : ageDropProb f0 = f0 := by rfl
  age_drop_gain_range : within f0 f1 ageDropGain = true := by decide
  age_drop_len_pos : 1 ≤ ageDropLen := by decide
  inst_rate_amp_slow : lfoRate instRateAmp = true := by decide
  inst_rate_speed_slow : lfoRate instRateSpeed = true := by decide
  inst_drop_prob_range : ∀ i, within f0 f1 (instDropProb i) = true := by intros; decide
  /-- R262: "even-rarer". -/
  inst_drop_prob_rarer : ∀ i, fle (instDropProb i) (ageDropProb i) = true := by intros; decide
  inst_drop_prob_zero : instDropProb f0 = f0 := by rfl
  inst_drop_high_pos : isFinite instDropHigh = true ∧ flt f0 instDropHigh = true := by decide
  /-- R7, R262: "0 unless i is high". -/
  inst_drop_prob_low : ∀ i, flt i instDropHigh = true → instDropProb i = f0 := by intros; rfl
  inst_drop_len_pos : 1 ≤ instDropLen := by decide
  hum_freq_rate : lfoRate humFreq = true := by decide
  hum_level_level : ∀ n, level (humLevel n) = true := by decide
  rumble_freq_rate : lfoRate rumbleFreq = true := by decide
  rumble_level_level : level rumbleLevel = true := by decide
  pink_level_level : level pinkLevel = true := by decide
  artifact_prob_level : level artifactProb = true := by decide
  artifact_level_level : level artifactLevel = true := by decide
  /-- R7, R264: positive, and a fraction of full scale. -/
  noise_clamp_fraction : flt f0 noiseClamp = true ∧ flt noiseClamp f1 = true := by decide
  /-- R7's "finite" within R112's domain. -/
  decorr_rate_rate : lfoRate decorrRate = true := by decide
  decorr_depth_finite : isFinite decorrDepth = true := by decide
  decorr_offset_finite : ∀ c, isFinite (decorrOffset c) = true := by intros; decide
  /-- R296: every table starts at the unison. -/
  tuning_table_unison : ∀ id, 7 ≤ id → id ≤ 10 → tuningTable id 0 = f0 := by intros; rfl
  /-- R7: entries in [0, 1200). -/
  tuning_table_range : ∀ id k, 7 ≤ id → id ≤ 10 → k ≤ 11 →
    fle f0 (tuningTable id k) = true ∧ flt (tuningTable id k) f1200 = true := by
    intro _ k _ _ hk; exact tableWitness_range k hk
  /-- 46_quantizer.md R293: "The built-in tables are ascending." -/
  tuning_table_ascending : ∀ id k, 7 ≤ id → id ≤ 10 → k < 11 →
    flt (tuningTable id k) (tuningTable id (k + 1)) = true := by
    intro _ k _ _ hk; exact tableWitness_ascending k hk
  /-- R306: the distinct entries of a built-in table are further apart than 2^-7 cents. -/
  tuning_table_apart : ∀ id k, 7 ≤ id → id ≤ 10 → k < 11 →
    intOf tuningGap < intOf (tuningTable id (k + 1)) - intOf (tuningTable id k) := by
    intro _ k _ _ hk; exact tableWitness_apart k hk
  /-- R306, for the last entry and the octave closure 1200.0 (R296). -/
  tuning_table_closure : ∀ id, 7 ≤ id → id ≤ 10 → intOf tuningGap < intOf f1200 - intOf (tuningTable id 11) := by
    intros; exact tableWitness_closure
deriving Inhabited

/-- The OPEN parameters of this hardware: only the constraints of R7 are known (log 8). -/
opaque params : Open

end Sys2Proof.Config
end

