-- ==== Sys2Proof/Machine/Arith.lean ====
section
/-! DEFINITION. Draws (60_exceptions.md R362) and the rounded binary32 operations (40_lifecycle_sys.md R106, R107), with
the phase accumulator of R112.

Every place of a step that may need a draw has its own `Draw`: the step's index and a path. A caller hands each operation
and each procedure it calls a path of its own (`d.at k` with a different `k`), so every draw of a run is a fresh free
value (log 3, log 4). -/

namespace Sys2Proof.Machine

/-- Where a draw is taken: the index of the step, and the place inside the step. -/
structure Draw where
  step : Nat
  path : List Nat
deriving DecidableEq, Repr

/-- The `k`-th place inside `d`. -/
def Draw.at (d : Draw) (k : Nat) : Draw := ⟨d.step, k :: d.path⟩

/-- `draw(S)` of R362: any member of `S`. The free bits are used when they lie in `S`; `dflt`, a member of `S`, stands for
the bit patterns outside it, so the result ranges over exactly `S`. -/
def draw (S : F32 → Bool) (dflt : F32) (d : Draw) : F32 :=
  let b := Config.drawBits d.step d.path
  if S b then b else dflt

/-- R107: a NaN of any sign and payload. -/
def drawNaN (d : Draw) : F32 := draw isNaN 0x7FC00000 d

/-- `draw({finite F32 in [-1.0, 1.0]})` (44_tape_heads_modulation.md R228, R230; 45_tape_process.md R264). -/
def drawBipolar (d : Draw) : F32 := draw (fun v => fle fm1 v && fle v f1) f0 d

/-- `draw({F32 in [0.0, 1.0)})` (45_tape_process.md R260, R262, R264). -/
def drawUnit (d : Draw) : F32 := draw (fun v => fle f0 v && flt v f1) f0 d

/-- `draw({-1.0, 1.0})` (45_tape_process.md R264). -/
def drawSign (d : Draw) : F32 := draw (fun v => v == fm1 || v == f1) f1 d

/-- A place for constant expressions whose operations never meet a NaN, so that no draw is taken there (log 11). -/
def noDraw : Draw := ⟨0, []⟩

/-- `a +f b` (R106). An exact zero sum is +0.0 unless both operands are negative. -/
def fadd (d : Draw) (a b : F32) : F32 :=
  if isNaN a || isNaN b then drawNaN d
  else if isInf a then (if isInf b && isNeg a != isNeg b then drawNaN d else a)
  else if isInf b then b
  else
    let sum := intOf a + intOf b
    if sum = 0 then mkF (isNeg a && isNeg b) 0 else roundTo (decide (sum < 0)) sum.natAbs 1

/-- `a -f b` (R106). -/
def fsub (d : Draw) (a b : F32) : F32 := fadd d a (fneg b)

/-- `a *f b` (R106). -/
def fmul (d : Draw) (a b : F32) : F32 :=
  let neg := isNeg a != isNeg b
  if isNaN a || isNaN b then drawNaN d
  else if isInf a || isInf b then (if isZero a || isZero b then drawNaN d else mkF neg 0x7F800000)
  else roundTo neg (unitsOf a * unitsOf b) unitsPerOne

/-- `a /f b` (R106): division by zero gives an infinity, 0/0 and Inf/Inf a NaN. -/
def fdiv (d : Draw) (a b : F32) : F32 :=
  let neg := isNeg a != isNeg b
  if isNaN a || isNaN b then drawNaN d
  else if isInf a then (if isInf b then drawNaN d else mkF neg 0x7F800000)
  else if isInf b then mkF neg 0
  else if isZero b then (if isZero a then drawNaN d else mkF neg 0x7F800000)
  else roundTo neg (unitsOf a * unitsPerOne) (unitsOf b)

/-- `sqrtf(a)` (R106, R107): a NaN for a negative non-zero value. -/
def fsqrt (d : Draw) (a : F32) : F32 :=
  if isNaN a then drawNaN d
  else if isZero a then a
  else if isNeg a then drawNaN d
  else if isInf a then a
  else mkF false (sqrtMag (unitsOf a))

/-- R112: one step of a phase accumulator, phases in cycles. -/
def phaseAdvance (d : Draw) (ph rate sr : F32) : F32 :=
  let p := fadd (d.at 0) ph (fdiv (d.at 1) rate sr)
  let p := if fle f1 p then fsub (d.at 2) p f1 else p
  if fle f0 p && flt p f1 then p else f0

/-- 45_tape_process.md R252: `guard(y, pre)`, the per-stage finite check. -/
def guardF (y pre : F32) : F32 := if isFinite y then y else pre

/-- `NUM.sin(TWO_PI *f ph)`, a sine LFO's value at phase `ph` cycles (R112). -/
def sineAt (d : Draw) (ph : F32) : F32 := Config.num.sin (fmul d fTwoPi ph)

/-- Milliseconds to samples, multiply first: `(ms *f sr) /f 1000.0` (41_delayline.md R123, 44_tape_heads_modulation.md R226). -/
def msToSamples (d : Draw) (ms sr : F32) : F32 := fdiv (d.at 0) (fmul (d.at 1) ms sr) f1000

end Sys2Proof.Machine
end

