-- ==== Sys2Proof/Machine/Tuning.lean ====
section
/-! DEFINITION. The built-in tunings (46_quantizer.md R296, R297). -/

namespace Sys2Proof.Machine

/-- The equal division of the octave in `n` steps (R296): `n` products and the literal 1200.0. -/
def edoScale (n : Nat) : List F32 :=
  (List.range n).map (fun (k : Nat) => fmul noDraw (toF32 k) (fdiv noDraw f1200 (toF32 n))) ++ [f1200]

/-- The divisions of identifiers 0 to 6 (R296). -/
def edoDivisions : List Nat := [12, 19, 22, 24, 31, 53, 72]

/-- `TQ.scale` of tuning `id` (R296): an equal division, or the open 12-entry table closed by 1200.0. -/
def tuningScale (id : Nat) : List F32 :=
  match edoDivisions[id]? with
  | some n => edoScale n
  | none => (List.range 12).map (Config.params.tuningTable id) ++ [f1200]

/-- The bytes of an ASCII text (R297: no terminator). -/
def asciiBytes (text : String) : List Byte := text.toList.map fun ch => BitVec.ofNat 8 ch.toNat

/-- The description strings (R297). -/
def tuningNames : List String :=
  ["12-EDO", "19-EDO", "22-EDO", "24-EDO", "31-EDO", "53-EDO", "72-EDO", "Just Intonation", "Pythagorean",
    "Quarter-comma Meantone", "Werckmeister III"]

/-- `TQ.desc` of tuning `id`. -/
def tuningDesc (id : Nat) : List Byte := asciiBytes (tuningNames.getD id "")

end Sys2Proof.Machine
end

