-- ==== Sys2Proof/Machine/Window.lean ====
section
/-! DEFINITION. The analysis and synthesis windows of the pitch shifter (43_pitchshifter.md R176). -/

namespace Sys2Proof.Machine

/-- `hann[n]`, the periodic Hann window (R176). -/
def hann (n : Nat) : F32 :=
  fmul noDraw fHalf (fsub noDraw f1
    (Config.num.cos (fdiv noDraw (fmul noDraw fTwoPi (toF32 n)) (toF32 Config.fftSize))))

/-- `WSCALE` = sqrtf(2.0 /f 3.0) (R176). -/
def windowScale : F32 := fsqrt noDraw (fdiv noDraw f2 f3)

/-- `PS.winA[n]` and `PS.winS[n]` of R176: the two windows have the same samples. -/
def psWindow : List F32 := (List.range Config.fftSize).map fun n => fmul noDraw windowScale (hann n)

end Sys2Proof.Machine
end

