-- ==== Sys2Proof/Machine/State.lean ====
section
/-! DEFINITION. The whole state of the block (10_state.md), its reset (70_reset_and_hazards.md R380), and the reasons a
step can stop. Field names are the spec's; INVENTORY.md lists each with its rule and reset value. -/

namespace Sys2Proof.Machine

/-- A memory of `w`-bit cells indexed from 0 (20_memory.md R60), as (index, cell) pairs in canonical form: indices strictly
rising, no zero cell listed. An unlisted cell reads as zero, the value every configure and reset writes (R62; log 6). -/
abbrev Memory (w : Nat) := List (Nat × BitVec w)

/-- One value per channel (R21). -/
structure PerCh (α : Type) where
  c0 : α
  c1 : α
deriving DecidableEq, Repr

/-- One value per biquad instance `j` or per tape head `h` (R27, R30). -/
structure Four (α : Type) where
  i0 : α
  i1 : α
  i2 : α
  i3 : α
deriving DecidableEq, Repr

/-- R26: DL dynamic state of one channel. -/
structure DlChan where
  /-- `DLBUF[c]` -/
  buf : Memory 32
  w : Nat
  delayed : F32
deriving DecidableEq, Repr

/-- R25 and R26: the delay line. -/
structure Dl where
  cfg : Bool
  sr : F32
  N : Nat
  delayMs : F32
  dInt : Nat
  dFrac : F32
  fb : F32
  mix : F32
  ch : PerCh DlChan
deriving DecidableEq, Repr

/-- `BQ.type[j]` (R27): 0 lowpass, 1 peaking, 2 high shelf. -/
inductive FilterKind where
  | lowpass
  | peaking
  | highShelf
deriving DecidableEq, Repr

/-- R27: the parameters and normalised coefficients of one biquad instance. -/
structure BqParams where
  kind : FilterKind
  f : F32
  g : F32
  q : F32
  b0 : F32
  b1 : F32
  b2 : F32
  a1 : F32
  a2 : F32
deriving DecidableEq, Repr

/-- R27: the two-sample history of one instance and channel. -/
structure BqHist where
  z1 : F32
  z2 : F32
deriving DecidableEq, Repr

/-- R29: PS dynamic state of one channel. -/
structure PsChan where
  /-- `PSIN[c]` -/
  inp : Memory 32
  iw : Nat
  hopCnt : Nat
  /-- `PSOUT[c]` -/
  out : Memory 32
  ow : Nat
  lastPhase : Memory 32
  synPhase : Memory 32
  driftPhase : F32
  ratioEff : F32
deriving DecidableEq, Repr

/-- R28 and R29: the pitch shifter. -/
structure Ps where
  cfg : Bool
  sr : F32
  cents : F32
  ratio : F32
  driftRate : F32
  driftDepth : F32
  winA : List F32
  winS : List F32
  ch : PerCh PsChan
deriving DecidableEq, Repr

/-- The LFO waveforms (R30): 0 sine, 1 triangle, 2 random walk. -/
inductive Waveform where
  | sine
  | triangle
  | randomWalk
deriving DecidableEq, Repr

/-- `TP.pk[c][0..6]` (R31), the pink-noise filter state. -/
structure Pink where
  p0 : F32
  p1 : F32
  p2 : F32
  p3 : F32
  p4 : F32
  p5 : F32
  p6 : F32
deriving DecidableEq, Repr

/-- R31: TP dynamic state of one channel. -/
structure TpChan where
  /-- `TPBUF[c]` -/
  buf : Memory 32
  w : Nat
  wowPh : F32
  flutPh : F32
  wowRW : F32
  flutRW : F32
  ageLp : F32
  ageDrop : Nat
  instPhA : F32
  instPhS : F32
  instSpeed : F32
  instDrop : Nat
  pk : Pink
  humPh : F32
  rumPh : F32
  decPh : F32
deriving DecidableEq, Repr

/-- R30 and R31: the tape heads and the tape-delay processor. -/
structure Tp where
  cfg : Bool
  sr : F32
  TN : Nat
  mode : Bool
  headCfg : Fin 4
  /-- `TH.delayMs[h]`: 0.0 means disabled -/
  headDelay : Four F32
  wowRate : F32
  wowDepth : F32
  wowWave : Waveform
  flutRate : F32
  flutDepth : F32
  flutWave : Waveform
  drive : F32
  satAmt : F32
  aging : F32
  instab : F32
  noiseEn : Bool
  noiseAmt : F32
  ch : PerCh TpChan
deriving DecidableEq, Repr

/-- R32: the tuning quantizer. -/
structure Tq where
  len : Nat
  scale : List F32
  descLen : Nat
  desc : List Byte
  sclLen : Nat
  /-- `SCLBUF` -/
  sclbuf : Memory 8
  auth : Bool
deriving DecidableEq, Repr

/-- R33: the signal router. -/
structure Rt where
  xfbAmt : F32
  quantEn : Bool
  prevDelayed : PerCh F32
  pollCnt : Nat
deriving DecidableEq, Repr

/-- The whole block. -/
structure State where
  /-- R22: the index of the next command. -/
  cix : Nat
  /-- R23: `FAULTED` bit 0, `CAUSE` bits 7:4, `FCIX` bits 31:8. -/
  status : BitVec 32
  /-- R24 `CMD`: the words delivered and not yet consumed (log 2). -/
  cmd : List Word
  /-- R24 `RSP`: the words appended so far, oldest first (log 2). -/
  rsp : List Word
  /-- The model's own field: the index of the next step's draws (R362, log 3), the same in every instance (log 24). -/
  draws : Nat
  dl : Dl
  bq : Four BqParams
  bqh : PerCh (Four BqHist)
  ps : Ps
  tp : Tp
  tq : Tq
  rt : Rt
deriving DecidableEq, Repr

/-- Why the block has no step to take. Both are R24's and R359's "waits": the model stops where the hardware idles until
the host delivers more words (log 1). SAFE: no false claim about a step can be proved from a step that does not happen. -/
inductive Fault where
  /-- Raised by `step` when `CMD` is empty. Safe. -/
  | awaitingCommand
  /-- Raised by `step` when a valid header has arrived and an operand word has not (R359). Safe. -/
  | awaitingOperands
deriving DecidableEq, Repr

/-- Why an instruction has no meaning. -/
inductive Refusal where
  /-- Raised by an arm of `exec` whose instruction has no meaning yet; safe. No arm of this model raises it. -/
  | notModelled (mnemonic : String)
deriving DecidableEq, Repr

/-! ### Reset values -/

/-- DL after power-on (R25, R26; unspecified registers 0, log 5; cells log 6). -/
def Dl.reset : Dl :=
  { cfg := false, sr := f0, N := 0, delayMs := f1, dInt := 0, dFrac := f0, fb := f0, mix := f0,
    ch := ⟨⟨[], 0, f0⟩, ⟨[], 0, f0⟩⟩ }

/-- One biquad instance with these parameters and coefficients 0 (log 5). -/
def BqParams.reset (kind : FilterKind) (f g q : F32) : BqParams := ⟨kind, f, g, q, f0, f0, f0, f0, f0⟩

/-- The four instances after power-on (R27): pre-emphasis, head bump, rolloff, de-emphasis. -/
def bqReset : Four BqParams :=
  { i0 := .reset .highShelf Config.params.preEmphFreq Config.params.preEmphGainDb Config.params.preEmphQ
    i1 := .reset .peaking Config.params.hbFreq Config.params.hbGainDb Config.params.hbQ
    i2 := .reset .lowpass Config.params.rollFreq f0 Config.params.rollQ
    i3 := .reset .highShelf Config.params.preEmphFreq (fsub noDraw f0 Config.params.preEmphGainDb) Config.params.preEmphQ }

/-- A zero history. -/
def BqHist.zero : BqHist := ⟨f0, f0⟩

/-- Four zero histories. -/
def Four.zeroHist : Four BqHist := ⟨.zero, .zero, .zero, .zero⟩

/-- R29 with every entry +0.0 and this effective ratio: the "after CFG" and "after RST" column, and power-on (log 5). -/
def PsChan.zero (ratioEff : F32) : PsChan :=
  { inp := [], iw := 0, hopCnt := 0, out := [], ow := 0, lastPhase := [], synPhase := [], driftPhase := f0,
    ratioEff := ratioEff }

/-- PS after power-on (R28, R29). -/
def Ps.reset : Ps :=
  { cfg := false, sr := f0, cents := f0, ratio := f1, driftRate := f0, driftDepth := f0, winA := psWindow, winS := psWindow,
    ch := ⟨.zero f0, .zero f0⟩ }

/-- R31 with every entry zero and this speed factor: the "after CFG" and "after RST" column, and power-on (log 5). -/
def TpChan.zero (instSpeed : F32) : TpChan :=
  { buf := [], w := 0, wowPh := f0, flutPh := f0, wowRW := f0, flutRW := f0, ageLp := f0, ageDrop := 0, instPhA := f0,
    instPhS := f0, instSpeed := instSpeed, instDrop := 0, pk := ⟨f0, f0, f0, f0, f0, f0, f0⟩, humPh := f0, rumPh := f0,
    decPh := f0 }

/-- TP after power-on (R30, R31). -/
def Tp.reset : Tp :=
  { cfg := false, sr := f0, TN := 0, mode := false, headCfg := 0,
    headDelay := ⟨Config.params.headDelayMs 0 0, Config.params.headDelayMs 0 1, Config.params.headDelayMs 0 2,
      Config.params.headDelayMs 0 3⟩,
    wowRate := f0p1, wowDepth := f0, wowWave := .sine, flutRate := f1, flutDepth := f0, flutWave := .sine, drive := f0,
    satAmt := f0, aging := f0, instab := f0, noiseEn := false, noiseAmt := f0, ch := ⟨.zero f0, .zero f0⟩ }

/-- TQ after power-on (R32): the 12-EDO scale and its description. -/
def Tq.reset : Tq :=
  { len := 13, scale := tuningScale 0, descLen := 6, desc := tuningDesc 0, sclLen := 0, sclbuf := [], auth := false }

/-- RT after power-on (R33). -/
def Rt.reset : Rt := { xfbAmt := f0, quantEn := false, prevDelayed := ⟨f0, f0⟩, pollCnt := 0 }

/-- Power-on (R380): nothing configured, not faulted, `CMD` and `RSP` empty. -/
def State.reset : State :=
  { cix := 0, status := 0, cmd := [], rsp := [], draws := 0, dl := .reset, bq := bqReset,
    bqh := ⟨.zeroHist, .zeroHist⟩, ps := .reset, tp := .reset, tq := .reset, rt := .reset }

end Sys2Proof.Machine
end

