-- ==== Sys2Proof/Syntax.lean ====
section
/-! DEFINITION. The commands of CADCMD-1: one constructor per row of spec/opcode_table.json (30_encoding.md R84, R85).
Operand words are F32 patterns (R82); selector arguments are numbers whose legal values WellFormed.lean states. -/

namespace Sys2Proof

/-- One command. `c` is the channel (`CH`), `j` a biquad instance, the F32 arguments are the operand words in order. -/
inductive Instr where
  | sysNop
  | sysStat
  | dlCfg (sampleRate : F32)
  | dlRst
  | dlSetdelay (ms : F32)
  | dlSetfb (amount : F32)
  | dlSetmix (mix : F32)
  | dlProc (c : Chan) (input : F32)
  | dlProcXfb (c : Chan) (input externalFeedback : F32)
  | dlGetd (c : Chan)
  | dlGetw (c : Chan)
  | bqRst (j : Nat) (c : Chan)
  | bqSetlp (j : Nat) (freq q : F32)
  | bqSetpk (j : Nat) (freq gainDb q : F32)
  | bqSeths (j : Nat) (freq gainDb q : F32)
  | bqProc (j : Nat) (c : Chan) (x : F32)
  | psCfg (sampleRate : F32)
  | psRst
  | psSetpitch (cents : F32)
  | psSetdrift (rateHz depthCents : F32)
  | psProc (c : Chan) (x : F32)
  | tpCfg (sampleRate : F32)
  | tpRst
  | tpSetmode (enable : Nat)
  | tpSetwf (wowWave flutWave : Nat) (wowRate wowDepth flutRate flutDepth : F32)
  | tpSetsat (drive amount : F32)
  | tpProc (c : Chan) (x : F32)
  | tpSethb (freq gainDb q : F32)
  | tpSetroll (freq q : F32)
  | tpSetage (amount : F32)
  | tpSetinst (amount : F32)
  | tpSetheads (k : Nat)
  | tpSetnoise (enabled : Nat) (amount : F32)
  | tqSetdef
  | tqSettuning (id : Nat)
  | tqSclclr
  | tqSclb (byte : Byte)
  | tqQuant (cents : F32)
  | tqLoad
  | tqGetdesc
  | rtCfg (sampleRate : F32)
  | rtRst
  | rtSetxfb (amount : F32)
  | rtSetpitch (quantize : Nat) (cents : F32)
  | rtFrame (inputCh0 inputCh1 : F32)
deriving DecidableEq, Repr

/-- The causes a malformed command is refused for (60_exceptions.md R351). The code each is recorded with is
`Machine.causeCode`. -/
inductive Cause where
  | illegalCommand
  | badNarg
  | reservedNonzero
  | badSel
  | notConfigured
deriving DecidableEq, Repr

end Sys2Proof
end

