-- ==== Sys2Proof/Machine/Flags.lean ====
section
/-! DEFINITION. `STATUS`, the block's only flag register (10_state.md R23). No command sets a condition code (R23, R34). -/

namespace Sys2Proof.Machine

/-- The code `CAUSE` records (60_exceptions.md R351). -/
def causeCode : Cause → Nat
  | .illegalCommand => 1
  | .badNarg => 2
  | .reservedNonzero => 3
  | .badSel => 4
  | .notConfigured => 5

/-- `STATUS[0]` -/
def State.faulted (s : State) : Bool := decide (s.status.toNat % 2 = 1)

/-- `STATUS[7:4]` -/
def State.cause (s : State) : Nat := s.status.toNat / 2 ^ 4 % 2 ^ 4

/-- `STATUS[31:8]` -/
def State.fcix (s : State) : Nat := s.status.toNat / 2 ^ 8

/-- The word a `raise` leaves in `STATUS` (R352): `FCIX` the low 24 bits of `cix`, `CAUSE` the code, bits 3:1 zero,
`FAULTED` 1. -/
def statusWord (c : Cause) (cix : Nat) : BitVec 32 := BitVec.ofNat 32 (cix % 2 ^ 24 * 2 ^ 8 + causeCode c * 2 ^ 4 + 1)

end Sys2Proof.Machine
end

