-- ==== Sys2Proof/Machine/Ops.lean ====
section
/-! DEFINITION. The named operations over memories, rings and registers (20_memory.md R61 to R64), the epilogue of every
command and the raising of a fault (30_encoding.md R88, 60_exceptions.md R352), and the setters of the sample-rate
lifecycle (40_lifecycle_sys.md R101, R104). There is no return from a fault: only power-on clears it (R354). -/

namespace Sys2Proof.Machine

/-! ### Memory cells -/

/-- `MemRead(M, i)` (R61). An unlisted cell reads as zero (log 6). -/
def Memory.read {w : Nat} : Memory w → Nat → BitVec w
  | [], _ => 0
  | (a, v) :: rest, i => if i = a then v else Memory.read rest i

/-- `v` at index `i` in front of `rest`, listed only when it is not zero. -/
def Memory.cons {w : Nat} (i : Nat) (v : BitVec w) (rest : Memory w) : Memory w := if v = 0 then rest else (i, v) :: rest

/-- `MemWrite(M, i, v)` (R61), keeping the canonical form. -/
def Memory.write {w : Nat} : Memory w → Nat → BitVec w → Memory w
  | [], i, v => Memory.cons i v []
  | (a, u) :: rest, i, v =>
    if i < a then Memory.cons i v ((a, u) :: rest)
    else if i = a then Memory.cons i v rest
    else (a, u) :: Memory.write rest i v

/-- The `n` cells from index `lo` on, cell `i` holding `f i`. -/
def Memory.tabulate {w : Nat} (f : Nat → BitVec w) : Nat → Nat → Memory w
  | _, 0 => []
  | lo, n + 1 => Memory.cons lo (f lo) (Memory.tabulate f (lo + 1) n)

/-- The canonical form from index `lo` up: indices strictly rising, no zero cell. -/
def Memory.wfFrom {w : Nat} (lo : Nat) : Memory w → Bool
  | [] => true
  | (a, v) :: rest => decide (lo ≤ a) && decide (v ≠ 0) && Memory.wfFrom (a + 1) rest

/-- The canonical form holds. -/
def Memory.wf {w : Nat} (m : Memory w) : Bool := m.wfFrom 0

/-- Every listed index is below `n`. -/
def Memory.below {w : Nat} (n : Nat) (m : Memory w) : Bool := m.all fun e => decide (e.1 < n)

/-- The cells `0..n-1` in order. -/
def Memory.cells {w : Nat} (m : Memory w) (n : Nat) : List (BitVec w) := (List.range n).map m.read

/-! ### Per-channel and per-instance copies (R21) -/

/-- The copy of channel `c`. -/
def PerCh.get {α : Type} (p : PerCh α) : Chan → α
  | .ch0 => p.c0
  | .ch1 => p.c1

/-- Replace the copy of channel `c`. -/
def PerCh.set {α : Type} (p : PerCh α) (c : Chan) (v : α) : PerCh α :=
  match c with
  | .ch0 => { p with c0 := v }
  | .ch1 => { p with c1 := v }

/-- The same value on both channels. -/
def PerCh.both {α : Type} (v : α) : PerCh α := ⟨v, v⟩

/-- `1 - c` -/
def otherChan : Chan → Chan
  | .ch0 => .ch1
  | .ch1 => .ch0

/-- The copy of instance `j`. -/
def Four.get {α : Type} (p : Four α) (j : Fin 4) : α :=
  match j with
  | 0 => p.i0
  | 1 => p.i1
  | 2 => p.i2
  | 3 => p.i3

/-- Replace the copy of instance `j`. -/
def Four.set {α : Type} (p : Four α) (j : Fin 4) (v : α) : Four α :=
  match j with
  | 0 => { p with i0 := v }
  | 1 => { p with i1 := v }
  | 2 => { p with i2 := v }
  | 3 => { p with i3 := v }

/-- Every copy through `f`. -/
def Four.map {α β : Type} (f : α → β) (p : Four α) : Four β := ⟨f p.i0, f p.i1, f p.i2, f p.i3⟩

/-! ### Rings -/

/-- `(w - d) mod N` (R64, R109): the residue in `0..N-1`. -/
def ringIdx (N w d : Nat) : Nat := (((w : Int) - (d : Int)) % (N : Int)).toNat

/-- `ringAdvance(N, w)` (R63). -/
def ringAdvance (N w : Nat) : Nat := (w + 1) % N

/-- `ringTap(M, N, w, dInt, dFrac)` (R64), the fractional tap in the two-product form. -/
def ringTap (d : Draw) (M : Memory 32) (N w dInt : Nat) (dFrac : F32) : F32 :=
  let A := M.read (ringIdx N w dInt)
  let B := M.read (ringIdx N w (dInt + 1))
  fadd d (fmul (d.at 0) A (fsub (d.at 1) f1 dFrac)) (fmul (d.at 2) B dFrac)

/-- A delay in samples clamped to the ring and split into `dInt` and `dFrac` (41_delayline.md R123,
44_tape_heads_modulation.md R226). -/
def splitDelay (d : Draw) (N : Nat) (ds : F32) : Nat × F32 :=
  let ds := fclamp ds f1 (toF32 ((N : Int) - 1))
  let dInt := floorI ds
  (dInt.toNat, fsub d ds (toF32 dInt))

/-! ### The epilogue, responses and faults of a command -/

/-- The epilogue of R88, `cix <- cix + 1`, and the model's own draw index (log 3). -/
def State.retire (s : State) : State := { s with cix := s.cix + 1, draws := s.draws + 1 }

/-- `rsp(v)` for each word in order (R11, R83). -/
def State.respond (s : State) (vs : List Word) : State := { s with rsp := s.rsp ++ vs }

/-- Where the draws of the command about to execute are taken: the index of the step, with no mark of an instance or of a
power-on. DESIGN CHOICE (log 24): two copies of the machine (20_memory.md R75), or one after a second power-on, take equal
draws and answers at equal indices, which R362 does not say. -/
def State.draw (s : State) : Draw := ⟨s.draws, []⟩

/-- `raise F(h)` (R352): the whole effect of a fault. -/
def State.raise (s : State) (c : Cause) : State :=
  if s.faulted then s else { s with status := statusWord c s.cix }

/-- The host appends words to `CMD` (R24, R359). Not a step of the block. -/
def State.deliver (s : State) (ws : List Word) : State := { s with cmd := s.cmd ++ ws }

/-- The `NOT_CONFIGURED` line of R88 and the epilogue: `body` and `cix <- cix + 1` when the unit is configured. -/
def State.whenConfigured (s : State) (cfg : Bool) (body : State) : State :=
  if cfg then body.retire else s.raise .notConfigured

/-- A command whose selector operand has been read: `BAD_SEL` when it has no legal value (30_encoding.md R86). The decoder
has already refused such a header, so this is only about ill-formed terms (log 12). -/
def State.withSel {α : Type} (s : State) (sel : Option α) (body : α → State) : State :=
  match sel with
  | some v => body v
  | none => s.raise .badSel

/-! ### The lifecycle -/

/-- R104: the clamped sample rate of a configure command. -/
def clampRate (v : F32) : F32 := fclamp v Config.srMin Config.srMax

/-- R101: a configure changes nothing when the unit is configured at this very rate. -/
def rateUnchanged (cfg : Bool) (sr srC : F32) : Bool := cfg && feq sr srC

end Sys2Proof.Machine
end

