-- ==== Sys2Proof/Machine/Operands.lean ====
section
/-! DEFINITION. The operand forms of 30_encoding.md R81, R82, R85: every operand word is an F32 pattern taken whole, and
every integer or flag argument travels in the selector. A selector value the command does not allow reads as `none`. -/

namespace Sys2Proof.Machine

/-- A biquad instance `j` or a head configuration `k`, 0..3. -/
def selFour (sel : Nat) : Option (Fin 4) :=
  match sel with
  | 0 => some 0
  | 1 => some 1
  | 2 => some 2
  | 3 => some 3
  | _ => none

/-- An enable, 0 or 1. -/
def selEnable (sel : Nat) : Option Bool :=
  match sel with
  | 0 => some false
  | 1 => some true
  | _ => none

/-- A waveform, 0 sine, 1 triangle, 2 random walk (44_tape_heads_modulation.md R216). -/
def selWaveform (sel : Nat) : Option Waveform :=
  match sel with
  | 0 => some .sine
  | 1 => some .triangle
  | 2 => some .randomWalk
  | _ => none

/-- The two waveforms of `TP.SETWF`. -/
def selWaveforms (wow flut : Nat) : Option (Waveform × Waveform) :=
  match selWaveform wow, selWaveform flut with
  | some w, some f => some (w, f)
  | _, _ => none

/-- A tuning identifier, 0..10 (46_quantizer.md R301). -/
def selTuning (id : Nat) : Option Nat := if id ≤ 10 then some id else none

end Sys2Proof.Machine
end

