-- ==== Sys2Proof/Machine/DelayLine.lean ====
section
/-! DEFINITION. DL, the delay-line interpolator (41_delayline.md). -/

namespace Sys2Proof.Machine

/-- `DL.N` at a clamped rate (R122). -/
def dlCapacity (d : Draw) (srC : F32) : Nat :=
  min (ceilI (msToSamples d Config.maxDelayMs srC) + 1).toNat Config.dlRamDepth

/-- `dlOffset()` (R123): the read offset of the current delay, rate and capacity. -/
def dlOffset (d : Draw) (dl : Dl) : Dl :=
  let r := splitDelay (d.at 0) dl.N (msToSamples (d.at 1) dl.delayMs dl.sr)
  { dl with dInt := r.1, dFrac := r.2 }

/-- A zeroed channel (R26). -/
def dlZeroChan : DlChan := ⟨[], 0, f0⟩

/-- `DL.CFG`'s state change when it reallocates (R125, 40_lifecycle_sys.md R102). -/
def dlReallocate (d : Draw) (dl : Dl) (srC : F32) : Dl :=
  dlOffset (d.at 0)
    { dl with cfg := true, sr := srC, N := dlCapacity (d.at 1) srC, ch := PerCh.both dlZeroChan }

/-- `DL.CFG`'s state change (R125, R101). -/
def dlConfigure (d : Draw) (dl : Dl) (op : F32) : Dl :=
  if rateUnchanged dl.cfg dl.sr (clampRate op) then dl else dlReallocate d dl (clampRate op)

/-- `DL.RST`'s state change on one channel (R126): without a configured unit there is no ring and no cursor. -/
def dlResetChan (cfg : Bool) (ch : DlChan) : DlChan := if cfg then dlZeroChan else { ch with delayed := f0 }

/-- `DL.RST`'s state change (R126). -/
def dlReset (dl : Dl) : Dl := { dl with ch := ⟨dlResetChan dl.cfg dl.ch.c0, dlResetChan dl.cfg dl.ch.c1⟩ }

/-- `DL.SETDELAY`'s state change (R127). -/
def dlSetDelay (d : Draw) (dl : Dl) (ms : F32) : Dl :=
  let dl := { dl with delayMs := fclamp ms f1 Config.maxDelayMs }
  if dl.cfg then dlOffset d dl else dl

/-- `dlProcess(c, x, xfb)` (R130) on the channel `ch`: tap, feedback, write, advance, blend. -/
def dlProcess (d : Draw) (dl : Dl) (ch : DlChan) (x xfb : F32) : DlChan × F32 :=
  let delayed := ringTap (d.at 0) ch.buf dl.N ch.w dl.dInt dl.dFrac
  let fbs := fadd (d.at 1) (fmul (d.at 2) dl.fb delayed) xfb
  ({ buf := ch.buf.write ch.w (fadd (d.at 3) x fbs), w := ringAdvance dl.N ch.w, delayed := delayed },
    fadd (d.at 4) (fmul (d.at 5) x (fsub (d.at 6) f1 dl.mix)) (fmul (d.at 7) delayed dl.mix))

/-- `DL.CFG` (R125). -/
def execDlCfg (sampleRate : F32) (s : State) : Host.Outcome State Fault Refusal :=
  .next { s with dl := dlConfigure s.draw s.dl sampleRate }.retire

/-- `DL.RST` (R126). -/
def execDlRst (s : State) : Host.Outcome State Fault Refusal := .next { s with dl := dlReset s.dl }.retire

/-- `DL.SETDELAY` (R127). -/
def execDlSetdelay (ms : F32) (s : State) : Host.Outcome State Fault Refusal :=
  .next { s with dl := dlSetDelay s.draw s.dl ms }.retire

/-- `DL.SETFB` (R128): clamped to [0.0, 1.1f]. -/
def execDlSetfb (amount : F32) (s : State) : Host.Outcome State Fault Refusal :=
  .next { s with dl := { s.dl with fb := fclamp amount f0 f1p1 } }.retire

/-- `DL.SETMIX` (R129). -/
def execDlSetmix (mix : F32) (s : State) : Host.Outcome State Fault Refusal :=
  .next { s with dl := { s.dl with mix := fclamp mix f0 f1 } }.retire

/-- `rsp(bits(dlProcess(c, x, xfb)))` (R130). -/
def State.dlRun (s : State) (c : Chan) (x xfb : F32) : State :=
  let r := dlProcess s.draw s.dl (s.dl.ch.get c) x xfb
  { s with dl := { s.dl with ch := s.dl.ch.set c r.1 } }.respond [r.2]

/-- `DL.PROC` with one operand (R130): `externalFeedback` is +0.0. -/
def execDlProc (c : Chan) (input : F32) (s : State) : Host.Outcome State Fault Refusal :=
  .next (s.whenConfigured s.dl.cfg (s.dlRun c input f0))

/-- `DL.PROC` with two operands (R130). -/
def execDlProcXfb (c : Chan) (input externalFeedback : F32) (s : State) : Host.Outcome State Fault Refusal :=
  .next (s.whenConfigured s.dl.cfg (s.dlRun c input externalFeedback))

/-- `DL.GETD` (R131): the undamped delayed tap. -/
def execDlGetd (c : Chan) (s : State) : Host.Outcome State Fault Refusal :=
  .next (s.whenConfigured s.dl.cfg (s.respond [(s.dl.ch.get c).delayed]))

/-- `DL.GETW` (R132): the same value as `DL.GETD`. -/
def execDlGetw (c : Chan) (s : State) : Host.Outcome State Fault Refusal :=
  .next (s.whenConfigured s.dl.cfg (s.respond [(s.dl.ch.get c).delayed]))

end Sys2Proof.Machine
end

