-- ==== Sys2Proof/Machine/Pitch.lean ====
section
/-! DEFINITION. PS, the phase-vocoder pitch shifter (43_pitchshifter.md). `Nf` is `FFT_SIZE`, `H` is `HOP`. -/

namespace Sys2Proof.Machine

/-- `Nf/2`, the Nyquist bin. -/
def psNyquist : Nat := Config.fftSize / 2

/-- The bins `0..Nf/2`. -/
def psBins : List Nat := List.range (psNyquist + 1)

/-- `psRatioUpdate(c)` (R179), once per sample. -/
def psRatioUpdate (d : Draw) (ps : Ps) (ch : PsChan) : PsChan :=
  let lfo := sineAt (d.at 0) ch.driftPhase
  { ch with
    driftPhase := phaseAdvance (d.at 1) ch.driftPhase ps.driftRate ps.sr
    ratioEff := fmul (d.at 2) ps.ratio
      (Config.num.exp2 (fdiv (d.at 3) (fmul (d.at 4) ps.driftDepth lfo) f1200)) }

/-- Frame step 1 (R181): the last `Nf` samples times the analysis window. -/
def psExtract (d : Draw) (ps : Ps) (ch : PsChan) : List F32 :=
  (List.range Config.fftSize).map fun n =>
    fmul (d.at n) (ch.inp.read ((ch.iw + n) % Config.fftSize)) (ps.winA.getD n f0)

/-- The bins `(re[k], im[k])` of R182: `NUM.dft(xw)`. R194: "A NaN or infinite input sample makes every bin of the next four
frames NaN". That is a rule about this step and no property of `NUM` (40_lifecycle_sys.md R108), so the step states it: with
such a sample in the frame both parts of every bin are NaNs of any pattern (R107; log 9). -/
def psSpectrum (d : Draw) (xw : List F32) (k : Nat) : F32 × F32 :=
  if xw.all isFinite then Config.num.dft xw k else (drawNaN ((d.at k).at 0), drawNaN ((d.at k).at 1))

/-- `mag[k]` of R182. -/
def psMag (d : Draw) (bin : F32 × F32) : F32 :=
  fsqrt (d.at 0) (fadd (d.at 1) (fmul (d.at 2) bin.1 bin.1) (fmul (d.at 3) bin.2 bin.2))

/-- `ph[k]` of R182. -/
def psPhase (bin : F32 × F32) : F32 := Config.num.atan2 bin.2 bin.1

/-- `inc[k]` of R183, from the phase of this frame and of the previous one. -/
def psIncrement (d : Draw) (k : Nat) (ph last : F32) : F32 :=
  let delta := fsub (d.at 0) ph last
  let expct := fmul (d.at 1) fTwoPi (fdiv (d.at 2) (toF32 k) f4)
  fadd (d.at 3) (Config.num.wrapPi (fsub (d.at 4) delta expct)) expct

/-- `PS.lastPhase[c][k] <- ph[k]` for every bin `k` in `0..Nf/2` (R183): the whole array is written. R194 counts
`PS.lastPhase` among the values that "are only ever added to" and so stay NaN once poisoned, and 70_reset_and_hazards.md
R386, derived from it, says "NaN for ever"; R183 overwrites it, and 10_state.md R29 calls it the "analysis phase of the
previous frame". DESIGN CHOICE (log 23): R183's pseudocode, so the array is finite again once the ring is clean, and
`PS.synPhase` alone keeps the NaN, which keeps the unit poisoned until its reset. -/
def psStorePhases (spec : Nat → F32 × F32) : Memory 32 := Memory.tabulate (fun k => psPhase (spec k)) 0 (psNyquist + 1)

/-- What R184 accumulates: `Sre`, `Sim` and the running synthesis phases. -/
structure PsSynth where
  re : Memory 32
  im : Memory 32
  phase : Memory 32
deriving DecidableEq, Repr

/-- One contribution of weight `wgt` to the bin `b` (R184): the bin's phase advances, then its spectrum value grows. -/
def psContribute (d : Draw) (r inc mag : F32) (b : Nat) (wgt : F32) (a : PsSynth) : PsSynth :=
  if psNyquist < b then a
  else
    let ph := Config.num.wrapPi (fadd (d.at 0) (a.phase.read b) (fmul (d.at 1) inc r))
    let amp := fmul (d.at 2) mag wgt
    { re := a.re.write b (fadd (d.at 3) (a.re.read b) (fmul (d.at 4) amp (Config.num.cos ph)))
      im := a.im.write b (fadd (d.at 5) (a.im.read b) (fmul (d.at 6) amp (Config.num.sin ph)))
      phase := a.phase.write b ph }

/-- Whether the target of an analysis bin is dropped (R184). -/
def psDropped (tgt : F32) : Bool := !isFinite tgt || flt (toF32 psNyquist) tgt

/-- The contributions of one analysis bin at the target `tgt` (R184): one of weight 1.0, or floor, then ceil. -/
def psSplit (d : Draw) (r inc mag tgt : F32) (a : PsSynth) : PsSynth :=
  let lo := floorI tgt
  let fr := fsub (d.at 0) tgt (toF32 lo)
  if feq fr f0 then psContribute (d.at 1) r inc mag lo.toNat f1 a
  else psContribute (d.at 2) r inc mag (lo + 1).toNat fr (psContribute (d.at 1) r inc mag lo.toNat (fsub (d.at 3) f1 fr) a)

/-- The contributions of one analysis bin, none when its target is dropped (R184). -/
def psRemapBin (d : Draw) (r inc mag : F32) (i : Nat) (a : PsSynth) : PsSynth :=
  let tgt := fmul (d.at 0) (toF32 i) r
  if psDropped tgt then a else psSplit (d.at 1) r inc mag tgt a

/-- The analysis bins `0..n-1`, ascending (R184). -/
def psRemapBins (d : Draw) (r : F32) (inc mag : Nat → F32) (phase : Memory 32) : Nat → PsSynth
  | 0 => ⟨[], [], phase⟩
  | n + 1 => psRemapBin (d.at n) r (inc n) (mag n) n (psRemapBins d r inc mag phase n)

/-- Frame step 4 (R184): every analysis bin, ascending. -/
def psRemap (d : Draw) (r : F32) (inc mag : Nat → F32) (phase : Memory 32) : PsSynth :=
  psRemapBins d r inc mag phase (psNyquist + 1)

/-- What R185 hands to `NUM.idftReal`: `(Sre, Sim)`. "The imaginary parts of bins 0 and `Nf/2` have no effect": that too is
the rule's and no property of `NUM` (R108), so they are handed over as +0.0, whatever they hold (log 9). -/
def psHalfSpectrum (a : PsSynth) : List (F32 × F32) :=
  psBins.map fun b => (a.re.read b, if b = 0 ∨ b = psNyquist then f0 else a.im.read b)

/-- The sample `n` of the frame that lands in cell `p` of the output ring, `p = (ow + n) mod Nf` (R185). -/
def psSampleAt (ow p : Nat) : Nat := ((p : Int) - (ow : Int)) % (Config.fftSize : Int) |>.toNat

/-- Frame step 5's overlap-add (R185) at the output cursor `ow`. As `n` runs through `0..Nf-1` the cell `(ow + n) mod Nf`
runs through every cell once, so each cell `p` grows by the one sample that lands in it. -/
def psOverlapAdd (d : Draw) (ps : Ps) (y : Nat → F32) (ow : Nat) (out : Memory 32) : Memory 32 :=
  Memory.tabulate
    (fun p =>
      let n := psSampleAt ow p
      fadd ((d.at n).at 0) (out.read p) (fmul ((d.at n).at 1) (y n) (ps.winS.getD n f0)))
    0 Config.fftSize

/-- `psFrame(c)` (R181 to R185). -/
def psFrame (d : Draw) (ps : Ps) (ch : PsChan) : PsChan :=
  let xw := psExtract (d.at 0) ps ch
  let spec := psSpectrum (d.at 5) xw
  let inc := fun k => psIncrement ((d.at 1).at k) k (psPhase (spec k)) (ch.lastPhase.read k)
  let mag := fun k => psMag ((d.at 2).at k) (spec k)
  let a := psRemap (d.at 3) ch.ratioEff inc mag ch.synPhase
  let y := Config.num.idftReal (psHalfSpectrum a)
  { ch with
    lastPhase := psStorePhases spec
    synPhase := a.phase
    out := psOverlapAdd (d.at 4) ps y ch.ow ch.out }

/-- The input half of `psProcess` (R180): ratio update, write, advance, hop count. -/
def psAccept (d : Draw) (ps : Ps) (ch : PsChan) (x : F32) : PsChan :=
  let ch := psRatioUpdate d ps ch
  { ch with inp := ch.inp.write ch.iw x, iw := (ch.iw + 1) % Config.fftSize, hopCnt := ch.hopCnt + 1 }

/-- The frame of `psProcess` (R180), run on every `H`-th sample. -/
def psMaybeFrame (d : Draw) (ps : Ps) (ch : PsChan) : PsChan :=
  if ch.hopCnt = Config.hop then psFrame d ps { ch with hopCnt := 0 } else ch

/-- The output half of `psProcess` (R190): read, clear, advance. -/
def psEmit (ch : PsChan) : PsChan × F32 :=
  ({ ch with out := ch.out.write ch.ow f0, ow := (ch.ow + 1) % Config.fftSize }, ch.out.read ch.ow)

/-- `psProcess(c, x)` (R180). -/
def psProcess (d : Draw) (ps : Ps) (ch : PsChan) (x : F32) : PsChan × F32 :=
  psEmit (psMaybeFrame (d.at 0) ps (psAccept (d.at 1) ps ch x))

/-- `PS.CFG`'s state change (R172, R101). -/
def psConfigure (ps : Ps) (op : F32) : Ps :=
  if rateUnchanged ps.cfg ps.sr (clampRate op) then ps
  else { ps with cfg := true, sr := clampRate op, ch := PerCh.both (PsChan.zero ps.ratio) }

/-- `PS.RST`'s state change (R173). On an unconfigured unit it writes nothing (40_lifecycle_sys.md R103; log 16). -/
def psReset (ps : Ps) : Ps := if ps.cfg then { ps with ch := PerCh.both (PsChan.zero ps.ratio) } else ps

/-- `PS.SETPITCH`'s state change (R174). -/
def psSetPitch (d : Draw) (ps : Ps) (cents : F32) : Ps :=
  let cents := fclamp cents Config.pitchCentsMin Config.pitchCentsMax
  { ps with cents := cents, ratio := Config.num.exp2 (fdiv d cents f1200) }

/-- `PS.CFG` (R172). -/
def execPsCfg (sampleRate : F32) (s : State) : Host.Outcome State Fault Refusal :=
  .next { s with ps := psConfigure s.ps sampleRate }.retire

/-- `PS.RST` (R173). -/
def execPsRst (s : State) : Host.Outcome State Fault Refusal := .next { s with ps := psReset s.ps }.retire

/-- `PS.SETPITCH` (R174). -/
def execPsSetpitch (cents : F32) (s : State) : Host.Outcome State Fault Refusal :=
  .next { s with ps := psSetPitch s.draw s.ps cents }.retire

/-- `PS.SETDRIFT` (R175). -/
def execPsSetdrift (rateHz depthCents : F32) (s : State) : Host.Outcome State Fault Refusal :=
  .next
    { s with
      ps := { s.ps with
        driftRate := fclamp rateHz f0 Config.driftRateMax, driftDepth := fclamp depthCents f0 Config.driftDepthMax } }.retire

/-- `rsp(bits(psProcess(c, x)))` (R180). -/
def State.psRun (s : State) (c : Chan) (x : F32) : State :=
  let r := psProcess s.draw s.ps (s.ps.ch.get c) x
  { s with ps := { s.ps with ch := s.ps.ch.set c r.1 } }.respond [r.2]

/-- `PS.PROC` (R180). -/
def execPsProc (c : Chan) (x : F32) (s : State) : Host.Outcome State Fault Refusal :=
  .next (s.whenConfigured s.ps.cfg (s.psRun c x))

end Sys2Proof.Machine
end

