-- ==== Sys2Proof/Machine/Scl.lean ====
section
/-! DEFINITION. `parseScl`, the scale-file parser (46_quantizer.md R311 to R315): a pure function of the staged bytes. -/

namespace Sys2Proof.Machine

/-- Space or tab. -/
def isBlank (b : Byte) : Bool := b == 0x20 || b == 0x09

/-- An ASCII decimal digit. -/
def isDigit (b : Byte) : Bool := decide (0x30 ≤ b.toNat) && decide (b.toNat ≤ 0x39)

/-- The lines of the text, cut at every 0x0A; bytes after the last 0x0A form a last line (R311). -/
def splitLines : List Byte → List (List Byte)
  | [] => []
  | b :: rest =>
    if b = 0x0A then [] :: splitLines rest
    else
      match splitLines rest with
      | [] => [[b]]
      | l :: ls => (b :: l) :: ls

/-- One trailing 0x0D removed (R311). -/
def stripCr (line : List Byte) : List Byte := if line.getLast? = some 0x0D then line.dropLast else line

/-- A comment line (R311): its first byte is `!`, or it is blank. -/
def isComment (line : List Byte) : Bool := line.head? == some 0x21 || line.all isBlank

/-- The content lines `L0, L1, …` (R311). -/
def contentLines (text : List Byte) : List (List Byte) :=
  ((splitLines text).map stripCr).filter fun l => !isComment l

/-- The first token of a line (R311). -/
def firstToken (line : List Byte) : List Byte := (line.dropWhile isBlank).takeWhile fun b => !isBlank b

/-- Leading and trailing spaces and tabs removed (R312). -/
def trimBlank (line : List Byte) : List Byte := (((line.dropWhile isBlank).reverse).dropWhile isBlank).reverse

/-- The value of a run of decimal digits. -/
def decimalValue (ds : List Byte) : Nat := ds.foldl (fun n b => 10 * n + (b.toNat - 0x30)) 0

/-- A run of digits with at least one digit (log 14). -/
def isDigitRun (t : List Byte) : Bool := !t.isEmpty && t.all isDigit

/-- A count of 1 to 9 digits and nothing else (R313, and the two numbers of a ratio, R314). -/
def parseCount (t : List Byte) : Option Nat :=
  if isDigitRun t && decide (t.length ≤ 9) then some (decimalValue t) else none

/-- A value that must be finite (R314). -/
def finiteOnly (v : F32) : Option F32 := if isFinite v then some v else none

/-- The cents of the ratio `a/b` (R314). No NaN can arise, so no draw is taken (R315, log 11). -/
def ratioCents (a b : Nat) : F32 :=
  fmul noDraw f1200 (Config.num.log2 (fdiv noDraw (toF32 a) (toF32 b)))

/-- The ratio form `A "/" B` (R314). -/
def parseRatio (a b : List Byte) : Option F32 :=
  match parseCount a, parseCount b with
  | some m, some n => if 1 ≤ m ∧ 1 ≤ n then finiteOnly (ratioCents m n) else none
  | _, _ => none

/-- The binary32 nearest to the real number `± digits / 10^scale` (R314). The number zero is +0.0 with either sign of the
token (DEDUCED, log 13). -/
def decimalF32 (neg : Bool) (digits scale : Nat) : F32 :=
  if digits = 0 then f0 else roundTo neg (digits * unitsPerOne) (10 ^ scale)

/-- The unsigned part of the cents form (R314): `D`, `D "." F` or `"." F`. -/
def parseUnsigned (neg : Bool) (body : List Byte) : Option F32 :=
  let whole := body.takeWhile isDigit
  match body.dropWhile isDigit with
  | [] => if isDigitRun whole then finiteOnly (decimalF32 neg (decimalValue whole) 0) else none
  | p :: frac =>
    if p = 0x2E ∧ isDigitRun frac = true then
      finiteOnly (decimalF32 neg (decimalValue (whole ++ frac)) frac.length)
    else none

/-- The cents form (R314): an optional sign, at most 32 bytes. -/
def parseCents (token : List Byte) : Option F32 :=
  if 32 < token.length then none
  else
    match token with
    | [] => none
    | b :: rest =>
      if b = 0x2B then parseUnsigned false rest
      else if b = 0x2D then parseUnsigned true rest
      else parseUnsigned false token

/-- One note token (R314): a ratio when it has a `/`, else cents. -/
def parseNote (token : List Byte) : Option F32 :=
  match token.dropWhile (fun b => b != 0x2F) with
  | [] => parseCents token
  | _ :: denominator => parseRatio (token.takeWhile fun b => b != 0x2F) denominator

/-- The next `n` note lines (R314). -/
def parseNotes : Nat → List (List Byte) → Option (List F32)
  | 0, _ => some []
  | _ + 1, [] => none
  | n + 1, l :: ls =>
    match parseNote (firstToken l), parseNotes n ls with
    | some e, some es => some (e :: es)
    | _, _ => none

/-- `parseScl` (R311 to R315): the description and the notes, or `none` for `fail`. -/
def parseScl (text : List Byte) : Option (List Byte × List F32) :=
  match contentLines text with
  | l0 :: l1 :: notes =>
    match parseCount (firstToken l1) with
    | none => none
    | some n =>
      if Config.scaleMaxEntries - 2 < n then none
      else
        match parseNotes n notes with
        | none => none
        | some es => some ((trimBlank l0).take Config.descMaxBytes, es)
  | _ => none

end Sys2Proof.Machine
end

