-- ==== Sys2Proof/Machine/Quantizer.lean ====
section
/-! DEFINITION. TQ, the tuning quantizer (46_quantizer.md). -/

namespace Sys2Proof.Machine

/-- Install a scale and a description in one step (R291). -/
def tqInstall (tq : Tq) (scale : List F32) (desc : List Byte) : Tq :=
  { tq with len := scale.length, scale := scale, descLen := desc.length, desc := desc }

/-- Install the built-in tuning `id` (R301). -/
def tqInstallTuning (tq : Tq) (id : Nat) : Tq := tqInstall tq (tuningScale id) (tuningDesc id)

/-- `TQ.SCLB`'s state change (R303): a full buffer drops the byte. -/
def tqStage (tq : Tq) (byte : Byte) : Tq :=
  if tq.sclLen < Config.sclBufBytes then { tq with sclbuf := tq.sclbuf.write tq.sclLen byte, sclLen := tq.sclLen + 1 }
  else tq

/-- `roundI(v)` of R294. -/
def roundI (d : Draw) (v : F32) : Int := floorI (fadd d v fHalf)

/-- The clamped request of R304. -/
def quantClamp (cents : F32) : F32 :=
  fclamp cents (fsub noDraw f0 Config.quantCentsMax) Config.quantCentsMax

/-- The in-octave remainder of R304, `((cents mod 1200) + 1200) mod 1200`. -/
def quantRem (d : Draw) (cC : F32) : F32 := fmodf (fadd d (fmodf cC f1200) f1200) f1200

/-- The octave offset of R304. -/
def quantOct (d : Draw) (cC rem : F32) : Int := roundI (d.at 0) (fdiv (d.at 1) (fsub (d.at 2) cC rem) f1200)

/-- The distance of an entry from the remainder (R304). -/
def quantDist (d : Draw) (rem e : F32) : F32 := fabs (fsub d rem e)

/-- The linear scan of R304 from the entry number `k` on: the strictly nearer entry replaces the best one. -/
def quantScan (d : Draw) (rem : F32) : Nat → F32 → List F32 → F32
  | _, best, [] => best
  | k, best, e :: es =>
    quantScan d rem (k + 1)
      (if flt (quantDist (d.at (2 * k)) rem e) (quantDist (d.at (2 * k + 1)) rem best) then e else best) es

/-- The nearest entry of the active scale (R304): the first of equally near entries. -/
def quantBest (d : Draw) (tq : Tq) (rem : F32) : F32 :=
  quantScan d rem 1 (tq.scale.getD 0 f0) ((tq.scale.take tq.len).drop 1)

/-- `tqAuthority(cC, q)` (R308), asked only while the authority is connected. -/
def tqAuthority (d : Draw) (cC q : F32) : F32 :=
  let note := fadd (d.at 0) Config.authRefNote (fdiv (d.at 1) cC f100)
  let s := Config.authRetuning d.step (d.at 2).path note
  guardF (fadd (d.at 3) cC (fmul (d.at 4) s f100)) q

/-- `tqQuantize(cents)` (R304). -/
def tqQuantize (d : Draw) (tq : Tq) (cents : F32) : F32 :=
  let cC := quantClamp cents
  let rem := quantRem (d.at 0) cC
  let q := fadd (d.at 1) (fmul (d.at 2) (toF32 (quantOct (d.at 3) cC rem)) f1200) (quantBest (d.at 4) tq rem)
  if tq.auth then tqAuthority (d.at 5) cC q else q

/-- What `TQ.LOAD` parses (R310): the staged bytes, refused when they filled the buffer. -/
def tqParsed (tq : Tq) : Option (List Byte × List F32) :=
  if tq.sclLen < Config.sclBufBytes then parseScl (tq.sclbuf.cells tq.sclLen) else none

/-- `TQ.LOAD`'s state change and response (R310): all four writes, or none. -/
def tqLoad (tq : Tq) : Tq × Word :=
  match tqParsed tq with
  | some r => (tqInstall tq ([f0] ++ r.2 ++ [f1200]) r.1, 1)
  | none => (tq, 0)

/-- The words of `TQ.GETDESC` (R316, 30_encoding.md R83): the length, then one byte per word. -/
def tqDescWords (tq : Tq) : List Word :=
  BitVec.ofNat 32 tq.descLen :: (tq.desc.take tq.descLen).map fun b => BitVec.setWidth 32 b

/-- `TQ.SETDEF` (R300): tuning 0. -/
def execTqSetdef (s : State) : Host.Outcome State Fault Refusal := .next { s with tq := tqInstallTuning s.tq 0 }.retire

/-- `TQ.SETTUNING` (R301). -/
def execTqSettuning (id : Nat) (s : State) : Host.Outcome State Fault Refusal :=
  .next (s.withSel (selTuning id) fun id => { s with tq := tqInstallTuning s.tq id }.retire)

/-- `TQ.SCLCLR` (R302): the staged bytes are not erased. -/
def execTqSclclr (s : State) : Host.Outcome State Fault Refusal := .next { s with tq := { s.tq with sclLen := 0 } }.retire

/-- `TQ.SCLB` (R303). -/
def execTqSclb (byte : Byte) (s : State) : Host.Outcome State Fault Refusal :=
  .next { s with tq := tqStage s.tq byte }.retire

/-- `TQ.QUANT` (R304). -/
def execTqQuant (cents : F32) (s : State) : Host.Outcome State Fault Refusal :=
  .next (s.respond [tqQuantize s.draw s.tq cents]).retire

/-- `TQ.LOAD` (R310). -/
def execTqLoad (s : State) : Host.Outcome State Fault Refusal :=
  .next ({ s with tq := (tqLoad s.tq).1 }.respond [(tqLoad s.tq).2]).retire

/-- `TQ.GETDESC` (R316). -/
def execTqGetdesc (s : State) : Host.Outcome State Fault Refusal := .next (s.respond (tqDescWords s.tq)).retire

end Sys2Proof.Machine
end

