-- ==== Sys2Proof/Machine/Biquad.lean ====
section
/-! DEFINITION. BQ, the biquad filters (42_biquad.md). -/

namespace Sys2Proof.Machine

/-- The numerator and denominator of R151 before the division by `a0`. -/
structure BqRaw where
  b0 : F32
  b1 : F32
  b2 : F32
  a0 : F32
  a1 : F32
  a2 : F32
deriving DecidableEq, Repr

/-- R151, type 0. -/
def bqLowpass (d : Draw) (cs alpha : F32) : BqRaw :=
  let b0 := fdiv (d.at 0) (fsub (d.at 1) f1 cs) f2
  { b0 := b0, b1 := fsub (d.at 2) f1 cs, b2 := b0,
    a0 := fadd (d.at 3) f1 alpha, a1 := fmul (d.at 4) fm2 cs, a2 := fsub (d.at 5) f1 alpha }

/-- R151, type 1, with the amplitude `A`. -/
def bqPeaking (d : Draw) (cs alpha A : F32) : BqRaw :=
  { b0 := fadd (d.at 0) f1 (fmul (d.at 1) alpha A), b1 := fmul (d.at 2) fm2 cs,
    b2 := fsub (d.at 3) f1 (fmul (d.at 4) alpha A),
    a0 := fadd (d.at 5) f1 (fdiv (d.at 6) alpha A), a1 := fmul (d.at 7) fm2 cs,
    a2 := fsub (d.at 8) f1 (fdiv (d.at 9) alpha A) }

/-- R151, type 2, with the amplitude `A`. -/
def bqHighShelf (d : Draw) (cs alpha A : F32) : BqRaw :=
  let k := fmul (d.at 0) (fmul (d.at 1) f2 (fsqrt (d.at 2) A)) alpha
  let Ap := fadd (d.at 3) A f1
  let Am := fsub (d.at 4) A f1
  { b0 := fmul (d.at 5) A (fadd (d.at 6) (fadd (d.at 7) Ap (fmul (d.at 8) Am cs)) k)
    b1 := fmul (d.at 9) (fmul (d.at 10) fm2 A) (fadd (d.at 11) Am (fmul (d.at 12) Ap cs))
    b2 := fmul (d.at 13) A (fsub (d.at 14) (fadd (d.at 15) Ap (fmul (d.at 16) Am cs)) k)
    a0 := fadd (d.at 17) (fsub (d.at 18) Ap (fmul (d.at 19) Am cs)) k
    a1 := fmul (d.at 20) f2 (fsub (d.at 21) Am (fmul (d.at 22) Ap cs))
    a2 := fsub (d.at 23) (fsub (d.at 24) Ap (fmul (d.at 25) Am cs)) k }

/-- `A <- NUM.pow10(g /f 40.0)` (R151). -/
def bqAmplitude (d : Draw) (g : F32) : F32 := Config.num.pow10 (fdiv d g f40)

/-- The six raw coefficients from the cosine and sine of `w0` (R151). -/
def bqRaw (d : Draw) (kind : FilterKind) (cs sn g q : F32) : BqRaw :=
  let alpha := fdiv (d.at 0) sn (fmul (d.at 1) f2 q)
  match kind with
  | .lowpass => bqLowpass (d.at 2) cs alpha
  | .peaking => bqPeaking (d.at 2) cs alpha (bqAmplitude (d.at 3) g)
  | .highShelf => bqHighShelf (d.at 2) cs alpha (bqAmplitude (d.at 3) g)

/-- The division by `a0` (R151), into the registers of `p`. -/
def bqNormalise (d : Draw) (p : BqParams) (r : BqRaw) : BqParams :=
  { p with
    b0 := fdiv (d.at 0) r.b0 r.a0, b1 := fdiv (d.at 1) r.b1 r.a0, b2 := fdiv (d.at 2) r.b2 r.a0,
    a1 := fdiv (d.at 3) r.a1 r.a0, a2 := fdiv (d.at 4) r.a2 r.a0 }

/-- The clamped frequency of R151. -/
def bqClampFreq (d : Draw) (f sr : F32) : F32 := fclamp f Config.bqFMin (fmul d Config.bqFMaxFrac sr)

/-- The angle `w0` of R151. -/
def bqAngle (d : Draw) (fC sr : F32) : F32 := fdiv (d.at 0) (fmul (d.at 1) fTwoPi fC) sr

/-- `bqCoef(type, f, g, q, sr)` (R151): the frequency register and the five coefficient registers of `p`, whose type, gain
and q are already those asked for. -/
def bqCoef (d : Draw) (p : BqParams) (f sr : F32) : BqParams :=
  let fC := bqClampFreq (d.at 0) f sr
  let w0 := bqAngle (d.at 1) fC sr
  bqNormalise (d.at 2) { p with f := fC } (bqRaw (d.at 3) p.kind (Config.num.cos w0) (Config.num.sin w0) p.g p.q)

/-- `BQ.SETLP` on one instance (R154). -/
def bqSetLp (d : Draw) (p : BqParams) (freq q sr : F32) : BqParams :=
  bqCoef d { p with kind := .lowpass, g := f0, q := fclamp q Config.bqQMin Config.bqQMax } freq sr

/-- `BQ.SETPK` and `BQ.SETHS` on one instance (R155, R156). -/
def bqSetGain (d : Draw) (kind : FilterKind) (p : BqParams) (freq gainDb q sr : F32) : BqParams :=
  bqCoef d
    { p with kind := kind, g := fclamp gainDb Config.bqGainMinDb Config.bqGainMaxDb, q := fclamp q Config.bqQMin Config.bqQMax }
    freq sr

/-- Recomputation of every instance at a tape configure (R152). -/
def bqRecompute (d : Draw) (bq : Four BqParams) (srC : F32) : Four BqParams :=
  { i0 := bqCoef (d.at 0) bq.i0 bq.i0.f srC, i1 := bqCoef (d.at 1) bq.i1 bq.i1.f srC,
    i2 := bqCoef (d.at 2) bq.i2 bq.i2.f srC, i3 := bqCoef (d.at 3) bq.i3 bq.i3.f srC }

/-- `bqProcess(c, j, x)` (R157), transposed direct form II, on one instance's parameters and one history. -/
def bqProcess (d : Draw) (p : BqParams) (h : BqHist) (x : F32) : BqHist × F32 :=
  let y := fadd (d.at 0) (fmul (d.at 1) p.b0 x) h.z1
  ({ z1 := fadd (d.at 2) (fsub (d.at 3) (fmul (d.at 4) p.b1 x) (fmul (d.at 5) p.a1 y)) h.z2
     z2 := fsub (d.at 6) (fmul (d.at 7) p.b2 x) (fmul (d.at 8) p.a2 y) }, y)

/-- Replace the history of instance `j`, channel `c`. -/
def State.setHist (s : State) (c : Chan) (j : Fin 4) (h : BqHist) : State :=
  { s with bqh := s.bqh.set c ((s.bqh.get c).set j h) }

/-- Replace the parameters of instance `j`. -/
def State.setBq (s : State) (j : Fin 4) (p : BqParams) : State := { s with bq := s.bq.set j p }

/-- `BQ.RST` (R153). -/
def execBqRst (j : Nat) (c : Chan) (s : State) : Host.Outcome State Fault Refusal :=
  .next (s.withSel (selFour j) fun j => (s.setHist c j .zero).retire)

/-- `BQ.SETLP` (R154). -/
def execBqSetlp (j : Nat) (freq q : F32) (s : State) : Host.Outcome State Fault Refusal :=
  .next (s.withSel (selFour j) fun j =>
    s.whenConfigured s.tp.cfg (s.setBq j (bqSetLp s.draw (s.bq.get j) freq q s.tp.sr)))

/-- `BQ.SETPK` (R155). -/
def execBqSetpk (j : Nat) (freq gainDb q : F32) (s : State) : Host.Outcome State Fault Refusal :=
  .next (s.withSel (selFour j) fun j =>
    s.whenConfigured s.tp.cfg (s.setBq j (bqSetGain s.draw .peaking (s.bq.get j) freq gainDb q s.tp.sr)))

/-- `BQ.SETHS` (R156). -/
def execBqSeths (j : Nat) (freq gainDb q : F32) (s : State) : Host.Outcome State Fault Refusal :=
  .next (s.withSel (selFour j) fun j =>
    s.whenConfigured s.tp.cfg (s.setBq j (bqSetGain s.draw .highShelf (s.bq.get j) freq gainDb q s.tp.sr)))

/-- `rsp(bits(bqProcess(c, j, x)))` (R157). -/
def State.bqRun (s : State) (j : Fin 4) (c : Chan) (x : F32) : State :=
  let r := bqProcess s.draw (s.bq.get j) ((s.bqh.get c).get j) x
  (s.setHist c j r.1).respond [r.2]

/-- `BQ.PROC` (R157). -/
def execBqProc (j : Nat) (c : Chan) (x : F32) (s : State) : Host.Outcome State Fault Refusal :=
  .next (s.withSel (selFour j) fun j => s.whenConfigured s.tp.cfg (s.bqRun j c x))

end Sys2Proof.Machine
end

