-- ==== Sys2Proof/Machine/Tape.lean ====
section
/-! DEFINITION. TH and TP: tape heads, modulation LFOs and the tape setters (44_tape_heads_modulation.md). -/

namespace Sys2Proof.Machine

/-- `TP.TN` at a clamped rate (R212). -/
def tpCapacity (d : Draw) (srC : F32) : Nat :=
  min (ceilI (msToSamples (d.at 0) (fmul (d.at 1) f1p2 Config.tpMaxDelayMs) srC) + 2).toNat Config.tpRamDepth

/-- Whether a head is enabled: its delay is not the sentinel 0.0 (R224). -/
def headEnabled (delayMs : F32) : Bool := !feq delayMs f0

/-- The delay and weight of a head tap before the ring (R226): the configured delay times the modulation scalar and the
speed factor, clamped to the ring. -/
def thDelay (d : Draw) (tp : Tp) (instSpeed delayMs m : F32) : Nat × F32 :=
  splitDelay (d.at 0) tp.TN
    (fmul (d.at 1) (msToSamples (d.at 2) delayMs tp.sr) (fmul (d.at 3) m instSpeed))

/-- `thRead(c, h, m)` (R226) of a head with this delay. -/
def thRead (d : Draw) (tp : Tp) (ch : TpChan) (delayMs m : F32) : F32 :=
  let r := thDelay (d.at 0) tp ch.instSpeed delayMs m
  ringTap (d.at 1) ch.buf tp.TN ch.w r.1 r.2

/-- `lfoStep(wave, ph, rw, rate)` (R228): the value, the phase and the random-walk state. -/
def lfoStep (d : Draw) (sr : F32) (wave : Waveform) (ph rw rate : F32) : F32 × F32 × F32 :=
  let ph' := phaseAdvance (d.at 0) ph rate sr
  match wave with
  | .sine => (sineAt (d.at 1) ph, ph', rw)
  | .triangle =>
    (if flt ph fHalf then fsub (d.at 1) (fmul (d.at 2) f4 ph) f1 else fsub (d.at 1) f3 (fmul (d.at 2) f4 ph), ph', rw)
  | .randomWalk =>
    let u := drawBipolar (d.at 1)
    let rw' := fclamp
      (fadd (d.at 2) rw (fmul (d.at 3) (fmul (d.at 4) u Config.params.rwStep) (fdiv (d.at 5) rate sr))) fm1 f1
    (rw', ph', rw')

/-- The clamped sum of R230: `1 + wow·wowDepth + flutter·flutterDepth + jitter` in [0.8, 1.2]. -/
def modScalar (d : Draw) (wow wowDepth flu flutDepth u : F32) : F32 :=
  let jit := fmul (d.at 0) (fmul (d.at 1) u Config.params.jitterMax) (fadd (d.at 2) wowDepth flutDepth)
  fclamp
    (fadd (d.at 3)
      (fadd (d.at 4) (fadd (d.at 5) f1 (fmul (d.at 6) wow wowDepth)) (fmul (d.at 7) flu flutDepth)) jit)
    f0p8 f1p2

/-- `tpModScalar(c)` (R230): the scalar and the channel with its LFOs advanced. -/
def tpModScalar (d : Draw) (tp : Tp) (ch : TpChan) : TpChan × F32 :=
  let wow := lfoStep (d.at 0) tp.sr tp.wowWave ch.wowPh ch.wowRW tp.wowRate
  let flu := lfoStep (d.at 1) tp.sr tp.flutWave ch.flutPh ch.flutRW tp.flutRate
  ({ ch with wowPh := wow.2.1, wowRW := wow.2.2, flutPh := flu.2.1, flutRW := flu.2.2 },
    modScalar (d.at 2) wow.1 tp.wowDepth flu.1 tp.flutDepth (drawBipolar (d.at 3)))

/-- Every biquad history of both channels zero (R213, R214). -/
def zeroHists : PerCh (Four BqHist) := PerCh.both Four.zeroHist

/-- `TP.CFG`'s state change when it reallocates (R213): rings, cursors, phases and histories zeroed, speed factor 1.0, the
four filters recomputed. -/
def State.tpReallocate (s : State) (d : Draw) (srC : F32) : State :=
  { s with
    tp := { s.tp with cfg := true, sr := srC, TN := tpCapacity (d.at 0) srC, ch := PerCh.both (TpChan.zero f1) }
    bq := bqRecompute (d.at 1) s.bq srC
    bqh := zeroHists }

/-- `TP.CFG`'s state change (R213, R101). -/
def State.tpConfigure (s : State) (d : Draw) (op : F32) : State :=
  if rateUnchanged s.tp.cfg s.tp.sr (clampRate op) then s else s.tpReallocate d (clampRate op)

/-- `TP.RST`'s state change (R214). -/
def State.tpReset (s : State) : State :=
  { s with
    tp := if s.tp.cfg then { s.tp with ch := PerCh.both (TpChan.zero f1) } else s.tp
    bqh := zeroHists }

/-- The delay `TP.SETHEADS` stores from a table entry (R222): the sentinel, or the clamped entry. -/
def headDelayOf (v : F32) : F32 := if feq v f0 then f0 else fclamp v f1 Config.tpMaxDelayMs

/-- The row `k` of `HEAD_DELAY_MS` as R222 stores it. -/
def headDelays (k : Fin 4) : Four F32 :=
  ⟨headDelayOf (Config.params.headDelayMs k 0), headDelayOf (Config.params.headDelayMs k 1),
    headDelayOf (Config.params.headDelayMs k 2), headDelayOf (Config.params.headDelayMs k 3)⟩

/-- `TP.CFG` (R213). -/
def execTpCfg (sampleRate : F32) (s : State) : Host.Outcome State Fault Refusal :=
  .next (s.tpConfigure s.draw sampleRate).retire

/-- `TP.RST` (R214). -/
def execTpRst (s : State) : Host.Outcome State Fault Refusal := .next s.tpReset.retire

/-- `TP.SETMODE` (R215): no state is cleared on either edge. -/
def execTpSetmode (enable : Nat) (s : State) : Host.Outcome State Fault Refusal :=
  .next (s.withSel (selEnable enable) fun on => { s with tp := { s.tp with mode := on } }.retire)

/-- `TP.SETWF` (R216). -/
def execTpSetwf (wowWave flutWave : Nat) (wowRate wowDepth flutRate flutDepth : F32) (s : State) :
    Host.Outcome State Fault Refusal :=
  .next (s.withSel (selWaveforms wowWave flutWave) fun w =>
    { s with
      tp := { s.tp with
        wowRate := fclamp wowRate f0p1 f5, wowDepth := fclamp wowDepth f0 Config.wfDepthMax
        flutRate := fclamp flutRate f1 f15, flutDepth := fclamp flutDepth f0 Config.wfDepthMax
        wowWave := w.1, flutWave := w.2 } }.retire)

/-- `TP.SETSAT` (R217). -/
def execTpSetsat (drive amount : F32) (s : State) : Host.Outcome State Fault Refusal :=
  .next
    { s with tp := { s.tp with drive := fclamp drive f0 Config.satDriveMax, satAmt := fclamp amount f0 f1 } }.retire

/-- `TP.SETHB` (R218): the pseudocode of `BQ.SETPK` on instance 1. -/
def execTpSethb (freq gainDb q : F32) (s : State) : Host.Outcome State Fault Refusal :=
  .next (s.whenConfigured s.tp.cfg (s.setBq 1 (bqSetGain s.draw .peaking (s.bq.get 1) freq gainDb q s.tp.sr)))

/-- `TP.SETROLL` (R219): the pseudocode of `BQ.SETLP` on instance 2. -/
def execTpSetroll (freq q : F32) (s : State) : Host.Outcome State Fault Refusal :=
  .next (s.whenConfigured s.tp.cfg (s.setBq 2 (bqSetLp s.draw (s.bq.get 2) freq q s.tp.sr)))

/-- `TP.SETAGE` (R220). -/
def execTpSetage (amount : F32) (s : State) : Host.Outcome State Fault Refusal :=
  .next { s with tp := { s.tp with aging := fclamp amount f0 f1 } }.retire

/-- `TP.SETINST` (R221). -/
def execTpSetinst (amount : F32) (s : State) : Host.Outcome State Fault Refusal :=
  .next { s with tp := { s.tp with instab := fclamp amount f0 f1 } }.retire

/-- `TP.SETHEADS` (R222): the ring is not cleared. -/
def execTpSetheads (k : Nat) (s : State) : Host.Outcome State Fault Refusal :=
  .next (s.withSel (selFour k) fun k =>
    { s with tp := { s.tp with headCfg := k, headDelay := headDelays k } }.retire)

/-- `TP.SETNOISE` (R223). -/
def execTpSetnoise (enabled : Nat) (amount : F32) (s : State) : Host.Outcome State Fault Refusal :=
  .next (s.withSel (selEnable enabled) fun on =>
    { s with tp := { s.tp with noiseEn := on, noiseAmt := fclamp amount f0 f1 } }.retire)

end Sys2Proof.Machine
end

