-- ==== Sys2Proof/Machine/TapeProcess.lean ====
section
/-! DEFINITION. `TP.PROC`, the ten-stage tape path (45_tape_process.md). Each stage ends in its finite check (R252):
`guardF y pre`, with the repair of the state the stage owns. -/

namespace Sys2Proof.Machine

/-- What one channel's tape path reads and writes: R31 and the biquad histories of the channel. -/
structure TpPath where
  ch : TpChan
  hist : Four BqHist
deriving DecidableEq, Repr

/-- Stage 0 (R253): a non-finite input is silence. -/
def tpDry (x : F32) : F32 := guardF x f0

/-- One filter stage with its check and repair (R252, R254, R258): the history is zeroed when the output is not finite. So
`TP.PROC` and a frame in tape mode do clean a poisoned biquad, as 42_biquad.md R160 says they do and 70_reset_and_hazards.md
R386, which is derived from it, says they do not: the stages' own pseudocode is followed (DEDUCED, log 25). -/
def tpFilter (d : Draw) (bq : Four BqParams) (j : Fin 4) (hist : Four BqHist) (x : F32) : Four BqHist × F32 :=
  let r := bqProcess d (bq.get j) (hist.get j) x
  if isFinite r.2 then (hist.set j r.1, r.2) else (hist.set j .zero, x)

/-- Stage 3 (R256): tape saturation. -/
def tpSaturate (d : Draw) (tp : Tp) (s1 : F32) : F32 :=
  guardF
    (fadd (d.at 0) (fmul (d.at 1) s1 (fsub (d.at 2) f1 tp.satAmt))
      (fmul (d.at 3) (Config.num.tanh (fmul (d.at 4) s1 tp.drive)) tp.satAmt))
    s1

/-- `t[h]` of R257: the tap of head `h` when it is active and enabled, else +0.0. -/
def tpTap (d : Draw) (tp : Tp) (ch : TpChan) (m : F32) (h : Fin 4) : F32 :=
  if decide (h ≤ tp.headCfg) && headEnabled (tp.headDelay.get h) then
    thRead (d.at h.val) tp ch (tp.headDelay.get h) m
  else f0

/-- Stage 4 (R257): write, tap every active head, combine, advance. -/
def tpHeads (d : Draw) (tp : Tp) (c : Chan) (ch : TpChan) (s3 m : F32) : TpChan × F32 :=
  let ch := { ch with buf := ch.buf.write ch.w s3 }
  let y := Config.params.headCombine tp.headCfg.val c (tpTap d tp ch m 0) (tpTap d tp ch m 1) (tpTap d tp ch m 2)
    (tpTap d tp ch m 3)
  ({ ch with w := ringAdvance tp.TN ch.w }, guardF y s3)

/-- Stage 6 (R260): aging. -/
def tpAging (d : Draw) (tp : Tp) (ch : TpChan) (s5 : F32) : TpChan × F32 :=
  let a2 := fmul (d.at 0) tp.aging tp.aging
  let k := Config.params.ageCoef a2 tp.sr
  let lp := fadd (d.at 1) ch.ageLp (fmul (d.at 2) k (fsub (d.at 3) s5 ch.ageLp))
  let y := fadd (d.at 4) (fmul (d.at 5) s5 (fsub (d.at 6) f1 a2)) (fmul (d.at 7) lp a2)
  let r : Nat × F32 :=
    if 0 < ch.ageDrop then (ch.ageDrop - 1, fmul (d.at 8) y Config.params.ageDropGain)
    else if flt (drawUnit (d.at 9)) (Config.params.ageDropProb tp.aging) then (Config.params.ageDropLen, y)
    else (ch.ageDrop, y)
  ({ ch with ageDrop := r.1, ageLp := if isFinite r.2 && isFinite lp then lp else f0 }, guardF r.2 s5)

/-- Stage 7 (R262): instability. The speed factor is for the next call's head taps. -/
def tpInstability (d : Draw) (tp : Tp) (ch : TpChan) (s6 : F32) : TpChan × F32 :=
  let i := tp.instab
  let la := sineAt (d.at 0) ch.instPhA
  let ls := sineAt (d.at 1) ch.instPhS
  let y := fmul (d.at 2) s6 (fadd (d.at 3) f1 (fmul (d.at 4) (fmul (d.at 5) Config.instMax i) la))
  let r : Nat × F32 :=
    if 0 < ch.instDrop then (ch.instDrop - 1, f0)
    else if flt (drawUnit (d.at 6)) (Config.params.instDropProb i) then (Config.params.instDropLen, y)
    else (ch.instDrop, y)
  ({ ch with
      instPhA := phaseAdvance (d.at 7) ch.instPhA Config.params.instRateAmp tp.sr
      instPhS := phaseAdvance (d.at 8) ch.instPhS Config.params.instRateSpeed tp.sr
      instSpeed :=
        fclamp (fadd (d.at 9) f1 (fmul (d.at 10) (fmul (d.at 11) Config.instMax i) ls)) f0p95 f1p05
      instDrop := r.1 },
    guardF r.2 s6)

/-- The seven pink-noise state values after the white sample `w` (R264). -/
def pinkStep (d : Draw) (p : Pink) (w : F32) : Pink :=
  { p0 := fadd (d.at 0) (fmul (d.at 1) 0x3F7FB54A p.p0) (fmul (d.at 2) w 0x3D6366BD)   -- 0.99886, 0.0555179
    p1 := fadd (d.at 3) (fmul (d.at 4) 0x3F7E4A38 p.p1) (fmul (d.at 5) w 0x3D99C165)   -- 0.99332, 0.0750759
    p2 := fadd (d.at 6) (fmul (d.at 7) 0x3F781062 p.p2) (fmul (d.at 8) w 0x3E1D8B61)   -- 0.96900, 0.1538520
    p3 := fadd (d.at 9) (fmul (d.at 10) 0x3F5DD2F2 p.p3) (fmul (d.at 11) w 0x3E9EF7F8) -- 0.86650, 0.3104856
    p4 := fadd (d.at 12) (fmul (d.at 13) 0x3F0CCCCD p.p4) (fmul (d.at 14) w 0x3F086F8E) -- 0.55000, 0.5329522
    p5 := fsub (d.at 15) (fmul (d.at 16) 0xBF42F838 p.p5) (fmul (d.at 17) w 0x3C8A6DAD) -- -0.7616, 0.0168980
    p6 := fmul (d.at 18) w 0x3DED6A9C }                                                -- 0.115926

/-- `pink` of R264: the six new section values, the OLD `p[6]`, and the direct term (0.5362). -/
def pinkSum (d : Draw) (p : Pink) (p6 w : F32) : F32 :=
  fadd (d.at 0)
    (fadd (d.at 1)
      (fadd (d.at 2) (fadd (d.at 3) (fadd (d.at 4) (fadd (d.at 5) (fadd (d.at 6) p.p0 p.p1) p.p2) p.p3) p.p4) p.p5) p6)
    (fmul (d.at 7) w 0x3F094467)

/-- One hum partial of R264, `HUM_LEVEL[n] *f NUM.sin(TWO_PI *f (toF32(n + 1) *f TP.humPh[c]))`. -/
def humPartial (d : Draw) (n : Fin 3) (humPh : F32) : F32 :=
  fmul (d.at 0) (Config.params.humLevel n) (sineAt (d.at 1) (fmul (d.at 2) (toF32 (n.val + 1)) humPh))

/-- The noise sample of R264 before its clamp. -/
def noiseSum (d : Draw) (noiseAmt pink hum art rum : F32) : F32 :=
  fmul (d.at 0)
    (fadd (d.at 1) (fadd (d.at 2) (fadd (d.at 3) (fmul (d.at 4) Config.params.pinkLevel pink) hum) art) rum)
    noiseAmt

/-- The hard clamp of R264. -/
def noiseClamp (n : F32) : F32 :=
  fclamp n (fsub noDraw f0 Config.params.noiseClamp) Config.params.noiseClamp

/-- Stage 8 (R264): additive noise; nothing at all happens with the noise disabled. -/
def tpNoise (d : Draw) (tp : Tp) (ch : TpChan) (s7 : F32) : TpChan × F32 :=
  if tp.noiseEn then
    let w := drawBipolar (d.at 0)
    let p := pinkStep (d.at 1) ch.pk w
    let pink := pinkSum (d.at 2) p ch.pk.p6 w
    let hum := fadd (d.at 3) (fadd (d.at 4) (humPartial (d.at 5) 0 ch.humPh) (humPartial (d.at 6) 1 ch.humPh))
      (humPartial (d.at 7) 2 ch.humPh)
    let rum := fmul (d.at 8) Config.params.rumbleLevel (sineAt (d.at 9) ch.rumPh)
    let art :=
      if flt (drawUnit (d.at 10)) Config.params.artifactProb then
        fmul (d.at 11) Config.params.artifactLevel (drawSign (d.at 12))
      else f0
    ({ ch with
        pk := p
        humPh := phaseAdvance (d.at 13) ch.humPh Config.params.humFreq tp.sr
        rumPh := phaseAdvance (d.at 14) ch.rumPh Config.params.rumbleFreq tp.sr },
      guardF (fadd (d.at 15) s7 (noiseClamp (noiseSum (d.at 16) tp.noiseAmt pink hum art rum))) s7)
  else (ch, s7)

/-- Stage 9 (R266): stereo decorrelation. -/
def tpDecorrelate (d : Draw) (tp : Tp) (c : Chan) (ch : TpChan) (s8 : F32) : TpChan × F32 :=
  let v := sineAt (d.at 0) (fadd (d.at 1) ch.decPh (Config.params.decorrOffset c))
  ({ ch with decPh := phaseAdvance (d.at 2) ch.decPh Config.params.decorrRate tp.sr },
    guardF (fmul (d.at 3) s8 (fadd (d.at 4) f1 (fmul (d.at 5) Config.params.decorrDepth v))) s8)

/-- Stage 10 (R268): the soft limiter. -/
def tpLimit (s9 : F32) : F32 := guardF (Config.num.tanh s9) f0

/-- Stages 0 to 5 of `tpProcess` (R251): to the output of the equaliser. -/
def tpFront (d : Draw) (tp : Tp) (bq : Four BqParams) (c : Chan) (p : TpPath) (x : F32) : TpPath × F32 :=
  let s1 := tpFilter (d.at 0) bq 0 p.hist (tpDry x)
  let m := tpModScalar (d.at 1) tp p.ch
  let s4 := tpHeads (d.at 2) tp c m.1 (tpSaturate (d.at 3) tp s1.2) m.2
  let a := tpFilter (d.at 4) bq 1 s1.1 s4.2
  let b := tpFilter (d.at 5) bq 2 a.1 a.2
  let s5 := tpFilter (d.at 6) bq 3 b.1 b.2
  (⟨s4.1, s5.1⟩, s5.2)

/-- Stages 6 to 9 of `tpProcess` (R251). -/
def tpBack (d : Draw) (tp : Tp) (c : Chan) (ch : TpChan) (s5 : F32) : TpChan × F32 :=
  let s6 := tpAging (d.at 0) tp ch s5
  let s7 := tpInstability (d.at 1) tp s6.1 s6.2
  let s8 := tpNoise (d.at 2) tp s7.1 s7.2
  tpDecorrelate (d.at 3) tp c s8.1 s8.2

/-- `tpProcess(c, x)` (R251). -/
def tpProcess (d : Draw) (tp : Tp) (bq : Four BqParams) (c : Chan) (p : TpPath) (x : F32) : TpPath × F32 :=
  let front := tpFront (d.at 0) tp bq c p x
  let back := tpBack (d.at 1) tp c front.1.ch front.2
  (⟨back.1, front.1.hist⟩, tpLimit back.2)

/-- The tape path of channel `c`. -/
def State.tpPath (s : State) (c : Chan) : TpPath := ⟨s.tp.ch.get c, s.bqh.get c⟩

/-- Write the tape path of channel `c` back. -/
def State.setTpPath (s : State) (c : Chan) (p : TpPath) : State :=
  { s with tp := { s.tp with ch := s.tp.ch.set c p.ch }, bqh := s.bqh.set c p.hist }

/-- `tpProcess(c, x)` on the whole state, or the operand unchanged with the mode off (R250). -/
def State.tpThrough (s : State) (d : Draw) (c : Chan) (x : F32) : State × F32 :=
  if s.tp.mode then
    let r := tpProcess d s.tp s.bq c (s.tpPath c) x
    (s.setTpPath c r.1, r.2)
  else (s, x)

/-- `TP.PROC`'s state change and response (R250). -/
def State.tpRun (s : State) (c : Chan) (x : F32) : State :=
  let r := s.tpThrough s.draw c x
  r.1.respond [r.2]

/-- `TP.PROC` (R250). -/
def execTpProc (c : Chan) (x : F32) (s : State) : Host.Outcome State Fault Refusal :=
  .next (s.whenConfigured s.tp.cfg (s.tpRun c x))

end Sys2Proof.Machine
end

