-- ==== Sys2Proof/Machine/Router.lean ====
section
/-! DEFINITION. RT, the signal router (47_router.md): compositions of the procedures of the units (R331). -/

namespace Sys2Proof.Machine

/-- The cross-feedback history and the poll counter cleared (R332, R333). -/
def rtClear (rt : Rt) : Rt := { rt with prevDelayed := PerCh.both f0, pollCnt := 0 }

/-- Whether one of the three units is not yet configured at the clamped rate, so that `RT.CFG` reallocates it (R332). -/
def State.rtReallocates (s : State) (op : F32) : Bool :=
  !(rateUnchanged s.dl.cfg s.dl.sr (clampRate op) && rateUnchanged s.ps.cfg s.ps.sr (clampRate op) &&
    rateUnchanged s.tp.cfg s.tp.sr (clampRate op))

/-- `DL.CFG`, `PS.CFG`, `TP.CFG` with one operand (R332). -/
def State.rtConfigureUnits (s : State) (d : Draw) (op : F32) : State :=
  { s with dl := dlConfigure (d.at 0) s.dl op, ps := psConfigure s.ps op }.tpConfigure (d.at 1) op

/-- `RT.CFG`'s state change (R332). -/
def State.rtConfigure (s : State) (d : Draw) (op : F32) : State :=
  let s' := s.rtConfigureUnits d op
  if s.rtReallocates op then { s' with rt := rtClear s'.rt } else s'

/-- `RT.RST`'s state change (R333). -/
def State.rtReset (s : State) : State :=
  { s with dl := dlReset s.dl, ps := psReset s.ps, rt := rtClear s.rt }.tpReset

/-- The pitch request of `RT.SETPITCH` (R335): quantized when asked. -/
def rtCents (d : Draw) (tq : Tq) (quantize : Bool) (cents : F32) : F32 :=
  if quantize then tqQuantize d tq cents else cents

/-- `RT.SETPITCH`'s state change (R335). -/
def State.rtSetPitch (s : State) (quantize : Bool) (cents : F32) : State :=
  { s with
    rt := { s.rt with quantEn := quantize }
    ps := psSetPitch (s.draw.at 0) s.ps (rtCents (s.draw.at 1) s.tq quantize cents) }

/-- One channel of a frame (R336): Pitch, Cross-feedback, Delay, Tape, each checked by the router (R338). -/
def State.rtChannel (s : State) (d : Draw) (c : Chan) (x : F32) : State × F32 :=
  let xin := guardF x f0
  let pr := psProcess (d.at 0) s.ps (s.ps.ch.get c) xin
  let p := guardF pr.2 xin
  let xfb := fmul (d.at 1) s.rt.xfbAmt (s.rt.prevDelayed.get (otherChan c))
  let dr := dlProcess (d.at 2) s.dl (s.dl.ch.get c) p xfb
  { s with
    ps := { s.ps with ch := s.ps.ch.set c pr.1 }
    dl := { s.dl with ch := s.dl.ch.set c dr.1 } }.tpThrough (d.at 3) c (guardF dr.2 p)

/-- The cross-feedback history after a frame (R340): both channels' taps, a non-finite one as +0.0. -/
def rtHistory (dl : Dl) : PerCh F32 := ⟨guardF dl.ch.c0.delayed f0, guardF dl.ch.c1.delayed f0⟩

/-- The end of a frame (R340, R341): the history is written and every `AUTH_POLL_PERIOD`-th frame latches the authority's
answer. -/
def State.rtFinish (s : State) (d : Draw) : State :=
  let due := decide (s.rt.pollCnt + 1 = Config.authPollPeriod)
  { s with
    rt := { s.rt with prevDelayed := rtHistory s.dl, pollCnt := if due then 0 else s.rt.pollCnt + 1 }
    tq := { s.tq with auth := if due then Config.authConnected d.step d.path else s.tq.auth } }

/-- `RT.FRAME`'s state change and responses (R336): channel 0, then channel 1. -/
def State.rtRun (s : State) (x0 x1 : F32) : State :=
  let r0 := s.rtChannel (s.draw.at 0) .ch0 x0
  let r1 := r0.1.rtChannel (s.draw.at 1) .ch1 x1
  (r1.1.rtFinish (s.draw.at 2)).respond [r0.2, r1.2]

/-- `RT.CFG` (R332). -/
def execRtCfg (sampleRate : F32) (s : State) : Host.Outcome State Fault Refusal :=
  .next (s.rtConfigure s.draw sampleRate).retire

/-- `RT.RST` (R333). -/
def execRtRst (s : State) : Host.Outcome State Fault Refusal := .next s.rtReset.retire

/-- `RT.SETXFB` (R334). -/
def execRtSetxfb (amount : F32) (s : State) : Host.Outcome State Fault Refusal :=
  .next { s with rt := { s.rt with xfbAmt := fclamp amount f0 f1 } }.retire

/-- `RT.SETPITCH` (R335). -/
def execRtSetpitch (quantize : Nat) (cents : F32) (s : State) : Host.Outcome State Fault Refusal :=
  .next (s.withSel (selEnable quantize) fun on => (s.rtSetPitch on cents).retire)

/-- `RT.FRAME` (R336): all three units must be configured. -/
def execRtFrame (inputCh0 inputCh1 : F32) (s : State) : Host.Outcome State Fault Refusal :=
  .next (s.whenConfigured (s.dl.cfg && s.ps.cfg && s.tp.cfg) (s.rtRun inputCh0 inputCh1))

end Sys2Proof.Machine
end

