-- ==== Sys2Proof/Machine/Sys.lean ====
section
/-! DEFINITION. SYS: the two commands of the block itself (40_lifecycle_sys.md R110, R111). -/

namespace Sys2Proof.Machine

/-- `SYS.NOP` (R110). -/
def execSysNop (s : State) : Host.Outcome State Fault Refusal := .next s.retire

/-- `SYS.STAT` (R111): `rsp(STATUS)`; it clears nothing. -/
def execSysStat (s : State) : Host.Outcome State Fault Refusal := .next (s.respond [s.status]).retire

end Sys2Proof.Machine
end

