-- ==== Sys2Proof/Machine/Dispatch.lean ====
section
/-! DEFINITION. One arm per command, each one direct call of its meaning. -/

namespace Sys2Proof.Machine

/-- The effect of a well-formed command whose words have been consumed (30_encoding.md R88). -/
def exec (i : Instr) (s : State) : Host.Outcome State Fault Refusal :=
  match i with
  | .sysNop => Sys2Proof.Machine.execSysNop s
  | .sysStat => Sys2Proof.Machine.execSysStat s
  | .dlCfg sampleRate => Sys2Proof.Machine.execDlCfg sampleRate s
  | .dlRst => Sys2Proof.Machine.execDlRst s
  | .dlSetdelay ms => Sys2Proof.Machine.execDlSetdelay ms s
  | .dlSetfb amount => Sys2Proof.Machine.execDlSetfb amount s
  | .dlSetmix mix => Sys2Proof.Machine.execDlSetmix mix s
  | .dlProc c input => Sys2Proof.Machine.execDlProc c input s
  | .dlProcXfb c input externalFeedback => Sys2Proof.Machine.execDlProcXfb c input externalFeedback s
  | .dlGetd c => Sys2Proof.Machine.execDlGetd c s
  | .dlGetw c => Sys2Proof.Machine.execDlGetw c s
  | .bqRst j c => Sys2Proof.Machine.execBqRst j c s
  | .bqSetlp j freq q => Sys2Proof.Machine.execBqSetlp j freq q s
  | .bqSetpk j freq gainDb q => Sys2Proof.Machine.execBqSetpk j freq gainDb q s
  | .bqSeths j freq gainDb q => Sys2Proof.Machine.execBqSeths j freq gainDb q s
  | .bqProc j c x => Sys2Proof.Machine.execBqProc j c x s
  | .psCfg sampleRate => Sys2Proof.Machine.execPsCfg sampleRate s
  | .psRst => Sys2Proof.Machine.execPsRst s
  | .psSetpitch cents => Sys2Proof.Machine.execPsSetpitch cents s
  | .psSetdrift rateHz depthCents => Sys2Proof.Machine.execPsSetdrift rateHz depthCents s
  | .psProc c x => Sys2Proof.Machine.execPsProc c x s
  | .tpCfg sampleRate => Sys2Proof.Machine.execTpCfg sampleRate s
  | .tpRst => Sys2Proof.Machine.execTpRst s
  | .tpSetmode enable => Sys2Proof.Machine.execTpSetmode enable s
  | .tpSetwf wowWave flutWave wowRate wowDepth flutRate flutDepth => Sys2Proof.Machine.execTpSetwf wowWave flutWave wowRate wowDepth flutRate flutDepth s
  | .tpSetsat drive amount => Sys2Proof.Machine.execTpSetsat drive amount s
  | .tpProc c x => Sys2Proof.Machine.execTpProc c x s
  | .tpSethb freq gainDb q => Sys2Proof.Machine.execTpSethb freq gainDb q s
  | .tpSetroll freq q => Sys2Proof.Machine.execTpSetroll freq q s
  | .tpSetage amount => Sys2Proof.Machine.execTpSetage amount s
  | .tpSetinst amount => Sys2Proof.Machine.execTpSetinst amount s
  | .tpSetheads k => Sys2Proof.Machine.execTpSetheads k s
  | .tpSetnoise enabled amount => Sys2Proof.Machine.execTpSetnoise enabled amount s
  | .tqSetdef => Sys2Proof.Machine.execTqSetdef s
  | .tqSettuning id => Sys2Proof.Machine.execTqSettuning id s
  | .tqSclclr => Sys2Proof.Machine.execTqSclclr s
  | .tqSclb byte => Sys2Proof.Machine.execTqSclb byte s
  | .tqQuant cents => Sys2Proof.Machine.execTqQuant cents s
  | .tqLoad => Sys2Proof.Machine.execTqLoad s
  | .tqGetdesc => Sys2Proof.Machine.execTqGetdesc s
  | .rtCfg sampleRate => Sys2Proof.Machine.execRtCfg sampleRate s
  | .rtRst => Sys2Proof.Machine.execRtRst s
  | .rtSetxfb amount => Sys2Proof.Machine.execRtSetxfb amount s
  | .rtSetpitch quantize cents => Sys2Proof.Machine.execRtSetpitch quantize cents s
  | .rtFrame inputCh0 inputCh1 => Sys2Proof.Machine.execRtFrame inputCh0 inputCh1 s

end Sys2Proof.Machine
end

