-- ==== Sys2Proof/WellFormed.lean ====
section
/-! DEFINITION. The legal selector values of each command (30_encoding.md R85, R86 item 4). A word that breaks one is
refused by the decoder with `BAD_SEL`, so every decoded command is well-formed. -/

namespace Sys2Proof

/-- The selector checks of R86 item 4: biquad instance `j ≤ 3`, head configuration `k ≤ 3`, tuning id `≤ 10`, an enable
`≤ 1`, a waveform `≤ 2`. Every other command has no selector, or takes all 256 values (`TQ.SCLB`). -/
def Instr.wellFormed : Instr → Bool
  | .bqRst j _ => decide (j ≤ 3)
  | .bqSetlp j _ _ => decide (j ≤ 3)
  | .bqSetpk j _ _ _ => decide (j ≤ 3)
  | .bqSeths j _ _ _ => decide (j ≤ 3)
  | .bqProc j _ _ => decide (j ≤ 3)
  | .tpSetmode e => decide (e ≤ 1)
  | .tpSetwf w f _ _ _ _ => decide (w ≤ 2) && decide (f ≤ 2)
  | .tpSetheads k => decide (k ≤ 3)
  | .tpSetnoise e _ => decide (e ≤ 1)
  | .tqSettuning id => decide (id ≤ 10)
  | .rtSetpitch e _ => decide (e ≤ 1)
  | .sysNop | .sysStat | .dlCfg _ | .dlRst | .dlSetdelay _ | .dlSetfb _ | .dlSetmix _ | .dlProc _ _ | .dlProcXfb _ _ _
  | .dlGetd _ | .dlGetw _ | .psCfg _ | .psRst | .psSetpitch _ | .psSetdrift _ _ | .psProc _ _ | .tpCfg _ | .tpRst
  | .tpSetsat _ _ | .tpProc _ _ | .tpSethb _ _ _ | .tpSetroll _ _ | .tpSetage _ | .tpSetinst _ | .tqSetdef | .tqSclclr
  | .tqSclb _ | .tqQuant _ | .tqLoad | .tqGetdesc | .rtCfg _ | .rtRst | .rtSetxfb _ | .rtFrame _ _ => true

end Sys2Proof
end

