-- ==== Sys2Proof/Decode.lean ====
section
/-! DEFINITION. The decoder and the encoder (30_encoding.md R80 to R89).

The decoder reads one command from the words that have arrived and returns it with the words after it. It refuses a
malformed header by the cause of its first failing check, in the order of R88; it waits while words are missing (R359). -/

namespace Sys2Proof

/-- Bits `hi` down to `lo` of a word, as a number (00_scope.md R8). -/
def field (h : Word) (hi lo : Nat) : Nat := h.toNat / 2 ^ lo % 2 ^ (hi + 1 - lo)

/-- `CH`, bit 0 (R81). -/
def chanOf (n : Nat) : Chan := if n = 0 then .ch0 else .ch1

/-- A channel's number. -/
def chanNum : Chan → Nat
  | .ch0 => 0
  | .ch1 => 1

/-- The `SEL` column of R85. -/
inductive SelUse where
  | unused
  | upTo (max : Nat)
  | waves
deriving DecidableEq, Repr

/-- The selector values a row allows (R86 item 4). -/
def SelUse.legal : SelUse → Nat → Bool
  | .unused, _ => true
  | .upTo m, sel => decide (sel ≤ m)
  | .waves, sel => decide (sel % 4 ≤ 2) && decide (sel / 4 ≤ 2)

/-- One row of the opcode map (R85). `build` makes the command from `SEL`, the channel and the operand words. -/
structure Row where
  opc : Nat
  nargs : List Nat
  sel : SelUse
  ch : Bool
  build : Nat → Chan → List Word → Instr

/-- Operand word `k` (R82). -/
def opWord (ops : List Word) (k : Nat) : Word := ops.getD k 0

/-- Rows of SYS and DL. -/
def rowsDl : List Row :=
  [ ⟨0x00, [0], .unused, false, fun _ _ _ => .sysNop⟩,
    ⟨0x01, [0], .unused, false, fun _ _ _ => .sysStat⟩,
    ⟨0x10, [1], .unused, false, fun _ _ o => .dlCfg (opWord o 0)⟩,
    ⟨0x11, [0], .unused, false, fun _ _ _ => .dlRst⟩,
    ⟨0x12, [1], .unused, false, fun _ _ o => .dlSetdelay (opWord o 0)⟩,
    ⟨0x13, [1], .unused, false, fun _ _ o => .dlSetfb (opWord o 0)⟩,
    ⟨0x14, [1], .unused, false, fun _ _ o => .dlSetmix (opWord o 0)⟩,
    ⟨0x15, [1, 2], .unused, true,
      fun _ c o => if o.length = 1 then .dlProc c (opWord o 0) else .dlProcXfb c (opWord o 0) (opWord o 1)⟩,
    ⟨0x16, [0], .unused, true, fun _ c _ => .dlGetd c⟩,
    ⟨0x17, [0], .unused, true, fun _ c _ => .dlGetw c⟩ ]

/-- Rows of BQ and PS. -/
def rowsBqPs : List Row :=
  [ ⟨0x21, [0], .upTo 3, true, fun j c _ => .bqRst j c⟩,
    ⟨0x22, [2], .upTo 3, false, fun j _ o => .bqSetlp j (opWord o 0) (opWord o 1)⟩,
    ⟨0x23, [3], .upTo 3, false, fun j _ o => .bqSetpk j (opWord o 0) (opWord o 1) (opWord o 2)⟩,
    ⟨0x24, [3], .upTo 3, false, fun j _ o => .bqSeths j (opWord o 0) (opWord o 1) (opWord o 2)⟩,
    ⟨0x25, [1], .upTo 3, true, fun j c o => .bqProc j c (opWord o 0)⟩,
    ⟨0x30, [1], .unused, false, fun _ _ o => .psCfg (opWord o 0)⟩,
    ⟨0x31, [0], .unused, false, fun _ _ _ => .psRst⟩,
    ⟨0x32, [1], .unused, false, fun _ _ o => .psSetpitch (opWord o 0)⟩,
    ⟨0x33, [2], .unused, false, fun _ _ o => .psSetdrift (opWord o 0) (opWord o 1)⟩,
    ⟨0x35, [1], .unused, true, fun _ c o => .psProc c (opWord o 0)⟩ ]

/-- Rows of TP. -/
def rowsTp : List Row :=
  [ ⟨0x40, [1], .unused, false, fun _ _ o => .tpCfg (opWord o 0)⟩,
    ⟨0x41, [0], .unused, false, fun _ _ _ => .tpRst⟩,
    ⟨0x42, [0], .upTo 1, false, fun e _ _ => .tpSetmode e⟩,
    ⟨0x43, [4], .waves, false,
      fun s _ o => .tpSetwf (s % 4) (s / 4) (opWord o 0) (opWord o 1) (opWord o 2) (opWord o 3)⟩,
    ⟨0x44, [2], .unused, false, fun _ _ o => .tpSetsat (opWord o 0) (opWord o 1)⟩,
    ⟨0x45, [1], .unused, true, fun _ c o => .tpProc c (opWord o 0)⟩,
    ⟨0x46, [3], .unused, false, fun _ _ o => .tpSethb (opWord o 0) (opWord o 1) (opWord o 2)⟩,
    ⟨0x47, [2], .unused, false, fun _ _ o => .tpSetroll (opWord o 0) (opWord o 1)⟩,
    ⟨0x48, [1], .unused, false, fun _ _ o => .tpSetage (opWord o 0)⟩,
    ⟨0x49, [1], .unused, false, fun _ _ o => .tpSetinst (opWord o 0)⟩,
    ⟨0x4A, [0], .upTo 3, false, fun k _ _ => .tpSetheads k⟩,
    ⟨0x4B, [1], .upTo 1, false, fun e _ o => .tpSetnoise e (opWord o 0)⟩ ]

/-- Rows of TQ and RT. -/
def rowsTqRt : List Row :=
  [ ⟨0x51, [0], .unused, false, fun _ _ _ => .tqSetdef⟩,
    ⟨0x52, [0], .upTo 10, false, fun id _ _ => .tqSettuning id⟩,
    ⟨0x53, [0], .unused, false, fun _ _ _ => .tqSclclr⟩,
    ⟨0x54, [0], .upTo 255, false, fun b _ _ => .tqSclb (BitVec.ofNat 8 b)⟩,
    ⟨0x55, [1], .unused, false, fun _ _ o => .tqQuant (opWord o 0)⟩,
    ⟨0x56, [0], .unused, false, fun _ _ _ => .tqLoad⟩,
    ⟨0x57, [0], .unused, false, fun _ _ _ => .tqGetdesc⟩,
    ⟨0x60, [1], .unused, false, fun _ _ o => .rtCfg (opWord o 0)⟩,
    ⟨0x61, [0], .unused, false, fun _ _ _ => .rtRst⟩,
    ⟨0x62, [1], .unused, false, fun _ _ o => .rtSetxfb (opWord o 0)⟩,
    ⟨0x63, [1], .upTo 1, false, fun e _ o => .rtSetpitch e (opWord o 0)⟩,
    ⟨0x65, [2], .unused, false, fun _ _ o => .rtFrame (opWord o 0) (opWord o 1)⟩ ]

/-- The opcode map (R85). -/
def opcodeMap : List Row := rowsDl ++ rowsBqPs ++ rowsTp ++ rowsTqRt

/-- The row of an opcode byte. -/
def rowOf (opc : Nat) : Option Row := opcodeMap.find? fun r => r.opc == opc

/-- What the words that have arrived say. -/
inductive Decoded where
  /-- A well-formed command, and the words after it. -/
  | ok (i : Instr) (rest : List Word)
  /-- A malformed header. -/
  | bad (cause : Cause)
  /-- A word of the command has not arrived. -/
  | wait
deriving DecidableEq, Repr

/-- `RZ1` or `RZ0` is non-zero, or a field the row does not use is (R86 item 3). -/
def reservedNonzero (r : Row) (h : Word) : Bool :=
  decide (field h 19 16 ≠ 0) || decide (field h 7 1 ≠ 0) || (!r.ch && decide (field h 0 0 ≠ 0)) ||
    (decide (r.sel = .unused) && decide (field h 15 8 ≠ 0))

/-- The checks of R88 in their order, and the operand words. -/
def decode : List Word → Decoded
  | [] => .wait
  | h :: ops =>
    match rowOf (field h 31 24) with
    | none => .bad .illegalCommand
    | some r =>
      let narg := field h 23 20
      let sel := field h 15 8
      if r.nargs.contains narg = false then .bad .badNarg
      else if reservedNonzero r h = true then .bad .reservedNonzero
      else if r.sel.legal sel = false then .bad .badSel
      else if ops.length < narg then .wait
      else .ok (r.build sel (chanOf (field h 0 0)) (ops.take narg)) (ops.drop narg)

/-- A header word (R89). -/
def headerWord (opc narg sel ch : Nat) : Word := BitVec.ofNat 32 (opc * 2 ^ 24 + narg * 2 ^ 20 + sel * 2 ^ 8 + ch)

/-- The header fields `OPC`, `SEL`, `CH` and the operand words of a command (R85). -/
def Instr.parts : Instr → Nat × Nat × Nat × List Word
  | .sysNop => (0x00, 0, 0, [])
  | .sysStat => (0x01, 0, 0, [])
  | .dlCfg sr => (0x10, 0, 0, [sr])
  | .dlRst => (0x11, 0, 0, [])
  | .dlSetdelay ms => (0x12, 0, 0, [ms])
  | .dlSetfb a => (0x13, 0, 0, [a])
  | .dlSetmix m => (0x14, 0, 0, [m])
  | .dlProc c x => (0x15, 0, chanNum c, [x])
  | .dlProcXfb c x xfb => (0x15, 0, chanNum c, [x, xfb])
  | .dlGetd c => (0x16, 0, chanNum c, [])
  | .dlGetw c => (0x17, 0, chanNum c, [])
  | .bqRst j c => (0x21, j, chanNum c, [])
  | .bqSetlp j f q => (0x22, j, 0, [f, q])
  | .bqSetpk j f g q => (0x23, j, 0, [f, g, q])
  | .bqSeths j f g q => (0x24, j, 0, [f, g, q])
  | .bqProc j c x => (0x25, j, chanNum c, [x])
  | .psCfg sr => (0x30, 0, 0, [sr])
  | .psRst => (0x31, 0, 0, [])
  | .psSetpitch cents => (0x32, 0, 0, [cents])
  | .psSetdrift rate depth => (0x33, 0, 0, [rate, depth])
  | .psProc c x => (0x35, 0, chanNum c, [x])
  | .tpCfg sr => (0x40, 0, 0, [sr])
  | .tpRst => (0x41, 0, 0, [])
  | .tpSetmode e => (0x42, e, 0, [])
  | .tpSetwf w f wr wd fr fd => (0x43, w + 4 * f, 0, [wr, wd, fr, fd])
  | .tpSetsat d a => (0x44, 0, 0, [d, a])
  | .tpProc c x => (0x45, 0, chanNum c, [x])
  | .tpSethb f g q => (0x46, 0, 0, [f, g, q])
  | .tpSetroll f q => (0x47, 0, 0, [f, q])
  | .tpSetage a => (0x48, 0, 0, [a])
  | .tpSetinst a => (0x49, 0, 0, [a])
  | .tpSetheads k => (0x4A, k, 0, [])
  | .tpSetnoise e a => (0x4B, e, 0, [a])
  | .tqSetdef => (0x51, 0, 0, [])
  | .tqSettuning id => (0x52, id, 0, [])
  | .tqSclclr => (0x53, 0, 0, [])
  | .tqSclb b => (0x54, b.toNat, 0, [])
  | .tqQuant cents => (0x55, 0, 0, [cents])
  | .tqLoad => (0x56, 0, 0, [])
  | .tqGetdesc => (0x57, 0, 0, [])
  | .rtCfg sr => (0x60, 0, 0, [sr])
  | .rtRst => (0x61, 0, 0, [])
  | .rtSetxfb a => (0x62, 0, 0, [a])
  | .rtSetpitch e cents => (0x63, e, 0, [cents])
  | .rtFrame x0 x1 => (0x65, 0, 0, [x0, x1])

/-- The words of a command (R80, R89). -/
def encode (i : Instr) : List Word :=
  let (opc, sel, ch, ops) := i.parts
  headerWord opc ops.length sel ch :: ops

/-- The five words of a command given as one number, its first word lowest and every bit from `nbits` up zero. -/
def wordsOf (nbits w : Nat) : List Word :=
  (List.range 5).map fun k => BitVec.ofNat 32 (w % 2 ^ nbits / 2 ^ (32 * k))

/-- The command the decoder reads from the words of `w`. -/
def decodeTableWord (nbits w : Nat) : Option Instr :=
  match decode (wordsOf nbits w) with
  | .ok i _ => some i
  | .bad _ => none
  | .wait => none

end Sys2Proof
end

