-- ==== Sys2Proof/Machine/Fetch.lean ====
section
/-! DEFINITION. The prologue of every command (30_encoding.md R88) on the words of `CMD`. -/

namespace Sys2Proof.Machine

/-- What the prologue finds at the head of `CMD`. -/
inductive Fetched where
  /-- A command to execute, in the state whose `CMD` starts after it. -/
  | run (i : Instr) (s : State)
  /-- The step ends here: a halted block's ignored word, or a raise (R353, R352). -/
  | done (s : State)
  /-- No word has arrived (R24). -/
  | noWord
  /-- An operand word has not arrived (R359). -/
  | noOperand
deriving DecidableEq, Repr

/-- The exact header of a well-formed `SYS.STAT`, answered before every check (R88). -/
def statWord : Word := 0x01000000

/-- The prologue of R88: `SYS.STAT` first, then the halt test, then the format checks. -/
def fetch (s : State) : Fetched :=
  match s.cmd with
  | [] => .noWord
  | h :: rest =>
    if h = statWord then .run .sysStat { s with cmd := rest }
    else if s.faulted then .done { s with cmd := rest }
    else
      match decode (h :: rest) with
      | .ok i after => .run i { s with cmd := after }
      | .bad cause => .done ({ s with cmd := rest }.raise cause)
      | .wait => .noOperand

/-- `CMD` with the five words of a command in front. -/
def prependWords (ws : List Word) (s : State) : State := { s with cmd := ws ++ s.cmd }

end Sys2Proof.Machine
end

