-- ==== Sys2Proof/Machine/Step.lean ====
section
/-! DEFINITION. One step of the block: one whole command, atomically (00_scope.md R13), or one ignored word of a halted
block (60_exceptions.md R353). -/

namespace Sys2Proof.Machine

/-- One step: the prologue (30_encoding.md R88), then the command's meaning. With a word missing there is no step to take:
the block waits (R24, R359; log 1). -/
def step (s : State) : Host.Outcome State Fault Refusal :=
  match fetch s with
  | .run i s' => exec i s'
  | .done s' => .next s'
  | .noWord => .fault .awaitingCommand
  | .noOperand => .fault .awaitingOperands

/-- `s` with the instruction of `w` at the head of `CMD`, as if the host had sent its words next (log 2). -/
def State.withFetchWord (s : State) (nbits w : Nat) : State := prependWords (wordsOf nbits w) s

end Sys2Proof.Machine
end

