-- ==== Sys2Proof/Safety.lean ====
section
/-! DEFINITION. The terms claims are stated in: the invariants of 10_state.md's legal ranges, what is parameter and what is
dynamic state (R21), and what a program can observe (R34, R381). -/

namespace Sys2Proof.Machine

/-- `lo ≤ v ≤ hi` on binary32 values; false on NaN. -/
def between (lo hi v : F32) : Bool := fle lo v && fle v hi

/-- A phase in cycles, in [0.0, 1.0). -/
def isPhase (v : F32) : Bool := fle f0 v && flt v f1

/-- A property of both channels' copies. -/
def PerCh.all {α : Type} (f : α → Bool) (p : PerCh α) : Bool := f p.c0 && f p.c1

/-- A property of all four copies. -/
def Four.all {α : Type} (f : α → Bool) (p : Four α) : Bool := f p.i0 && f p.i1 && f p.i2 && f p.i3

/-! ### Memories -/

/-- A memory in canonical form with cells below `n` only. -/
def memOk {w : Nat} (n : Nat) (m : Memory w) : Bool := m.wf && m.below n

/-- The memories of one pitch-shifter channel. -/
def PsChan.memOk (ch : PsChan) : Bool :=
  Machine.memOk Config.fftSize ch.inp && Machine.memOk Config.fftSize ch.out &&
    Machine.memOk (psNyquist + 1) ch.lastPhase && Machine.memOk (psNyquist + 1) ch.synPhase

/-- Every memory is in canonical form and lists no cell outside its capacity (20_memory.md R60, R61). -/
def State.memoriesOk (s : State) : Bool :=
  s.dl.ch.all (fun ch => memOk s.dl.N ch.buf) && s.ps.ch.all PsChan.memOk &&
    s.tp.ch.all (fun ch => memOk s.tp.TN ch.buf) && memOk Config.sclBufBytes s.tq.sclbuf

/-! ### Cursors and counters (R26, R29, R31, R33) -/

/-- The cursors and the hop counter of one pitch-shifter channel (R29). -/
def PsChan.cursorsOk (ch : PsChan) : Bool :=
  decide (ch.iw < Config.fftSize) && decide (ch.ow < Config.fftSize) && decide (ch.hopCnt < Config.hop)

/-- R26, R29, R31, R33: every cursor is inside its ring and every counter inside its period. -/
def State.cursorsOk (s : State) : Bool :=
  (!s.dl.cfg || s.dl.ch.all fun ch => decide (ch.w < s.dl.N)) && s.ps.ch.all PsChan.cursorsOk &&
    (!s.tp.cfg || s.tp.ch.all fun ch => decide (ch.w < s.tp.TN)) && decide (s.rt.pollCnt < Config.authPollPeriod)

/-- R25, R30: the capacity of a configured ring. -/
def State.capacitiesOk (s : State) : Bool :=
  (!s.dl.cfg || (decide (2 ≤ s.dl.N) && decide (s.dl.N ≤ Config.dlRamDepth))) &&
    (!s.tp.cfg || (decide (4 ≤ s.tp.TN) && decide (s.tp.TN ≤ Config.tpRamDepth)))

/-- The sample rate of a configured unit is in [`SR_MIN`, `SR_MAX`]. -/
def rateOk (cfg : Bool) (sr : F32) : Bool := !cfg || between Config.srMin Config.srMax sr

/-- R25, R28, R30: the three sample rates. -/
def State.ratesOk (s : State) : Bool := rateOk s.dl.cfg s.dl.sr && rateOk s.ps.cfg s.ps.sr && rateOk s.tp.cfg s.tp.sr

/-! ### Parameter registers (R21: a register never holds a value outside its legal range) -/

/-- R25 -/
def Dl.paramsOk (dl : Dl) : Bool :=
  between f1 Config.maxDelayMs dl.delayMs && between f0 f1p1 dl.fb && between f0 f1 dl.mix

/-- R28 -/
def Ps.paramsOk (ps : Ps) : Bool :=
  between Config.pitchCentsMin Config.pitchCentsMax ps.cents && flt f0 ps.ratio && between f0 Config.driftRateMax ps.driftRate &&
    between f0 Config.driftDepthMax ps.driftDepth

/-- R28: `PS.ratio = NUM.exp2(PS.cents /f 1200.0)`. -/
def Ps.ratioOk (ps : Ps) : Prop := ps.ratio = Config.num.exp2 (fdiv noDraw ps.cents f1200)

/-- R30, R224: a head's delay is 0.0 or in [1.0, `TP_MAX_DELAY_MS`]. -/
def headDelayOk (v : F32) : Bool := v == f0 || between f1 Config.tpMaxDelayMs v

/-- R30 -/
def Tp.paramsOk (tp : Tp) : Bool :=
  tp.headDelay.all headDelayOk && between f0p1 f5 tp.wowRate && between f0 Config.wfDepthMax tp.wowDepth &&
    between f1 f15 tp.flutRate && between f0 Config.wfDepthMax tp.flutDepth && between f0 Config.satDriveMax tp.drive &&
    between f0 f1 tp.satAmt && between f0 f1 tp.aging && between f0 f1 tp.instab && between f0 f1 tp.noiseAmt

/-- R27: gain and q. -/
def BqParams.gainOk (p : BqParams) : Bool :=
  between Config.bqGainMinDb Config.bqGainMaxDb p.g && between Config.bqQMin Config.bqQMax p.q

/-- R21: every parameter register is in its legal range. -/
def State.paramsOk (s : State) : Bool :=
  s.dl.paramsOk && s.ps.paramsOk && s.tp.paramsOk && s.bq.all BqParams.gainOk && between f0 f1 s.rt.xfbAmt

/-- R27: once configured, a filter's frequency is in [`BQ_F_MIN`, `BQ_F_MAX_FRAC *f TP.sr`]. -/
def State.filterFreqsOk (s : State) : Bool :=
  !s.tp.cfg || s.bq.all fun p => between Config.bqFMin (fmul noDraw Config.bqFMaxFrac s.tp.sr) p.f

/-! ### Dynamic registers -/

/-- R31: phases in [0.0, 1.0), random-walk values in [-1.0, 1.0]. -/
def TpChan.dynamicOk (ch : TpChan) : Bool :=
  isPhase ch.wowPh && isPhase ch.flutPh && between fm1 f1 ch.wowRW && between fm1 f1 ch.flutRW && isPhase ch.instPhA &&
    isPhase ch.instPhS && isPhase ch.humPh && isPhase ch.rumPh && isPhase ch.decPh

/-- R29, R31, R33: phases, random walks, the speed factor of a configured tape, the finite cross-feedback history. -/
def State.dynamicOk (s : State) : Bool :=
  s.ps.ch.all (fun ch => isPhase ch.driftPhase) && s.tp.ch.all TpChan.dynamicOk &&
    (!s.tp.cfg || s.tp.ch.all fun ch => between f0p95 f1p05 ch.instSpeed) && s.rt.prevDelayed.all isFinite

/-- R291, R292, R32: the active scale starts at 0.0, ends at 1200.0, is finite, and the lengths fit. -/
def Tq.scaleOk (tq : Tq) : Bool :=
  decide (tq.len = tq.scale.length) && decide (2 ≤ tq.len) && decide (tq.len ≤ Config.scaleMaxEntries) &&
    decide (tq.scale.head? = some f0) && decide (tq.scale.getLast? = some f1200) && tq.scale.all isFinite &&
    decide (tq.descLen = tq.desc.length) && decide (tq.descLen ≤ Config.descMaxBytes) &&
    decide (tq.sclLen ≤ Config.sclBufBytes)

/-- R23, R351: `STATUS` is 0, or has `FAULTED` set, a cause from 1 to 5 and bits 3:1 zero. -/
def State.statusOk (s : State) : Bool :=
  s.status == 0 ||
    (s.faulted && decide (1 ≤ s.cause) && decide (s.cause ≤ 5) && decide (s.status.toNat / 2 % 8 = 0))

/-- R64's precondition on a split delay (R124 (i) to (iii)). -/
def offsetOk (N dInt : Nat) (dFrac : F32) : Bool :=
  decide (1 ≤ dInt) && decide (dInt + 1 ≤ N) && fle f0 dFrac && flt dFrac f1 && (decide (dInt + 1 < N) || feq dFrac f0)

/-- R124: the read offset of a configured delay line is in range, is what `dlOffset()` gives, and its fraction is `ds - dInt`
exactly, in units of 2^-149, for the clamped delay `ds` of R123. -/
def State.dlOffsetOk (s : State) : Prop :=
  s.dl.cfg = true → offsetOk s.dl.N s.dl.dInt s.dl.dFrac = true ∧ ∀ d, dlOffset d s.dl = s.dl ∧
    let ds := fclamp (msToSamples d s.dl.delayMs s.dl.sr) f1 (toF32 ((s.dl.N : Int) - 1))
    intOf s.dl.dFrac = intOf ds - s.dl.dInt * unitsPerOne

/-! ### Parameters and dynamic state (R21) -/

/-- The parameter registers of DL, without the derived offset (R25). -/
def Dl.sameParams (a b : Dl) : Prop := b.delayMs = a.delayMs ∧ b.fb = a.fb ∧ b.mix = a.mix

/-- The registers of PS that are parameters or constants (R28). -/
def Ps.sameParams (a b : Ps) : Prop :=
  b.cents = a.cents ∧ b.ratio = a.ratio ∧ b.driftRate = a.driftRate ∧ b.driftDepth = a.driftDepth ∧ b.winA = a.winA ∧
    b.winS = a.winS

/-- `b` is `a` but for the unit's `cfg`, `sr`, capacity and dynamic state (R30). -/
def Tp.sameParams (a b : Tp) : Prop := b = { a with cfg := b.cfg, sr := b.sr, TN := b.TN, ch := b.ch }

/-! ### Observation -/

/-- The registers and memories 70_reset_and_hazards.md R381 calls unspecified after power-on may differ; every other part
of the two states is the same. They differ only in units that are not configured. -/
structure SameSpecified (s t : State) : Prop where
  cix : s.cix = t.cix
  status : s.status = t.status
  cmd : s.cmd = t.cmd
  rsp : s.rsp = t.rsp
  draws : s.draws = t.draws
  rt : s.rt = t.rt
  /-- `SCLBUF` counts only below `TQ.sclLen`. -/
  tq : s.tq = { t.tq with sclbuf := s.tq.sclbuf }
  staged : ∀ i, i < s.tq.sclLen → s.tq.sclbuf.read i = t.tq.sclbuf.read i
  bqh : s.bqh = t.bqh
  dlParams : s.dl.cfg = t.dl.cfg ∧ Dl.sameParams s.dl t.dl
  dlTaps : ∀ c, (s.dl.ch.get c).delayed = (t.dl.ch.get c).delayed
  dlUnit : s.dl.cfg = true → s.dl = t.dl
  psParams : s.ps.cfg = t.ps.cfg ∧ Ps.sameParams s.ps t.ps
  psUnit : s.ps.cfg = true → s.ps = t.ps
  tpParams : s.tp.cfg = t.tp.cfg ∧ Tp.sameParams s.tp t.tp
  tpUnit : s.tp.cfg = true → s.tp = t.tp
  /-- A filter's type, frequency, gain and q have power-on values; its coefficients do not (R27). -/
  bqParams : ∀ j, (s.bq.get j).kind = (t.bq.get j).kind ∧ (s.bq.get j).f = (t.bq.get j).f ∧
    (s.bq.get j).g = (t.bq.get j).g ∧ (s.bq.get j).q = (t.bq.get j).q
  bqUnit : s.tp.cfg = true → s.bq = t.bq

/-! ### Commands -/

/-- `UNIT` of a command's header (30_encoding.md R81): 0 SYS, 1 DL, 2 BQ, 3 PS, 4 TP, 5 TQ, 6 RT. -/
def instrUnit (i : Instr) : Nat := i.parts.1 / 16

/-- The units a command needs configured are configured (30_encoding.md R88, 60_exceptions.md R357). -/
def State.ready (s : State) : Instr → Bool
  | .dlProc _ _ | .dlProcXfb _ _ _ | .dlGetd _ | .dlGetw _ => s.dl.cfg
  | .psProc _ _ => s.ps.cfg
  | .bqSetlp _ _ _ | .bqSetpk _ _ _ _ | .bqSeths _ _ _ _ | .bqProc _ _ _ | .tpProc _ _ | .tpSethb _ _ _
  | .tpSetroll _ _ => s.tp.cfg
  | .rtFrame _ _ => s.dl.cfg && s.ps.cfg && s.tp.cfg
  | .sysNop | .sysStat | .dlCfg _ | .dlRst | .dlSetdelay _ | .dlSetfb _ | .dlSetmix _ | .bqRst _ _ | .psCfg _ | .psRst
  | .psSetpitch _ | .psSetdrift _ _ | .tpCfg _ | .tpRst | .tpSetmode _ | .tpSetwf _ _ _ _ _ _ | .tpSetsat _ _ | .tpSetage _
  | .tpSetinst _ | .tpSetheads _ | .tpSetnoise _ _ | .tqSetdef | .tqSettuning _ | .tqSclclr | .tqSclb _ | .tqQuant _
  | .tqLoad | .tqGetdesc | .rtCfg _ | .rtRst | .rtSetxfb _ | .rtSetpitch _ _ => true

/-- The channel a single-channel command acts on (30_encoding.md R85, column `CH`). -/
def instrChan : Instr → Option Chan
  | .dlProc c _ | .dlProcXfb c _ _ | .dlGetd c | .dlGetw c | .bqRst _ c | .bqProc _ c _ | .psProc c _ | .tpProc c _ => some c
  | .sysNop | .sysStat | .dlCfg _ | .dlRst | .dlSetdelay _ | .dlSetfb _ | .dlSetmix _ | .bqSetlp _ _ _ | .bqSetpk _ _ _ _
  | .bqSeths _ _ _ _ | .psCfg _ | .psRst | .psSetpitch _ | .psSetdrift _ _ | .tpCfg _ | .tpRst | .tpSetmode _
  | .tpSetwf _ _ _ _ _ _ | .tpSetsat _ _ | .tpSethb _ _ _ | .tpSetroll _ _ | .tpSetage _ | .tpSetinst _ | .tpSetheads _
  | .tpSetnoise _ _ | .tqSetdef | .tqSettuning _ | .tqSclclr | .tqSclb _ | .tqQuant _ | .tqLoad | .tqGetdesc | .rtCfg _
  | .rtRst | .rtSetxfb _ | .rtSetpitch _ _ | .rtFrame _ _ => none

/-- The commands that only reset, process or read (R102, R103, R131): they write no host parameter. -/
def keepsParams : Instr → Bool
  | .sysNop | .sysStat | .dlCfg _ | .dlRst | .dlProc _ _ | .dlProcXfb _ _ _ | .dlGetd _ | .dlGetw _ | .bqRst _ _
  | .bqProc _ _ _ | .psCfg _ | .psRst | .psProc _ _ | .tpCfg _ | .tpRst | .tpProc _ _ | .tqQuant _ | .tqGetdesc | .rtCfg _
  | .rtRst | .rtFrame _ _ => true
  | .dlSetdelay _ | .dlSetfb _ | .dlSetmix _ | .bqSetlp _ _ _ | .bqSetpk _ _ _ _ | .bqSeths _ _ _ _ | .psSetpitch _
  | .psSetdrift _ _ | .tpSetmode _ | .tpSetwf _ _ _ _ _ _ | .tpSetsat _ _ | .tpSethb _ _ _ | .tpSetroll _ _ | .tpSetage _
  | .tpSetinst _ | .tpSetheads _ | .tpSetnoise _ _ | .tqSetdef | .tqSettuning _ | .tqSclclr | .tqSclb _ | .tqLoad
  | .rtSetxfb _ | .rtSetpitch _ _ => false

/-- The state after executing commands one after the other, when each gives a next state. -/
def State.runAll (s : State) : List Instr → Option State
  | [] => some s
  | i :: is =>
    match exec i s with
    | .next t => t.runAll is
    | .fault _ => none
    | .refused _ => none

/-- Ring contents and cursor after writing values one after the other (20_memory.md R63). -/
def ringWrites (N : Nat) : Memory 32 × Nat → List F32 → Memory 32 × Nat
  | r, [] => r
  | r, v :: vs => ringWrites N (r.1.write r.2 v, ringAdvance N r.2) vs

/-- The 12-EDO scale, entries 0.0, 100.0, … 1200.0 (46_quantizer.md R300). -/
def scale12 : List F32 := (List.range 13).map fun (k : Nat) => toF32 (100 * k)

end Sys2Proof.Machine
end

