-- ==== Sys2Proof/Certificates/Slice0/Obligations.lean ====
section
/-! DEFINITION. The statements for the provers, from the numbered rules of spec/. Each docstring names the rule. Where a
statement says `∃ d : Nat → Draw`, `d k` is the place of the `k`-th rounding, whose draw matters only if it gives a NaN. -/

open Sys2Proof Sys2Proof.Machine

/-! ### Encoding (30_encoding.md) -/

/-- R81, R82, R89: decoding the words of any well-formed command gives the command back, with every operand word, selector
and channel, and leaves the words after it. -/
def Obligations.DecodeInvertsEncode : Prop :=
  ∀ (i : Instr) (rest : List Word), i.wellFormed = true → decode (encode i ++ rest) = .ok i rest

/-- R84 to R86: only the words of a well-formed command decode, so each word sequence has at most one meaning and no
reserved bit is ignored. -/
def Obligations.DecodedWordsAreEncoded : Prop :=
  ∀ (ws rest : List Word) (i : Instr), decode ws = .ok i rest → i.wellFormed = true ∧ ws = encode i ++ rest

/-- R86, R355: the first failing check of a header, in the prologue's order, is the cause reported, whatever words follow;
a header that passes them all is not refused. -/
def Obligations.HeaderChecksInOrder : Prop :=
  ∀ (h : Word) (ops : List Word),
    (rowOf (field h 31 24) = none → decode (h :: ops) = .bad .illegalCommand) ∧
    ∀ r, rowOf (field h 31 24) = some r →
      let badReserved := field h 19 16 ≠ 0 ∨ field h 7 1 ≠ 0 ∨ (r.ch = false ∧ field h 0 0 ≠ 0) ∨
        (r.sel = .unused ∧ field h 15 8 ≠ 0)
      (field h 23 20 ∉ r.nargs → decode (h :: ops) = .bad .badNarg) ∧
      (field h 23 20 ∈ r.nargs → badReserved → decode (h :: ops) = .bad .reservedNonzero) ∧
      (field h 23 20 ∈ r.nargs → ¬ badReserved → r.sel.legal (field h 15 8) = false →
        decode (h :: ops) = .bad .badSel) ∧
      (field h 23 20 ∈ r.nargs → ¬ badReserved → r.sel.legal (field h 15 8) = true →
        ∀ c, decode (h :: ops) ≠ .bad c)

/-- V-E1: words written out from the encoding of R81 and R85 decode to the commands they stand for. -/
def Obligations.WrittenWordsDecode : Prop :=
  decode [0x00000000] = .ok .sysNop [] ∧
  decode [0x15200001, 0x3F000000, 0x3E800000] = .ok (.dlProcXfb .ch1 0x3F000000 0x3E800000) [] ∧
  decode [0x25100101, 0x3F000000] = .ok (.bqProc 1 .ch1 0x3F000000) [] ∧
  decode [0x33200000, 0x3F000000, 0x40A00000] = .ok (.psSetdrift 0x3F000000 0x40A00000) [] ∧
  decode [0x43400400, 0x3F000000, 0x3C23D70A, 0x40C00000, 0x3B03126F] =
    .ok (.tpSetwf 0 1 0x3F000000 0x3C23D70A 0x40C00000 0x3B03126F) [] ∧
  decode [0x54002100] = .ok (.tqSclb 0x21) [] ∧
  decode [0x63100100, 0x43150000] = .ok (.rtSetpitch 1 0x43150000) [] ∧
  decode [0x15F00003] = .bad .badNarg ∧ decode [0x10100001] = .bad .reservedNonzero ∧
  decode [0x52000B00] = .bad .badSel ∧ decode [0x7F000000] = .bad .illegalCommand

/-! ### Steps, streams and faults (30_encoding.md R88, 60_exceptions.md) -/

/-- R88: when the words at the head of `CMD` decode to a command and the block is not halted, the step is that command's
meaning in the state whose `CMD` starts after it. Nothing else is added around it. -/
def Obligations.StepRunsDecoded : Prop :=
  ∀ (s : State) (i : Instr) (rest : List Word), s.faulted = false → decode s.cmd = .ok i rest →
    step s = exec i { s with cmd := rest }

/-- R351, R352: a malformed header is consumed alone and records its code, the low 24 bits of `cix` and `FAULTED` in
`STATUS`; nothing else changes. -/
def Obligations.MalformedHeaderFaults : Prop :=
  ∀ (s : State) (h : Word) (rest : List Word) (c : Cause), s.faulted = false → s.cmd = h :: rest →
    decode (h :: rest) = .bad c →
    ∃ st : BitVec 32, step s = .next { s with cmd := rest, status := st } ∧ st.toNat % 2 = 1 ∧ st.toNat / 2 % 8 = 0 ∧
      st.toNat / 2 ^ 8 = s.cix % 2 ^ 24 ∧
      st.toNat / 2 ^ 4 % 2 ^ 4 =
        (match c with
          | .illegalCommand => 1
          | .badNarg => 2
          | .reservedNonzero => 3
          | .badSel => 4
          | .notConfigured => 5)

/-- R357, R352: a command whose unit is not configured takes the `NOT_CONFIGURED` fault: `CAUSE` 5 is recorded, no response
is appended and nothing else changes. -/
def Obligations.UnconfiguredCommandsFault : Prop :=
  ∀ (s : State) (i : Instr), i.wellFormed = true → s.faulted = false → s.ready i = false →
    exec i s = .next { s with status := BitVec.ofNat 32 (s.cix % 2 ^ 24 * 2 ^ 8 + 5 * 2 ^ 4 + 1) }

/-- R88, R358, R22: every well-formed command whose units are configured executes, whatever its operand words: `cix` grows
by one, no fault is recorded, `CMD` is not touched and responses are only appended. -/
def Obligations.ConfiguredCommandsExecute : Prop :=
  ∀ (s : State) (i : Instr), i.wellFormed = true → s.ready i = true →
    ∃ t, exec i s = .next t ∧ t.cix = s.cix + 1 ∧ t.status = s.status ∧ t.cmd = s.cmd ∧ ∃ ys, t.rsp = s.rsp ++ ys

/-- R359, R24: while words of a command are missing the block has no step, and when they arrive the command executes as if
they had been there from the start. -/
def Obligations.TruncatedCommandWaits : Prop :=
  ∀ (s : State) (i : Instr) (present missing : List Word), s.faulted = false → i.wellFormed = true →
    encode i = present ++ missing → present ≠ [] → missing ≠ [] → s.cmd = present →
    step s = .fault .awaitingOperands ∧ step (s.deliver missing) = exec i { s with cmd := [] }

/-- R353: a halted block consumes every word and ignores it, without a response or a change of state, except a word equal
to 0x01000000, which it answers with `STATUS`; so the first fault stays recorded. -/
def Obligations.HaltedBlockIgnoresWords : Prop :=
  ∀ (s : State) (h : Word) (rest : List Word), s.faulted = true → s.cmd = h :: rest →
    (h ≠ 0x01000000 → step s = .next { s with cmd := rest }) ∧
    (h = 0x01000000 →
      step s = .next { s with cmd := rest, rsp := s.rsp ++ [s.status], cix := s.cix + 1, draws := s.draws + 1 })

/-- R354: nothing a command can do clears `FAULTED`; only power-on does. -/
def Obligations.OnlyPowerOnRecovers : Prop :=
  (∀ (s t : State), s.faulted = true → step s = .next t → t.faulted = true) ∧ State.reset.faulted = false

/-- R352, R23, R351: faults are precise. A step either leaves `STATUS` as it was, or it is a raise: the block was running,
some words were consumed, `STATUS` records the cause and `cix`, and nothing else changed. So `STATUS` is 0 until the first
fault, and then has `FAULTED` set, a cause from 1 to 5 and bits 3:1 zero. -/
def Obligations.FaultsArePrecise : Prop :=
  ∀ (s t : State), step s = .next t →
    (t.status = s.status ∨
      ∃ c used, s.faulted = false ∧ used ≠ [] ∧ s.cmd = used ++ t.cmd ∧
        t = { s with cmd := t.cmd, status := statusWord c s.cix }) ∧
    (s.statusOk = true → t.statusOk = true)

/-- R24, R22: every step consumes words from the front of `CMD` and only appends to `RSP`, which it never reads; `cix` grows
by one exactly when a command executed, and stays when a word was ignored or a fault was raised. -/
def Obligations.StreamsInOrder : Prop :=
  ∀ (s t : State), step s = .next t →
    (∃ used, used ≠ [] ∧ s.cmd = used ++ t.cmd) ∧ (∃ ys, t.rsp = s.rsp ++ ys) ∧
      ((t.cix = s.cix + 1 ∧ t.status = s.status) ∨ (t.cix = s.cix ∧ t.faulted = true ∧ t.rsp = s.rsp)) ∧
      ∀ old, step { s with rsp := old ++ s.rsp } = .next { t with rsp := old ++ t.rsp }

/-! ### Invariants every step keeps (10_state.md) -/

/-- R60, R61: every memory keeps its canonical form and lists no cell outside its capacity. The cursor invariant is a
premise; it is an invariant of its own below. -/
def Obligations.MemoriesStayCanonical : Prop :=
  ∀ (s t : State), s.memoriesOk = true → s.cursorsOk = true → step s = .next t → t.memoriesOk = true

/-- R26, R29, R31, R33, R63: every cursor stays inside its ring and every counter inside its period, and the capacity of a
configured ring stays in its range. -/
def Obligations.CursorsStayInRange : Prop :=
  ∀ (s t : State), s.cursorsOk = true → s.capacitiesOk = true → step s = .next t →
    t.cursorsOk = true ∧ t.capacitiesOk = true

/-- R21, R27, R28, R151, R152: no parameter register and no sample rate ever holds a value outside its legal range, the pitch
ratio is positive and is the one of the stored cents, and once configured every filter frequency is in
[`BQ_F_MIN`, `BQ_F_MAX_FRAC *f TP.sr`]. -/
def Obligations.ParametersStayLegal : Prop :=
  ∀ (s t : State), s.paramsOk = true → s.ps.ratioOk → s.ratesOk = true → s.filterFreqsOk = true → step s = .next t →
    t.paramsOk = true ∧ t.ps.ratioOk ∧ t.ratesOk = true ∧ t.filterFreqsOk = true

/-- R29, R31, R33, R112: every phase stays in [0.0, 1.0), every random-walk value in [-1.0, 1.0], the speed factor in
[0.95, 1.05], and the cross-feedback history finite, whatever the draws. -/
def Obligations.DynamicsStayInRange : Prop :=
  ∀ (s t : State), s.dynamicOk = true → step s = .next t → t.dynamicOk = true

/-- R32, R291, R292: the active scale always starts at 0.0, ends at 1200.0, is finite, and fits its memories; no scale file
and no tuning can break this. -/
def Obligations.ScaleStaysWellFormed : Prop :=
  ∀ (s t : State), s.tq.scaleOk = true → step s = .next t → t.tq.scaleOk = true

/-- R124: the read offset of a configured delay line always meets (i), (ii) and (iii), (ii) with `dFrac = ds - dInt` exactly,
without rounding (`intOf` counts units of 2^-149), and is the value `dlOffset()` gives for the current delay, rate and
capacity. -/
def Obligations.ReadOffsetStaysExact : Prop :=
  ∀ (s t : State), s.capacitiesOk = true → s.dlOffsetOk → step s = .next t → t.dlOffsetOk

/-- The state the model takes for the one after power-on meets every invariant above. R380 and the power-on columns state the
parameters, the scale and `STATUS`; that the cursors, counters, phases, random walks and memories meet theirs is the
MODEL'S CHOICE and no rule's: those registers and cells are unspecified (R381) and hold the zeros of logs 5 and 6. -/
def Obligations.ResetMeetsInvariants : Prop :=
  State.reset.memoriesOk = true ∧ State.reset.cursorsOk = true ∧ State.reset.capacitiesOk = true ∧
    State.reset.paramsOk = true ∧ State.reset.ps.ratioOk ∧ State.reset.ratesOk = true ∧
    State.reset.filterFreqsOk = true ∧ State.reset.dynamicOk = true ∧ State.reset.tq.scaleOk = true ∧
    State.reset.statusOk = true ∧ State.reset.dlOffsetOk

/-- R380 and the power-on columns of R22 to R33: what the spec says power-on leaves, the samples of both windows by R176's
formula among it (no rounding of them takes a draw, so `d` is any). The values the model chose for unspecified registers
(logs 5 and 6) are not part of this. -/
def Obligations.PowerOnValues : Prop :=
  let s := State.reset
  s.cix = 0 ∧ s.status = 0 ∧ s.cmd = [] ∧ s.rsp = [] ∧ s.dl.cfg = false ∧ s.ps.cfg = false ∧ s.tp.cfg = false ∧
    s.dl.delayMs = f1 ∧ s.dl.fb = f0 ∧ s.dl.mix = f0 ∧ (∀ c, (s.dl.ch.get c).delayed = f0) ∧
    s.ps.cents = f0 ∧ s.ps.ratio = f1 ∧ s.ps.driftRate = f0 ∧ s.ps.driftDepth = f0 ∧
    s.tp.mode = false ∧ s.tp.headCfg = 0 ∧ (∀ h, s.tp.headDelay.get h = Config.params.headDelayMs 0 h) ∧
    s.tp.wowRate = 0x3DCCCCCD ∧ s.tp.flutRate = f1 ∧ s.tp.wowDepth = f0 ∧ s.tp.flutDepth = f0 ∧
    s.tp.wowWave = .sine ∧ s.tp.flutWave = .sine ∧ s.tp.drive = f0 ∧ s.tp.satAmt = f0 ∧ s.tp.aging = f0 ∧
    s.tp.instab = f0 ∧ s.tp.noiseEn = false ∧ s.tp.noiseAmt = f0 ∧
    (s.bq.get 0).kind = .highShelf ∧ (s.bq.get 1).kind = .peaking ∧ (s.bq.get 2).kind = .lowpass ∧
    (s.bq.get 3).kind = .highShelf ∧
    (s.bq.get 0).f = Config.params.preEmphFreq ∧ (s.bq.get 1).f = Config.params.hbFreq ∧
    (s.bq.get 2).f = Config.params.rollFreq ∧ (s.bq.get 3).f = Config.params.preEmphFreq ∧
    (s.bq.get 0).g = Config.params.preEmphGainDb ∧ (s.bq.get 1).g = Config.params.hbGainDb ∧ (s.bq.get 2).g = f0 ∧
    (∀ d, (s.bq.get 3).g = fsub d f0 Config.params.preEmphGainDb) ∧
    (s.bq.get 0).q = Config.params.preEmphQ ∧ (s.bq.get 1).q = Config.params.hbQ ∧
    (s.bq.get 2).q = Config.params.rollQ ∧ (s.bq.get 3).q = Config.params.preEmphQ ∧ (∀ c j, (s.bqh.get c).get j = ⟨f0, f0⟩) ∧
    s.tq.len = 13 ∧ s.tq.scale = scale12 ∧ s.tq.descLen = 6 ∧
    s.tq.desc = [0x31, 0x32, 0x2D, 0x45, 0x44, 0x4F] ∧ s.tq.sclLen = 0 ∧ s.tq.auth = false ∧
    s.rt.xfbAmt = f0 ∧ s.rt.quantEn = false ∧ (∀ c, s.rt.prevDelayed.get c = f0) ∧ s.rt.pollCnt = 0 ∧
    s.ps.winA.length = 2048 ∧ s.ps.winS = s.ps.winA ∧
    ∀ (d : Nat → Draw) (n : Nat), n < 2048 →
      let hann := fmul (d 0) 0x3F000000 (fsub (d 1) 0x3F800000
        (Config.num.cos (fdiv (d 2) (fmul (d 3) 0x40C90FDB (toF32 n)) (toF32 2048))))
      let wscale := fsqrt (d 4) (fdiv (d 5) 0x40000000 0x40400000)
      s.ps.winA[n]? = some (fmul (d 6) wscale hann)

/-! ### Rules of the whole machine -/

/-- R121, R171, R290, R27: which unit's state a command of each unit may write. DL commands write DL only, PS commands PS
only, TQ commands TQ only, BQ commands the filters only, TP commands the tape and the filters; only RT commands cross units. -/
def Obligations.UnitsOwnTheirState : Prop :=
  ∀ (i : Instr) (s t : State), exec i s = .next t →
    (instrUnit i ≠ 1 → instrUnit i ≠ 6 → t.dl = s.dl) ∧
    (instrUnit i ≠ 3 → instrUnit i ≠ 6 → t.ps = s.ps) ∧
    (instrUnit i ≠ 4 → instrUnit i ≠ 6 → t.tp = s.tp) ∧
    (instrUnit i ≠ 2 → instrUnit i ≠ 4 → instrUnit i ≠ 6 → t.bq = s.bq ∧ t.bqh = s.bqh) ∧
    (instrUnit i ≠ 5 → instrUnit i ≠ 6 → t.tq = s.tq) ∧
    (instrUnit i ≠ 6 → t.rt = s.rt)

/-- R121, R171: DL and PS commands read no other unit's state: they do the same in any two states with the same unit, the
same responses so far and the same place of draws, that is, under the same draws (log 24). -/
def Obligations.DelayAndPitchReadOnlyThemselves : Prop :=
  ∀ (i : Instr) (s t s' : State), exec i s = .next t → s'.draws = s.draws → s'.rsp = s.rsp →
    (instrUnit i = 1 → s'.dl = s.dl → ∃ t', exec i s' = .next t' ∧ t'.dl = t.dl ∧ t'.rsp = t.rsp) ∧
    (instrUnit i = 3 → s'.ps = s.ps → ∃ t', exec i s' = .next t' ∧ t'.ps = t.ps ∧ t'.rsp = t.rsp)

/-- R74: only the configure commands change a capacity register, and only `TQ.SETDEF`, `TQ.SETTUNING` and `TQ.LOAD` change
`TQ.len`; every other command leaves every capacity unchanged. -/
def Obligations.OnlyConfigureResizes : Prop :=
  ∀ (i : Instr) (s t : State), exec i s = .next t →
    (t.dl.N ≠ s.dl.N → ∃ v, i = .dlCfg v ∨ i = .rtCfg v) ∧
    (t.tp.TN ≠ s.tp.TN → ∃ v, i = .tpCfg v ∨ i = .rtCfg v) ∧
    (t.tq.len ≠ s.tq.len → i = .tqSetdef ∨ (∃ id, i = .tqSettuning id) ∨ i = .tqLoad)

/-- R102, R103, R21: configure, reset, process and read commands write no host parameter. -/
def Obligations.ParametersKept : Prop :=
  ∀ (i : Instr) (s t : State), keepsParams i = true → exec i s = .next t →
    Dl.sameParams s.dl t.dl ∧ Ps.sameParams s.ps t.ps ∧ Tp.sameParams s.tp t.tp ∧
      (∀ j, (t.bq.get j).kind = (s.bq.get j).kind ∧ (t.bq.get j).g = (s.bq.get j).g ∧ (t.bq.get j).q = (s.bq.get j).q) ∧
      t.rt.xfbAmt = s.rt.xfbAmt ∧ t.rt.quantEn = s.rt.quantEn ∧ t.tq.scale = s.tq.scale ∧ t.tq.desc = s.tq.desc

/-- R319, R341: no command but `RT.FRAME` writes `TQ.auth`, and a frame writes it only when the poll is due. -/
def Obligations.AuthorityPolledByFramesOnly : Prop :=
  ∀ (i : Instr) (s t : State), exec i s = .next t → t.tq.auth ≠ s.tq.auth →
    (∃ x0 x1, i = .rtFrame x0 x1) ∧ s.rt.pollCnt + 1 = Config.authPollPeriod ∧ t.rt.pollCnt = 0

/-- R21, R26, R27, R29, R31: a command on one channel leaves the other channel's buffers, cursors, histories and phases
alone. -/
def Obligations.ChannelsOwnTheirState : Prop :=
  ∀ (i : Instr) (c : Chan) (s t : State), instrChan i = some c → exec i s = .next t →
    t.dl.ch.get (otherChan c) = s.dl.ch.get (otherChan c) ∧ t.ps.ch.get (otherChan c) = s.ps.ch.get (otherChan c) ∧
      t.tp.ch.get (otherChan c) = s.tp.ch.get (otherChan c) ∧ t.bqh.get (otherChan c) = s.bqh.get (otherChan c)

/-- R335, R344: `RT.quantEn` is a record only: no command's effect depends on it. -/
def Obligations.QuantEnableNeverRead : Prop :=
  ∀ (i : Instr) (s t : State) (b : Bool), exec i s = .next t →
    ∃ b', exec i { s with rt := { s.rt with quantEn := b } } = .next { t with rt := { t.rt with quantEn := b' } }

/-- R20, R381: no value the spec leaves unspecified after power-on is ever observed. Two states that agree on everything
specified, the index of the draws included, step alike under the same draws (log 24), respond alike, and agree again; so
the values the model chose (logs 5 and 6) change nothing. -/
def Obligations.UnspecifiedStateIsUnobservable : Prop :=
  ∀ (s t s' : State), SameSpecified s t → s.memoriesOk = true → t.memoriesOk = true → step s = .next s' →
    ∃ t', step t = .next t' ∧ SameSpecified s' t'

/-- R71, R340: a frame does not depend on the order in which its channels are processed: the state, both outputs and the
cross-feedback each channel hears are the same. -/
def Obligations.FrameChannelOrderIrrelevant : Prop :=
  ∀ (s : State) (d0 d1 : Draw) (x0 x1 : F32),
    let a := s.rtChannel d0 .ch0 x0
    let b := a.1.rtChannel d1 .ch1 x1
    let e := s.rtChannel d1 .ch1 x1
    let g := e.1.rtChannel d0 .ch0 x0
    b.1 = g.1 ∧ a.2 = g.2 ∧ b.2 = e.2

/-- R101: configuring again at a rate that clamps to the stored one changes nothing of the units, for each of the three
units and for the router. -/
def Obligations.ConfigureIsIdempotent : Prop :=
  ∀ (s t : State) (v w : F32), clampRate v = clampRate w →
    (exec (.dlCfg v) s = .next t → exec (.dlCfg w) t = .next { t with cix := t.cix + 1, draws := t.draws + 1 }) ∧
    (exec (.psCfg v) s = .next t → exec (.psCfg w) t = .next { t with cix := t.cix + 1, draws := t.draws + 1 }) ∧
    (exec (.tpCfg v) s = .next t → exec (.tpCfg w) t = .next { t with cix := t.cix + 1, draws := t.draws + 1 }) ∧
    (exec (.rtCfg v) s = .next t → exec (.rtCfg w) t = .next { t with cix := t.cix + 1, draws := t.draws + 1 })

/-! ### SYS and DL (40_lifecycle_sys.md, 41_delayline.md) -/

/-- R110, R111, R88: `SYS.NOP` changes nothing but `cix`; `SYS.STAT` also appends `STATUS` and clears nothing, and its exact
header is answered before every check, halted or not. (`draws` is the model's own index.) -/
def Obligations.SysCommands : Prop :=
  ∀ (s : State) (rest : List Word),
    exec .sysNop s = .next { s with cix := s.cix + 1, draws := s.draws + 1 } ∧
    exec .sysStat s = .next { s with cix := s.cix + 1, draws := s.draws + 1, rsp := s.rsp ++ [s.status] } ∧
    (s.cmd = 0x01000000 :: rest →
      step s = .next { s with cmd := rest, rsp := s.rsp ++ [s.status], cix := s.cix + 1, draws := s.draws + 1 })

/-- R125, R126, R122, R123: the whole effect of `DL.CFG` and `DL.RST`. A configure at the stored rate changes nothing; any
other zeroes both rings and cursors, sizes the ring and recomputes the offset, and keeps the three parameters. -/
def Obligations.DelayConfigureAndReset : Prop :=
  ∀ (s : State) (v : F32),
    (s.dl.cfg = true → feq s.dl.sr (fclamp v Config.srMin Config.srMax) = true →
      exec (.dlCfg v) s = .next { s with cix := s.cix + 1, draws := s.draws + 1 }) ∧
    ((s.dl.cfg = true → feq s.dl.sr (fclamp v Config.srMin Config.srMax) = false) →
      ∃ (d : Nat → Draw) (N dInt : Nat) (ds dFrac : F32),
        let srC := fclamp v Config.srMin Config.srMax
        exec (.dlCfg v) s = .next { s with
          cix := s.cix + 1, draws := s.draws + 1,
          dl := { s.dl with cfg := true, sr := srC, N := N, dInt := dInt, dFrac := dFrac,
                            ch := ⟨⟨[], 0, f0⟩, ⟨[], 0, f0⟩⟩ } } ∧
        (N : Int) = min (ceilI (fdiv (d 0) (fmul (d 1) Config.maxDelayMs srC) f1000) + 1) Config.dlRamDepth ∧ 2 ≤ N ∧
        ds = fclamp (fdiv (d 2) (fmul (d 3) s.dl.delayMs srC) f1000) f1 (toF32 ((N : Int) - 1)) ∧
        (dInt : Int) = floorI ds ∧ dFrac = fsub (d 4) ds (toF32 (dInt : Int))) ∧
    (s.dl.cfg = true →
      exec .dlRst s = .next { s with cix := s.cix + 1, draws := s.draws + 1,
                                     dl := { s.dl with ch := ⟨⟨[], 0, f0⟩, ⟨[], 0, f0⟩⟩ } }) ∧
    (s.dl.cfg = false →
      exec .dlRst s = .next { s with
        cix := s.cix + 1, draws := s.draws + 1,
        dl := { s.dl with ch := ⟨{ s.dl.ch.c0 with delayed := f0 }, { s.dl.ch.c1 with delayed := f0 }⟩ } })

/-- R127 to R129: the whole effect of the three DL setters. -/
def Obligations.DelaySetters : Prop :=
  ∀ (s : State) (v : F32),
    exec (.dlSetfb v) s = .next { s with cix := s.cix + 1, draws := s.draws + 1,
                                         dl := { s.dl with fb := fclamp v f0 0x3F8CCCCD } } ∧
    exec (.dlSetmix v) s = .next { s with cix := s.cix + 1, draws := s.draws + 1,
                                          dl := { s.dl with mix := fclamp v f0 f1 } } ∧
    (s.dl.cfg = false →
      exec (.dlSetdelay v) s = .next { s with cix := s.cix + 1, draws := s.draws + 1,
                                              dl := { s.dl with delayMs := fclamp v f1 Config.maxDelayMs } }) ∧
    (s.dl.cfg = true → 2 ≤ s.dl.N → s.dl.N ≤ Config.dlRamDepth →
      ∃ (d : Nat → Draw) (dInt : Nat) (ms ds dFrac : F32),
        exec (.dlSetdelay v) s = .next { s with
          cix := s.cix + 1, draws := s.draws + 1,
          dl := { s.dl with delayMs := ms, dInt := dInt, dFrac := dFrac } } ∧
        ms = fclamp v f1 Config.maxDelayMs ∧
        ds = fclamp (fdiv (d 0) (fmul (d 1) ms s.dl.sr) f1000) f1 (toF32 ((s.dl.N : Int) - 1)) ∧
        (dInt : Int) = floorI ds ∧ dFrac = fsub (d 2) ds (toF32 (dInt : Int)))

/-- R130, R64, R131, R132: the whole effect of `DL.PROC` in both forms, and of the two reads. -/
def Obligations.DelayProcessAndReads : Prop :=
  ∀ (s : State) (c : Chan) (x xfb : F32), s.dl.cfg = true →
    (∃ d : Nat → Draw,
      let ch := s.dl.ch.get c
      let A := ch.buf.read ((((ch.w : Int) - s.dl.dInt) % (s.dl.N : Int)).toNat)
      let B := ch.buf.read ((((ch.w : Int) - s.dl.dInt - 1) % (s.dl.N : Int)).toNat)
      let delayed := fadd (d 0) (fmul (d 1) A (fsub (d 2) f1 s.dl.dFrac)) (fmul (d 3) B s.dl.dFrac)
      let fbs := fadd (d 4) (fmul (d 5) s.dl.fb delayed) xfb
      let out := fadd (d 6) (fmul (d 7) x (fsub (d 8) f1 s.dl.mix)) (fmul (d 9) delayed s.dl.mix)
      exec (.dlProcXfb c x xfb) s = .next { s with
        cix := s.cix + 1, draws := s.draws + 1, rsp := s.rsp ++ [out],
        dl := { s.dl with
          ch := s.dl.ch.set c ⟨ch.buf.write ch.w (fadd (d 10) x fbs), (ch.w + 1) % s.dl.N, delayed⟩ } }) ∧
    exec (.dlProc c x) s = exec (.dlProcXfb c x f0) s ∧
    exec (.dlGetd c) s = .next { s with cix := s.cix + 1, draws := s.draws + 1,
                                        rsp := s.rsp ++ [(s.dl.ch.get c).delayed] } ∧
    exec (.dlGetw c) s = exec (.dlGetd c) s

/-- R130, R63: the only cell `DL.PROC` stores to is the one at the write cursor of its channel's ring: every other cell of
both rings and of every other memory reads as before, and so does every register but those R130 names. -/
def Obligations.DelayProcessStoresOneCell : Prop :=
  ∀ (s t : State) (c : Chan) (x xfb : F32), s.dl.cfg = true → (s.dl.ch.get c).buf.wf = true →
    exec (.dlProcXfb c x xfb) s = .next t →
    (∀ a, a ≠ (s.dl.ch.get c).w → (t.dl.ch.get c).buf.read a = (s.dl.ch.get c).buf.read a) ∧
    (∃ d : Nat → Draw, (t.dl.ch.get c).buf.read (s.dl.ch.get c).w =
      fadd (d 0) x (fadd (d 1) (fmul (d 2) s.dl.fb (t.dl.ch.get c).delayed) xfb)) ∧
    t.dl.ch.get (otherChan c) = s.dl.ch.get (otherChan c) ∧
    t = { s with cix := s.cix + 1, draws := s.draws + 1, rsp := t.rsp, dl := { s.dl with ch := t.dl.ch } }

/-- R63: after writing and advancing along any values from an empty ring, the cell `d` behind the cursor holds the value
written `d` writes ago, or zero before that; the cursor stays in the ring. -/
def Obligations.RingHoldsItsHistory : Prop :=
  ∀ (N w : Nat) (vs : List F32), 2 ≤ N → w < N →
    let r := ringWrites N ([], w) vs
    r.2 < N ∧ ∀ d, 1 ≤ d → d ≤ N → r.1.read (ringIdx N r.2 d) = if d ≤ vs.length then vs.getD (vs.length - d) f0 else f0

/-- R135: with no feedback, full wet and an integer delay of `d` samples, the response to input number `t` since the ring
was zeroed is input number `t - d` exactly, and zero before that, up to the sign of a zero; and the value written is the
input. -/
def Obligations.IntegerDelayIsExact : Prop :=
  ∀ (s t : State) (c : Chan) (xs : List F32) (x : F32) (d : Nat), s.dl.cfg = true → s.dl.fb = f0 → s.dl.mix = f1 →
    s.dl.dFrac = f0 → s.dl.dInt = d → 1 ≤ d → d + 1 ≤ s.dl.N → (s.dl.ch.get c).buf = [] → (s.dl.ch.get c).w < s.dl.N →
    (∀ v ∈ x :: xs, isFinite v = true) → s.runAll (xs.map fun v => .dlProc c v) = some t →
    ∃ (u : State) (y : F32), exec (.dlProc c x) t = .next u ∧ u.rsp = t.rsp ++ [y] ∧
      feq y (if d ≤ xs.length then xs.getD (xs.length - d) f0 else f0) = true ∧
      feq ((u.dl.ch.get c).buf.read (t.dl.ch.get c).w) x = true

/-! ### BQ (42_biquad.md) -/

/-- R151: the clamped frequency and the five coefficients, for each of the three types. -/
def Obligations.FilterCoefficients : Prop :=
  ∀ (d0 : Draw) (p : BqParams) (f sr : F32), ∃ d : Nat → Draw,
    let fC := fclamp f Config.bqFMin (fmul (d 0) Config.bqFMaxFrac sr)
    let w0 := fdiv (d 1) (fmul (d 2) 0x40C90FDB fC) sr
    let cs := Config.num.cos w0
    let sn := Config.num.sin w0
    let alpha := fdiv (d 3) sn (fmul (d 4) f2 p.q)
    let A := Config.num.pow10 (fdiv (d 5) p.g f40)
    let k := fmul (d 6) (fmul (d 7) f2 (fsqrt (d 8) A)) alpha
    let Ap := fadd (d 9) A f1
    let Am := fsub (d 10) A f1
    let result := fun (b0 b1 b2 a0 a1 a2 : F32) =>
      bqCoef d0 p f sr = { p with
        f := fC, b0 := fdiv (d 40) b0 a0, b1 := fdiv (d 41) b1 a0, b2 := fdiv (d 42) b2 a0,
        a1 := fdiv (d 43) a1 a0, a2 := fdiv (d 44) a2 a0 }
    (p.kind = .lowpass →
      result (fdiv (d 11) (fsub (d 12) f1 cs) f2) (fsub (d 13) f1 cs) (fdiv (d 11) (fsub (d 12) f1 cs) f2)
        (fadd (d 14) f1 alpha) (fmul (d 15) fm2 cs) (fsub (d 16) f1 alpha)) ∧
    (p.kind = .peaking →
      result (fadd (d 11) f1 (fmul (d 12) alpha A)) (fmul (d 13) fm2 cs) (fsub (d 14) f1 (fmul (d 15) alpha A))
        (fadd (d 16) f1 (fdiv (d 17) alpha A)) (fmul (d 18) fm2 cs) (fsub (d 19) f1 (fdiv (d 20) alpha A))) ∧
    (p.kind = .highShelf →
      result (fmul (d 11) A (fadd (d 12) (fadd (d 13) Ap (fmul (d 14) Am cs)) k))
        (fmul (d 15) (fmul (d 16) fm2 A) (fadd (d 17) Am (fmul (d 18) Ap cs)))
        (fmul (d 19) A (fsub (d 20) (fadd (d 21) Ap (fmul (d 22) Am cs)) k))
        (fadd (d 23) (fsub (d 24) Ap (fmul (d 25) Am cs)) k)
        (fmul (d 26) f2 (fsub (d 27) Am (fmul (d 28) Ap cs)))
        (fsub (d 29) (fsub (d 30) Ap (fmul (d 31) Am cs)) k))

/-- R154 to R156, R218, R219: the whole effect of the three filter setters on a configured block: type, clamped gain and
q, and the coefficients of R151 at the tape's rate; the histories are kept. `TP.SETHB` is `BQ.SETPK` on instance 1 and
`TP.SETROLL` is `BQ.SETLP` on instance 2. -/
def Obligations.FilterSetters : Prop :=
  ∀ (s : State) (j : Fin 4) (freq gainDb q : F32), s.tp.cfg = true →
    let qC := fclamp q 0x3DCCCCCD 0x41A00000
    let gC := fclamp gainDb 0xC1C00000 0x41C00000
    let lowpass := fun d (k : Fin 4) => { s with
      cix := s.cix + 1, draws := s.draws + 1,
      bq := s.bq.set k (bqCoef d { s.bq.get k with kind := .lowpass, g := f0, q := qC } freq s.tp.sr) }
    let gained := fun kind d (k : Fin 4) => { s with
      cix := s.cix + 1, draws := s.draws + 1,
      bq := s.bq.set k (bqCoef d { s.bq.get k with kind := kind, g := gC, q := qC } freq s.tp.sr) }
    (∃ d, exec (.bqSetlp j.val freq q) s = .next (lowpass d j)) ∧
    (∃ d, exec (.bqSetpk j.val freq gainDb q) s = .next (gained .peaking d j)) ∧
    (∃ d, exec (.bqSeths j.val freq gainDb q) s = .next (gained .highShelf d j)) ∧
    (∃ d, exec (.tpSetroll freq q) s = .next (lowpass d 2)) ∧
    (∃ d, exec (.tpSethb freq gainDb q) s = .next (gained .peaking d 1))

/-- R153, R157: the whole effect of `BQ.RST` and `BQ.PROC` (transposed direct form II, the old history read first). -/
def Obligations.FilterResetAndProcess : Prop :=
  ∀ (s : State) (j : Fin 4) (c : Chan) (x : F32),
    exec (.bqRst j.val c) s = .next { s with
      cix := s.cix + 1, draws := s.draws + 1, bqh := s.bqh.set c ((s.bqh.get c).set j ⟨f0, f0⟩) } ∧
    (s.tp.cfg = true → ∃ d : Nat → Draw,
      let p := s.bq.get j
      let h := (s.bqh.get c).get j
      let y := fadd (d 0) (fmul (d 1) p.b0 x) h.z1
      let z1 := fadd (d 2) (fsub (d 3) (fmul (d 4) p.b1 x) (fmul (d 5) p.a1 y)) h.z2
      let z2 := fsub (d 6) (fmul (d 7) p.b2 x) (fmul (d 8) p.a2 y)
      exec (.bqProc j.val c x) s = .next { s with
        cix := s.cix + 1, draws := s.draws + 1, rsp := s.rsp ++ [y],
        bqh := s.bqh.set c ((s.bqh.get c).set j ⟨z1, z2⟩) })

/-- R159: a peaking filter of 0 dB has `b0 = 1.0`, `b1 = a1`, `b2 = a2` bit for bit, and from a zero history it returns a
finite input unchanged, up to the sign of a zero, and leaves the history zero. The premises (finite coefficients and
products, `a0` not zero) are the model's: R159 takes them from the real numbers, and `NUM` is free in rounding. -/
def Obligations.ZeroDecibelPeakIsIdentity : Prop :=
  ∀ (d0 d1 d2 : Draw) (p : BqParams) (cs sn x : F32) (h : BqHist), p.kind = .peaking → p.g = f0 →
    let r := bqRaw d0 p.kind cs sn p.g p.q
    let n := bqNormalise d1 p r
    isFinite r.b1 = true → isFinite r.b2 = true → isFinite r.a0 = true → isZero r.a0 = false →
    n.b0 = f1 ∧ n.b1 = n.a1 ∧ n.b2 = n.a2 ∧
    (isFinite x = true → isFinite (fmul d2 n.b1 x) = true → isFinite (fmul d2 n.b2 x) = true →
      isZero h.z1 = true → isZero h.z2 = true →
      feq (bqProcess d2 n h x).2 x = true ∧ isZero (bqProcess d2 n h x).1.z1 = true ∧
        isZero (bqProcess d2 n h x).1.z2 = true)

/-! ### PS (43_pitchshifter.md) -/

/-- R172 to R175: the whole effect of `PS.CFG`, `PS.RST` and the two setters; the ratio is 2^(cents/1200), exactly 1.0, 2.0
and 0.5 at 0, 1200 and -1200 cents. That `PS.RST` on an unconfigured unit writes nothing but `cix` (and the model's own index
`draws`) is the MODEL'S CHOICE (log 16, DESIGN CHOICE): R103 is followed, against the zeroing list of R173, which states no
such condition. -/
def Obligations.PitchControls : Prop :=
  ∀ (s : State) (v w : F32),
    let zero : PsChan := ⟨[], 0, 0, [], 0, [], [], f0, s.ps.ratio⟩
    let srC := fclamp v Config.srMin Config.srMax
    (s.ps.cfg = true → feq s.ps.sr srC = true →
      exec (.psCfg v) s = .next { s with cix := s.cix + 1, draws := s.draws + 1 }) ∧
    ((s.ps.cfg = true → feq s.ps.sr srC = false) →
      exec (.psCfg v) s = .next { s with cix := s.cix + 1, draws := s.draws + 1,
                                         ps := { s.ps with cfg := true, sr := srC, ch := ⟨zero, zero⟩ } }) ∧
    (s.ps.cfg = true →
      exec .psRst s = .next { s with cix := s.cix + 1, draws := s.draws + 1, ps := { s.ps with ch := ⟨zero, zero⟩ } }) ∧
    (s.ps.cfg = false → exec .psRst s = .next { s with cix := s.cix + 1, draws := s.draws + 1 }) ∧
    (∃ (d : Draw) (cents ratio : F32),
      exec (.psSetpitch v) s = .next { s with cix := s.cix + 1, draws := s.draws + 1,
                                              ps := { s.ps with cents := cents, ratio := ratio } } ∧
      cents = fclamp v Config.pitchCentsMin Config.pitchCentsMax ∧ ratio = Config.num.exp2 (fdiv d cents f1200) ∧
      (v = f0 → ratio = f1) ∧ (v = 0x44960000 → ratio = f2) ∧ (v = 0xC4960000 → ratio = fHalf)) ∧
    exec (.psSetdrift v w) s = .next { s with
      cix := s.cix + 1, draws := s.draws + 1,
      ps := { s.ps with driftRate := fclamp v f0 0x41200000, driftDepth := fclamp w f0 0x42480000 } }

/-- R179 to R185, R190, R194: the whole effect of `PS.PROC` on a configured block. On every sample the drift phase advances
(R112) and the effective ratio follows it (without drift it is the ratio, exactly), the input is written at the input cursor,
the hop is counted, and the output cell is read and cleared. On every `HOP`-th sample a frame runs before the read: the last
`Nf` samples are windowed and transformed (every bin NaN when one of them is not finite, R194), each bin's phase is stored
and its increment unwrapped, the bins are remapped in ascending order (`A i` is what R184 has accumulated from the bins below
`i`), and the windowed inverse transform grows the output ring, its sample `n` the cell that is read `n` calls from now; the
imaginary parts of bins 0 and `Nf/2` have no effect (R185). Between frames the phases and every other output cell are
untouched. Only its channel's dynamic state changes. That a frame sets `PS.lastPhase` to the new phases in every state, a
poisoned one too, is R183's pseudocode against the remarks of R194 and R386: the MODEL'S CHOICE (log 23). -/
def Obligations.PitchProcess : Prop :=
  ∀ (s : State) (c : Chan) (x : F32), s.ps.cfg = true → s.memoriesOk = true →
    let old := s.ps.ch.get c
    ∃ (ch : PsChan) (y : F32) (d : Nat → Nat → Draw),
      exec (.psProc c x) s = .next { s with
        cix := s.cix + 1, draws := s.draws + 1, rsp := s.rsp ++ [y],
        ps := { s.ps with ch := s.ps.ch.set c ch } } ∧
      (let p := fadd (d 0 0) old.driftPhase (fdiv (d 0 1) s.ps.driftRate s.ps.sr)
       let q := if fle f1 p then fsub (d 0 2) p f1 else p
       ch.driftPhase = if fle f0 q && flt q f1 then q else f0) ∧
      ch.ratioEff = fmul (d 1 0) s.ps.ratio (Config.num.exp2 (fdiv (d 1 1) (fmul (d 1 2) s.ps.driftDepth
        (Config.num.sin (fmul (d 1 3) 0x40C90FDB old.driftPhase))) f1200)) ∧
      (s.ps.driftDepth = f0 → isFinite s.ps.ratio = true → isPhase old.driftPhase = true → ch.ratioEff = s.ps.ratio) ∧
      ch.inp.read old.iw = x ∧ (∀ a, a ≠ old.iw → ch.inp.read a = old.inp.read a) ∧
      ch.iw = (old.iw + 1) % 2048 ∧ ch.ow = (old.ow + 1) % 2048 ∧
      ch.hopCnt = (if old.hopCnt + 1 = 512 then 0 else old.hopCnt + 1) ∧
      ch.out.read old.ow = f0 ∧
      (old.hopCnt + 1 ≠ 512 →
        ch.lastPhase = old.lastPhase ∧ ch.synPhase = old.synPhase ∧ y = old.out.read old.ow ∧
        ∀ a, a ≠ old.ow → ch.out.read a = old.out.read a) ∧
      (old.hopCnt + 1 = 512 → old.ow < 2048 →
        let xw := (List.range 2048).map fun n =>
          fmul (d 2 n) (ch.inp.read ((ch.iw + n) % 2048)) (s.ps.winA.getD n f0)
        ∃ bins : Nat → F32 × F32,
        (xw.all isFinite = true → ∀ k, bins k = Config.num.dft xw k) ∧
        (xw.all isFinite = false → ∀ k, isNaN (bins k).1 = true ∧ isNaN (bins k).2 = true) ∧
        let re := fun k => (bins k).1
        let im := fun k => (bins k).2
        let mag := fun k => fsqrt (d 3 k) (fadd (d 4 k) (fmul (d 5 k) (re k) (re k)) (fmul (d 6 k) (im k) (im k)))
        let phase := fun k => Config.num.atan2 (im k) (re k)
        let expct := fun (k : Nat) => fmul (d 7 k) 0x40C90FDB (fdiv (d 8 k) (toF32 k) f4)
        let inc := fun k =>
          fadd (d 9 k)
            (Config.num.wrapPi (fsub (d 10 k) (fsub (d 11 k) (phase k) (old.lastPhase.read k)) (expct k))) (expct k)
        let add := fun (e : Nat → Draw) (i b : Nat) (wgt : F32) (a : PsSynth) =>
          if 1024 < b then a
          else
            let ph := Config.num.wrapPi (fadd (e 0) (a.phase.read b) (fmul (e 1) (inc i) ch.ratioEff))
            let amp := fmul (e 2) (mag i) wgt
            { re := a.re.write b (fadd (e 3) (a.re.read b) (fmul (e 4) amp (Config.num.cos ph)))
              im := a.im.write b (fadd (e 5) (a.im.read b) (fmul (e 6) amp (Config.num.sin ph)))
              phase := a.phase.write b ph }
        ∃ A : Nat → PsSynth,
          A 0 = ⟨[], [], old.synPhase⟩ ∧
          (∀ i : Nat, i ≤ 1024 →
            let tgt := fmul (d 12 i) (toF32 i) ch.ratioEff
            let fr := fsub (d 13 i) tgt (toF32 (floorI tgt))
            let first := fun k => d (20 + k) i
            let second := fun k => d (30 + k) i
            (isFinite tgt = false ∨ flt 0x44800000 tgt = true → A (i + 1) = A i) ∧
            (isFinite tgt = true → flt 0x44800000 tgt = false →
              (feq fr f0 = true → A (i + 1) = add first i (floorI tgt).toNat f1 (A i)) ∧
              (feq fr f0 = false →
                A (i + 1) = add second i (floorI tgt + 1).toNat fr
                  (add first i (floorI tgt).toNat (fsub (d 14 i) f1 fr) (A i))))) ∧
          (∀ k, k ≤ 1024 → ch.lastPhase.read k = phase k) ∧ ch.synPhase = (A 1025).phase ∧
          (let yw := Config.num.idftReal ((List.range 1025).map fun b =>
             ((A 1025).re.read b, if b = 0 ∨ b = 1024 then f0 else (A 1025).im.read b))
           let cell := fun n =>
             fadd (d 15 n) (old.out.read ((old.ow + n) % 2048)) (fmul (d 16 n) (yw n) (s.ps.winS.getD n f0))
           y = cell 0 ∧ ∀ n, 1 ≤ n → n < 2048 → ch.out.read ((old.ow + n) % 2048) = cell n))

/-! ### TH and TP (44_tape_heads_modulation.md, 45_tape_process.md) -/

/-- R213, R214, R152: the whole effect of `TP.CFG` and `TP.RST`. -/
def Obligations.TapeConfigureAndReset : Prop :=
  ∀ (s : State) (v : F32),
    let zero : TpChan := ⟨[], 0, f0, f0, f0, f0, f0, 0, f0, f0, f1, 0, ⟨f0, f0, f0, f0, f0, f0, f0⟩, f0, f0, f0⟩
    let none_ : BqHist := ⟨f0, f0⟩
    let hists : PerCh (Four BqHist) := ⟨⟨none_, none_, none_, none_⟩, ⟨none_, none_, none_, none_⟩⟩
    let srC := fclamp v Config.srMin Config.srMax
    (s.tp.cfg = true → feq s.tp.sr srC = true →
      exec (.tpCfg v) s = .next { s with cix := s.cix + 1, draws := s.draws + 1 }) ∧
    ((s.tp.cfg = true → feq s.tp.sr srC = false) →
      ∃ (d : Nat → Draw) (TN : Nat),
        exec (.tpCfg v) s = .next { s with
          cix := s.cix + 1, draws := s.draws + 1, bqh := hists,
          tp := { s.tp with cfg := true, sr := srC, TN := TN, ch := ⟨zero, zero⟩ },
          bq := ⟨bqCoef (d 0) s.bq.i0 s.bq.i0.f srC, bqCoef (d 1) s.bq.i1 s.bq.i1.f srC,
                 bqCoef (d 2) s.bq.i2 s.bq.i2.f srC, bqCoef (d 3) s.bq.i3 s.bq.i3.f srC⟩ } ∧
        (TN : Int) = min (ceilI (fdiv (d 4) (fmul (d 5) (fmul (d 6) 0x3F99999A Config.tpMaxDelayMs) srC) f1000) + 2)
          Config.tpRamDepth ∧ 4 ≤ TN) ∧
    (s.tp.cfg = true → exec .tpRst s = .next { s with
      cix := s.cix + 1, draws := s.draws + 1, bqh := hists, tp := { s.tp with ch := ⟨zero, zero⟩ } }) ∧
    (s.tp.cfg = false → exec .tpRst s = .next { s with cix := s.cix + 1, draws := s.draws + 1, bqh := hists })

/-- R215 to R217, R220 to R224, R227: the whole effect of the tape setters; head configuration `k` enables exactly the heads
`0..k`, each at its table delay. -/
def Obligations.TapeSetters : Prop :=
  ∀ (s : State) (on : Bool) (wow flut : Waveform) (k : Fin 4) (a b e g : F32),
    let sel : Waveform → Nat := fun w => match w with
      | .sine => 0
      | .triangle => 1
      | .randomWalk => 2
    let withTp := fun (tp : Tp) => { s with cix := s.cix + 1, draws := s.draws + 1, tp := tp }
    exec (.tpSetmode (if on then 1 else 0)) s = .next (withTp { s.tp with mode := on }) ∧
    exec (.tpSetwf (sel wow) (sel flut) a b e g) s = .next (withTp { s.tp with
      wowRate := fclamp a 0x3DCCCCCD 0x40A00000, wowDepth := fclamp b f0 0x3DCCCCCD,
      flutRate := fclamp e f1 0x41700000, flutDepth := fclamp g f0 0x3DCCCCCD, wowWave := wow, flutWave := flut }) ∧
    exec (.tpSetsat a b) s = .next (withTp { s.tp with drive := fclamp a f0 0x41200000, satAmt := fclamp b f0 f1 }) ∧
    exec (.tpSetage a) s = .next (withTp { s.tp with aging := fclamp a f0 f1 }) ∧
    exec (.tpSetinst a) s = .next (withTp { s.tp with instab := fclamp a f0 f1 }) ∧
    exec (.tpSetnoise (if on then 1 else 0) a) s =
      .next (withTp { s.tp with noiseEn := on, noiseAmt := fclamp a f0 f1 }) ∧
    ∃ delays : Four F32,
      exec (.tpSetheads k.val) s = .next (withTp { s.tp with headCfg := k, headDelay := delays }) ∧
      (∀ h, delays.get h = Config.params.headDelayMs k h) ∧ (∀ h, h ≤ k → headEnabled (delays.get h) = true) ∧
      ∀ h, k < h → delays.get h = f0

/-- R271, R250: with the tape mode off `TP.PROC` answers its operand's bits unchanged, for all 2^32 patterns, and no state
changes. -/
def Obligations.TapeOffPassesThrough : Prop :=
  ∀ (s : State) (c : Chan) (x : F32), s.tp.cfg = true → s.tp.mode = false →
    exec (.tpProc c x) s = .next { s with cix := s.cix + 1, draws := s.draws + 1, rsp := s.rsp ++ [x] }

/-- R270: with the tape mode on, the value `TP.PROC` answers is finite and in [-1.0, 1.0], for every input pattern, every
parameter setting and every draw. -/
def Obligations.TapeOutputIsBounded : Prop :=
  ∀ (s : State) (c : Chan) (x : F32), s.tp.cfg = true → s.tp.mode = true →
    ∃ (t : State) (y : F32), exec (.tpProc c x) s = .next t ∧ t.rsp = s.rsp ++ [y] ∧ isFinite y = true ∧
      fle fm1 y = true ∧ fle y f1 = true

/-- R250 to R268, R225, R226: the whole effect of `TP.PROC` with the tape mode on, stage by stage, each stage ending in its
finite check (R252): `s3` is the one value stored, at the cursor, before the heads' taps, and `y` is the answer. `m` is the
modulation scalar and `lfo` the channel with its two LFOs advanced (R230, ModulationScalar). Only the channel's tape state
and filter histories change. `u`, `w` and `g` are the draws of R260 to R264. The grouping of the hum's sum, first plus second,
then the third, is the MODEL'S READING (log 18, DEDUCED) of R264's "summed in the order n = 0, 1, 2". That a failing filter's
history is zeroed is the pseudocode of R254 and R258, followed against R386's "they do not clean the unit" (log 25,
DEDUCED). -/
def Obligations.TapeProcessFrame : Prop :=
  ∀ (s : State) (c : Chan) (x : F32), s.tp.cfg = true → s.tp.mode = true →
    let tp := s.tp
    let ch := s.tp.ch.get c
    let P := Config.params
    let check := fun (y pre : F32) => if isFinite y then y else pre
    let sine := fun (e : Draw) (ph : F32) => Config.num.sin (fmul e 0x40C90FDB ph)
    let advance := fun (e : Nat → Draw) (ph rate : F32) =>
      let p := fadd (e 0) ph (fdiv (e 1) rate tp.sr)
      let q := if fle f1 p then fsub (e 2) p f1 else p
      if fle f0 q && flt q f1 then q else f0
    let filter := fun (e : Nat → Draw) (j : Fin 4) (v : F32) =>
      let p := s.bq.get j
      let z := (s.bqh.get c).get j
      let y := fadd (e 0) (fmul (e 1) p.b0 v) z.z1
      if isFinite y then
        ((⟨fadd (e 2) (fsub (e 3) (fmul (e 4) p.b1 v) (fmul (e 5) p.a1 y)) z.z2,
            fsub (e 6) (fmul (e 7) p.b2 v) (fmul (e 8) p.a2 y)⟩ : BqHist), y)
      else (⟨f0, f0⟩, v)
    ∃ (d : Nat → Nat → Draw) (u : Nat → F32) (w g : F32),
      (∀ k, fle f0 (u k) = true ∧ flt (u k) f1 = true) ∧ fle fm1 w = true ∧ fle w f1 = true ∧ (g = fm1 ∨ g = f1) ∧
      let r1 := filter (d 1) 0 (check x f0)
      let s1 := r1.2
      let lfo := (tpModScalar (d 2 0) tp ch).1
      let m := (tpModScalar (d 2 0) tp ch).2
      let s3 := check
        (fadd (d 3 0) (fmul (d 3 1) s1 (fsub (d 3 2) f1 tp.satAmt))
          (fmul (d 3 3) (Config.num.tanh (fmul (d 3 4) s1 tp.drive)) tp.satAmt)) s1
      let buf := ch.buf.write ch.w s3
      let tap := fun (h : Fin 4) =>
        if h ≤ tp.headCfg ∧ feq (tp.headDelay.get h) f0 = false then
          let e := d (20 + h.val)
          let ds := fclamp
            (fmul (e 0) (fdiv (e 1) (fmul (e 2) (tp.headDelay.get h) tp.sr) f1000) (fmul (e 3) m ch.instSpeed))
            f1 (toF32 ((tp.TN : Int) - 1))
          let dI := (floorI ds).toNat
          let dF := fsub (e 4) ds (toF32 (floorI ds))
          let A := buf.read ((((ch.w : Int) - dI) % (tp.TN : Int)).toNat)
          let B := buf.read ((((ch.w : Int) - dI - 1) % (tp.TN : Int)).toNat)
          fadd (e 5) (fmul (e 6) A (fsub (e 7) f1 dF)) (fmul (e 8) B dF)
        else f0
      let s4 := check (P.headCombine tp.headCfg.val c (tap 0) (tap 1) (tap 2) (tap 3)) s3
      let r2 := filter (d 5) 1 s4
      let r3 := filter (d 6) 2 r2.2
      let r4 := filter (d 7) 3 r3.2
      let s5 := r4.2
      let a2 := fmul (d 8 0) tp.aging tp.aging
      let lp := fadd (d 8 1) ch.ageLp (fmul (d 8 2) (P.ageCoef a2 tp.sr) (fsub (d 8 3) s5 ch.ageLp))
      let aged := fadd (d 8 4) (fmul (d 8 5) s5 (fsub (d 8 6) f1 a2)) (fmul (d 8 7) lp a2)
      let y6 := if 0 < ch.ageDrop then fmul (d 8 8) aged P.ageDropGain else aged
      let s6 := check y6 s5
      let la := sine (d 9 0) ch.instPhA
      let ls := sine (d 9 1) ch.instPhS
      let y7 :=
        if 0 < ch.instDrop then f0
        else fmul (d 9 2) s6 (fadd (d 9 3) f1 (fmul (d 9 4) (fmul (d 9 5) 0x3D4CCCCD tp.instab) la))
      let s7 := check y7 s6
      let white := fun (k : Nat) (coef old gain : F32) =>
        fadd (d 30 k) (fmul (d 31 k) coef old) (fmul (d 32 k) w gain)
      let p0 := white 0 0x3F7FB54A ch.pk.p0 0x3D6366BD
      let p1 := white 1 0x3F7E4A38 ch.pk.p1 0x3D99C165
      let p2 := white 2 0x3F781062 ch.pk.p2 0x3E1D8B61
      let p3 := white 3 0x3F5DD2F2 ch.pk.p3 0x3E9EF7F8
      let p4 := white 4 0x3F0CCCCD ch.pk.p4 0x3F086F8E
      let p5 := fsub (d 30 5) (fmul (d 31 5) 0xBF42F838 ch.pk.p5) (fmul (d 32 5) w 0x3C8A6DAD)
      let pink := fadd (d 33 0)
        (fadd (d 33 1) (fadd (d 33 2) (fadd (d 33 3) (fadd (d 33 4) (fadd (d 33 5) (fadd (d 33 6) p0 p1) p2) p3) p4) p5)
          ch.pk.p6) (fmul (d 33 7) w 0x3F094467)
      let partial_ := fun (n : Fin 3) =>
        fmul (d 34 n.val) (P.humLevel n) (sine (d 35 n.val) (fmul (d 36 n.val) (toF32 (n.val + 1)) ch.humPh))
      let hum := fadd (d 37 0) (fadd (d 37 1) (partial_ 0) (partial_ 1)) (partial_ 2)
      let rum := fmul (d 37 2) P.rumbleLevel (sine (d 37 3) ch.rumPh)
      let art := if flt (u 2) P.artifactProb then fmul (d 37 4) P.artifactLevel g else f0
      let n := fclamp
        (fmul (d 38 0) (fadd (d 38 1) (fadd (d 38 2) (fadd (d 38 3) (fmul (d 38 4) P.pinkLevel pink) hum) art) rum)
          tp.noiseAmt) (fsub (d 38 6) f0 P.noiseClamp) P.noiseClamp
      let s8 := if tp.noiseEn then check (fadd (d 38 5) s7 n) s7 else s7
      let v := sine (d 39 0) (fadd (d 39 1) ch.decPh (P.decorrOffset c))
      let s9 := check (fmul (d 39 2) s8 (fadd (d 39 3) f1 (fmul (d 39 4) P.decorrDepth v))) s8
      let y := check (Config.num.tanh s9) f0
      let noisy := { lfo with
        buf := buf, w := (ch.w + 1) % tp.TN
        ageLp := if isFinite y6 && isFinite lp then lp else f0
        ageDrop :=
          if 0 < ch.ageDrop then ch.ageDrop - 1
          else if flt (u 0) (P.ageDropProb tp.aging) then P.ageDropLen else ch.ageDrop
        instPhA := advance (d 40) ch.instPhA P.instRateAmp, instPhS := advance (d 41) ch.instPhS P.instRateSpeed
        instSpeed := fclamp (fadd (d 9 6) f1 (fmul (d 9 7) (fmul (d 9 8) 0x3D4CCCCD tp.instab) ls)) 0x3F733333 0x3F866666
        instDrop :=
          if 0 < ch.instDrop then ch.instDrop - 1
          else if flt (u 1) (P.instDropProb tp.instab) then P.instDropLen else ch.instDrop
        decPh := advance (d 42) ch.decPh P.decorrRate }
      let ch' :=
        if tp.noiseEn then
          { noisy with
            pk := ⟨p0, p1, p2, p3, p4, p5, fmul (d 33 8) w 0x3DED6A9C⟩
            humPh := advance (d 43) ch.humPh P.humFreq, rumPh := advance (d 44) ch.rumPh P.rumbleFreq }
        else noisy
      exec (.tpProc c x) s = .next { s with
        cix := s.cix + 1, draws := s.draws + 1, rsp := s.rsp ++ [y], bqh := s.bqh.set c ⟨r1.1, r2.1, r3.1, r4.1⟩,
        tp := { s.tp with ch := s.tp.ch.set c ch' } } ∧
      isFinite s3 = true ∧
      (ch.buf.wf = true → buf.read ch.w = s3 ∧ ∀ a, a ≠ ch.w → buf.read a = ch.buf.read a)

/-- R228, R230: the LFO values, the advanced phases and random walks and the modulation scalar, for the three waveforms and
draws `u` in [-1.0, 1.0]; the scalar is in [0.8, 1.2] in every state and for every draw, and exactly 1.0 when both depths
are 0. -/
def Obligations.ModulationScalar : Prop :=
  ∀ (d : Draw) (tp : Tp) (ch : TpChan),
    (∃ (e : Nat → Nat → Draw) (u : Nat → F32),
      (∀ k, fle fm1 (u k) = true ∧ fle (u k) f1 = true) ∧
      let advance := fun (e : Nat → Draw) (ph rate : F32) =>
        let p := fadd (e 0) ph (fdiv (e 1) rate tp.sr)
        let q := if fle f1 p then fsub (e 2) p f1 else p
        if fle f0 q && flt q f1 then q else f0
      let lfo := fun (e : Nat → Draw) (u : F32) (wave : Waveform) (ph rw rate : F32) =>
        match wave with
        | .sine => (Config.num.sin (fmul (e 3) 0x40C90FDB ph), rw)
        | .triangle =>
          (if flt ph fHalf then fsub (e 3) (fmul (e 4) f4 ph) f1 else fsub (e 3) f3 (fmul (e 4) f4 ph), rw)
        | .randomWalk =>
          let rw' := fclamp (fadd (e 3) rw (fmul (e 4) (fmul (e 5) u Config.params.rwStep) (fdiv (e 6) rate tp.sr))) fm1 f1
          (rw', rw')
      let wow := lfo (e 0) (u 0) tp.wowWave ch.wowPh ch.wowRW tp.wowRate
      let flu := lfo (e 1) (u 1) tp.flutWave ch.flutPh ch.flutRW tp.flutRate
      let jit := fmul (e 2 0) (fmul (e 2 1) (u 2) Config.params.jitterMax) (fadd (e 2 2) tp.wowDepth tp.flutDepth)
      (tpModScalar d tp ch).1 = { ch with
        wowPh := advance (e 0) ch.wowPh tp.wowRate, wowRW := wow.2
        flutPh := advance (e 1) ch.flutPh tp.flutRate, flutRW := flu.2 } ∧
      (tpModScalar d tp ch).2 = fclamp
        (fadd (e 2 3) (fadd (e 2 4) (fadd (e 2 5) f1 (fmul (e 2 6) wow.1 tp.wowDepth)) (fmul (e 2 7) flu.1 tp.flutDepth))
          jit) 0x3F4CCCCD 0x3F99999A) ∧
    (fle 0x3F4CCCCD (tpModScalar d tp ch).2 = true ∧ fle (tpModScalar d tp ch).2 0x3F99999A = true) ∧
    (tp.wowDepth = f0 → tp.flutDepth = f0 → ch.dynamicOk = true → (tpModScalar d tp ch).2 = f1)

/-! ### TQ (46_quantizer.md) -/

/-- R296, R297, R300 to R302, R316: the whole effect of `TQ.SETDEF`, `TQ.SETTUNING`, `TQ.SCLCLR` and `TQ.GETDESC`: every
built-in tuning's entries and its description, the ASCII bytes of R297's string. -/
def Obligations.ScaleCommands : Prop :=
  ∀ (s : State) (id : Nat), id ≤ 10 →
    exec .tqSetdef s = .next { s with
      cix := s.cix + 1, draws := s.draws + 1,
      tq := { s.tq with len := 13, scale := scale12, descLen := 6, desc := [0x31, 0x32, 0x2D, 0x45, 0x44, 0x4F] } } ∧
    (∃ (scale : List F32) (desc : List Byte),
      exec (.tqSettuning id) s = .next { s with
        cix := s.cix + 1, draws := s.draws + 1,
        tq := { s.tq with len := scale.length, scale := scale, descLen := desc.length, desc := desc } } ∧
      scale.length = [13, 20, 23, 25, 32, 54, 73, 13, 13, 13, 13].getD id 0 ∧
      (∀ k, 7 ≤ id → k < 12 → scale.getD k f1 = Config.params.tuningTable id k) ∧
      (∃ d, ∀ n k, n = [12, 19, 22, 24, 31, 53, 72].getD id 0 → k < n →
        scale.getD k f1 = fmul d (toF32 (k : Int)) (fdiv d f1200 (toF32 (n : Int)))) ∧
      scale.getLast? = some f1200 ∧
      desc = (["12-EDO", "19-EDO", "22-EDO", "24-EDO", "31-EDO", "53-EDO", "72-EDO", "Just Intonation", "Pythagorean",
        "Quarter-comma Meantone", "Werckmeister III"].getD id "").toList.map fun a => BitVec.ofNat 8 a.toNat) ∧
    exec .tqSclclr s = .next { s with cix := s.cix + 1, draws := s.draws + 1, tq := { s.tq with sclLen := 0 } } ∧
    exec .tqGetdesc s = .next { s with
      cix := s.cix + 1, draws := s.draws + 1,
      rsp := s.rsp ++ (BitVec.ofNat 32 s.tq.descLen :: (s.tq.desc.take s.tq.descLen).map (BitVec.setWidth 32)) }

/-- R303: `TQ.SCLB` stores its byte in the cell after the staged ones and in no other; a full buffer drops it. -/
def Obligations.StagingStoresOneByte : Prop :=
  ∀ (s : State) (b : Byte), s.tq.sclbuf.wf = true →
    (s.tq.sclLen < 65536 → ∃ buf : Memory 8,
      exec (.tqSclb b) s = .next { s with
        cix := s.cix + 1, draws := s.draws + 1, tq := { s.tq with sclbuf := buf, sclLen := s.tq.sclLen + 1 } } ∧
      buf.read s.tq.sclLen = b ∧ ∀ a, a ≠ s.tq.sclLen → buf.read a = s.tq.sclbuf.read a) ∧
    (65536 ≤ s.tq.sclLen → exec (.tqSclb b) s = .next { s with cix := s.cix + 1, draws := s.draws + 1 })

/-- R304, R308: `TQ.QUANT` appends one finite word and changes nothing else. With a well-formed scale the word is the octave
times 1200.0 plus the entry `k` nearest to the in-octave remainder, the first of equally near ones; while the authority is
connected it is the request plus the authority's retuning, unless that is not finite. -/
def Obligations.QuantizerAnswerIsFinite : Prop :=
  ∀ (s : State) (v : F32), s.tq.scaleOk = true →
    ∃ (d : Nat → Draw) (k : Nat) (y : F32),
      let entry := fun j => s.tq.scale.getD j f0
      let cC := fclamp v 0xC8160000 0x48160000
      let rem := fmodf (fadd (d 0) (fmodf cC f1200) f1200) f1200
      let oct := floorI (fadd (d 1) (fdiv (d 2) (fsub (d 3) cC rem) f1200) fHalf)
      let dist := fun j => fabs (fsub (d 4) rem (entry j))
      let q := fadd (d 5) (fmul (d 6) (toF32 oct) f1200) (entry k)
      let note := fadd (d 7) 0x42700000 (fdiv (d 8) cC f100)
      let retuned := fadd (d 9) cC (fmul (d 10) (Config.authRetuning (d 11).step (d 11).path note) f100)
      exec (.tqQuant v) s = .next { s with cix := s.cix + 1, draws := s.draws + 1, rsp := s.rsp ++ [y] } ∧
      isFinite y = true ∧ k < s.tq.len ∧
      (∀ j, j < s.tq.len → flt (dist j) (dist k) = false) ∧ (∀ j, j < k → flt (dist k) (dist j) = true) ∧
      (s.tq.auth = false → y = q) ∧ (s.tq.auth = true → y = if isFinite retuned then retuned else q)

/-- R306: in 12-EDO, with no authority, quantizing an already quantized value returns the same value, for every operand
pattern. -/
def Obligations.QuantizerIsIdempotentOn12Edo : Prop :=
  ∀ (d d' : Draw) (tq : Tq) (v : F32), tq.len = 13 → tq.scale = scale12 → tq.auth = false →
    tqQuantize d' tq (tqQuantize d tq v) = tqQuantize d tq v

/-- R307: in 12-EDO, with no authority, adding an octave to a whole number of cents adds an octave to the result, inside
the clamp range. -/
def Obligations.QuantizerOctaveSymmetryOn12Edo : Prop :=
  ∀ (d d' : Draw) (tq : Tq) (n : Int), tq.len = 13 → tq.scale = scale12 → tq.auth = false → -153600 ≤ n → n ≤ 152400 →
    tqQuantize d' tq (toF32 (n + 1200)) = fadd d' (tqQuantize d tq (toF32 n)) f1200

/-- R310: `TQ.LOAD` answers 1 and installs description and scale together, with 0.0 before and 1200.0 after the notes, or
answers 0 and writes nothing of the quantizer; a staged text that filled the buffer is refused. -/
def Obligations.ScaleLoadIsAtomic : Prop :=
  ∀ s : State,
    let text := (List.range s.tq.sclLen).map s.tq.sclbuf.read
    (∀ desc e, s.tq.sclLen < 65536 → parseScl text = some (desc, e) →
      exec .tqLoad s = .next { s with
        cix := s.cix + 1, draws := s.draws + 1, rsp := s.rsp ++ [1],
        tq := { s.tq with
          len := e.length + 2, scale := f0 :: e ++ [f1200], descLen := desc.length, desc := desc } }) ∧
    (65536 ≤ s.tq.sclLen ∨ parseScl text = none →
      exec .tqLoad s = .next { s with cix := s.cix + 1, draws := s.draws + 1, rsp := s.rsp ++ [0] })

/-- R311 to R315, R320: the lexical layer, which texts fail, and what a text that parses denotes. A text is cut into lines at
every 0x0A (`last`, what follows the last one, is a line unless it is empty), one trailing 0x0D is removed from each, and the
lines that begin with `!` or hold only spaces and tabs are dropped. A first token is a maximal run without blanks, a
description loses the blanks around it, and a count is 1 to 9 digits and nothing else, with their decimal value. A text parses
exactly when it has a note count
`N` of at most 126 and `N` note lines whose first tokens are all read; its description is the first content line without
the blanks around it, cut to 255 bytes. A token `A/B` is read when both are counts from 1 and its cents,
`1200.0 *f NUM.log2(A /f B)`, are finite. Any other token that is read is a decimal of at most 32 bytes, an optional sign,
digits, and after a period at least one digit, and it reads as the binary32 nearest to the decimal, ties to even; every
such decimal is read. That a run has at least one digit, after a period too, so that `5.` is not read, is the MODEL'S
READING (log 14, DEDUCED) of R314's "runs of decimal digits", which states no least length. -/
def Obligations.ScaleFileShape : Prop :=
  let blank := fun (b : Byte) => b == 0x20 || b == 0x09
  (∀ text : List Byte, ∃ (ls : List (List Byte)) (last : List Byte),
    text = ls.flatMap (fun l => l ++ [0x0A]) ++ last ∧ (∀ l ∈ ls, 0x0A ∉ l) ∧ 0x0A ∉ last ∧
    contentLines text =
      ((if last = [] then ls else ls ++ [last]).map fun l => if l.getLast? = some 0x0D then l.dropLast else l).filter
        fun l => !(l.head? == some 0x21 || l.all blank)) ∧
  (∀ line : List Byte, ∃ pre post, line = pre ++ firstToken line ++ post ∧ pre.all blank = true ∧
    (∀ b ∈ firstToken line, blank b = false) ∧ (∀ b, post.head? = some b → blank b = true) ∧
    (firstToken line = [] → post = [])) ∧
  (∀ line : List Byte, ∃ pre post, line = pre ++ trimBlank line ++ post ∧ pre.all blank = true ∧ post.all blank = true ∧
    (∀ b, (trimBlank line).head? = some b → blank b = false) ∧
    ∀ b, (trimBlank line).getLast? = some b → blank b = false) ∧
  (∀ b : Byte, isDigit b = true ↔ 0x30 ≤ b.toNat ∧ b.toNat ≤ 0x39) ∧
  decimalValue [] = 0 ∧ (∀ ds b, decimalValue (ds ++ [b]) = 10 * decimalValue ds + (b.toNat - 0x30)) ∧
  (∀ t n, parseCount t = some n ↔ 1 ≤ t.length ∧ t.length ≤ 9 ∧ t.all isDigit = true ∧ n = decimalValue t) ∧
  (∀ text : List Byte,
    (∀ l0, contentLines text = [] ∨ contentLines text = [l0] → parseScl text = none) ∧
    (∀ l0 l1 notes, contentLines text = l0 :: l1 :: notes → parseCount (firstToken l1) = none → parseScl text = none) ∧
    (∀ l0 l1 notes n, contentLines text = l0 :: l1 :: notes → parseCount (firstToken l1) = some n → notes.length < n →
      parseScl text = none) ∧
    ∀ desc e, parseScl text = some (desc, e) ↔
      e.length ≤ 126 ∧ ∃ l0 l1 notes, contentLines text = l0 :: l1 :: notes ∧
        parseCount (firstToken l1) = some e.length ∧ e.length ≤ notes.length ∧ desc = (trimBlank l0).take 255 ∧
        ∀ i, i < e.length → parseNote (firstToken (notes.getD i [])) = e[i]?) ∧
  (∀ text desc e, parseScl text = some (desc, e) →
    (∀ v ∈ e, isFinite v = true) ∧ 1 ≤ desc.length ∧ desc.length ≤ 255) ∧
  (∀ (a b : List Byte) (v : F32), 0x2F ∉ a →
    (parseNote (a ++ 0x2F :: b) = some v ↔
      ∃ m n, parseCount a = some m ∧ parseCount b = some n ∧ 1 ≤ m ∧ 1 ≤ n ∧ isFinite v = true ∧
        v = fmul noDraw f1200 (Config.num.log2 (fdiv noDraw (toF32 m) (toF32 n))))) ∧
  (∀ token : List Byte, 0x2F ∉ token →
    let decimal := fun (neg : Bool) (whole frac : List Byte) =>
      token.length ≤ 32 ∧ (whole ++ frac).all isDigit = true ∧ whole ++ frac ≠ [] ∧
      ∃ sign, (sign = [0x2D] ∧ neg = true ∨ (sign = [0x2B] ∨ sign = []) ∧ neg = false) ∧
        (frac = [] ∧ token = sign ++ whole ∨ frac ≠ [] ∧ token = sign ++ whole ++ 0x2E :: frac)
    (∀ neg whole frac, decimal neg whole frac → ∃ v, parseNote token = some v) ∧
    ∀ v, parseNote token = some v →
      ∃ neg whole frac, decimal neg whole frac ∧
        let value : Int := (if neg then -1 else 1) * decimalValue (whole ++ frac) * unitsPerOne
        let error := fun (z : F32) => (intOf z * 10 ^ frac.length - value).natAbs
        isFinite v = true ∧ ∀ z, isFinite z = true →
          error v ≤ error z ∧ (error v = error z → intOf v = intOf z ∨ v.toNat % 2 = 0))

/-! ### RT (47_router.md) -/

/-- R332, R333: the whole effect of `RT.CFG` and `RT.RST` in terms of the three units' own commands: each unit is left as
its own command leaves it, and the cross-feedback history and the poll counter are cleared, by a configure only if one of
the units reallocated. -/
def Obligations.RouterConfigureAndReset : Prop :=
  ∀ (s : State) (v : F32),
    let same := fun (cfg : Bool) (sr : F32) => cfg && feq sr (fclamp v Config.srMin Config.srMax)
    (∃ t, exec (.rtCfg v) s = .next t ∧ t.cix = s.cix + 1 ∧ t.status = s.status ∧ t.cmd = s.cmd ∧ t.rsp = s.rsp ∧
      t.tq = s.tq ∧ (∃ d, t.dl = dlConfigure d s.dl v) ∧ t.ps = psConfigure s.ps v ∧
      (∃ d, t.tp = (s.tpConfigure d v).tp ∧ t.bq = (s.tpConfigure d v).bq ∧ t.bqh = (s.tpConfigure d v).bqh) ∧
      t.rt = if same s.dl.cfg s.dl.sr && same s.ps.cfg s.ps.sr && same s.tp.cfg s.tp.sr then s.rt
        else { s.rt with prevDelayed := ⟨f0, f0⟩, pollCnt := 0 }) ∧
    (∃ a b e, exec .dlRst s = .next a ∧ exec .psRst s = .next b ∧ exec .tpRst s = .next e ∧
      exec .rtRst s = .next { s with
        cix := s.cix + 1, draws := s.draws + 1, dl := a.dl, ps := b.ps, tp := e.tp, bqh := e.bqh,
        rt := { s.rt with prevDelayed := ⟨f0, f0⟩, pollCnt := 0 } })

/-- R334, R335: the whole effect of `RT.SETXFB` and `RT.SETPITCH`: the request, quantized first when asked, is stored as
`PS.SETPITCH` stores it, and `RT.quantEn` records the choice. -/
def Obligations.RouterSetters : Prop :=
  ∀ (s : State) (on : Bool) (v : F32),
    exec (.rtSetxfb v) s = .next { s with
      cix := s.cix + 1, draws := s.draws + 1, rt := { s.rt with xfbAmt := fclamp v f0 f1 } } ∧
    ∃ (d : Nat → Draw) (cents : F32),
      exec (.rtSetpitch (if on then 1 else 0) v) s = .next { s with
        cix := s.cix + 1, draws := s.draws + 1, rt := { s.rt with quantEn := on },
        ps := { s.ps with cents := cents, ratio := Config.num.exp2 (fdiv (d 0) cents f1200) } } ∧
      cents = fclamp (if on then tqQuantize (d 1) s.tq v else v) Config.pitchCentsMin Config.pitchCentsMax

/-- R336, R338, R340, R341, R331: a frame on a configured block sends each channel through the units' own procedures, Pitch,
then Delay with the other channel's history as external feedback, then Tape, each checked by the router, and answers the two
finite results. The delay line writes its one cell as `DL.PROC` does. Every parameter, filter coefficient, size and the scale
are kept; the frame's own taps become the cross-feedback history (a non-finite one +0.0); the poll is counted, and when it
is due `TQ.auth` is the authority's answer. -/
def Obligations.RouterFrame : Prop :=
  ∀ (s : State) (x : PerCh F32), s.dl.cfg = true → s.ps.cfg = true → s.tp.cfg = true →
    ∃ (t : State) (y : PerCh F32), exec (.rtFrame x.c0 x.c1) s = .next t ∧ t.rsp = s.rsp ++ [y.c0, y.c1] ∧
      isFinite y.c0 = true ∧ isFinite y.c1 = true ∧
      t = { s with
        cix := s.cix + 1, draws := s.draws + 1, rsp := t.rsp, bqh := t.bqh,
        dl := { s.dl with ch := t.dl.ch }, ps := { s.ps with ch := t.ps.ch }, tp := { s.tp with ch := t.tp.ch },
        tq := { s.tq with auth := t.tq.auth },
        rt := { s.rt with prevDelayed := t.rt.prevDelayed, pollCnt := t.rt.pollCnt } } ∧
      (∀ c, ∃ (dp dt : Draw) (d : Nat → Draw),
        let xin := if isFinite (x.get c) then x.get c else f0
        let pr := psProcess dp s.ps (s.ps.ch.get c) xin
        let p := if isFinite pr.2 then pr.2 else xin
        let line := s.dl.ch.get c
        let A := line.buf.read ((((line.w : Int) - s.dl.dInt) % (s.dl.N : Int)).toNat)
        let B := line.buf.read ((((line.w : Int) - s.dl.dInt - 1) % (s.dl.N : Int)).toNat)
        let delayed := fadd (d 0) (fmul (d 1) A (fsub (d 2) f1 s.dl.dFrac)) (fmul (d 3) B s.dl.dFrac)
        let xfb := fmul (d 4) s.rt.xfbAmt (s.rt.prevDelayed.get (otherChan c))
        let fbs := fadd (d 5) (fmul (d 6) s.dl.fb delayed) xfb
        let out := fadd (d 7) (fmul (d 8) p (fsub (d 9) f1 s.dl.mix)) (fmul (d 10) delayed s.dl.mix)
        let dv := if isFinite out then out else p
        let tr := tpProcess dt s.tp s.bq c ⟨s.tp.ch.get c, s.bqh.get c⟩ dv
        t.ps.ch.get c = pr.1 ∧
        t.dl.ch.get c = ⟨line.buf.write line.w (fadd (d 11) p fbs), (line.w + 1) % s.dl.N, delayed⟩ ∧
        (s.tp.mode = false → y.get c = dv ∧ t.tp.ch.get c = s.tp.ch.get c ∧ t.bqh.get c = s.bqh.get c) ∧
        (s.tp.mode = true → y.get c = tr.2 ∧ t.tp.ch.get c = tr.1.ch ∧ t.bqh.get c = tr.1.hist)) ∧
      (∀ c, t.rt.prevDelayed.get c = if isFinite (t.dl.ch.get c).delayed then (t.dl.ch.get c).delayed else f0) ∧
      t.rt.pollCnt = (if s.rt.pollCnt + 1 = 64 then 0 else s.rt.pollCnt + 1) ∧
      (s.rt.pollCnt + 1 ≠ 64 → t.tq.auth = s.tq.auth) ∧
      (s.rt.pollCnt + 1 = 64 → ∃ n place, t.tq.auth = Config.authConnected n place)
end

