-- ==== Sys2Proof/Laws/Rounding.lean ====
section
/-! SUPPORT. Rounding to nearest even (40_lifecycle_sys.md R106): exact on binary32 values, and monotone. -/

namespace Sys2Proof.Machine

/-- `unitsOf` as a function of the magnitude alone. -/
theorem unitsOf_mkF (neg : Bool) (m : Nat) (h : m < 0x80000000) :
    unitsOf (mkF neg m) = if m / 0x800000 = 0 then m % 0x800000 else (0x800000 + m % 0x800000) * 2 ^ (m / 0x800000 - 1) := by
  have hm : magOf (mkF neg m) = m := by
    unfold magOf mkF
    cases neg <;> simp <;> omega
  simp only [unitsOf, hm]

theorem magOf_mkF (neg : Bool) (m : Nat) (h : m < 0x80000000) : magOf (mkF neg m) = m := by
  unfold magOf mkF
  cases neg <;> simp <;> omega

theorem isNeg_mkF (neg : Bool) (m : Nat) (h : m < 0x80000000) : isNeg (mkF neg m) = neg := by
  unfold isNeg mkF
  cases neg <;> simp <;> omega

theorem magOf_lt (v : F32) : magOf v < 0x80000000 := Nat.mod_lt _ (by norm_num)

/-- A pattern is its sign and magnitude. -/
theorem mkF_magOf (v : F32) : mkF (isNeg v) (magOf v) = v := by
  apply BitVec.eq_of_toNat_eq
  have := v.isLt
  unfold mkF isNeg magOf
  split <;> simp_all <;> omega

theorem nearestEven_mul (a q : Nat) (hq : 0 < q) : nearestEven (a * q) q = a := by
  unfold nearestEven
  simp [Nat.mul_div_cancel a hq]
  intro h; omega

/-- The rounding of a representable magnitude, scaled or not, is that magnitude. -/
theorem roundMag_exact (v : F32) (s : Nat) (hs : 0 < s) (hv : isFinite v = true) :
    roundMag (unitsOf v * s) s = magOf v := by
  have hm : magOf v < 0x7F800000 := by simpa [isFinite] using hv
  have hu : unitsOf v = (if magOf v / 0x800000 = 0 then magOf v % 0x800000
      else (0x800000 + magOf v % 0x800000) * 2 ^ (magOf v / 0x800000 - 1)) := by simp only [unitsOf]
  generalize magOf v = m at hm hu
  have hdm : 0x800000 * (m / 0x800000) + m % 0x800000 = m := Nat.div_add_mod m 0x800000
  have hr : m % 0x800000 < 0x800000 := Nat.mod_lt _ (by norm_num)
  unfold roundMag quantum
  rw [Nat.mul_div_cancel _ hs, hu]
  split
  · next he =>
    have hlog : Nat.log2 (m % 0x800000) - 23 = 0 := by
      by_cases h0 : m % 0x800000 = 0
      · rw [h0]; decide
      · have : Nat.log2 (m % 0x800000) < 23 := (Nat.log2_lt h0).2 (by norm_num; exact hr)
        omega
    rw [hlog]
    simp only [Nat.zero_mul, pow_zero, Nat.mul_one, Nat.zero_add]
    rw [nearestEven_mul _ _ hs]
    omega
  · next he =>
    obtain ⟨e, he'⟩ : ∃ e, m / 0x800000 = e + 1 := ⟨m / 0x800000 - 1, by omega⟩
    rw [he']
    simp only [Nat.add_sub_cancel]
    have hlog : Nat.log2 ((0x800000 + m % 0x800000) * 2 ^ e) = 23 + e := by
      have h0 : (0x800000 + m % 0x800000) * 2 ^ e ≠ 0 := by positivity
      apply (Nat.log2_eq_iff h0).2
      constructor
      · rw [pow_add]; exact Nat.mul_le_mul_right _ (by norm_num)
      · rw [show 23 + e + 1 = 24 + e by ring, pow_add]
        exact (Nat.mul_lt_mul_right (by positivity)).2 (by omega)
    rw [hlog]
    have hk : 23 + e - 23 = e := by omega
    rw [hk, Nat.mul_assoc, Nat.mul_comm (2 ^ e) s, nearestEven_mul _ _ (by positivity)]
    have : e * 0x800000 + (0x800000 + m % 0x800000) = m := by rw [he'] at hdm; omega
    rw [this]
    omega

theorem nearestEven_mono (p q p' q' : Nat) (hq : 0 < q) (hq' : 0 < q') (h : p * q' ≤ p' * q) :
    nearestEven p q ≤ nearestEven p' q' := by
  have hn : p / q ≤ p' / q' := by
    rw [Nat.le_div_iff_mul_le hq']
    have h1 : p / q * q ≤ p := Nat.div_mul_le_self p q
    have : p / q * q' * q ≤ p' * q := by
      calc p / q * q' * q = p / q * q * q' := by ring
        _ ≤ p * q' := Nat.mul_le_mul_right _ h1
        _ ≤ p' * q := h
    exact Nat.le_of_mul_le_mul_right this hq
  have hp : q * (p / q) + p % q = p := Nat.div_add_mod p q
  have hp' : q' * (p' / q') + p' % q' = p' := Nat.div_add_mod p' q'
  unfold nearestEven
  simp only
  generalize hn0 : p / q = n at *
  generalize hn1 : p' / q' = n' at *
  generalize p % q = r at *
  generalize p' % q' = r' at *
  rcases Nat.lt_or_ge n n' with hlt | hge
  · split <;> split <;> omega
  · have he : n = n' := le_antisymm hn hge
    subst he
    have hr : r * q' ≤ r' * q := by
      subst hp hp'
      nlinarith
    split
    · next hup =>
      rw [if_pos]
      rcases hup with h1 | ⟨h1, h2⟩
      · left
        have : q * q' < 2 * r' * q := by nlinarith
        nlinarith
      · have : q' ≤ 2 * r' := by
          by_contra hc
          have : 2 * r' * q < q' * q := Nat.mul_lt_mul_of_pos_right (by omega) hq
          nlinarith
        rcases Nat.lt_or_ge q' (2 * r') with h3 | h3
        · exact Or.inl h3
        · exact Or.inr ⟨by omega, h2⟩
    · split <;> omega

theorem quantum_bound (p q : Nat) (hq : 0 < q) : p < q * 2 ^ quantum p q * 2 ^ 24 := by
  unfold quantum
  have h1 : p / q < 2 ^ (Nat.log2 (p / q) + 1) := Nat.lt_log2_self
  have h2 : p < q * 2 ^ (Nat.log2 (p / q) + 1) := by
    rw [Nat.div_lt_iff_lt_mul hq] at h1
    rwa [Nat.mul_comm]
  refine lt_of_lt_of_le h2 ?_
  rw [Nat.mul_assoc, ← pow_add]
  exact Nat.mul_le_mul_left _ (Nat.pow_le_pow_right (by norm_num) (by omega))

theorem nearestEven_le (p q b : Nat) (hq : 0 < q) (h : p ≤ b * q) : nearestEven p q ≤ b := by
  have := nearestEven_mono p q (b * q) q hq hq (Nat.mul_le_mul_right _ h)
  rwa [nearestEven_mul b q hq] at this

theorem le_nearestEven (p q b : Nat) (hq : 0 < q) (h : b * q ≤ p) : b ≤ nearestEven p q := by
  have := nearestEven_mono (b * q) q p q hq hq (Nat.mul_le_mul_right _ h)
  rwa [nearestEven_mul b q hq] at this

/-- Rounding is monotone. -/
theorem roundMag_mono (p q p' q' : Nat) (hq : 0 < q) (hq' : 0 < q') (h : p * q' ≤ p' * q) :
    roundMag p q ≤ roundMag p' q' := by
  have hn : p / q ≤ p' / q' := by
    rw [Nat.le_div_iff_mul_le hq']
    have h1 : p / q * q ≤ p := Nat.div_mul_le_self p q
    have : p / q * q' * q ≤ p' * q := by
      calc p / q * q' * q = p / q * q * q' := by ring
        _ ≤ p * q' := Nat.mul_le_mul_right _ h1
        _ ≤ p' * q := h
    exact Nat.le_of_mul_le_mul_right this hq
  have hk : quantum p q ≤ quantum p' q' := by
    unfold quantum
    have : Nat.log2 (p / q) ≤ Nat.log2 (p' / q') := by
      by_cases h0 : p / q = 0
      · rw [h0]; simp
      · exact (Nat.le_log2 (Nat.pos_iff_ne_zero.1 (lt_of_lt_of_le (Nat.pos_of_ne_zero h0) hn))).2 (le_trans (Nat.log2_self_le h0) hn)
    omega
  unfold roundMag
  refine min_le_min ?_ (le_refl _)
  rcases Nat.eq_or_lt_of_le hk with he | hlt
  · rw [← he]
    apply Nat.add_le_add_left
    apply nearestEven_mono _ _ _ _ (by positivity) (by positivity)
    calc p * (q' * 2 ^ quantum p q) = p * q' * 2 ^ quantum p q := by ring
      _ ≤ p' * q * 2 ^ quantum p q := Nat.mul_le_mul_right _ h
      _ = p' * (q * 2 ^ quantum p q) := by ring
  · have h1 : nearestEven p (q * 2 ^ quantum p q) ≤ 2 ^ 24 := by
      apply nearestEven_le _ _ _ (by positivity)
      have := quantum_bound p q hq
      nlinarith
    have h2 : 2 ^ 23 ≤ nearestEven p' (q' * 2 ^ quantum p' q') := by
      apply le_nearestEven _ _ _ (by positivity)
      have hk0 : 0 < quantum p' q' := by omega
      have hne : p' / q' ≠ 0 := by
        intro h0; unfold quantum at hk0; rw [h0] at hk0; simp at hk0
      have hlog : quantum p' q' + 23 = Nat.log2 (p' / q') := by
        unfold quantum at hk0 ⊢; omega
      have h3 : 2 ^ (quantum p' q' + 23) ≤ p' / q' := by rw [hlog]; exact Nat.log2_self_le hne
      rw [Nat.le_div_iff_mul_le hq'] at h3
      calc 2 ^ 23 * (q' * 2 ^ quantum p' q') = 2 ^ (quantum p' q' + 23) * q' := by rw [pow_add]; ring
        _ ≤ p' := h3
    have : quantum p q + 1 ≤ quantum p' q' := hlt
    have h2' : (0x800000 : Nat) ≤ nearestEven p' (q' * 2 ^ quantum p' q') := by norm_num at h2 ⊢; exact h2
    have h1' : nearestEven p (q * 2 ^ quantum p q) ≤ 0x1000000 := by norm_num at h1 ⊢; exact h1
    nlinarith

/-- Rounding depends on the ratio alone. -/
theorem roundMag_scale (p q s : Nat) (hq : 0 < q) (hs : 0 < s) : roundMag (p * s) (q * s) = roundMag p q := by
  apply le_antisymm
  · apply roundMag_mono _ _ _ _ (by positivity) hq; apply le_of_eq; ring
  · apply roundMag_mono _ _ _ _ hq (by positivity); apply le_of_eq; ring

theorem roundMag_le (p q : Nat) : roundMag p q ≤ 0x7F800000 := Nat.min_le_right _ _

@[simp] theorem isNaN_roundTo (neg : Bool) (p q : Nat) : isNaN (roundTo neg p q) = false := by
  have := roundMag_le p q
  unfold roundTo isNaN
  rw [magOf_mkF _ _ (by omega)]
  simp; omega

theorem key_mkF (neg : Bool) (m : Nat) (h : m < 0x80000000) : key (mkF neg m) = if neg then -(m : Int) else m := by
  unfold key
  rw [isNeg_mkF _ _ h, magOf_mkF _ _ h]

/-- Two patterns of equal key are equal, or both are zeros. -/
theorem eq_of_key (a b : F32) (h : key a = key b) : a = b ∨ (isZero a = true ∧ isZero b = true) := by
  rw [← mkF_magOf a, ← mkF_magOf b] at h ⊢
  have ha := magOf_lt a
  have hb := magOf_lt b
  rw [key_mkF _ _ ha, key_mkF _ _ hb] at h
  simp only [isZero, magOf_mkF _ _ ha, magOf_mkF _ _ hb, decide_eq_true_eq]
  revert h
  cases isNeg a <;> cases isNeg b <;> simp only [if_true, if_false, Bool.false_eq_true] <;> intro h
  · left; rw [show magOf a = magOf b by omega]
  · right; omega
  · right; omega
  · left; rw [show magOf a = magOf b by omega]

end Sys2Proof.Machine
end

