-- ==== Sys2Proof/Laws/Float.lean ====
section
/-! SUPPORT. What each binary32 operation gives on ordinary operands: clamps, identities, exact cases, monotonicity. -/

namespace Sys2Proof.Machine

/-! ### Order -/

theorem fle_iff (a b : F32) : fle a b = true ↔ isNaN a = false ∧ isNaN b = false ∧ key a ≤ key b := by
  simp [fle, and_assoc]

theorem flt_iff (a b : F32) : flt a b = true ↔ isNaN a = false ∧ isNaN b = false ∧ key a < key b := by
  simp [flt, and_assoc]

theorem fle_refl (a : F32) (h : isNaN a = false) : fle a a = true := by rw [fle_iff]; exact ⟨h, h, le_refl _⟩

theorem fle_trans (a b c : F32) (h1 : fle a b = true) (h2 : fle b c = true) : fle a c = true := by
  rw [fle_iff] at *; exact ⟨h1.1, h2.2.1, le_trans h1.2.2 h2.2.2⟩

theorem not_flt (a b : F32) (ha : isNaN a = false) (hb : isNaN b = false) (h : flt a b = false) : fle b a = true := by
  rw [fle_iff]; refine ⟨hb, ha, ?_⟩
  by_contra hc
  have : flt a b = true := by rw [flt_iff]; exact ⟨ha, hb, by omega⟩
  rw [this] at h; cases h

theorem fle_of_flt (a b : F32) (h : flt a b = true) : fle a b = true := by
  rw [flt_iff] at h; rw [fle_iff]; exact ⟨h.1, h.2.1, le_of_lt h.2.2⟩

theorem isNaN_of_isFinite (v : F32) (h : isFinite v = true) : isNaN v = false := by
  simp only [isFinite, isNaN, decide_eq_true_eq, decide_eq_false_iff_not] at *; omega

theorem isInf_of_isFinite (v : F32) (h : isFinite v = true) : isInf v = false := by
  simp only [isFinite, isInf, decide_eq_true_eq, decide_eq_false_iff_not] at *; omega

/-- A value between finite bounds is finite. -/
theorem isFinite_of_between (lo hi v : F32) (hlo : isFinite lo = true) (hhi : isFinite hi = true)
    (h1 : fle lo v = true) (h2 : fle v hi = true) : isFinite v = true := by
  rw [fle_iff] at h1 h2
  simp only [isFinite, decide_eq_true_eq] at *
  have k1 := h1.2.2
  have k2 := h2.2.2
  unfold key at k1 k2
  revert k1 k2
  cases isNeg lo <;> cases isNeg v <;> cases isNeg hi <;> simp only [if_true, if_false, Bool.false_eq_true] <;> omega

/-- The range of the clamp (R105), for every value clamped. -/
theorem fclamp_between (v lo hi : F32) (h : fle lo hi = true) :
    fle lo (fclamp v lo hi) = true ∧ fle (fclamp v lo hi) hi = true := by
  have h' := (fle_iff lo hi).1 h
  unfold fclamp
  split
  · exact ⟨fle_refl _ h'.1, h⟩
  · next hn =>
    have hv : isNaN v = false := by simpa using hn
    split
    · exact ⟨fle_refl _ h'.1, h⟩
    · next h1 =>
      split
      · exact ⟨h, fle_refl _ h'.2.1⟩
      · next h2 => exact ⟨not_flt _ _ hv h'.1 (by simpa using h1), not_flt _ _ h'.2.1 hv (by simpa using h2)⟩

/-- The clamp leaves a value of the range alone (R105). -/
theorem fclamp_id (v lo hi : F32) (h1 : fle lo v = true) (h2 : fle v hi = true) : fclamp v lo hi = v := by
  rw [fle_iff] at h1 h2
  have h3 : flt v lo = false := by
    rw [Bool.eq_false_iff]; intro h; rw [flt_iff] at h; omega
  have h4 : flt hi v = false := by
    rw [Bool.eq_false_iff]; intro h; rw [flt_iff] at h; omega
  simp [fclamp, h1.2.1, h3, h4]

/-- The clamp of a clamped value changes nothing. -/
theorem fclamp_idem (v lo hi : F32) (h : fle lo hi = true) : fclamp (fclamp v lo hi) lo hi = fclamp v lo hi :=
  fclamp_id _ _ _ (fclamp_between v lo hi h).1 (fclamp_between v lo hi h).2

@[simp] theorem guardF_isFinite (y pre : F32) (h : isFinite pre = true) : isFinite (guardF y pre) = true := by
  unfold guardF; split <;> assumption

/-- Every value of the phase accumulator is in [0.0, 1.0) (R112). -/
theorem phaseAdvance_range (d : Draw) (ph rate sr : F32) :
    fle f0 (phaseAdvance d ph rate sr) = true ∧ flt (phaseAdvance d ph rate sr) f1 = true := by
  unfold phaseAdvance
  extract_lets p q
  split
  · next h => simpa using h
  · exact ⟨by decide, by decide⟩

/-! ### Draws -/

theorem draw_mem (S : F32 → Bool) (dflt : F32) (d : Draw) (h : S dflt = true) : S (draw S dflt d) = true := by
  unfold draw; simp only; split <;> assumption

@[simp] theorem isNaN_drawNaN (d : Draw) : isNaN (drawNaN d) = true := draw_mem _ _ _ (by decide)

/-- R107: a NaN operand gives a NaN. -/
theorem isNaN_fadd (d : Draw) (a b : F32) (h : isNaN a = true ∨ isNaN b = true) : isNaN (fadd d a b) = true := by
  unfold fadd; rw [if_pos (by simpa using h)]; exact isNaN_drawNaN d

theorem isNaN_fsub_left (d : Draw) (a b : F32) (h : isNaN a = true) : isNaN (fsub d a b) = true :=
  isNaN_fadd d a (fneg b) (.inl h)

theorem isNaN_fmul (d : Draw) (a b : F32) (h : isNaN a = true ∨ isNaN b = true) : isNaN (fmul d a b) = true := by
  unfold fmul; simp only; rw [if_pos (by simpa using h)]; exact isNaN_drawNaN d

theorem not_isFinite_of_isNaN (v : F32) (h : isNaN v = true) : isFinite v = false := by
  simp only [isNaN, isFinite, decide_eq_true_eq, decide_eq_false_iff_not] at *; omega

theorem drawBipolar_range (d : Draw) : fle fm1 (drawBipolar d) = true ∧ fle (drawBipolar d) f1 = true := by
  have := draw_mem (fun v => fle fm1 v && fle v f1) f0 d (by decide)
  simpa [drawBipolar] using this

theorem drawUnit_range (d : Draw) : fle f0 (drawUnit d) = true ∧ flt (drawUnit d) f1 = true := by
  have := draw_mem (fun v => fle f0 v && flt v f1) f0 d (by decide)
  simpa [drawUnit] using this

theorem drawSign_mem (d : Draw) : drawSign d = fm1 ∨ drawSign d = f1 := by
  have := draw_mem (fun v => v == fm1 || v == f1) f1 d (by decide)
  simpa [drawSign] using this

/-! ### Exact values -/

theorem roundTo_units (v : F32) (neg : Bool) (h : isFinite v = true) : roundTo neg (unitsOf v) 1 = mkF neg (magOf v) := by
  have := roundMag_exact v 1 (by norm_num) h
  rw [Nat.mul_one] at this
  rw [roundTo, this]

theorem unitsOf_eq_zero (v : F32) : unitsOf v = 0 ↔ magOf v = 0 := by
  have hdm : 0x800000 * (magOf v / 0x800000) + magOf v % 0x800000 = magOf v := Nat.div_add_mod _ _
  unfold unitsOf
  simp only
  split
  · constructor <;> intro h <;> omega
  · constructor
    · intro h
      have : (0x800000 + magOf v % 0x800000) * 2 ^ (magOf v / 0x800000 - 1) ≠ 0 := by positivity
      exact absurd h this
    · intro h; omega

theorem isZero_iff (v : F32) : isZero v = true ↔ unitsOf v = 0 := by rw [unitsOf_eq_zero]; simp [isZero]

theorem isFinite_of_isZero (v : F32) (h : isZero v = true) : isFinite v = true := by
  simp only [isZero, isFinite, decide_eq_true_eq] at *; omega

theorem unitsOf_f1 : unitsOf f1 = unitsPerOne := by decide

/-- A finite value times 1.0 is that value. -/
theorem fmul_one_finite (d : Draw) (x : F32) (h : isFinite x = true) : fmul d x f1 = x := by
  have h1 : isNaN f1 = false := by decide
  have h2 : isInf f1 = false := by decide
  have h3 : isNeg f1 = false := by decide
  have h4 := roundMag_exact x unitsPerOne (by unfold unitsPerOne; positivity) h
  have h5 : isNaN x = false := isNaN_of_isFinite x h
  have h6 : isInf x = false := isInf_of_isFinite x h
  simp only [fmul, h1, h2, h3, h5, h6, Bool.or_self, Bool.false_eq_true, if_false, unitsOf_f1, roundTo, h4, Bool.bne_false]
  exact mkF_magOf x

theorem fmul_comm_value (d : Draw) (a b : F32) : fmul d a b = fmul d b a := by
  have hs : (isNeg a != isNeg b) = (isNeg b != isNeg a) := by cases isNeg a <;> cases isNeg b <;> rfl
  unfold fmul
  simp only [Bool.or_comm (isNaN a), Bool.or_comm (isInf a), Bool.or_comm (isZero a), hs, Nat.mul_comm (unitsOf a)]

theorem fmul_one_left (d : Draw) (x : F32) (h : isFinite x = true) : fmul d f1 x = x := by
  rw [fmul_comm_value]; exact fmul_one_finite d x h

/-- A finite value times a zero is a zero. -/
theorem isZero_fmul (d : Draw) (x z : F32) (hx : isFinite x = true) (hz : isZero z = true) : isZero (fmul d x z) = true := by
  have hzf := isFinite_of_isZero z hz
  have h0 := (isZero_iff z).1 hz
  have hr : roundMag 0 unitsPerOne = 0 := by decide
  simp only [fmul, isNaN_of_isFinite x hx, isNaN_of_isFinite z hzf, isInf_of_isFinite x hx, isInf_of_isFinite z hzf,
    Bool.or_self, Bool.false_eq_true, if_false, h0, Nat.mul_zero, roundTo, hr]
  simp only [isZero, magOf_mkF _ 0 (by norm_num), decide_true]

/-- A finite value plus a zero is that value, up to the sign of a zero. -/
theorem fadd_zero (d : Draw) (x z : F32) (hx : isFinite x = true) (hz : isZero z = true) :
    fadd d x z = x ∨ (isZero x = true ∧ isZero (fadd d x z) = true) := by
  have hzf := isFinite_of_isZero z hz
  have h0 : intOf z = 0 := by unfold intOf; rw [(isZero_iff z).1 hz]; simp
  by_cases hxz : isZero x = true
  · right
    refine ⟨hxz, ?_⟩
    have hx0 : intOf x = 0 := by unfold intOf; rw [(isZero_iff x).1 hxz]; simp
    simp only [fadd, isNaN_of_isFinite x hx, isNaN_of_isFinite z hzf, isInf_of_isFinite x hx, isInf_of_isFinite z hzf,
      Bool.or_self, Bool.false_eq_true, if_false, h0, hx0, add_zero, if_true]
    simp only [isZero, magOf_mkF _ 0 (by norm_num), decide_true]
  · left
    have hu : unitsOf x ≠ 0 := by rw [Ne, ← isZero_iff]; exact hxz
    have hi : intOf x ≠ 0 := by unfold intOf; split <;> omega
    have hneg : decide (intOf x < 0) = isNeg x := by
      unfold intOf; cases isNeg x
      · simp
      · simp; omega
    have habs : (intOf x).natAbs = unitsOf x := by unfold intOf; split <;> omega
    simp only [fadd, isNaN_of_isFinite x hx, isNaN_of_isFinite z hzf, isInf_of_isFinite x hx, isInf_of_isFinite z hzf,
      Bool.or_self, Bool.false_eq_true, if_false, h0, add_zero, hi, hneg, habs]
    rw [roundTo_units x _ hx, mkF_magOf]

theorem roundTo_f1 (u s : Nat) (hu : unitsOf f1 = u) (hs : 0 < s) : roundTo false (s * u) s = f1 := by
  have h5 := roundMag_exact f1 s hs (by decide)
  rw [hu, Nat.mul_comm] at h5
  have h6 : magOf f1 = 0x3F800000 := by decide
  rw [roundTo, h5, h6]
  decide

/-- A finite non-zero value divided by itself is 1.0. -/
theorem fdiv_self (d : Draw) (x : F32) (hx : isFinite x = true) (h0 : isZero x = false) : fdiv d x x = f1 := by
  have hu : unitsOf x ≠ 0 := by rw [Ne, ← isZero_iff]; simp [h0]
  have h1 := unitsOf_f1
  have h2 : roundTo false (unitsOf x * unitsPerOne) (unitsOf x) = f1 := roundTo_f1 _ (unitsOf x) h1 (by omega)
  have a1 := isNaN_of_isFinite x hx
  have a2 :=  isInf_of_isFinite x hx
  rw [fdiv]
  rw [if_neg (by rw [a1]; decide), if_neg (by rw [a2]; decide), if_neg (by rw [a2]; decide), if_neg (by rw [h0]; decide), bne_self_eq_false]
  exact h2

@[simp] theorem magOf_fneg (x : F32) : magOf (fneg x) = magOf x := magOf_mkF _ _ (magOf_lt x)

@[simp] theorem isNeg_fneg (x : F32) : isNeg (fneg x) = !isNeg x := isNeg_mkF _ _ (magOf_lt x)

@[simp] theorem isFinite_fneg (x : F32) : isFinite (fneg x) = isFinite x := by simp [isFinite]

@[simp] theorem isZero_fneg (x : F32) : isZero (fneg x) = isZero x := by simp [isZero]

@[simp] theorem unitsOf_fneg (x : F32) : unitsOf (fneg x) = unitsOf x := by simp [unitsOf]

@[simp] theorem intOf_fneg (x : F32) : intOf (fneg x) = -intOf x := by
  unfold intOf; rw [isNeg_fneg, unitsOf_fneg]; cases isNeg x <;> simp

/-- A finite value minus itself is +0.0. -/
theorem fsub_self (d : Draw) (x : F32) (h : isFinite x = true) : fsub d x x = f0 := by
  have h' : isFinite (fneg x) = true := by rw [isFinite_fneg]; exact h
  rw [fsub, fadd, isNaN_of_isFinite x h, isNaN_of_isFinite _ h', isInf_of_isFinite x h, isInf_of_isFinite _ h']
  simp [mkF, f0]

/-- A finite non-zero value minus a zero is that value. -/
theorem fsub_zero (d : Draw) (x z : F32) (hx : isFinite x = true) (h0 : isZero x = false) (hz : isZero z = true) :
    fsub d x z = x := by
  rcases fadd_zero d x (fneg z) hx (by rw [isZero_fneg]; exact hz) with h | h
  · exact h
  · rw [h0] at h; exact absurd h.1 (by decide)

@[simp] theorem fsub_one_zero (d : Draw) : fsub d f1 f0 = f1 := fsub_zero d f1 f0 (by decide) (by decide) (by decide)

@[simp] theorem fsub_one_one (d : Draw) : fsub d f1 f1 = f0 := fsub_self d f1 (by decide)

/-- Zeros of either sign are equal in the comparison of R107. -/
theorem feq_of_isZero (a b : F32) (ha : isZero a = true) (hb : isZero b = true) : feq a b = true := by
  have hka : key a = 0 := by simp only [isZero, decide_eq_true_eq] at ha; unfold key; rw [ha]; split <;> rfl
  have hkb : key b = 0 := by simp only [isZero, decide_eq_true_eq] at hb; unfold key; rw [hb]; split <;> rfl
  simp [feq, hka, hkb, isNaN_of_isFinite a (isFinite_of_isZero a ha), isNaN_of_isFinite b (isFinite_of_isZero b hb)]

theorem feq_refl (a : F32) (h : isNaN a = false) : feq a a = true := by simp [feq, h]

end Sys2Proof.Machine
end

