-- ==== Sys2Proof/Laws/Delay.lean ====
section
/-! SUPPORT. Exact conversions between integers and binary32 (00_scope.md R10), the split of a delay (41_delayline.md R123,
R124), and the ring indices (20_memory.md R63, R64). -/

namespace Sys2Proof.Machine

/-- Every number `m * 2 ^ e` of units with a 24-bit `m` is a binary32 value. -/
theorem exists_units (e m : Nat) (hm : m < 2 ^ 24) (he : e ≤ 253) : ∃ v, isFinite v = true ∧ unitsOf v = m * 2 ^ e := by
  induction e generalizing m with
  | zero =>
    refine ⟨mkF false m, ?_, ?_⟩
    · have : m < 0x80000000 := by omega
      simp only [isFinite, magOf_mkF _ _ this, decide_eq_true_eq]; omega
    · rw [unitsOf_mkF _ _ (by omega)]
      split
      · omega
      · have : m / 0x800000 = 1 := by omega
        rw [this]; norm_num; omega
  | succ e ih =>
    by_cases h : m < 2 ^ 23
    · obtain ⟨v, h1, h2⟩ := ih (2 * m) (by omega) (by omega)
      exact ⟨v, h1, by rw [h2, pow_succ]; ring⟩
    · have hM : (e + 2) * 0x800000 + (m - 0x800000) < 0x7F800000 := by
        have : m - 0x800000 < 0x800000 := by norm_num at hm h; omega
        have : (e + 2) * 0x800000 ≤ 254 * 0x800000 := Nat.mul_le_mul_right _ (by omega)
        omega
      refine ⟨mkF false ((e + 2) * 0x800000 + (m - 0x800000)), ?_, ?_⟩
      · have hM2 : (e + 2) * 0x800000 + (m - 0x800000) < 0x80000000 := by omega
        simp only [isFinite, magOf_mkF _ _ hM2, decide_eq_true_eq]; exact hM
      · rw [unitsOf_mkF _ _ (by omega)]
        have h1 : ((e + 2) * 0x800000 + (m - 0x800000)) / 0x800000 = e + 2 := by norm_num at hm h; omega
        have h2 : ((e + 2) * 0x800000 + (m - 0x800000)) % 0x800000 = m - 0x800000 := by norm_num at hm h; omega
        rw [h1, h2, if_neg (by omega)]
        have h3 : 0x800000 + (m - 0x800000) = m := by norm_num at h; omega
        rw [h3]; rfl

/-- Rounding a representable number of units is exact. -/
theorem roundTo_exact (neg : Bool) (m e : Nat) (hm : m < 2 ^ 24) (he : e ≤ 253) :
    isFinite (roundTo neg (m * 2 ^ e) 1) = true ∧ unitsOf (roundTo neg (m * 2 ^ e) 1) = m * 2 ^ e ∧
      isNeg (roundTo neg (m * 2 ^ e) 1) = neg := by
  obtain ⟨v, h1, h2⟩ := exists_units e m hm he
  rw [← h2, roundTo_units v neg h1]
  have hl := magOf_lt v
  refine ⟨?_, ?_, isNeg_mkF _ _ hl⟩
  · simp only [isFinite, magOf_mkF _ _ hl] at h1 ⊢; exact h1
  · simp only [unitsOf, magOf_mkF _ _ hl]

/-- The units of a finite value are a 24-bit number times a power of two. -/
theorem units_form (v : F32) (h : isFinite v = true) : ∃ m e, m < 2 ^ 24 ∧ e ≤ 253 ∧ unitsOf v = m * 2 ^ e := by
  have hm : magOf v < 0x7F800000 := by simpa [isFinite] using h
  unfold unitsOf
  simp only
  split
  · exact ⟨magOf v % 0x800000, 0, by omega, by omega, by omega⟩
  · exact ⟨0x800000 + magOf v % 0x800000, magOf v / 0x800000 - 1, by omega, by omega, rfl⟩

/-- `toF32` is exact up to 2^24 (R10). -/
theorem toF32_exact (n : Nat) (h : n ≤ 2 ^ 24) :
    isFinite (toF32 n) = true ∧ intOf (toF32 n) = (n : Int) * (unitsPerOne : Int) := by
  have hd : decide ((n : Int) < 0) = false := by simp
  have hna : ((n : Int)).natAbs = n := by simp
  by_cases h24 : n = 2 ^ 24
  · have := roundTo_exact false (2 ^ 23) 150 (by norm_num) (by norm_num)
    have hu : n * unitsPerOne = 2 ^ 23 * 2 ^ 150 := by
      rw [h24, unitsPerOne, ← pow_add, ← pow_add]
    unfold toF32 intOf
    rw [hd, hna, hu]
    refine ⟨this.1, ?_⟩
    rw [this.2.2, this.2.1, if_neg (by decide), ← hu]
    push_cast; rfl
  · have := roundTo_exact false n 149 (by omega) (by norm_num)
    unfold toF32 intOf unitsPerOne
    rw [hd, hna]
    refine ⟨this.1, ?_⟩
    rw [this.2.2, this.2.1, if_neg (by decide)]
    push_cast; rfl

/-- Magnitudes and units have one order. -/
theorem unitsOf_mono (a b : F32) (hb : isFinite b = true) (h : magOf a ≤ magOf b) : unitsOf a ≤ unitsOf b := by
  by_contra hc
  have hb' : magOf b < 0x7F800000 := by simpa [isFinite] using hb
  have ha : isFinite a = true := by simp only [isFinite, decide_eq_true_eq]; omega
  have h1 := roundMag_mono (unitsOf b) 1 (unitsOf a) 1 (by norm_num) (by norm_num) (by omega)
  have h2 := roundMag_exact a 1 (by norm_num) ha
  have h3 := roundMag_exact b 1 (by norm_num) hb
  rw [Nat.mul_one] at h2 h3
  rw [h2, h3] at h1
  have he : magOf a = magOf b := by omega
  exact hc (by unfold unitsOf; rw [he])

theorem mag_le_of_units (a b : F32) (ha : isFinite a = true) (hb : isFinite b = true) (h : unitsOf a ≤ unitsOf b) :
    magOf a ≤ magOf b := by
  have h1 := roundMag_mono (unitsOf a) 1 (unitsOf b) 1 (by norm_num) (by norm_num) (by omega)
  have h2 := roundMag_exact a 1 (by norm_num) ha
  have h3 := roundMag_exact b 1 (by norm_num) hb
  rw [Nat.mul_one] at h2 h3
  rwa [h2, h3] at h1

/-- On finite values the order of the patterns is the order of the exact values. -/
theorem key_le_iff (a b : F32) (ha : isFinite a = true) (hb : isFinite b = true) : key a ≤ key b ↔ intOf a ≤ intOf b := by
  have m1 := unitsOf_mono a b hb
  have m2 := unitsOf_mono b a ha
  have m3 := mag_le_of_units a b ha hb
  have m4 := mag_le_of_units b a hb ha
  have z1 := unitsOf_eq_zero a
  have z2 := unitsOf_eq_zero b
  unfold key intOf
  cases isNeg a <;> cases isNeg b <;> simp only [if_true, if_false, Bool.false_eq_true] <;> constructor <;> intro h <;> omega

theorem fle_iff_intOf (a b : F32) (ha : isFinite a = true) (hb : isFinite b = true) :
    fle a b = true ↔ intOf a ≤ intOf b := by
  rw [fle_iff, ← key_le_iff a b ha hb]
  simp [isNaN_of_isFinite a ha, isNaN_of_isFinite b hb]

theorem flt_iff_intOf (a b : F32) (ha : isFinite a = true) (hb : isFinite b = true) :
    flt a b = true ↔ intOf a < intOf b := by
  have := key_le_iff b a hb ha
  rw [flt_iff]
  simp only [isNaN_of_isFinite a ha, isNaN_of_isFinite b hb, true_and]
  omega

theorem intOf_f1 : intOf f1 = (unitsPerOne : Int) := by
  unfold intOf; rw [unitsOf_f1]; rfl

theorem intOf_f0 : intOf f0 = 0 := by decide

theorem unitsPerOne_pos : (0 : Int) < (unitsPerOne : Int) := by unfold unitsPerOne; positivity

/-- The fractional part of a value of [0, ...) is a binary32 value, so subtracting the integer part is exact (R124 (ii)). -/
theorem fsub_floor (d : Draw) (ds : F32) (n : Nat) (hf : isFinite ds = true) (hn : n ≤ 2 ^ 24)
    (hfl : floorI ds = n) :
    isFinite (fsub d ds (toF32 n)) = true ∧ intOf (fsub d ds (toF32 n)) = intOf ds % (unitsPerOne : Int) := by
  obtain ⟨hnf, hni⟩ := toF32_exact n hn
  have hdm := Int.emod_add_mul_ediv (intOf ds) (unitsPerOne : Int)
  have hsum : intOf ds + intOf (fneg (toF32 n)) = intOf ds % (unitsPerOne : Int) := by
    rw [intOf_fneg, hni]
    unfold floorI at hfl
    rw [hfl] at hdm
    linarith [mul_comm (n : Int) (unitsPerOne : Int)]
  have hnn := Int.emod_nonneg (intOf ds) (ne_of_gt unitsPerOne_pos)
  have hlt := Int.emod_lt_of_pos (intOf ds) unitsPerOne_pos
  have hpos : 0 ≤ intOf ds := by
    have h1 : 0 ≤ (unitsPerOne : Int) * (intOf ds / (unitsPerOne : Int)) := by
      unfold floorI at hfl; rw [hfl]; positivity
    linarith
  have hneg' : isFinite (fneg (toF32 n)) = true := by rw [isFinite_fneg]; exact hnf
  rw [fsub, fadd, isNaN_of_isFinite ds hf, isNaN_of_isFinite _ hneg', isInf_of_isFinite ds hf, isInf_of_isFinite _ hneg']
  simp only [Bool.or_self, Bool.false_eq_true, if_false]
  rw [hsum]
  split
  · next h0 =>
    rw [h0]
    have hz : isZero (mkF (isNeg ds && isNeg (fneg (toF32 n))) 0) = true := by
      simp only [isZero, magOf_mkF _ 0 (by norm_num), decide_true]
    refine ⟨isFinite_of_isZero _ hz, ?_⟩
    unfold intOf; rw [(isZero_iff _).1 hz]; simp
  · next h0 =>
    rw [show decide (intOf ds % (unitsPerOne : Int) < 0) = false by simp; exact hnn]
    obtain ⟨m, e, hm, he, hu⟩ := units_form ds hf
    have hds : intOf ds = ((m * 2 ^ e : Nat) : Int) := by
      rw [← hu]; unfold intOf at hpos ⊢
      split
      · next hn' => rw [if_pos hn'] at hpos; omega
      · rfl
    have hr : (intOf ds % (unitsPerOne : Int)).natAbs = m * 2 ^ e % 2 ^ 149 := by
      rw [hds, unitsPerOne]; norm_cast
    rw [hr]
    have hform : ∃ m' e', m' < 2 ^ 24 ∧ e' ≤ 253 ∧ m * 2 ^ e % 2 ^ 149 = m' * 2 ^ e' := by
      by_cases hle : 149 ≤ e
      · refine ⟨0, 0, by norm_num, by norm_num, ?_⟩
        obtain ⟨k, rfl⟩ := Nat.exists_eq_add_of_le hle
        rw [pow_add, ← mul_assoc, mul_comm m, mul_assoc, Nat.mul_mod_right]; norm_num
      · refine ⟨m % 2 ^ (149 - e), e, lt_of_le_of_lt (Nat.mod_le _ _) hm, he, ?_⟩
        have : (2 : Nat) ^ 149 = 2 ^ (149 - e) * 2 ^ e := by rw [← pow_add]; congr 1; omega
        rw [this, Nat.mul_mod_mul_right]
    obtain ⟨m', e', hm', he', hform⟩ := hform
    have hx := roundTo_exact false m' e' hm' he'
    rw [hform]
    refine ⟨hx.1, ?_⟩
    rw [intOf, hx.2.2, hx.2.1, if_neg (by decide), ← hform, ← hr]
    omega

/-- The split of a delay (R123, R124 (i) to (iii)): the clamped delay's integer part is in `1..N-1`, the weight in
[0.0, 1.0) is its exact fractional part, and the weight at the oldest cell is zero. -/
theorem splitDelay_spec (d : Draw) (N : Nat) (ds : F32) (h2 : 2 ≤ N) (hN : N ≤ 2 ^ 24) :
    1 ≤ (splitDelay d N ds).1 ∧ (splitDelay d N ds).1 + 1 ≤ N ∧ fle f0 (splitDelay d N ds).2 = true ∧
      flt (splitDelay d N ds).2 f1 = true ∧
      ((splitDelay d N ds).1 + 1 = N → isZero (splitDelay d N ds).2 = true) ∧
      intOf (splitDelay d N ds).2 = intOf (fclamp ds f1 (toF32 ((N : Int) - 1))) -
        (splitDelay d N ds).1 * (unitsPerOne : Int) := by
  have hN1 : ((N : Int) - 1) = ((N - 1 : Nat) : Int) := by omega
  obtain ⟨hTf, hTi⟩ := toF32_exact (N - 1) (by omega)
  have hle : fle f1 (toF32 ((N : Int) - 1)) = true := by
    rw [hN1, fle_iff_intOf _ _ (by decide) hTf, intOf_f1, hTi]
    have : (1 : Int) ≤ ((N - 1 : Nat) : Int) := by omega
    nlinarith [unitsPerOne_pos]
  have hb := fclamp_between ds f1 (toF32 ((N : Int) - 1)) hle
  have hT' : isFinite (toF32 ((N : Int) - 1)) = true := by rw [hN1]; exact hTf
  have hfin := isFinite_of_between _ _ _ (show isFinite f1 = true by decide) hT' hb.1 hb.2
  have h1 := (fle_iff_intOf _ _ (by decide) hfin).1 hb.1
  have h3 := (fle_iff_intOf _ _ hfin hT').1 hb.2
  unfold splitDelay
  simp only
  generalize fclamp ds f1 (toF32 ((N : Int) - 1)) = c at *
  rw [intOf_f1] at h1
  rw [hN1, hTi] at h3
  have hfl1 : 1 ≤ floorI c := by
    unfold floorI; rw [Int.le_ediv_iff_mul_le unitsPerOne_pos]; linarith
  have hfl2 : floorI c ≤ ((N - 1 : Nat) : Int) := by
    unfold floorI; rw [← Int.lt_add_one_iff, Int.ediv_lt_iff_lt_mul unitsPerOne_pos]
    nlinarith [unitsPerOne_pos]
  obtain ⟨n, hn⟩ : ∃ n : Nat, floorI c = n := ⟨(floorI c).toNat, by omega⟩
  rw [hn, Int.toNat_natCast]
  have hs := fsub_floor d c n hfin (by omega) hn
  have hdm := Int.emod_add_mul_ediv (intOf c) (unitsPerOne : Int)
  have hfn : intOf c / (unitsPerOne : Int) = n := hn
  rw [hfn] at hdm
  refine ⟨by omega, by omega, ?_, ?_, ?_, ?_⟩
  · rw [fle_iff_intOf _ _ (by decide) hs.1, hs.2, intOf_f0]
    exact Int.emod_nonneg _ (ne_of_gt unitsPerOne_pos)
  · rw [flt_iff_intOf _ _ hs.1 (by decide), hs.2, intOf_f1]
    exact Int.emod_lt_of_pos _ unitsPerOne_pos
  · intro hlast
    have hn' : n = N - 1 := by omega
    rw [isZero_iff]
    have h0 : intOf (fsub d c (toF32 n)) = 0 := by
      rw [hs.2]
      have := Int.emod_nonneg (intOf c) (ne_of_gt unitsPerOne_pos)
      rw [hn'] at hdm
      nlinarith
    unfold intOf at h0
    split at h0 <;> omega
  · rw [hs.2]; linarith [mul_comm (n : Int) (unitsPerOne : Int)]

/-! ### Ring indices -/

/-- R64: the older of the two cells of a fractional tap. -/
theorem ringIdx_succ (N w d : Nat) : ringIdx N w (d + 1) = (((w : Int) - d - 1) % (N : Int)).toNat := by
  unfold ringIdx; congr 2; push_cast; ring

/-- A ring index is inside the ring. -/
theorem ringIdx_lt (N w d : Nat) (h : 0 < N) : ringIdx N w d < N := by
  unfold ringIdx
  have h1 := Int.emod_nonneg ((w : Int) - (d : Int)) (show (N : Int) ≠ 0 by omega)
  have h2 := Int.emod_lt_of_pos ((w : Int) - (d : Int)) (show (0 : Int) < N by omega)
  omega

/-- The advanced cursor is inside the ring (R63). -/
theorem ringAdvance_lt (N w : Nat) (h : 0 < N) : ringAdvance N w < N := Nat.mod_lt _ h

/-- A cell at a distance of 1 to `N-1` behind the cursor is not the cell about to be written (R65). -/
theorem ringIdx_ne (N w d : Nat) (hw : w < N) (h1 : 1 ≤ d) (h2 : d < N) : ringIdx N w d ≠ w := by
  unfold ringIdx
  rcases Nat.lt_or_ge w d with h | h
  · have : ((w : Int) - (d : Int)) % (N : Int) = (w : Int) - d + N := by
      rw [← Int.add_emod_right]; exact Int.emod_eq_of_lt (by omega) (by omega)
    rw [this]; omega
  · rw [Int.emod_eq_of_lt (by omega) (by omega)]; omega

/-- Behind an advanced cursor, the cell at distance `d + 1` is the cell that was at distance `d` (R63). -/
theorem ringIdx_advance (N w d : Nat) : ringIdx N (ringAdvance N w) (d + 1) = ringIdx N w d := by
  unfold ringIdx ringAdvance
  congr 1
  push_cast
  have : (((w : Int) + 1) % (N : Int) - ((d : Int) + 1)) % (N : Int) = ((w : Int) + 1 - (d + 1)) % (N : Int) := by
    rw [Int.sub_emod, Int.emod_emod_of_dvd _ (dvd_refl _), ← Int.sub_emod]
  rw [this]; congr 1; ring

end Sys2Proof.Machine
end

