-- ==== Sys2Proof/Laws/Capacity.lean ====
section
/-! SUPPORT. Products and quotients of values that are not negative are monotone, and the capacities of the rings
(41_delayline.md R122, 44_tape_heads_modulation.md R212) lie in the ranges of 10_state.md R25 and R30. -/

namespace Sys2Proof.Machine

theorem fmul_nonneg_form (d : Draw) (a b : F32) (ha : isFinite a = true) (hb : isFinite b = true) (na : isNeg a = false)
    (nb : isNeg b = false) : fmul d a b = mkF false (roundMag (unitsOf a * unitsOf b) unitsPerOne) := by
  have h1 := isNaN_of_isFinite a ha
  have h2 := isNaN_of_isFinite b hb
  have h3 := isInf_of_isFinite a ha
  have h4 := isInf_of_isFinite b hb
  rw [fmul, if_neg (by rw [h1, h2]; decide), if_neg (by rw [h3, h4]; decide), na, nb]
  rfl

theorem fdiv_nonneg_form (d : Draw) (a b : F32) (ha : isFinite a = true) (hb : isFinite b = true) (na : isNeg a = false)
    (nb : isNeg b = false) (zb : isZero b = false) :
    fdiv d a b = mkF false (roundMag (unitsOf a * unitsPerOne) (unitsOf b)) := by
  have h1 := isNaN_of_isFinite a ha
  have h2 := isNaN_of_isFinite b hb
  have h3 := isInf_of_isFinite a ha
  have h4 := isInf_of_isFinite b hb
  rw [fdiv, if_neg (by rw [h1, h2]; decide), if_neg (by rw [h3]; decide), if_neg (by rw [h4]; decide),
    if_neg (by rw [zb]; decide), na, nb]
  rfl

theorem unitsPerOne_pos' : 0 < unitsPerOne := by unfold unitsPerOne; positivity

/-- A product grows with its factors. -/
theorem fmul_mono (d d' : Draw) (a b a' b' : F32) (ha : isFinite a = true) (hb : isFinite b = true)
    (ha' : isFinite a' = true) (hb' : isFinite b' = true) (na : isNeg a = false) (nb : isNeg b = false)
    (na' : isNeg a' = false) (nb' : isNeg b' = false) (h1 : magOf a ≤ magOf a') (h2 : magOf b ≤ magOf b') :
    magOf (fmul d a b) ≤ magOf (fmul d' a' b') ∧ isNeg (fmul d a b) = false := by
  rw [fmul_nonneg_form d a b ha hb na nb, fmul_nonneg_form d' a' b' ha' hb' na' nb']
  have l1 := roundMag_le (unitsOf a * unitsOf b) unitsPerOne
  have l2 := roundMag_le (unitsOf a' * unitsOf b') unitsPerOne
  rw [magOf_mkF _ _ (by omega), magOf_mkF _ _ (by omega), isNeg_mkF _ _ (by omega)]
  refine ⟨?_, rfl⟩
  apply roundMag_mono _ _ _ _ unitsPerOne_pos' unitsPerOne_pos'
  exact Nat.mul_le_mul_right _ (Nat.mul_le_mul (unitsOf_mono a a' ha' h1) (unitsOf_mono b b' hb' h2))

/-- A quotient grows with its dividend. -/
theorem fdiv_mono (d d' : Draw) (a a' b : F32) (ha : isFinite a = true) (ha' : isFinite a' = true)
    (hb : isFinite b = true) (na : isNeg a = false) (na' : isNeg a' = false) (nb : isNeg b = false)
    (zb : isZero b = false) (h1 : magOf a ≤ magOf a') :
    magOf (fdiv d a b) ≤ magOf (fdiv d' a' b) ∧ isNeg (fdiv d a b) = false := by
  rw [fdiv_nonneg_form d a b ha hb na nb zb, fdiv_nonneg_form d' a' b ha' hb na' nb zb]
  have l1 := roundMag_le (unitsOf a * unitsPerOne) (unitsOf b)
  have l2 := roundMag_le (unitsOf a' * unitsPerOne) (unitsOf b)
  rw [magOf_mkF _ _ (by omega), magOf_mkF _ _ (by omega), isNeg_mkF _ _ (by omega)]
  refine ⟨?_, rfl⟩
  have hu : 0 < unitsOf b := by
    have : unitsOf b ≠ 0 := by rw [Ne, ← isZero_iff]; simp [zb]
    omega
  apply roundMag_mono _ _ _ _ hu hu
  exact Nat.mul_le_mul_right _ (Nat.mul_le_mul_right _ (unitsOf_mono a a' ha' h1))

theorem mag_of_fle (a b : F32) (na : isNeg a = false) (nb : isNeg b = false) (h : fle a b = true) : magOf a ≤ magOf b := by
  rw [fle_iff] at h
  have := h.2.2
  unfold key at this
  rw [na, nb] at this
  simpa using this

theorem isNeg_of_fle (a b : F32) (na : isNeg a = false) (za : isZero a = false) (h : fle a b = true) : isNeg b = false := by
  rw [fle_iff] at h
  have h3 := h.2.2
  simp only [isZero, decide_eq_false_iff_not] at za
  unfold key at h3
  rw [na] at h3
  cases hb : isNeg b
  · rfl
  · rw [hb] at h3; simp at h3; omega

/-- The clamped sample rate is in [`SR_MIN`, `SR_MAX`] (R104). -/
theorem clampRate_between (v : F32) :
    fle Config.srMin (clampRate v) = true ∧ fle (clampRate v) Config.srMax = true :=
  fclamp_between v _ _ (by decide)

/-- A delay in milliseconds at a rate between two rates is between the delays at the two rates. -/
theorem msToSamples_bounds (d d1 d2 : Draw) (ms sr lo hi : F32) (hms : isFinite ms = true) (nms : isNeg ms = false)
    (nlo : isNeg lo = false) (zlo : isZero lo = false) (hlo : isFinite lo = true) (hhi : isFinite hi = true)
    (h1 : fle lo sr = true) (h2 : fle sr hi = true) (hf1 : isFinite (fmul (d1.at 1) ms lo) = true)
    (hf2 : isFinite (fmul (d2.at 1) ms hi) = true) :
    magOf (msToSamples d1 ms lo) ≤ magOf (msToSamples d ms sr) ∧
      magOf (msToSamples d ms sr) ≤ magOf (msToSamples d2 ms hi) ∧ isNeg (msToSamples d ms sr) = false := by
  have hsr := isFinite_of_between lo hi sr hlo hhi h1 h2
  have nsr := isNeg_of_fle lo sr nlo zlo h1
  have nhi := isNeg_of_fle lo hi nlo zlo (fle_trans _ _ _ h1 h2)
  have m1 := mag_of_fle lo sr nlo nsr h1
  have m2 := mag_of_fle sr hi nsr nhi h2
  have p1 := fmul_mono (d1.at 1) (d.at 1) ms lo ms sr hms hlo hms hsr nms nlo nms nsr (le_refl _) m1
  have p2 := fmul_mono (d.at 1) (d2.at 1) ms sr ms hi hms hsr hms hhi nms nsr nms nhi (le_refl _) m2
  have p3 := fmul_mono (d2.at 1) (d2.at 1) ms hi ms hi hms hhi hms hhi nms nhi nms nhi (le_refl _) (le_refl _)
  have hf : isFinite (fmul (d.at 1) ms sr) = true := by
    simp only [isFinite, decide_eq_true_eq] at hf2 ⊢; omega
  have q1 := fdiv_mono (d1.at 0) (d.at 0) _ _ f1000 hf1 hf (by decide) p1.2 p2.2 (by decide) (by decide) p1.1
  have q2 := fdiv_mono (d.at 0) (d2.at 0) _ _ f1000 hf hf2 (by decide) p2.2 p3.2 (by decide) (by decide) p2.1
  exact ⟨q1.1, q2.1, q2.2⟩

/-- The ceiling of a value between two whole numbers is between them. -/
theorem ceilI_bounds (v : F32) (a b : Nat) (hv : isNeg v = false)
    (h1 : a * unitsPerOne ≤ unitsOf v) (h2 : unitsOf v ≤ b * unitsPerOne) : (a : Int) ≤ ceilI v ∧ ceilI v ≤ b := by
  have hi : intOf v = (unitsOf v : Int) := by unfold intOf; rw [hv]; rfl
  have h1' : (a : Int) * (unitsPerOne : Int) ≤ intOf v := by rw [hi]; exact_mod_cast h1
  have h2' : intOf v ≤ (b : Int) * (unitsPerOne : Int) := by rw [hi]; exact_mod_cast h2
  unfold ceilI
  constructor
  · have : (-intOf v) / (unitsPerOne : Int) ≤ -(a : Int) := by
      rw [← Int.lt_add_one_iff, Int.ediv_lt_iff_lt_mul unitsPerOne_pos]
      nlinarith [unitsPerOne_pos]
    omega
  · have : -(b : Int) ≤ (-intOf v) / (unitsPerOne : Int) := by
      rw [Int.le_ediv_iff_mul_le unitsPerOne_pos]
      nlinarith [unitsPerOne_pos]
    omega

/-- R122, R25: the capacity of the delay ring. -/
theorem dlCapacity_range (d : Draw) (v : F32) :
    2 ≤ dlCapacity d (clampRate v) ∧ dlCapacity d (clampRate v) ≤ Config.dlRamDepth := by
  have hb := clampRate_between v
  have h := msToSamples_bounds d noDraw noDraw Config.maxDelayMs (clampRate v) Config.srMin Config.srMax (by decide)
    (by decide) (by decide) (by decide) (by decide) (by decide) hb.1 hb.2 (by decide) (by decide)
  have e1 : magOf (msToSamples noDraw Config.maxDelayMs Config.srMin) = magOf (toF32 2000) := by decide
  have e2 : magOf (msToSamples noDraw Config.maxDelayMs Config.srMax) = magOf (toF32 1536000) := by decide
  rw [e1, e2] at h
  have hf : isFinite (msToSamples d Config.maxDelayMs (clampRate v)) = true := by
    have : magOf (toF32 1536000) < 0x7F800000 := by decide
    simp only [isFinite, decide_eq_true_eq]; omega
  have t1 : unitsOf (toF32 2000) = 2000 * unitsPerOne := by decide
  have t2 : unitsOf (toF32 1536000) = 1536000 * unitsPerOne := by decide
  have u1 := unitsOf_mono _ _ hf h.1
  have u2 := unitsOf_mono _ _ (by decide) h.2.1
  rw [t1] at u1
  rw [t2] at u2
  have c := ceilI_bounds _ 2000 1536000 h.2.2 u1 u2
  unfold dlCapacity Config.dlRamDepth
  omega

/-- R212, R30: the capacity of the record ring. -/
theorem tpCapacity_range (d : Draw) (v : F32) :
    4 ≤ tpCapacity d (clampRate v) ∧ tpCapacity d (clampRate v) ≤ Config.tpRamDepth := by
  have hb := clampRate_between v
  have e0 : fmul (d.at 1) f1p2 Config.tpMaxDelayMs = fmul noDraw f1p2 Config.tpMaxDelayMs := by
    rw [fmul_nonneg_form _ _ _ (by decide) (by decide) (by decide) (by decide),
      fmul_nonneg_form _ _ _ (by decide) (by decide) (by decide) (by decide)]
  have h := msToSamples_bounds (d.at 0) noDraw noDraw (fmul noDraw f1p2 Config.tpMaxDelayMs) (clampRate v) Config.srMin
    Config.srMax (by decide) (by decide) (by decide) (by decide) (by decide) (by decide) hb.1 hb.2 (by decide) (by decide)
  have e1 : magOf (msToSamples noDraw (fmul noDraw f1p2 Config.tpMaxDelayMs) Config.srMin) = magOf (toF32 2400) := by decide
  have e2 : magOf (msToSamples noDraw (fmul noDraw f1p2 Config.tpMaxDelayMs) Config.srMax) = magOf (toF32 1843200) := by
    decide
  rw [e1, e2] at h
  have hf : isFinite (msToSamples (d.at 0) (fmul noDraw f1p2 Config.tpMaxDelayMs) (clampRate v)) = true := by
    have : magOf (toF32 1843200) < 0x7F800000 := by decide
    simp only [isFinite, decide_eq_true_eq]; omega
  have t1 : unitsOf (toF32 2400) = 2400 * unitsPerOne := by decide
  have t2 : unitsOf (toF32 1843200) = 1843200 * unitsPerOne := by decide
  have u1 := unitsOf_mono _ _ hf h.1
  have u2 := unitsOf_mono _ _ (by decide) h.2.1
  rw [t1] at u1
  rw [t2] at u2
  have c := ceilI_bounds _ 2400 1843200 h.2.2 u1 u2
  unfold tpCapacity Config.tpRamDepth
  rw [e0]
  omega

end Sys2Proof.Machine
end

