-- ==== Sys2Proof/Laws/Decode.lean ====
section
/-! SUPPORT. The fields of an assembled header word (30_encoding.md R81, R89). -/

namespace Sys2Proof

theorem headerWord_toNat (opc narg sel ch : Nat) (h1 : opc < 256) (h2 : narg < 16) (h3 : sel < 256) (h4 : ch < 2) :
    (headerWord opc narg sel ch).toNat = opc * 2 ^ 24 + narg * 2 ^ 20 + sel * 2 ^ 8 + ch := by
  simp only [headerWord, BitVec.toNat_ofNat]
  apply Nat.mod_eq_of_lt
  omega

theorem field_headerWord_opc (opc narg sel ch : Nat) (h1 : opc < 256) (h2 : narg < 16) (h3 : sel < 256) (h4 : ch < 2) :
    field (headerWord opc narg sel ch) 31 24 = opc := by
  simp only [field, headerWord_toNat opc narg sel ch h1 h2 h3 h4]; omega

theorem field_headerWord_narg (opc narg sel ch : Nat) (h1 : opc < 256) (h2 : narg < 16) (h3 : sel < 256) (h4 : ch < 2) :
    field (headerWord opc narg sel ch) 23 20 = narg := by
  simp only [field, headerWord_toNat opc narg sel ch h1 h2 h3 h4]; omega

theorem field_headerWord_rz1 (opc narg sel ch : Nat) (h1 : opc < 256) (h2 : narg < 16) (h3 : sel < 256) (h4 : ch < 2) :
    field (headerWord opc narg sel ch) 19 16 = 0 := by
  simp only [field, headerWord_toNat opc narg sel ch h1 h2 h3 h4]; omega

theorem field_headerWord_sel (opc narg sel ch : Nat) (h1 : opc < 256) (h2 : narg < 16) (h3 : sel < 256) (h4 : ch < 2) :
    field (headerWord opc narg sel ch) 15 8 = sel := by
  simp only [field, headerWord_toNat opc narg sel ch h1 h2 h3 h4]; omega

theorem field_headerWord_rz0 (opc narg sel ch : Nat) (h1 : opc < 256) (h2 : narg < 16) (h3 : sel < 256) (h4 : ch < 2) :
    field (headerWord opc narg sel ch) 7 1 = 0 := by
  simp only [field, headerWord_toNat opc narg sel ch h1 h2 h3 h4]; omega

theorem field_headerWord_ch (opc narg sel ch : Nat) (h1 : opc < 256) (h2 : narg < 16) (h3 : sel < 256) (h4 : ch < 2) :
    field (headerWord opc narg sel ch) 0 0 = ch := by
  simp only [field, headerWord_toNat opc narg sel ch h1 h2 h3 h4]; omega

theorem chanNum_lt (c : Chan) : chanNum c < 2 := by cases c <;> decide

@[simp] theorem chanOf_chanNum (c : Chan) : chanOf (chanNum c) = c := by cases c <;> rfl

/-- A word is its fields put together again (R81). -/
theorem fields_toNat (h : Word) :
    h.toNat = field h 31 24 * 2 ^ 24 + field h 23 20 * 2 ^ 20 + field h 19 16 * 2 ^ 16 + field h 15 8 * 2 ^ 8 +
      field h 7 1 * 2 + field h 0 0 := by
  have := h.isLt
  simp only [field]
  omega

end Sys2Proof
end

