-- ==== Sys2Proof/Laws/Memory.lean ====
section
/-! SUPPORT. What a read gives after a write, and that every write keeps the canonical form. -/

namespace Sys2Proof.Machine

/-- A cell below every listed index reads as zero. -/
theorem Memory.read_of_wfFrom {w : Nat} (m : Memory w) (lo i : Nat) (h : m.wfFrom lo = true) (hi : i < lo) :
    m.read i = 0 := by
  induction m generalizing lo with
  | nil => rfl
  | cons e rest ih =>
    obtain ⟨a, v⟩ := e
    simp only [Memory.wfFrom, Bool.and_eq_true, decide_eq_true_eq] at h
    have : i ≠ a := by omega
    simp only [Memory.read, this, if_false]
    exact ih (a + 1) h.2 (by omega)

/-- A canonical form from `lo` up is one from any smaller bound up. -/
theorem Memory.wfFrom_mono {w : Nat} (m : Memory w) (lo lo' : Nat) (h : m.wfFrom lo = true) (hl : lo' ≤ lo) :
    m.wfFrom lo' = true := by
  cases m with
  | nil => rfl
  | cons e rest =>
    obtain ⟨a, v⟩ := e
    simp only [Memory.wfFrom, Bool.and_eq_true, decide_eq_true_eq] at h ⊢
    exact ⟨⟨by omega, h.1.2⟩, h.2⟩

theorem Memory.read_cons_same {w : Nat} (i : Nat) (v : BitVec w) (rest : Memory w) (h : rest.wfFrom (i + 1) = true) :
    (Memory.cons i v rest).read i = v := by
  unfold Memory.cons
  split
  · next hv => rw [Memory.read_of_wfFrom rest (i + 1) i h (by omega), hv]
  · simp [Memory.read]

theorem Memory.read_cons_other {w : Nat} (i j : Nat) (v : BitVec w) (rest : Memory w) (h : j ≠ i) :
    (Memory.cons i v rest).read j = rest.read j := by
  unfold Memory.cons
  split
  · rfl
  · simp [Memory.read, h]

theorem Memory.wfFrom_cons {w : Nat} (i lo : Nat) (v : BitVec w) (rest : Memory w) (h : rest.wfFrom (i + 1) = true)
    (hi : lo ≤ i) : (Memory.cons i v rest).wfFrom lo = true := by
  unfold Memory.cons
  split
  · exact Memory.wfFrom_mono rest (i + 1) lo h (by omega)
  · next hv =>
    simp only [Memory.wfFrom, Bool.and_eq_true, decide_eq_true_eq]
    exact ⟨⟨hi, hv⟩, h⟩

/-- A write keeps the canonical form above any bound at or below the written index. -/
theorem Memory.write_wfFrom {w : Nat} (m : Memory w) (lo i : Nat) (v : BitVec w) (h : m.wfFrom lo = true) (hi : lo ≤ i) :
    (m.write i v).wfFrom lo = true := by
  induction m generalizing lo with
  | nil => exact Memory.wfFrom_cons i lo v [] rfl hi
  | cons e rest ih =>
    obtain ⟨a, u⟩ := e
    have h' := h
    simp only [Memory.wfFrom, Bool.and_eq_true, decide_eq_true_eq] at h
    simp only [Memory.write]
    split
    · next hlt =>
      apply Memory.wfFrom_cons i lo v _ _ hi
      simp only [Memory.wfFrom, Bool.and_eq_true, decide_eq_true_eq]
      exact ⟨⟨by omega, h.1.2⟩, h.2⟩
    · split
      · next heq => subst heq; exact Memory.wfFrom_cons i lo v rest h.2 hi
      · have := ih (a + 1) h.2 (by omega)
        simp only [Memory.wfFrom, Bool.and_eq_true, decide_eq_true_eq]
        exact ⟨⟨h.1.1, h.1.2⟩, this⟩

/-- Every write keeps the canonical form. -/
theorem Memory.write_wf {w : Nat} (m : Memory w) (i : Nat) (v : BitVec w) (h : m.wf = true) : (m.write i v).wf = true :=
  Memory.write_wfFrom m 0 i v h (Nat.zero_le i)

theorem Memory.read_write_same_from {w : Nat} (m : Memory w) (lo i : Nat) (v : BitVec w) (h : m.wfFrom lo = true) :
    (m.write i v).read i = v := by
  induction m generalizing lo with
  | nil => exact Memory.read_cons_same i v [] rfl
  | cons e rest ih =>
    obtain ⟨a, u⟩ := e
    simp only [Memory.wfFrom, Bool.and_eq_true, decide_eq_true_eq] at h
    simp only [Memory.write]
    split
    · next hlt =>
      apply Memory.read_cons_same
      simp only [Memory.wfFrom, Bool.and_eq_true, decide_eq_true_eq]
      exact ⟨⟨by omega, h.1.2⟩, h.2⟩
    · split
      · next heq => subst heq; exact Memory.read_cons_same i v rest h.2
      · next h1 h2 => simp only [Memory.read, h2, if_false]; exact ih (a + 1) h.2

/-- A cell reads what was last written to it. -/
theorem Memory.read_write_same {w : Nat} (m : Memory w) (i : Nat) (v : BitVec w) (h : m.wf = true) :
    (m.write i v).read i = v := Memory.read_write_same_from m 0 i v h

/-- A write leaves every other cell alone. -/
theorem Memory.read_write_other {w : Nat} (m : Memory w) (i j : Nat) (v : BitVec w) (h : j ≠ i) :
    (m.write i v).read j = m.read j := by
  induction m with
  | nil => exact Memory.read_cons_other i j v [] h
  | cons e rest ih =>
    obtain ⟨a, u⟩ := e
    simp only [Memory.write]
    split
    · exact Memory.read_cons_other i j v _ h
    · split
      · next heq => subst heq; rw [Memory.read_cons_other i j v rest h]; simp [Memory.read, h]
      · simp only [Memory.read]; split
        · rfl
        · exact ih

/-- A write inside the capacity keeps every listed index inside it. -/
theorem Memory.write_below {w : Nat} (m : Memory w) (n i : Nat) (v : BitVec w) (h : m.below n = true) (hi : i < n) :
    (m.write i v).below n = true := by
  induction m with
  | nil =>
    simp only [Memory.write, Memory.cons]
    split <;> simp [Memory.below, hi]
  | cons e rest ih =>
    obtain ⟨a, u⟩ := e
    simp only [Memory.below, List.all_cons, Bool.and_eq_true, decide_eq_true_eq] at h ih
    simp only [Memory.write]
    split
    · unfold Memory.cons; split <;> simp [Memory.below, hi, h.1] <;> simpa [Memory.below] using h.2
    · split
      · unfold Memory.cons; split <;> simp [Memory.below, hi] <;> simpa [Memory.below] using h.2
      · have := ih h.2
        simp only [Memory.below, List.all_cons, Bool.and_eq_true, decide_eq_true_eq]
        exact ⟨h.1, this⟩

/-- A tabulated memory is canonical. -/
theorem Memory.tabulate_wfFrom {w : Nat} (f : Nat → BitVec w) (lo n : Nat) :
    (Memory.tabulate f lo n).wfFrom lo = true := by
  induction n generalizing lo with
  | zero => rfl
  | succ n ih => exact Memory.wfFrom_cons lo lo (f lo) _ (ih (lo + 1)) (Nat.le_refl lo)

/-- A tabulated memory is canonical. -/
theorem Memory.tabulate_wf {w : Nat} (f : Nat → BitVec w) (n : Nat) : (Memory.tabulate f 0 n).wf = true :=
  Memory.tabulate_wfFrom f 0 n

/-- A tabulated memory lists no cell outside its range. -/
theorem Memory.tabulate_below {w : Nat} (f : Nat → BitVec w) (lo n m : Nat) (h : lo + n ≤ m) :
    (Memory.tabulate f lo n).below m = true := by
  induction n generalizing lo with
  | zero => rfl
  | succ n ih =>
    have hr := ih (lo + 1) (by omega)
    simp only [Memory.tabulate, Memory.cons]
    split
    · exact hr
    · simp only [Memory.below, List.all_cons, Bool.and_eq_true, decide_eq_true_eq]
      exact ⟨by omega, hr⟩

/-- Each cell of the range reads as it was tabulated. -/
theorem Memory.read_tabulate {w : Nat} (f : Nat → BitVec w) (lo n i : Nat) (h1 : lo ≤ i) (h2 : i < lo + n) :
    (Memory.tabulate f lo n).read i = f i := by
  induction n generalizing lo with
  | zero => omega
  | succ n ih =>
    simp only [Memory.tabulate]
    by_cases he : i = lo
    · subst he
      exact Memory.read_cons_same i (f i) _ (Memory.tabulate_wfFrom f (i + 1) n)
    · rw [Memory.read_cons_other lo i (f lo) _ he]
      exact ih (lo + 1) (by omega) (by omega)

end Sys2Proof.Machine
end

