-- ==== Sys2Proof/Laws/Nearest.lean ====
section
/-! SUPPORT. `roundTo` gives the binary32 nearest to a rational number, ties to even (40_lifecycle_sys.md R106,
46_quantizer.md R314). -/

namespace Sys2Proof.Machine

/-- No integer multiple of `q` is nearer to `p` than `nearestEven p q` of them, and where another is as near the count is
even. -/
theorem nearestEven_nearest (p q m : Nat) (hq : 0 < q) :
    ((nearestEven p q * q : Nat) - (p : Int)).natAbs ≤ ((m * q : Nat) - (p : Int)).natAbs ∧
      (((nearestEven p q * q : Nat) - (p : Int)).natAbs = ((m * q : Nat) - (p : Int)).natAbs →
        m = nearestEven p q ∨ nearestEven p q % 2 = 0) := by
  have hd : q * (p / q) + p % q = p := Nat.div_add_mod p q
  have hr : p % q < q := Nat.mod_lt _ hq
  unfold nearestEven
  simp only
  generalize p / q = n at *
  generalize p % q = r at *
  have hn : n * q = q * n := Nat.mul_comm _ _
  have hn1 : (n + 1) * q = q * n + q := by rw [Nat.add_mul, hn, Nat.one_mul]
  rcases Nat.lt_trichotomy m n with h | h | h
  · have hm : m * q + q ≤ n * q := by
      rw [← Nat.succ_mul]; exact Nat.mul_le_mul_right _ h
    split <;> (try rw [hn1]) <;> (try rw [hn] at *) <;> constructor <;> omega
  · subst h
    split <;> (try rw [hn1]) <;> (try rw [hn] at *) <;> constructor <;> omega
  · have hm : n * q + q ≤ m * q := by
      rw [← Nat.succ_mul]; exact Nat.mul_le_mul_right _ h
    by_cases hm1 : m = n + 1
    · subst hm1
      rw [hn1]
      split <;> (try rw [hn1]) <;> (try rw [hn] at *) <;> constructor <;> omega
    · have hm2 : n * q + q + q ≤ m * q := by
        have : (n + 2) * q ≤ m * q := Nat.mul_le_mul_right _ (by omega)
        rw [Nat.add_mul] at this; omega
      split <;> (try rw [hn1]) <;> (try rw [hn] at *) <;> constructor <;> omega

/-- A magnitude put together from its exponent step and its significand. -/
theorem unitsOf_step (neg : Bool) (k n : Nat) (h1 : k = 0 ∨ 2 ^ 23 ≤ n) (h2 : n ≤ 2 ^ 24)
    (h : k * 0x800000 + n < 0x7F800000) : unitsOf (mkF neg (k * 0x800000 + n)) = n * 2 ^ k := by
  rw [unitsOf_mkF _ _ (by omega)]
  norm_num at h1 h2 h ⊢
  rcases Nat.lt_or_ge n 0x800000 with hn | hn
  · have hk : k = 0 := by omega
    subst hk
    rw [if_pos (by omega)]
    simp; omega
  · rcases Nat.lt_or_ge n 0x1000000 with hn2 | hn2
    · have e1 : (k * 0x800000 + n) / 0x800000 = k + 1 := by omega
      have e2 : n % 0x800000 = n - 0x800000 := by omega
      rw [if_neg (by omega), e1, e2, Nat.add_sub_cancel, Nat.add_sub_cancel' hn]
    · have hn : n = 2 * 0x800000 := by omega
      have e1 : (k * 0x800000 + n) / 0x800000 = k + 2 := by omega
      have e2 : n % 0x800000 = 0 := by omega
      rw [if_neg (by omega), e1, e2, hn, show k + 2 - 1 = k + 1 by omega, pow_succ]
      ring

/-- Every finite magnitude is a multiple of the quantum `2 ^ k`, or lies below every magnitude of that quantum. -/
theorem units_grid (z : F32) (hz : isFinite z = true) (k : Nat) :
    (∃ m, unitsOf z = m * 2 ^ k) ∨ unitsOf z < 2 ^ 23 * 2 ^ k := by
  obtain ⟨m, e, hm, _, hu⟩ := units_form z hz
  rcases Nat.lt_or_ge e k with h | h
  · right
    have : 2 ^ (e + 1) ≤ 2 ^ k := Nat.pow_le_pow_right (by norm_num) h
    calc unitsOf z = m * 2 ^ e := hu
      _ < 2 ^ 24 * 2 ^ e := (Nat.mul_lt_mul_right (by positivity)).2 hm
      _ = 2 ^ 23 * 2 ^ (e + 1) := by rw [pow_succ]; ring
      _ ≤ 2 ^ 23 * 2 ^ k := Nat.mul_le_mul_left _ this
  · left
    refine ⟨m * 2 ^ (e - k), ?_⟩
    rw [hu, Nat.mul_assoc, ← pow_add]
    congr 2; omega

/-- Rounding gives a nearest magnitude; where another is as near, its last bit is 0. -/
theorem roundMag_nearest (p q : Nat) (hq : 0 < q) (neg : Bool) (hf : roundMag p q < 0x7F800000) (z : F32)
    (hz : isFinite z = true) :
    ((unitsOf (roundTo neg p q) * q : Nat) - (p : Int)).natAbs ≤ ((unitsOf z * q : Nat) - (p : Int)).natAbs ∧
      (((unitsOf (roundTo neg p q) * q : Nat) - (p : Int)).natAbs = ((unitsOf z * q : Nat) - (p : Int)).natAbs →
        unitsOf (roundTo neg p q) = unitsOf z ∨ roundMag p q % 2 = 0) := by
  have hmag : roundMag p q = quantum p q * 0x800000 + nearestEven p (q * 2 ^ quantum p q) := by
    have : roundMag p q = min (quantum p q * 0x800000 + nearestEven p (q * 2 ^ quantum p q)) 0x7F800000 := rfl
    omega
  have hlow : quantum p q = 0 ∨ 2 ^ 23 * (q * 2 ^ quantum p q) ≤ p := by
    by_cases h0 : quantum p q = 0
    · exact .inl h0
    · right
      have hl : Nat.log2 (p / q) = quantum p q + 23 := by unfold quantum at h0 ⊢; omega
      have hpq : p / q ≠ 0 := by
        intro h; rw [h] at hl; simp at hl
      have : 2 ^ (quantum p q + 23) ≤ p / q := by rw [← hl]; exact Nat.log2_self_le hpq
      rw [Nat.le_div_iff_mul_le hq, pow_add] at this
      calc 2 ^ 23 * (q * 2 ^ quantum p q) = 2 ^ quantum p q * 2 ^ 23 * q := by ring
        _ ≤ p := this
  have hhigh := quantum_bound p q hq
  generalize quantum p q = k at hmag hlow hhigh
  have hQ : 0 < q * 2 ^ k := by positivity
  have hn2 : nearestEven p (q * 2 ^ k) ≤ 2 ^ 24 := nearestEven_le _ _ _ hQ (by rw [Nat.mul_comm]; exact hhigh.le)
  have hn1 : k = 0 ∨ 2 ^ 23 ≤ nearestEven p (q * 2 ^ k) := hlow.imp_right fun h => le_nearestEven _ _ _ hQ h
  have hu : unitsOf (roundTo neg p q) = nearestEven p (q * 2 ^ k) * 2 ^ k := by
    rw [roundTo, hmag, unitsOf_step neg k _ hn1 hn2 (by omega)]
  have hpar : roundMag p q % 2 = nearestEven p (q * 2 ^ k) % 2 := by rw [hmag]; omega
  rw [hu, hpar, Nat.mul_assoc, Nat.mul_comm (2 ^ k) q]
  rcases units_grid z hz k with ⟨m, hm⟩ | hb
  · have := nearestEven_nearest p (q * 2 ^ k) m hQ
    rw [hm, Nat.mul_assoc, Nat.mul_comm (2 ^ k) q]
    refine ⟨this.1, fun h => (this.2 h).imp_left fun e => by rw [e]⟩
  · by_cases hk : k = 0
    · subst hk
      have := nearestEven_nearest p (q * 2 ^ 0) (unitsOf z) hQ
      simp only [pow_zero, Nat.mul_one] at this ⊢
      exact ⟨this.1, fun h => (this.2 h).imp_left Eq.symm⟩
    · have hl := hlow.resolve_left hk
      have hn := (nearestEven_nearest p (q * 2 ^ k) (2 ^ 23) hQ).1
      have hz' : unitsOf z * q < 2 ^ 23 * (q * 2 ^ k) := by
        calc unitsOf z * q < 2 ^ 23 * 2 ^ k * q := (Nat.mul_lt_mul_right hq).2 hb
          _ = 2 ^ 23 * (q * 2 ^ k) := by ring
      generalize 2 ^ 23 * (q * 2 ^ k) = L at *
      generalize unitsOf z * q = Z at *
      generalize nearestEven p (q * 2 ^ k) * (q * 2 ^ k) = M at *
      constructor <;> omega

/-- R314's "the binary32 nearest (ties to even)": no finite value is nearer to `± p / q` units than `roundTo` of it, and
where another value is as near the result's last bit is 0. -/
theorem roundTo_nearest (neg : Bool) (p q : Nat) (hq : 0 < q) (hf : isFinite (roundTo neg p q) = true) (z : F32)
    (hz : isFinite z = true) :
    let value : Int := if neg then -(p : Int) else p
    (intOf (roundTo neg p q) * q - value).natAbs ≤ (intOf z * q - value).natAbs ∧
      ((intOf (roundTo neg p q) * q - value).natAbs = (intOf z * q - value).natAbs →
        intOf (roundTo neg p q) = intOf z ∨ (roundTo neg p q).toNat % 2 = 0) := by
  have hle : roundMag p q ≤ 0x7F800000 := roundMag_le p q
  have hneg : isNeg (roundTo neg p q) = neg := isNeg_mkF neg _ (by omega)
  have hmag : magOf (roundTo neg p q) = roundMag p q := magOf_mkF neg _ (by omega)
  have hlt : roundMag p q < 0x7F800000 := by rw [← hmag]; simpa [isFinite] using hf
  have hpar : (roundTo neg p q).toNat % 2 = roundMag p q % 2 := by
    rw [← hmag]; unfold magOf; omega
  obtain ⟨h1, h2⟩ := roundMag_nearest p q hq neg hlt z hz
  have h0 := (roundMag_nearest p q hq neg hlt f0 (by decide)).1
  have hu0 : unitsOf f0 = 0 := by decide
  rw [hu0, Nat.zero_mul] at h0
  have hi : intOf (roundTo neg p q) = if neg then -(unitsOf (roundTo neg p q) : Int) else unitsOf (roundTo neg p q) := by
    rw [intOf, hneg]
  rw [hi, hpar]
  have hzz : intOf z = -(unitsOf z : Int) ∨ intOf z = unitsOf z := by unfold intOf; split <;> simp
  have hz0 : unitsOf z * q = 0 → unitsOf z = 0 := fun h => by
    rcases Nat.mul_eq_zero.1 h with h | h <;> omega
  have hv0 : unitsOf (roundTo neg p q) * q = 0 → unitsOf (roundTo neg p q) = 0 := fun h => by
    rcases Nat.mul_eq_zero.1 h with h | h <;> omega
  generalize unitsOf (roundTo neg p q) = V at *
  have c1 : (V : Int) * q = ((V * q : Nat) : Int) := by push_cast; ring
  have c2 : (unitsOf z : Int) * q = ((unitsOf z * q : Nat) : Int) := by push_cast; ring
  generalize roundMag p q % 2 = b at *
  intro value
  rcases hzz with hz' | hz' <;> rw [hz'] <;> cases neg <;> simp only [value, Int.neg_mul, Bool.false_eq_true, if_false, if_true, c1, c2] <;>
    generalize V * q = A at * <;> generalize unitsOf z * q = Z at * <;> constructor <;> intros <;> omega

end Sys2Proof.Machine
end

