-- ==== Sys2Proof/Laws/PerInstr.lean ====
section
/-! SUPPORT. A fact of every command, one lemma per command: the header it is encoded with. -/

namespace Sys2Proof.Laws

/-- The encoding of a well-formed command is a header with zero reserved fields whose `OPC` has a row, whose `NARG` is the
number of operand words (at most four) and one of the row's, whose `SEL` the row allows, and from whose fields and operand
words the row makes the command again (30_encoding.md R80, R81, R85). -/
def HeaderFormat.Statement (i : Instr) : Prop :=
  i.wellFormed = true →
    ∃ h ops r, encode i = h :: ops ∧ ops.length ≤ 4 ∧ field h 23 20 = ops.length ∧ rowOf (field h 31 24) = some r ∧
      r.nargs.contains ops.length = true ∧ reservedNonzero r h = false ∧ r.sel.legal (field h 15 8) = true ∧
      r.build (field h 15 8) (chanOf (field h 0 0)) ops = i

/-- The statement from the parts of a command and its row. -/
theorem HeaderFormat_of_parts (i : Instr) (opc sel ch : Nat) (ops : List Word) (r : Row)
    (hp : i.parts = (opc, sel, ch, ops)) (ho : opc < 256) (hs : sel < 256) (hc : ch < 2) (hn : ops.length ≤ 4)
    (hr : rowOf opc = some r) (hna : r.nargs.contains ops.length = true) (hch : r.ch = true ∨ ch = 0)
    (hsel : r.sel ≠ .unused ∨ sel = 0) (hl : r.sel.legal sel = true) (hb : r.build sel (chanOf ch) ops = i) :
    ∃ h ops r, encode i = h :: ops ∧ ops.length ≤ 4 ∧ field h 23 20 = ops.length ∧ rowOf (field h 31 24) = some r ∧
      r.nargs.contains ops.length = true ∧ reservedNonzero r h = false ∧ r.sel.legal (field h 15 8) = true ∧
      r.build (field h 15 8) (chanOf (field h 0 0)) ops = i := by
  have hn' : ops.length < 16 := by omega
  refine ⟨headerWord opc ops.length sel ch, ops, r, ?_, hn, ?_, ?_, hna, ?_, ?_, ?_⟩
  · simp [encode, hp]
  · exact field_headerWord_narg _ _ _ _ ho hn' hs hc
  · rw [field_headerWord_opc _ _ _ _ ho hn' hs hc]; exact hr
  · unfold reservedNonzero
    rw [field_headerWord_rz1 _ _ _ _ ho hn' hs hc, field_headerWord_rz0 _ _ _ _ ho hn' hs hc,
      field_headerWord_ch _ _ _ _ ho hn' hs hc, field_headerWord_sel _ _ _ _ ho hn' hs hc]
    rcases hch with h1 | h1 <;> rcases hsel with h2 | h2 <;> simp [h1, h2]
  · rw [field_headerWord_sel _ _ _ _ ho hn' hs hc]; exact hl
  · rw [field_headerWord_sel _ _ _ _ ho hn' hs hc, field_headerWord_ch _ _ _ _ ho hn' hs hc]; exact hb


theorem HeaderFormat.sysNop : HeaderFormat.Statement (.sysNop) := by
  intro _
  exact HeaderFormat_of_parts _ _ _ _ _ _ rfl (by decide) (by decide) (by decide) (by simp) rfl rfl (Or.inr rfl)
    (Or.inr rfl) rfl rfl

theorem HeaderFormat.sysStat : HeaderFormat.Statement (.sysStat) := by
  intro _
  exact HeaderFormat_of_parts _ _ _ _ _ _ rfl (by decide) (by decide) (by decide) (by simp) rfl rfl (Or.inr rfl)
    (Or.inr rfl) rfl rfl

theorem HeaderFormat.dlCfg (sampleRate : F32) : HeaderFormat.Statement (.dlCfg sampleRate) := by
  intro _
  exact HeaderFormat_of_parts _ _ _ _ _ _ rfl (by decide) (by decide) (by decide) (by simp) rfl rfl (Or.inr rfl)
    (Or.inr rfl) rfl rfl

theorem HeaderFormat.dlRst : HeaderFormat.Statement (.dlRst) := by
  intro _
  exact HeaderFormat_of_parts _ _ _ _ _ _ rfl (by decide) (by decide) (by decide) (by simp) rfl rfl (Or.inr rfl)
    (Or.inr rfl) rfl rfl

theorem HeaderFormat.dlSetdelay (ms : F32) : HeaderFormat.Statement (.dlSetdelay ms) := by
  intro _
  exact HeaderFormat_of_parts _ _ _ _ _ _ rfl (by decide) (by decide) (by decide) (by simp) rfl rfl (Or.inr rfl)
    (Or.inr rfl) rfl rfl

theorem HeaderFormat.dlSetfb (amount : F32) : HeaderFormat.Statement (.dlSetfb amount) := by
  intro _
  exact HeaderFormat_of_parts _ _ _ _ _ _ rfl (by decide) (by decide) (by decide) (by simp) rfl rfl (Or.inr rfl)
    (Or.inr rfl) rfl rfl

theorem HeaderFormat.dlSetmix (mix : F32) : HeaderFormat.Statement (.dlSetmix mix) := by
  intro _
  exact HeaderFormat_of_parts _ _ _ _ _ _ rfl (by decide) (by decide) (by decide) (by simp) rfl rfl (Or.inr rfl)
    (Or.inr rfl) rfl rfl

theorem HeaderFormat.dlProc (c : Chan) (input : F32) : HeaderFormat.Statement (.dlProc c input) := by
  intro _
  exact HeaderFormat_of_parts _ _ _ _ _ _ rfl (by decide) (by decide) (chanNum_lt c) (by simp) rfl rfl (Or.inl rfl)
    (Or.inr rfl) rfl (by rw [chanOf_chanNum]; rfl)

theorem HeaderFormat.dlProcXfb (c : Chan) (input externalFeedback : F32) : HeaderFormat.Statement (.dlProcXfb c input externalFeedback) := by
  intro _
  exact HeaderFormat_of_parts _ _ _ _ _ _ rfl (by decide) (by decide) (chanNum_lt c) (by simp) rfl rfl (Or.inl rfl)
    (Or.inr rfl) rfl (by rw [chanOf_chanNum]; rfl)

theorem HeaderFormat.dlGetd (c : Chan) : HeaderFormat.Statement (.dlGetd c) := by
  intro _
  exact HeaderFormat_of_parts _ _ _ _ _ _ rfl (by decide) (by decide) (chanNum_lt c) (by simp) rfl rfl (Or.inl rfl)
    (Or.inr rfl) rfl (by rw [chanOf_chanNum])

theorem HeaderFormat.dlGetw (c : Chan) : HeaderFormat.Statement (.dlGetw c) := by
  intro _
  exact HeaderFormat_of_parts _ _ _ _ _ _ rfl (by decide) (by decide) (chanNum_lt c) (by simp) rfl rfl (Or.inl rfl)
    (Or.inr rfl) rfl (by rw [chanOf_chanNum])

theorem HeaderFormat.bqRst (j : Nat) (c : Chan) : HeaderFormat.Statement (.bqRst j c) := by
  intro hw
  simp only [Instr.wellFormed, decide_eq_true_eq] at hw
  exact HeaderFormat_of_parts _ _ _ _ _ _ rfl (by decide) (by omega) (chanNum_lt c) (by simp) rfl rfl (Or.inl rfl)
    (Or.inl (by decide)) (by simpa [SelUse.legal] using hw) (by rw [chanOf_chanNum])

theorem HeaderFormat.bqSetlp (j : Nat) (freq q : F32) : HeaderFormat.Statement (.bqSetlp j freq q) := by
  intro hw
  simp only [Instr.wellFormed, decide_eq_true_eq] at hw
  exact HeaderFormat_of_parts _ _ _ _ _ _ rfl (by decide) (by omega) (by decide) (by simp) rfl rfl (Or.inr rfl)
    (Or.inl (by decide)) (by simpa [SelUse.legal] using hw) rfl

theorem HeaderFormat.bqSetpk (j : Nat) (freq gainDb q : F32) : HeaderFormat.Statement (.bqSetpk j freq gainDb q) := by
  intro hw
  simp only [Instr.wellFormed, decide_eq_true_eq] at hw
  exact HeaderFormat_of_parts _ _ _ _ _ _ rfl (by decide) (by omega) (by decide) (by simp) rfl rfl (Or.inr rfl)
    (Or.inl (by decide)) (by simpa [SelUse.legal] using hw) rfl

theorem HeaderFormat.bqSeths (j : Nat) (freq gainDb q : F32) : HeaderFormat.Statement (.bqSeths j freq gainDb q) := by
  intro hw
  simp only [Instr.wellFormed, decide_eq_true_eq] at hw
  exact HeaderFormat_of_parts _ _ _ _ _ _ rfl (by decide) (by omega) (by decide) (by simp) rfl rfl (Or.inr rfl)
    (Or.inl (by decide)) (by simpa [SelUse.legal] using hw) rfl

theorem HeaderFormat.bqProc (j : Nat) (c : Chan) (x : F32) : HeaderFormat.Statement (.bqProc j c x) := by
  intro hw
  simp only [Instr.wellFormed, decide_eq_true_eq] at hw
  exact HeaderFormat_of_parts _ _ _ _ _ _ rfl (by decide) (by omega) (chanNum_lt c) (by simp) rfl rfl (Or.inl rfl)
    (Or.inl (by decide)) (by simpa [SelUse.legal] using hw) (by rw [chanOf_chanNum]; rfl)

theorem HeaderFormat.psCfg (sampleRate : F32) : HeaderFormat.Statement (.psCfg sampleRate) := by
  intro _
  exact HeaderFormat_of_parts _ _ _ _ _ _ rfl (by decide) (by decide) (by decide) (by simp) rfl rfl (Or.inr rfl)
    (Or.inr rfl) rfl rfl

theorem HeaderFormat.psRst : HeaderFormat.Statement (.psRst) := by
  intro _
  exact HeaderFormat_of_parts _ _ _ _ _ _ rfl (by decide) (by decide) (by decide) (by simp) rfl rfl (Or.inr rfl)
    (Or.inr rfl) rfl rfl

theorem HeaderFormat.psSetpitch (cents : F32) : HeaderFormat.Statement (.psSetpitch cents) := by
  intro _
  exact HeaderFormat_of_parts _ _ _ _ _ _ rfl (by decide) (by decide) (by decide) (by simp) rfl rfl (Or.inr rfl)
    (Or.inr rfl) rfl rfl

theorem HeaderFormat.psSetdrift (rateHz depthCents : F32) : HeaderFormat.Statement (.psSetdrift rateHz depthCents) := by
  intro _
  exact HeaderFormat_of_parts _ _ _ _ _ _ rfl (by decide) (by decide) (by decide) (by simp) rfl rfl (Or.inr rfl)
    (Or.inr rfl) rfl rfl

theorem HeaderFormat.psProc (c : Chan) (x : F32) : HeaderFormat.Statement (.psProc c x) := by
  intro _
  exact HeaderFormat_of_parts _ _ _ _ _ _ rfl (by decide) (by decide) (chanNum_lt c) (by simp) rfl rfl (Or.inl rfl)
    (Or.inr rfl) rfl (by rw [chanOf_chanNum]; rfl)

theorem HeaderFormat.tpCfg (sampleRate : F32) : HeaderFormat.Statement (.tpCfg sampleRate) := by
  intro _
  exact HeaderFormat_of_parts _ _ _ _ _ _ rfl (by decide) (by decide) (by decide) (by simp) rfl rfl (Or.inr rfl)
    (Or.inr rfl) rfl rfl

theorem HeaderFormat.tpRst : HeaderFormat.Statement (.tpRst) := by
  intro _
  exact HeaderFormat_of_parts _ _ _ _ _ _ rfl (by decide) (by decide) (by decide) (by simp) rfl rfl (Or.inr rfl)
    (Or.inr rfl) rfl rfl

theorem HeaderFormat.tpSetmode (enable : Nat) : HeaderFormat.Statement (.tpSetmode enable) := by
  intro hw
  simp only [Instr.wellFormed, decide_eq_true_eq] at hw
  exact HeaderFormat_of_parts _ _ _ _ _ _ rfl (by decide) (by omega) (by decide) (by simp) rfl rfl (Or.inr rfl)
    (Or.inl (by decide)) (by simpa [SelUse.legal] using hw) rfl

theorem HeaderFormat.tpSetwf (wowWave flutWave : Nat) (wowRate wowDepth flutRate flutDepth : F32) : HeaderFormat.Statement (.tpSetwf wowWave flutWave wowRate wowDepth flutRate flutDepth) := by
  intro hw
  simp only [Instr.wellFormed, Bool.and_eq_true, decide_eq_true_eq] at hw
  refine HeaderFormat_of_parts _ _ _ _ _ _ rfl (by decide) (by omega) (by decide) (by simp) rfl rfl
    (Or.inr rfl) (Or.inl (by decide)) ?_ ?_
  · simp only [SelUse.legal, Bool.and_eq_true, decide_eq_true_eq]; omega
  · have h1 : (wowWave + 4 * flutWave) % 4 = wowWave := by omega
    have h2 : (wowWave + 4 * flutWave) / 4 = flutWave := by omega
    show Instr.tpSetwf ((wowWave + 4 * flutWave) % 4) ((wowWave + 4 * flutWave) / 4) _ _ _ _ = _
    rw [h1, h2]; rfl

theorem HeaderFormat.tpSetsat (drive amount : F32) : HeaderFormat.Statement (.tpSetsat drive amount) := by
  intro _
  exact HeaderFormat_of_parts _ _ _ _ _ _ rfl (by decide) (by decide) (by decide) (by simp) rfl rfl (Or.inr rfl)
    (Or.inr rfl) rfl rfl

theorem HeaderFormat.tpProc (c : Chan) (x : F32) : HeaderFormat.Statement (.tpProc c x) := by
  intro _
  exact HeaderFormat_of_parts _ _ _ _ _ _ rfl (by decide) (by decide) (chanNum_lt c) (by simp) rfl rfl (Or.inl rfl)
    (Or.inr rfl) rfl (by rw [chanOf_chanNum]; rfl)

theorem HeaderFormat.tpSethb (freq gainDb q : F32) : HeaderFormat.Statement (.tpSethb freq gainDb q) := by
  intro _
  exact HeaderFormat_of_parts _ _ _ _ _ _ rfl (by decide) (by decide) (by decide) (by simp) rfl rfl (Or.inr rfl)
    (Or.inr rfl) rfl rfl

theorem HeaderFormat.tpSetroll (freq q : F32) : HeaderFormat.Statement (.tpSetroll freq q) := by
  intro _
  exact HeaderFormat_of_parts _ _ _ _ _ _ rfl (by decide) (by decide) (by decide) (by simp) rfl rfl (Or.inr rfl)
    (Or.inr rfl) rfl rfl

theorem HeaderFormat.tpSetage (amount : F32) : HeaderFormat.Statement (.tpSetage amount) := by
  intro _
  exact HeaderFormat_of_parts _ _ _ _ _ _ rfl (by decide) (by decide) (by decide) (by simp) rfl rfl (Or.inr rfl)
    (Or.inr rfl) rfl rfl

theorem HeaderFormat.tpSetinst (amount : F32) : HeaderFormat.Statement (.tpSetinst amount) := by
  intro _
  exact HeaderFormat_of_parts _ _ _ _ _ _ rfl (by decide) (by decide) (by decide) (by simp) rfl rfl (Or.inr rfl)
    (Or.inr rfl) rfl rfl

theorem HeaderFormat.tpSetheads (k : Nat) : HeaderFormat.Statement (.tpSetheads k) := by
  intro hw
  simp only [Instr.wellFormed, decide_eq_true_eq] at hw
  exact HeaderFormat_of_parts _ _ _ _ _ _ rfl (by decide) (by omega) (by decide) (by simp) rfl rfl (Or.inr rfl)
    (Or.inl (by decide)) (by simpa [SelUse.legal] using hw) rfl

theorem HeaderFormat.tpSetnoise (enabled : Nat) (amount : F32) : HeaderFormat.Statement (.tpSetnoise enabled amount) := by
  intro hw
  simp only [Instr.wellFormed, decide_eq_true_eq] at hw
  exact HeaderFormat_of_parts _ _ _ _ _ _ rfl (by decide) (by omega) (by decide) (by simp) rfl rfl (Or.inr rfl)
    (Or.inl (by decide)) (by simpa [SelUse.legal] using hw) rfl

theorem HeaderFormat.tqSetdef : HeaderFormat.Statement (.tqSetdef) := by
  intro _
  exact HeaderFormat_of_parts _ _ _ _ _ _ rfl (by decide) (by decide) (by decide) (by simp) rfl rfl (Or.inr rfl)
    (Or.inr rfl) rfl rfl

theorem HeaderFormat.tqSettuning (id : Nat) : HeaderFormat.Statement (.tqSettuning id) := by
  intro hw
  simp only [Instr.wellFormed, decide_eq_true_eq] at hw
  exact HeaderFormat_of_parts _ _ _ _ _ _ rfl (by decide) (by omega) (by decide) (by simp) rfl rfl (Or.inr rfl)
    (Or.inl (by decide)) (by simpa [SelUse.legal] using hw) rfl

theorem HeaderFormat.tqSclclr : HeaderFormat.Statement (.tqSclclr) := by
  intro _
  exact HeaderFormat_of_parts _ _ _ _ _ _ rfl (by decide) (by decide) (by decide) (by simp) rfl rfl (Or.inr rfl)
    (Or.inr rfl) rfl rfl

theorem HeaderFormat.tqSclb (byte : Byte) : HeaderFormat.Statement (.tqSclb byte) := by
  intro _
  have hb := byte.isLt
  refine HeaderFormat_of_parts _ _ _ _ _ _ rfl (by decide) hb (by decide) (by simp) rfl rfl (Or.inr rfl)
    (Or.inl (by decide)) ?_ ?_
  · simp only [SelUse.legal, decide_eq_true_eq]; omega
  · show Instr.tqSclb (BitVec.ofNat 8 byte.toNat) = _
    rw [BitVec.ofNat_toNat, BitVec.setWidth_eq]

theorem HeaderFormat.tqQuant (cents : F32) : HeaderFormat.Statement (.tqQuant cents) := by
  intro _
  exact HeaderFormat_of_parts _ _ _ _ _ _ rfl (by decide) (by decide) (by decide) (by simp) rfl rfl (Or.inr rfl)
    (Or.inr rfl) rfl rfl

theorem HeaderFormat.tqLoad : HeaderFormat.Statement (.tqLoad) := by
  intro _
  exact HeaderFormat_of_parts _ _ _ _ _ _ rfl (by decide) (by decide) (by decide) (by simp) rfl rfl (Or.inr rfl)
    (Or.inr rfl) rfl rfl

theorem HeaderFormat.tqGetdesc : HeaderFormat.Statement (.tqGetdesc) := by
  intro _
  exact HeaderFormat_of_parts _ _ _ _ _ _ rfl (by decide) (by decide) (by decide) (by simp) rfl rfl (Or.inr rfl)
    (Or.inr rfl) rfl rfl

theorem HeaderFormat.rtCfg (sampleRate : F32) : HeaderFormat.Statement (.rtCfg sampleRate) := by
  intro _
  exact HeaderFormat_of_parts _ _ _ _ _ _ rfl (by decide) (by decide) (by decide) (by simp) rfl rfl (Or.inr rfl)
    (Or.inr rfl) rfl rfl

theorem HeaderFormat.rtRst : HeaderFormat.Statement (.rtRst) := by
  intro _
  exact HeaderFormat_of_parts _ _ _ _ _ _ rfl (by decide) (by decide) (by decide) (by simp) rfl rfl (Or.inr rfl)
    (Or.inr rfl) rfl rfl

theorem HeaderFormat.rtSetxfb (amount : F32) : HeaderFormat.Statement (.rtSetxfb amount) := by
  intro _
  exact HeaderFormat_of_parts _ _ _ _ _ _ rfl (by decide) (by decide) (by decide) (by simp) rfl rfl (Or.inr rfl)
    (Or.inr rfl) rfl rfl

theorem HeaderFormat.rtSetpitch (quantize : Nat) (cents : F32) : HeaderFormat.Statement (.rtSetpitch quantize cents) := by
  intro hw
  simp only [Instr.wellFormed, decide_eq_true_eq] at hw
  exact HeaderFormat_of_parts _ _ _ _ _ _ rfl (by decide) (by omega) (by decide) (by simp) rfl rfl (Or.inr rfl)
    (Or.inl (by decide)) (by simpa [SelUse.legal] using hw) rfl

theorem HeaderFormat.rtFrame (inputCh0 inputCh1 : F32) : HeaderFormat.Statement (.rtFrame inputCh0 inputCh1) := by
  intro _
  exact HeaderFormat_of_parts _ _ _ _ _ _ rfl (by decide) (by decide) (by decide) (by simp) rfl rfl (Or.inr rfl)
    (Or.inr rfl) rfl rfl

end Sys2Proof.Laws
end

