-- ==== Sys2Proof/Laws/Scl.lean ====
section
/-! SUPPORT. One spec lemma for each function of the lexical layer of the scale-file parser (46_quantizer.md R311 to R313). -/

namespace Sys2Proof.Machine

/-- R311: the lines of a text, and the bytes after its last 0x0A. -/
theorem splitLines_spec (text : List Byte) : ∃ (ls : List (List Byte)) (last : List Byte),
    text = ls.flatMap (fun l => l ++ [0x0A]) ++ last ∧ (∀ l ∈ ls, 0x0A ∉ l) ∧ 0x0A ∉ last ∧
      splitLines text = if last = [] then ls else ls ++ [last] := by
  induction text with
  | nil => exact ⟨[], [], rfl, by simp, by simp, rfl⟩
  | cons b rest ih =>
    obtain ⟨ls, last, ht, hl, hlast, hs⟩ := ih
    unfold splitLines
    by_cases hb : b = 0x0A
    · refine ⟨[] :: ls, last, by simp [hb, ht], by simpa using hl, hlast, ?_⟩
      rw [if_pos hb, hs]; split <;> rfl
    · rw [if_neg hb, hs]
      cases ls with
      | nil =>
        refine ⟨[], b :: last, by simp [ht], by simp, fun h => ?_, ?_⟩
        · rcases List.mem_cons.mp h with h | h
          · exact hb h.symm
          · exact hlast h
        · by_cases h : last = [] <;> simp [h]
      | cons l ls =>
        refine ⟨(b :: l) :: ls, last, by simp [ht], ?_, hlast, ?_⟩
        · simp only [List.mem_cons, forall_eq_or_imp] at hl ⊢
          refine ⟨fun h => ?_, hl.2⟩
          rcases h with h | h
          · exact hb h.symm
          · exact hl.1 h
        · by_cases h : last = [] <;> simp [h]

/-- Dropping the longest prefix that passes a test. -/
theorem dropWhile_spec {α : Type} (p : α → Bool) (l : List α) : ∃ pre, l = pre ++ l.dropWhile p ∧ pre.all p = true ∧
    ∀ x, (l.dropWhile p).head? = some x → p x = false := by
  refine ⟨l.takeWhile p, (List.takeWhile_append_dropWhile).symm, List.all_takeWhile, fun x hx => ?_⟩
  have := List.head?_dropWhile_not p l
  rw [hx] at this
  simpa using this

/-- R311: the first token of a line. -/
theorem firstToken_spec (line : List Byte) : ∃ pre post, line = pre ++ firstToken line ++ post ∧ pre.all isBlank = true ∧
    (∀ b ∈ firstToken line, isBlank b = false) ∧ (∀ b, post.head? = some b → isBlank b = true) ∧
      (firstToken line = [] → post = []) := by
  obtain ⟨pre, h1, h2, h3⟩ := dropWhile_spec isBlank line
  obtain ⟨_, _, _, h4⟩ := dropWhile_spec (fun b => !isBlank b) (line.dropWhile isBlank)
  refine ⟨pre, (line.dropWhile isBlank).dropWhile fun b => !isBlank b, ?_, h2, ?_, ?_, ?_⟩
  · rw [List.append_assoc, firstToken, List.takeWhile_append_dropWhile]; exact h1
  · intro b hb
    have := List.all_eq_true.mp (List.all_takeWhile (p := fun b => !isBlank b) (l := line.dropWhile isBlank)) b hb
    simpa using this
  · intro b hb
    simpa using h4 b hb
  · unfold firstToken
    intro h
    cases hd : line.dropWhile isBlank with
    | nil => rfl
    | cons b r =>
      have := h3 b (by rw [hd]; rfl)
      rw [hd, List.takeWhile_cons] at h
      simp [this] at h

/-- R312: a line without the blanks around it. -/
theorem trimBlank_spec (line : List Byte) : ∃ pre post, line = pre ++ trimBlank line ++ post ∧ pre.all isBlank = true ∧
    post.all isBlank = true ∧ (∀ b, (trimBlank line).head? = some b → isBlank b = false) ∧
      ∀ b, (trimBlank line).getLast? = some b → isBlank b = false := by
  obtain ⟨pre, h1, h2, h3⟩ := dropWhile_spec isBlank line
  obtain ⟨post, g1, g2, g3⟩ := dropWhile_spec isBlank (line.dropWhile isBlank).reverse
  have hm : line.dropWhile isBlank = trimBlank line ++ post.reverse := by
    have := congrArg List.reverse g1
    rwa [List.reverse_reverse, List.reverse_append] at this
  refine ⟨pre, post.reverse, ?_, h2, by simpa using g2, ?_, ?_⟩
  · rw [List.append_assoc, ← hm]; exact h1
  · intro b hb
    refine h3 b ?_
    rw [hm]
    cases ht : trimBlank line with
    | nil => rw [ht] at hb; cases hb
    | cons c r => rw [ht] at hb; exact hb
  · intro b hb
    rw [trimBlank, List.getLast?_reverse] at hb
    exact g3 b hb

/-- The value of a run of digits, digit by digit. -/
theorem decimalValue_append (ds : List Byte) (b : Byte) :
    decimalValue (ds ++ [b]) = 10 * decimalValue ds + (b.toNat - 0x30) := by
  simp [decimalValue, List.foldl_append]

/-- R313: a count is 1 to 9 digits and nothing else. -/
theorem parseCount_iff (t : List Byte) (n : Nat) :
    parseCount t = some n ↔ 1 ≤ t.length ∧ t.length ≤ 9 ∧ t.all isDigit = true ∧ n = decimalValue t := by
  unfold parseCount isDigitRun
  have hl : t.isEmpty = false ↔ 1 ≤ t.length := by cases t <;> simp
  constructor
  · intro h
    split at h
    · rename_i hc
      simp only [Bool.and_eq_true, Bool.not_eq_true', decide_eq_true_eq, hl] at hc
      exact ⟨hc.1.1, hc.2, hc.1.2, (Option.some.inj h).symm⟩
    · cases h
  · rintro ⟨h1, h2, h3, rfl⟩
    rw [if_pos]
    simp only [Bool.and_eq_true, Bool.not_eq_true', decide_eq_true_eq, hl]
    exact ⟨⟨h1, h3⟩, h2⟩

end Sys2Proof.Machine
end

