-- ==== Sys2Proof/Laws/State.lean ====
section
/-! SUPPORT. One lemma per field per update of the state, each true by unfolding, so that no proof unfolds a record update. -/

namespace Sys2Proof.Machine

@[simp] theorem State.retire_cix (s : State) : (s.retire).cix = s.cix + 1 := rfl
@[simp] theorem State.retire_status (s : State) : (s.retire).status = s.status := rfl
@[simp] theorem State.retire_cmd (s : State) : (s.retire).cmd = s.cmd := rfl
@[simp] theorem State.retire_rsp (s : State) : (s.retire).rsp = s.rsp := rfl
@[simp] theorem State.retire_draws (s : State) : (s.retire).draws = s.draws + 1 := rfl
@[simp] theorem State.retire_dl (s : State) : (s.retire).dl = s.dl := rfl
@[simp] theorem State.retire_bq (s : State) : (s.retire).bq = s.bq := rfl
@[simp] theorem State.retire_bqh (s : State) : (s.retire).bqh = s.bqh := rfl
@[simp] theorem State.retire_ps (s : State) : (s.retire).ps = s.ps := rfl
@[simp] theorem State.retire_tp (s : State) : (s.retire).tp = s.tp := rfl
@[simp] theorem State.retire_tq (s : State) : (s.retire).tq = s.tq := rfl
@[simp] theorem State.retire_rt (s : State) : (s.retire).rt = s.rt := rfl

@[simp] theorem State.respond_cix (s : State) (vs : List Word) : (s.respond vs).cix = s.cix := rfl
@[simp] theorem State.respond_status (s : State) (vs : List Word) : (s.respond vs).status = s.status := rfl
@[simp] theorem State.respond_cmd (s : State) (vs : List Word) : (s.respond vs).cmd = s.cmd := rfl
@[simp] theorem State.respond_rsp (s : State) (vs : List Word) : (s.respond vs).rsp = s.rsp ++ vs := rfl
@[simp] theorem State.respond_draws (s : State) (vs : List Word) : (s.respond vs).draws = s.draws := rfl
@[simp] theorem State.respond_dl (s : State) (vs : List Word) : (s.respond vs).dl = s.dl := rfl
@[simp] theorem State.respond_bq (s : State) (vs : List Word) : (s.respond vs).bq = s.bq := rfl
@[simp] theorem State.respond_bqh (s : State) (vs : List Word) : (s.respond vs).bqh = s.bqh := rfl
@[simp] theorem State.respond_ps (s : State) (vs : List Word) : (s.respond vs).ps = s.ps := rfl
@[simp] theorem State.respond_tp (s : State) (vs : List Word) : (s.respond vs).tp = s.tp := rfl
@[simp] theorem State.respond_tq (s : State) (vs : List Word) : (s.respond vs).tq = s.tq := rfl
@[simp] theorem State.respond_rt (s : State) (vs : List Word) : (s.respond vs).rt = s.rt := rfl

@[simp] theorem State.deliver_cix (s : State) (ws : List Word) : (s.deliver ws).cix = s.cix := rfl
@[simp] theorem State.deliver_status (s : State) (ws : List Word) : (s.deliver ws).status = s.status := rfl
@[simp] theorem State.deliver_cmd (s : State) (ws : List Word) : (s.deliver ws).cmd = s.cmd ++ ws := rfl
@[simp] theorem State.deliver_rsp (s : State) (ws : List Word) : (s.deliver ws).rsp = s.rsp := rfl
@[simp] theorem State.deliver_draws (s : State) (ws : List Word) : (s.deliver ws).draws = s.draws := rfl
@[simp] theorem State.deliver_dl (s : State) (ws : List Word) : (s.deliver ws).dl = s.dl := rfl
@[simp] theorem State.deliver_bq (s : State) (ws : List Word) : (s.deliver ws).bq = s.bq := rfl
@[simp] theorem State.deliver_bqh (s : State) (ws : List Word) : (s.deliver ws).bqh = s.bqh := rfl
@[simp] theorem State.deliver_ps (s : State) (ws : List Word) : (s.deliver ws).ps = s.ps := rfl
@[simp] theorem State.deliver_tp (s : State) (ws : List Word) : (s.deliver ws).tp = s.tp := rfl
@[simp] theorem State.deliver_tq (s : State) (ws : List Word) : (s.deliver ws).tq = s.tq := rfl
@[simp] theorem State.deliver_rt (s : State) (ws : List Word) : (s.deliver ws).rt = s.rt := rfl

@[simp] theorem State.setHist_cix (s : State) (c : Chan) (j : Fin 4) (h : BqHist) : (s.setHist c j h).cix = s.cix := rfl
@[simp] theorem State.setHist_status (s : State) (c : Chan) (j : Fin 4) (h : BqHist) : (s.setHist c j h).status = s.status := rfl
@[simp] theorem State.setHist_cmd (s : State) (c : Chan) (j : Fin 4) (h : BqHist) : (s.setHist c j h).cmd = s.cmd := rfl
@[simp] theorem State.setHist_rsp (s : State) (c : Chan) (j : Fin 4) (h : BqHist) : (s.setHist c j h).rsp = s.rsp := rfl
@[simp] theorem State.setHist_draws (s : State) (c : Chan) (j : Fin 4) (h : BqHist) : (s.setHist c j h).draws = s.draws := rfl
@[simp] theorem State.setHist_dl (s : State) (c : Chan) (j : Fin 4) (h : BqHist) : (s.setHist c j h).dl = s.dl := rfl
@[simp] theorem State.setHist_bq (s : State) (c : Chan) (j : Fin 4) (h : BqHist) : (s.setHist c j h).bq = s.bq := rfl
@[simp] theorem State.setHist_bqh (s : State) (c : Chan) (j : Fin 4) (h : BqHist) : (s.setHist c j h).bqh = s.bqh.set c ((s.bqh.get c).set j h) := rfl
@[simp] theorem State.setHist_ps (s : State) (c : Chan) (j : Fin 4) (h : BqHist) : (s.setHist c j h).ps = s.ps := rfl
@[simp] theorem State.setHist_tp (s : State) (c : Chan) (j : Fin 4) (h : BqHist) : (s.setHist c j h).tp = s.tp := rfl
@[simp] theorem State.setHist_tq (s : State) (c : Chan) (j : Fin 4) (h : BqHist) : (s.setHist c j h).tq = s.tq := rfl
@[simp] theorem State.setHist_rt (s : State) (c : Chan) (j : Fin 4) (h : BqHist) : (s.setHist c j h).rt = s.rt := rfl

@[simp] theorem State.setBq_cix (s : State) (j : Fin 4) (p : BqParams) : (s.setBq j p).cix = s.cix := rfl
@[simp] theorem State.setBq_status (s : State) (j : Fin 4) (p : BqParams) : (s.setBq j p).status = s.status := rfl
@[simp] theorem State.setBq_cmd (s : State) (j : Fin 4) (p : BqParams) : (s.setBq j p).cmd = s.cmd := rfl
@[simp] theorem State.setBq_rsp (s : State) (j : Fin 4) (p : BqParams) : (s.setBq j p).rsp = s.rsp := rfl
@[simp] theorem State.setBq_draws (s : State) (j : Fin 4) (p : BqParams) : (s.setBq j p).draws = s.draws := rfl
@[simp] theorem State.setBq_dl (s : State) (j : Fin 4) (p : BqParams) : (s.setBq j p).dl = s.dl := rfl
@[simp] theorem State.setBq_bq (s : State) (j : Fin 4) (p : BqParams) : (s.setBq j p).bq = s.bq.set j p := rfl
@[simp] theorem State.setBq_bqh (s : State) (j : Fin 4) (p : BqParams) : (s.setBq j p).bqh = s.bqh := rfl
@[simp] theorem State.setBq_ps (s : State) (j : Fin 4) (p : BqParams) : (s.setBq j p).ps = s.ps := rfl
@[simp] theorem State.setBq_tp (s : State) (j : Fin 4) (p : BqParams) : (s.setBq j p).tp = s.tp := rfl
@[simp] theorem State.setBq_tq (s : State) (j : Fin 4) (p : BqParams) : (s.setBq j p).tq = s.tq := rfl
@[simp] theorem State.setBq_rt (s : State) (j : Fin 4) (p : BqParams) : (s.setBq j p).rt = s.rt := rfl

@[simp] theorem State.setTpPath_cix (s : State) (c : Chan) (p : TpPath) : (s.setTpPath c p).cix = s.cix := rfl
@[simp] theorem State.setTpPath_status (s : State) (c : Chan) (p : TpPath) : (s.setTpPath c p).status = s.status := rfl
@[simp] theorem State.setTpPath_cmd (s : State) (c : Chan) (p : TpPath) : (s.setTpPath c p).cmd = s.cmd := rfl
@[simp] theorem State.setTpPath_rsp (s : State) (c : Chan) (p : TpPath) : (s.setTpPath c p).rsp = s.rsp := rfl
@[simp] theorem State.setTpPath_draws (s : State) (c : Chan) (p : TpPath) : (s.setTpPath c p).draws = s.draws := rfl
@[simp] theorem State.setTpPath_dl (s : State) (c : Chan) (p : TpPath) : (s.setTpPath c p).dl = s.dl := rfl
@[simp] theorem State.setTpPath_bq (s : State) (c : Chan) (p : TpPath) : (s.setTpPath c p).bq = s.bq := rfl
@[simp] theorem State.setTpPath_bqh (s : State) (c : Chan) (p : TpPath) : (s.setTpPath c p).bqh = s.bqh.set c p.hist := rfl
@[simp] theorem State.setTpPath_ps (s : State) (c : Chan) (p : TpPath) : (s.setTpPath c p).ps = s.ps := rfl
@[simp] theorem State.setTpPath_tp (s : State) (c : Chan) (p : TpPath) : (s.setTpPath c p).tp = { s.tp with ch := s.tp.ch.set c p.ch } := rfl
@[simp] theorem State.setTpPath_tq (s : State) (c : Chan) (p : TpPath) : (s.setTpPath c p).tq = s.tq := rfl
@[simp] theorem State.setTpPath_rt (s : State) (c : Chan) (p : TpPath) : (s.setTpPath c p).rt = s.rt := rfl

@[simp] theorem State.raise_cix (s : State) (c : Cause) : (s.raise c).cix = s.cix := by unfold State.raise; split <;> rfl
@[simp] theorem State.raise_cmd (s : State) (c : Cause) : (s.raise c).cmd = s.cmd := by unfold State.raise; split <;> rfl
@[simp] theorem State.raise_rsp (s : State) (c : Cause) : (s.raise c).rsp = s.rsp := by unfold State.raise; split <;> rfl
@[simp] theorem State.raise_draws (s : State) (c : Cause) : (s.raise c).draws = s.draws := by unfold State.raise; split <;> rfl
@[simp] theorem State.raise_dl (s : State) (c : Cause) : (s.raise c).dl = s.dl := by unfold State.raise; split <;> rfl
@[simp] theorem State.raise_bq (s : State) (c : Cause) : (s.raise c).bq = s.bq := by unfold State.raise; split <;> rfl
@[simp] theorem State.raise_bqh (s : State) (c : Cause) : (s.raise c).bqh = s.bqh := by unfold State.raise; split <;> rfl
@[simp] theorem State.raise_ps (s : State) (c : Cause) : (s.raise c).ps = s.ps := by unfold State.raise; split <;> rfl
@[simp] theorem State.raise_tp (s : State) (c : Cause) : (s.raise c).tp = s.tp := by unfold State.raise; split <;> rfl
@[simp] theorem State.raise_tq (s : State) (c : Cause) : (s.raise c).tq = s.tq := by unfold State.raise; split <;> rfl
@[simp] theorem State.raise_rt (s : State) (c : Cause) : (s.raise c).rt = s.rt := by unfold State.raise; split <;> rfl

/-- A second fault is never recorded (R353). -/
theorem State.raise_faulted (s : State) (c : Cause) (h : s.faulted = true) : s.raise c = s := by simp [State.raise, h]

/-- The first fault is recorded (R352). -/
theorem State.raise_running (s : State) (c : Cause) (h : s.faulted = false) :
    s.raise c = { s with status := statusWord c s.cix } := by simp [State.raise, h]

@[simp] theorem State.whenConfigured_true (s body : State) : s.whenConfigured true body = body.retire := rfl

@[simp] theorem State.whenConfigured_false (s body : State) : s.whenConfigured false body = s.raise .notConfigured := rfl

@[simp] theorem State.withSel_some {α : Type} (s : State) (v : α) (body : α → State) : s.withSel (some v) body = body v := rfl

@[simp] theorem State.withSel_none {α : Type} (s : State) (body : α → State) : s.withSel none body = s.raise .badSel := rfl

/-! ### Per-channel and per-instance copies -/

@[simp] theorem PerCh.get_set_same {α : Type} (p : PerCh α) (c : Chan) (v : α) : (p.set c v).get c = v := by
  cases c <;> rfl

theorem PerCh.get_set_other {α : Type} (p : PerCh α) (c k : Chan) (v : α) (h : k ≠ c) : (p.set c v).get k = p.get k := by
  cases c <;> cases k <;> first | rfl | exact absurd rfl h

@[simp] theorem PerCh.get_both {α : Type} (c : Chan) (v : α) : (PerCh.both v).get c = v := by cases c <;> rfl

@[simp] theorem PerCh.set_get {α : Type} (p : PerCh α) (c : Chan) : p.set c (p.get c) = p := by cases c <;> rfl

theorem PerCh.ext_get {α : Type} (p q : PerCh α) (h : ∀ c, p.get c = q.get c) : p = q := by
  cases p; cases q
  have h0 := h .ch0
  have h1 := h .ch1
  simp only [PerCh.get] at h0 h1
  rw [h0, h1]

@[simp] theorem otherChan_ne (c : Chan) : otherChan c ≠ c := by cases c <;> decide

@[simp] theorem Four.get_set_same {α : Type} (p : Four α) (j : Fin 4) (v : α) : (p.set j v).get j = v := by
  match j with
  | 0 => rfl
  | 1 => rfl
  | 2 => rfl
  | 3 => rfl

theorem Four.get_set_other {α : Type} (p : Four α) (j k : Fin 4) (v : α) (h : k ≠ j) : (p.set j v).get k = p.get k := by
  match j, k with
  | 0, 0 | 1, 1 | 2, 2 | 3, 3 => exact absurd rfl h
  | 0, 1 | 0, 2 | 0, 3 | 1, 0 | 1, 2 | 1, 3 | 2, 0 | 2, 1 | 2, 3 | 3, 0 | 3, 1 | 3, 2 => rfl

/-! ### Selectors -/

theorem selFour_of_le (j : Nat) (h : j ≤ 3) : ∃ k : Fin 4, selFour j = some k ∧ k.val = j := by
  match j, h with
  | 0, _ => exact ⟨0, rfl, rfl⟩
  | 1, _ => exact ⟨1, rfl, rfl⟩
  | 2, _ => exact ⟨2, rfl, rfl⟩
  | 3, _ => exact ⟨3, rfl, rfl⟩

@[simp] theorem selFour_val (k : Fin 4) : selFour k.val = some k := by
  match k with
  | 0 => rfl
  | 1 => rfl
  | 2 => rfl
  | 3 => rfl

@[simp] theorem selEnable_toNat (b : Bool) : selEnable b.toNat = some b := by cases b <;> rfl

end Sys2Proof.Machine
end

