-- ==== Sys2Proof/Laws/Step.lean ====
section
/-! SUPPORT. What a step can do, said once: the four ways `step` gives a next state, and that every command of `exec` gives
one. -/

namespace Sys2Proof.Machine

/-- Every meaning gives a next state: a command executes or takes a fault of R351, which is a next state. -/
theorem exec_next (i : Instr) (s : State) : ∃ t, exec i s = .next t := by cases i <;> exact ⟨_, rfl⟩

/-- The header of `SYS.STAT` decodes to it. -/
theorem decode_statWord (rest : List Word) : decode (statWord :: rest) = .ok .sysStat rest := by
  have h1 : rowOf (field statWord 31 24) = some ⟨0x01, [0], .unused, false, fun _ _ _ => .sysStat⟩ := rfl
  have h2 : field statWord 23 20 = 0 := by decide
  have h3 : reservedNonzero ⟨0x01, [0], .unused, false, fun _ _ _ => .sysStat⟩ statWord = false := by decide
  simp [decode, h1, h2, h3, SelUse.legal]

/-- R88, R353, R352: a step that gives a next state answers `SYS.STAT`, or ignores a word of a halted block, or raises the
fault of a malformed header, or executes the decoded command. -/
theorem step_cases (s t : State) (h : step s = .next t) :
    (∃ rest, s.cmd = statWord :: rest ∧ t = ({ s with cmd := rest }.respond [s.status]).retire) ∨
    (s.faulted = true ∧ ∃ w rest, w ≠ statWord ∧ s.cmd = w :: rest ∧ t = { s with cmd := rest }) ∨
    (s.faulted = false ∧ ∃ w rest c, w ≠ statWord ∧ s.cmd = w :: rest ∧ decode s.cmd = .bad c ∧
      t = { s with cmd := rest, status := statusWord c s.cix }) ∨
    (s.faulted = false ∧ ∃ i rest, decode s.cmd = .ok i rest ∧ exec i { s with cmd := rest } = .next t) := by
  cases hc : s.cmd with
  | nil => simp [step, fetch, hc] at h
  | cons w rest =>
    by_cases hw : w = statWord
    · refine .inl ⟨rest, by rw [hw], ?_⟩
      simp only [step, fetch, hc, if_pos hw] at h
      exact (Host.Outcome.next.inj h).symm
    · cases hf : s.faulted with
      | true =>
        refine .inr (.inl ⟨rfl, w, rest, hw, rfl, ?_⟩)
        simp only [step, fetch, hc, if_neg hw, hf, if_true] at h
        exact (Host.Outcome.next.inj h).symm
      | false =>
        cases hd : decode (w :: rest) with
        | ok i after =>
          refine .inr (.inr (.inr ⟨rfl, i, after, rfl, ?_⟩))
          simpa [step, fetch, hc, hw, hf, hd] using h
        | bad c =>
          refine .inr (.inr (.inl ⟨rfl, w, rest, c, hw, rfl, rfl, ?_⟩))
          have hr : ({ s with cmd := rest } : State).raise c = { s with cmd := rest, status := statusWord c s.cix } :=
            State.raise_running _ c hf
          simp only [step, fetch, hc, if_neg hw, hf, Bool.false_eq_true, if_false, hd, hr] at h
          exact (Host.Outcome.next.inj h).symm
        | wait => simp [step, fetch, hc, hw, hf, hd] at h

/-- R24, R359: what the fetch does when it cannot run: with no word, or with operand words missing, there is no step. -/
theorem step_waits (s : State) : (s.cmd = [] → step s = .fault .awaitingCommand) ∧
    (s.faulted = false → s.cmd ≠ [] → decode s.cmd = .wait → step s = .fault .awaitingOperands) := by
  refine ⟨fun h => by simp [step, fetch, h], fun hf hn hd => ?_⟩
  cases hc : s.cmd with
  | nil => exact absurd hc hn
  | cons w rest =>
    have hw : w ≠ statWord := by
      intro e
      rw [hc, e, decode_statWord] at hd
      cases hd
    rw [hc] at hd
    simp [step, fetch, hc, hw, hf, hd]

end Sys2Proof.Machine
end

