-- ==== Sys2Proof/Laws/Units.lean ====
section
/-! SUPPORT. What the procedures of the units change and what they leave alone, one lemma per procedure. -/

namespace Sys2Proof.Machine

/-! ### The tape path leaves every other unit alone -/

@[simp] theorem State.tpThrough_cix (s : State) (d : Draw) (c : Chan) (x : F32) : (s.tpThrough d c x).1.cix = s.cix := by
  unfold State.tpThrough; split <;> rfl
@[simp] theorem State.tpThrough_status (s : State) (d : Draw) (c : Chan) (x : F32) :
    (s.tpThrough d c x).1.status = s.status := by unfold State.tpThrough; split <;> rfl
@[simp] theorem State.tpThrough_cmd (s : State) (d : Draw) (c : Chan) (x : F32) : (s.tpThrough d c x).1.cmd = s.cmd := by
  unfold State.tpThrough; split <;> rfl
@[simp] theorem State.tpThrough_rsp (s : State) (d : Draw) (c : Chan) (x : F32) : (s.tpThrough d c x).1.rsp = s.rsp := by
  unfold State.tpThrough; split <;> rfl
@[simp] theorem State.tpThrough_draws (s : State) (d : Draw) (c : Chan) (x : F32) :
    (s.tpThrough d c x).1.draws = s.draws := by unfold State.tpThrough; split <;> rfl
@[simp] theorem State.tpThrough_dl (s : State) (d : Draw) (c : Chan) (x : F32) : (s.tpThrough d c x).1.dl = s.dl := by
  unfold State.tpThrough; split <;> rfl
@[simp] theorem State.tpThrough_bq (s : State) (d : Draw) (c : Chan) (x : F32) : (s.tpThrough d c x).1.bq = s.bq := by
  unfold State.tpThrough; split <;> rfl
@[simp] theorem State.tpThrough_ps (s : State) (d : Draw) (c : Chan) (x : F32) : (s.tpThrough d c x).1.ps = s.ps := by
  unfold State.tpThrough; split <;> rfl
@[simp] theorem State.tpThrough_tq (s : State) (d : Draw) (c : Chan) (x : F32) : (s.tpThrough d c x).1.tq = s.tq := by
  unfold State.tpThrough; split <;> rfl
@[simp] theorem State.tpThrough_rt (s : State) (d : Draw) (c : Chan) (x : F32) : (s.tpThrough d c x).1.rt = s.rt := by
  unfold State.tpThrough; split <;> rfl

/-- R250: with the mode off nothing happens and the input is the answer. -/
theorem State.tpThrough_off (s : State) (d : Draw) (c : Chan) (x : F32) (h : s.tp.mode = false) :
    s.tpThrough d c x = (s, x) := by simp [State.tpThrough, h]

/-- R250: of the tape, only the channel's own dynamic state changes. -/
theorem State.tpThrough_tp (s : State) (d : Draw) (c : Chan) (x : F32) :
    (s.tpThrough d c x).1.tp = { s.tp with ch := s.tp.ch.set c ((s.tpThrough d c x).1.tp.ch.get c) } := by
  unfold State.tpThrough; split
  · simp
  · simp

/-- R250: only the channel's own filter histories change. -/
theorem State.tpThrough_bqh (s : State) (d : Draw) (c : Chan) (x : F32) :
    (s.tpThrough d c x).1.bqh = s.bqh.set c ((s.tpThrough d c x).1.bqh.get c) := by
  unfold State.tpThrough; split
  · simp
  · simp

/-! ### A tape configure leaves every other unit alone -/

@[simp] theorem State.tpConfigure_cix (s : State) (d : Draw) (v : F32) : (s.tpConfigure d v).cix = s.cix := by
  unfold State.tpConfigure; split <;> rfl
@[simp] theorem State.tpConfigure_status (s : State) (d : Draw) (v : F32) : (s.tpConfigure d v).status = s.status := by
  unfold State.tpConfigure; split <;> rfl
@[simp] theorem State.tpConfigure_cmd (s : State) (d : Draw) (v : F32) : (s.tpConfigure d v).cmd = s.cmd := by
  unfold State.tpConfigure; split <;> rfl
@[simp] theorem State.tpConfigure_rsp (s : State) (d : Draw) (v : F32) : (s.tpConfigure d v).rsp = s.rsp := by
  unfold State.tpConfigure; split <;> rfl
@[simp] theorem State.tpConfigure_draws (s : State) (d : Draw) (v : F32) : (s.tpConfigure d v).draws = s.draws := by
  unfold State.tpConfigure; split <;> rfl
@[simp] theorem State.tpConfigure_dl (s : State) (d : Draw) (v : F32) : (s.tpConfigure d v).dl = s.dl := by
  unfold State.tpConfigure; split <;> rfl
@[simp] theorem State.tpConfigure_ps (s : State) (d : Draw) (v : F32) : (s.tpConfigure d v).ps = s.ps := by
  unfold State.tpConfigure; split <;> rfl
@[simp] theorem State.tpConfigure_tq (s : State) (d : Draw) (v : F32) : (s.tpConfigure d v).tq = s.tq := by
  unfold State.tpConfigure; split <;> rfl
@[simp] theorem State.tpConfigure_rt (s : State) (d : Draw) (v : F32) : (s.tpConfigure d v).rt = s.rt := by
  unfold State.tpConfigure; split <;> rfl

/-! ### The delay line -/

/-- R130: one write at the cursor, and the cursor's advance. -/
theorem dlProcess_writes (d : Draw) (dl : Dl) (ch : DlChan) (x xfb : F32) :
    ∃ v, (dlProcess d dl ch x xfb).1.buf = ch.buf.write ch.w v ∧
      (dlProcess d dl ch x xfb).1.w = ringAdvance dl.N ch.w := by
  exact ⟨_, rfl, rfl⟩

/-- R130: the other cells read as before, and the canonical form is kept. -/
theorem dlProcess_chan (d : Draw) (dl : Dl) (ch : DlChan) (x xfb : F32) :
    (∀ a, a ≠ ch.w → (dlProcess d dl ch x xfb).1.buf.read a = ch.buf.read a) ∧
    (ch.buf.wf = true → (dlProcess d dl ch x xfb).1.buf.wf = true) := by
  obtain ⟨v, hv, _⟩ := dlProcess_writes d dl ch x xfb
  rw [hv]
  exact ⟨fun a h => Memory.read_write_other ch.buf ch.w a v h, fun h => Memory.write_wf ch.buf ch.w v h⟩

/-! ### The pitch shifter -/

/-- R181 to R185: a frame leaves the input ring, the cursors, the hop count and the drift alone. -/
theorem psFrame_keeps (d : Draw) (ps : Ps) (ch : PsChan) :
    (psFrame d ps ch).inp = ch.inp ∧ (psFrame d ps ch).iw = ch.iw ∧ (psFrame d ps ch).ow = ch.ow ∧
      (psFrame d ps ch).hopCnt = ch.hopCnt ∧ (psFrame d ps ch).driftPhase = ch.driftPhase ∧
      (psFrame d ps ch).ratioEff = ch.ratioEff :=
  ⟨rfl, rfl, rfl, rfl, rfl, rfl⟩

/-- R180, R190: the input ring, the cursors, the hop count and the cleared output cell after one sample. -/
theorem psProcess_chan (d : Draw) (ps : Ps) (ch : PsChan) (x : F32) :
    (psProcess d ps ch x).1.inp = ch.inp.write ch.iw x ∧
    (psProcess d ps ch x).1.iw = (ch.iw + 1) % Config.fftSize ∧
    (psProcess d ps ch x).1.ow = (ch.ow + 1) % Config.fftSize ∧
    (psProcess d ps ch x).1.hopCnt = (if ch.hopCnt + 1 = Config.hop then 0 else ch.hopCnt + 1) ∧
    (psProcess d ps ch x).1.driftPhase = phaseAdvance (((d.at 1)).at 1) ch.driftPhase ps.driftRate ps.sr := by
  unfold psProcess psEmit psMaybeFrame psAccept psRatioUpdate
  by_cases h : ch.hopCnt + 1 = Config.hop
  · simp only [h, if_true]
    exact ⟨rfl, rfl, rfl, rfl, rfl⟩
  · simp only [h, if_false]
    exact ⟨trivial, trivial, trivial, trivial, trivial⟩

theorem psNyquist_eq : psNyquist = 1024 := by simp [psNyquist, Config.fftSize]

/-- R184: one contribution, with the Nyquist bin as a number. -/
theorem psContribute_eq (d : Draw) (r inc mag : F32) (b : Nat) (wgt : F32) (a : PsSynth) :
    psContribute d r inc mag b wgt a =
      if 1024 < b then a
      else
        let ph := Config.num.wrapPi (fadd (d.at 0) (a.phase.read b) (fmul (d.at 1) inc r))
        let amp := fmul (d.at 2) mag wgt
        { re := a.re.write b (fadd (d.at 3) (a.re.read b) (fmul (d.at 4) amp (Config.num.cos ph)))
          im := a.im.write b (fadd (d.at 5) (a.im.read b) (fmul (d.at 6) amp (Config.num.sin ph)))
          phase := a.phase.write b ph } := by
  simp only [psContribute, psNyquist_eq]

/-- R184: a target is dropped when it is not finite or above bin 1024. -/
theorem psDropped_iff (tgt : F32) : psDropped tgt = true ↔ isFinite tgt = false ∨ flt 0x44800000 tgt = true := by
  have h : toF32 psNyquist = 0x44800000 := by rw [psNyquist_eq]; decide
  unfold psDropped
  rw [h, Bool.or_eq_true, Bool.not_eq_true']

/-- R184: floor and ceil coincide, one contribution. -/
theorem psSplit_one (d : Draw) (r inc mag tgt : F32) (a : PsSynth)
    (h : feq (fsub (d.at 0) tgt (toF32 (floorI tgt))) f0 = true) :
    psSplit d r inc mag tgt a = psContribute (d.at 1) r inc mag (floorI tgt).toNat f1 a := if_pos h

/-- R184: the floor bin, then the ceil bin. -/
theorem psSplit_two (d : Draw) (r inc mag tgt : F32) (a : PsSynth)
    (h : feq (fsub (d.at 0) tgt (toF32 (floorI tgt))) f0 = false) :
    psSplit d r inc mag tgt a =
      psContribute (d.at 2) r inc mag (floorI tgt + 1).toNat (fsub (d.at 0) tgt (toF32 (floorI tgt)))
        (psContribute (d.at 1) r inc mag (floorI tgt).toNat
          (fsub (d.at 3) f1 (fsub (d.at 0) tgt (toF32 (floorI tgt)))) a) :=
  if_neg (by rw [h]; exact Bool.false_ne_true)

/-- R185: the sample of the frame that lands in the cell read `n` calls from now is sample `n`. -/
theorem psSampleAt_spec (ow n : Nat) (hn : n < 2048) : psSampleAt ow ((ow + n) % 2048) = n := by
  unfold psSampleAt
  rw [show Config.fftSize = 2048 from rfl]
  omega

/-- R184: a contribution stores to a bin of the range only. -/
theorem psContribute_phase (d : Draw) (r inc mag : F32) (b : Nat) (wgt : F32) (a : PsSynth)
    (h : a.phase.wf = true ∧ a.phase.below (psNyquist + 1) = true) :
    (psContribute d r inc mag b wgt a).phase.wf = true ∧
      (psContribute d r inc mag b wgt a).phase.below (psNyquist + 1) = true := by
  unfold psContribute
  split
  · exact h
  · exact ⟨Memory.write_wf _ _ _ h.1, Memory.write_below _ _ _ _ h.2 (by omega)⟩

theorem psSplit_phase (d : Draw) (r inc mag tgt : F32) (a : PsSynth)
    (h : a.phase.wf = true ∧ a.phase.below (psNyquist + 1) = true) :
    (psSplit d r inc mag tgt a).phase.wf = true ∧ (psSplit d r inc mag tgt a).phase.below (psNyquist + 1) = true := by
  cases hz : feq (fsub (d.at 0) tgt (toF32 (floorI tgt))) f0 with
  | true => rw [psSplit_one _ _ _ _ _ _ hz]; exact psContribute_phase _ _ _ _ _ _ _ h
  | false =>
    rw [psSplit_two _ _ _ _ _ _ hz]
    exact psContribute_phase _ _ _ _ _ _ _ (psContribute_phase _ _ _ _ _ _ _ h)

/-- R184: the synthesis phases stay canonical and inside their bins. -/
theorem psRemapBins_phase (d : Draw) (r : F32) (inc mag : Nat → F32) (phase : Memory 32) (n : Nat)
    (h1 : phase.wf = true) (h2 : phase.below (psNyquist + 1) = true) :
    (psRemapBins d r inc mag phase n).phase.wf = true ∧
      (psRemapBins d r inc mag phase n).phase.below (psNyquist + 1) = true := by
  induction n with
  | zero => exact ⟨h1, h2⟩
  | succ n ih =>
    simp only [psRemapBins, psRemapBin]
    split
    · exact ih
    · exact psSplit_phase _ _ _ _ _ _ ih

/-- R183 to R185: after a frame every memory it writes is canonical and inside its capacity. -/
theorem psFrame_memories (d : Draw) (ps : Ps) (ch : PsChan) (h1 : ch.synPhase.wf = true)
    (h2 : ch.synPhase.below (psNyquist + 1) = true) :
    ((psFrame d ps ch).lastPhase.wf = true ∧ (psFrame d ps ch).lastPhase.below (psNyquist + 1) = true) ∧
    ((psFrame d ps ch).synPhase.wf = true ∧ (psFrame d ps ch).synPhase.below (psNyquist + 1) = true) ∧
    ((psFrame d ps ch).out.wf = true ∧ (psFrame d ps ch).out.below Config.fftSize = true) :=
  ⟨⟨Memory.tabulate_wf _ _, Memory.tabulate_below _ 0 _ _ (by omega)⟩, psRemapBins_phase _ _ _ _ _ _ h1 h2,
    ⟨Memory.tabulate_wf _ _, Memory.tabulate_below _ 0 _ _ (by omega)⟩⟩

/-- A product with a value that is not finite is not finite (R106, R107). -/
theorem fmul_not_finite (d : Draw) (x w : F32) (h : isFinite x = false) : isFinite (fmul d x w) = false := by
  have hN : ∀ e, isFinite (drawNaN e) = false := fun e => by
    have := isNaN_drawNaN e
    simp only [isNaN, isFinite, decide_eq_true_eq, decide_eq_false_iff_not] at *; omega
  have hx : isNaN x = true ∨ isInf x = true := by
    simp only [isNaN, isInf, isFinite, decide_eq_true_eq, decide_eq_false_iff_not] at *; omega
  have hI : ∀ b, isFinite (mkF b 0x7F800000) = false := by decide
  unfold fmul
  rcases hx with hx | hx
  · simp [hx, hN]
  · simp only [hx, Bool.true_or, if_true]
    split
    · exact hN d
    · split
      · exact hN d
      · exact hI _

/-- R182: of finite samples the bins are those of `NUM.dft`. -/
theorem psSpectrum_finite (d : Draw) (xw : List F32) (k : Nat) (h : xw.all isFinite = true) :
    psSpectrum d xw k = Config.num.dft xw k := if_pos h

/-- R194: with a sample that is not finite both parts of every bin are NaNs. -/
theorem psSpectrum_poisoned (d : Draw) (xw : List F32) (k : Nat) (h : xw.all isFinite = false) :
    isNaN (psSpectrum d xw k).1 = true ∧ isNaN (psSpectrum d xw k).2 = true := by
  unfold psSpectrum
  rw [if_neg (by rw [h]; exact Bool.false_ne_true)]
  exact ⟨isNaN_drawNaN _, isNaN_drawNaN _⟩

/-- R194: a NaN or infinite sample in the input ring makes every phase of the frame's bins a NaN. -/
theorem psPhase_poisoned (d e : Draw) (ps : Ps) (ch : PsChan) (n k : Nat) (hn : n < Config.fftSize)
    (h : isFinite (ch.inp.read ((ch.iw + n) % Config.fftSize)) = false) :
    isNaN (psPhase (psSpectrum e (psExtract d ps ch) k)) = true := by
  have hx : (psExtract d ps ch).all isFinite = false := by
    refine List.all_eq_false.mpr ⟨_, List.mem_map.mpr ⟨n, List.mem_range.mpr hn, rfl⟩, ?_⟩
    simp [fmul_not_finite _ _ _ h]
  refine Config.num.atan2_nan _ _ ?_
  rw [(psSpectrum_poisoned e _ k hx).1, Bool.or_true]

/-- R194: such a sample makes every stored phase of the frame a NaN. -/
theorem psFrame_poisoned (d : Draw) (ps : Ps) (ch : PsChan) (n k : Nat) (hn : n < Config.fftSize) (hk : k ≤ psNyquist)
    (h : isFinite (ch.inp.read ((ch.iw + n) % Config.fftSize)) = false) :
    isNaN ((psFrame d ps ch).lastPhase.read k) = true := by
  show isNaN ((psStorePhases (psSpectrum (d.at 5) (psExtract (d.at 0) ps ch))).read k) = true
  rw [psStorePhases, Memory.read_tabulate _ 0 _ k (by omega) (by omega)]
  exact psPhase_poisoned _ _ ps ch n k hn h

/-- R183: a NaN phase gives a NaN increment. -/
theorem psIncrement_nan (d : Draw) (k : Nat) (ph last : F32) (h : isNaN ph = true) :
    isNaN (psIncrement d k ph last) = true :=
  isNaN_fadd _ _ _ (.inl (Config.num.wrapPi_nan _
    (not_isFinite_of_isNaN _ (isNaN_fsub_left _ _ _ (isNaN_fsub_left _ _ _ h)))))

/-- The first bin holds a NaN, in its spectrum and in its running phase. -/
def PsSynth.poisoned (a : PsSynth) : Prop :=
  (a.re.wf = true ∧ isNaN (a.re.read 0) = true) ∧ a.phase.wf = true ∧ isNaN (a.phase.read 0) = true

/-- R184, R194: a bin's running phase is only ever added to, so a NaN there stays, whatever is contributed to any bin. -/
theorem psContribute_phase_nan (d : Draw) (r inc mag : F32) (b b0 : Nat) (wgt : F32) (a : PsSynth)
    (h : a.phase.wf = true ∧ isNaN (a.phase.read b0) = true) :
    (psContribute d r inc mag b wgt a).phase.wf = true ∧
      isNaN ((psContribute d r inc mag b wgt a).phase.read b0) = true := by
  unfold psContribute
  split
  · exact h
  · refine ⟨Memory.write_wf _ _ _ h.1, ?_⟩
    simp only
    by_cases hb : b0 = b
    · subst hb
      rw [Memory.read_write_same _ _ _ h.1]
      exact Config.num.wrapPi_nan _ (not_isFinite_of_isNaN _ (isNaN_fadd _ _ _ (.inl h.2)))
    · rw [Memory.read_write_other _ _ _ _ hb]; exact h.2

theorem psSplit_phase_nan (d : Draw) (r inc mag tgt : F32) (b0 : Nat) (a : PsSynth)
    (h : a.phase.wf = true ∧ isNaN (a.phase.read b0) = true) :
    (psSplit d r inc mag tgt a).phase.wf = true ∧ isNaN ((psSplit d r inc mag tgt a).phase.read b0) = true := by
  cases hz : feq (fsub (d.at 0) tgt (toF32 (floorI tgt))) f0 with
  | true => rw [psSplit_one _ _ _ _ _ _ hz]; exact psContribute_phase_nan _ _ _ _ _ _ _ _ h
  | false =>
    rw [psSplit_two _ _ _ _ _ _ hz]
    exact psContribute_phase_nan _ _ _ _ _ _ _ _ (psContribute_phase_nan _ _ _ _ _ _ _ _ h)

/-- R184: an analysis bin contributes nothing, or what one split contributes. -/
theorem psRemapBin_of (P : PsSynth → Prop) (d : Draw) (r inc mag : F32) (i : Nat) (a : PsSynth) (h : P a)
    (hs : ∀ e tgt, P (psSplit e r inc mag tgt a)) : P (psRemapBin d r inc mag i a) := by
  have hi : psRemapBin d r inc mag i a = if psDropped (fmul (d.at 0) (toF32 i) r) = true then a
    else psSplit (d.at 1) r inc mag (fmul (d.at 0) (toF32 i) r) a := rfl
  rw [hi]
  by_cases hd : psDropped (fmul (d.at 0) (toF32 i) r) = true
  · rw [if_pos hd]; exact h
  · rw [if_neg hd]; exact hs _ _

/-- R194, 70_reset_and_hazards.md R386: a synthesis phase that is NaN is NaN after every frame. -/
theorem psFrame_synPhase_nan (d : Draw) (ps : Ps) (ch : PsChan) (b : Nat) (hw : ch.synPhase.wf = true)
    (h : isNaN (ch.synPhase.read b) = true) :
    (psFrame d ps ch).synPhase.wf = true ∧ isNaN ((psFrame d ps ch).synPhase.read b) = true := by
  have hn : ∀ d r inc mag n, (psRemapBins d r inc mag ch.synPhase n).phase.wf = true ∧
      isNaN ((psRemapBins d r inc mag ch.synPhase n).phase.read b) = true := by
    intro d r inc mag n
    induction n with
    | zero => exact ⟨hw, h⟩
    | succ n ih =>
      exact psRemapBin_of (fun a => a.phase.wf = true ∧ isNaN (a.phase.read b) = true) _ _ _ _ _ _ ih
        fun _ _ => psSplit_phase_nan _ _ _ _ _ _ _ ih
  exact hn _ _ _ _ _

/-- R184: the spectrum is only ever added to, so a poisoned first bin stays poisoned. -/
theorem psContribute_poisoned (d : Draw) (r inc mag : F32) (b : Nat) (wgt : F32) (a : PsSynth) (h : a.poisoned) :
    (psContribute d r inc mag b wgt a).poisoned := by
  refine ⟨?_, psContribute_phase_nan _ _ _ _ _ _ _ _ h.2⟩
  unfold psContribute
  split
  · exact h.1
  · refine ⟨Memory.write_wf _ _ _ h.1.1, ?_⟩
    by_cases hb : b = 0
    · subst hb
      simp only
      rw [Memory.read_write_same _ _ _ h.1.1]
      exact isNaN_fadd _ _ _ (.inl h.1.2)
    · simp only
      rw [Memory.read_write_other _ _ _ _ (Ne.symm hb)]
      exact h.1.2

/-- R184: a NaN increment, or a NaN running phase, poisons the first bin when it is the target. -/
theorem psContribute_poisons (d : Draw) (r inc mag : F32) (wgt : F32) (a : PsSynth) (hr : a.re.wf = true)
    (hw : a.phase.wf = true) (h : isNaN inc = true ∨ isNaN (a.phase.read 0) = true) :
    (psContribute d r inc mag 0 wgt a).poisoned := by
  have hp : isNaN (Config.num.wrapPi (fadd (d.at 0) (a.phase.read 0) (fmul (d.at 1) inc r))) = true := by
    refine Config.num.wrapPi_nan _ (not_isFinite_of_isNaN _ (isNaN_fadd _ _ _ ?_))
    exact h.symm.imp_right fun h => isNaN_fmul _ _ _ (.inl h)
  unfold psContribute
  rw [if_neg (by omega)]
  refine ⟨⟨Memory.write_wf _ _ _ hr, ?_⟩, Memory.write_wf _ _ _ hw, ?_⟩ <;> simp only
  · rw [Memory.read_write_same _ _ _ hr]
    exact isNaN_fadd _ _ _ (.inr (isNaN_fmul _ _ _ (.inr (Config.num.cos_nan _ (not_isFinite_of_isNaN _ hp)))))
  · rw [Memory.read_write_same _ _ _ hw]; exact hp

theorem psSplit_poisoned (d : Draw) (r inc mag tgt : F32) (a : PsSynth) (h : a.poisoned) :
    (psSplit d r inc mag tgt a).poisoned := by
  cases hz : feq (fsub (d.at 0) tgt (toF32 (floorI tgt))) f0 with
  | true => rw [psSplit_one _ _ _ _ _ _ hz]; exact psContribute_poisoned _ _ _ _ _ _ _ h
  | false =>
    rw [psSplit_two _ _ _ _ _ _ hz]
    exact psContribute_poisoned _ _ _ _ _ _ _ (psContribute_poisoned _ _ _ _ _ _ _ h)

/-- R184: at a finite ratio the target of bin 0 is bin 0, alone. -/
theorem psRemapBin_zero (d : Draw) (r inc mag : F32) (a : PsSynth) (hr : isFinite r = true) :
    ∃ e, psRemapBin d r inc mag 0 a = psContribute e r inc mag 0 f1 a := by
  have hz : isZero (fmul (d.at 0) (toF32 (0 : Nat)) r) = true := by
    rw [fmul_comm_value]; exact isZero_fmul _ _ _ hr (by decide)
  unfold psRemapBin
  simp only
  generalize fmul (d.at 0) (toF32 (0 : Nat)) r = tgt at hz
  have hf : floorI tgt = 0 := by unfold floorI intOf; rw [(isZero_iff tgt).1 hz]; simp
  have hd : psDropped tgt = false := by
    rw [← Bool.not_eq_true, psDropped_iff, not_or, Bool.not_eq_false, Bool.not_eq_true]
    refine ⟨isFinite_of_isZero tgt hz, ?_⟩
    rw [← Bool.not_eq_true, flt_iff]
    have hk : key tgt = 0 := by simp only [isZero, decide_eq_true_eq] at hz; unfold key; rw [hz]; split <;> rfl
    have : (0 : Int) ≤ key 0x44800000 := by decide
    omega
  have hs : feq (fsub ((d.at 1).at 0) tgt (toF32 (floorI tgt))) f0 = true := by
    rw [hf]
    refine feq_of_isZero _ _ ?_ (by decide)
    rcases fadd_zero ((d.at 1).at 0) tgt (fneg (toF32 0)) (isFinite_of_isZero tgt hz) (by decide) with h | h
    · rw [fsub, h]; exact hz
    · exact h.2
  rw [hd, if_neg Bool.false_ne_true, psSplit_one _ _ _ _ _ _ hs, hf]
  exact ⟨_, rfl⟩

/-- R194: a NaN increment or running phase of bin 0 poisons the first bin of the whole remapping. -/
theorem psRemapBins_poisoned (d : Draw) (r : F32) (inc mag : Nat → F32) (phase : Memory 32) (n : Nat)
    (hr : isFinite r = true) (hw : phase.wf = true) (h : isNaN (inc 0) = true ∨ isNaN (phase.read 0) = true) :
    (psRemapBins d r inc mag phase (n + 1)).poisoned := by
  induction n with
  | zero =>
    obtain ⟨e, he⟩ := psRemapBin_zero (d.at 0) r (inc 0) (mag 0) ⟨[], [], phase⟩ hr
    show (psRemapBin (d.at 0) r (inc 0) (mag 0) 0 ⟨[], [], phase⟩).poisoned
    rw [he]
    exact psContribute_poisons _ _ _ _ _ _ rfl hw h
  | succ n ih => exact psRemapBin_of PsSynth.poisoned _ _ _ _ _ _ ih fun _ _ => psSplit_poisoned _ _ _ _ _ _ ih

/-- R194, 70_reset_and_hazards.md R386: a NaN or infinite sample in the input ring, or a synthesis phase of bin 0 that is
NaN from an earlier one, leaves that phase NaN after the frame. Under the hypothesis that the inverse transform propagates a
NaN the frame makes every cell of the output ring a NaN (V-PS7). So the unit stays poisoned from frame to frame. -/
theorem psFrame_stays_poisoned (d : Draw) (ps : Ps) (ch : PsChan) (hr : isFinite ch.ratioEff = true)
    (hw : ch.synPhase.wf = true)
    (h : (∃ n, n < Config.fftSize ∧ isFinite (ch.inp.read ((ch.iw + n) % Config.fftSize)) = false) ∨
      isNaN (ch.synPhase.read 0) = true) :
    ((psFrame d ps ch).synPhase.wf = true ∧ isNaN ((psFrame d ps ch).synPhase.read 0) = true) ∧
      (Config.IdftPropagatesNaN → ∀ p, p < Config.fftSize → isNaN ((psFrame d ps ch).out.read p) = true) := by
  have ha := psRemapBins_poisoned (d.at 3) ch.ratioEff
    (fun k => psIncrement ((d.at 1).at k) k (psPhase (psSpectrum (d.at 5) (psExtract (d.at 0) ps ch) k)) (ch.lastPhase.read k))
    (fun k => psMag ((d.at 2).at k) (psSpectrum (d.at 5) (psExtract (d.at 0) ps ch) k)) ch.synPhase psNyquist hr hw
    (h.imp_left fun ⟨n, hn, hx⟩ => psIncrement_nan _ 0 _ _ (psPhase_poisoned _ _ ps ch n 0 hn hx))
  refine ⟨ha.2, fun hidft p hp => ?_⟩
  unfold psFrame psOverlapAdd psRemap
  simp only
  rw [Memory.read_tabulate _ 0 _ p (by omega) (by omega)]
  refine isNaN_fadd _ _ _ (.inr (isNaN_fmul _ _ _ (.inl (hidft _ _ (List.any_eq_true.mpr ⟨_, ?_, ha.1.2⟩)))))
  refine List.mem_append_left _ (List.mem_map.mpr ⟨_, List.mem_map.mpr ⟨0, ?_, rfl⟩, rfl⟩)
  simp [psBins]

/-! ### The tape path -/

/-- R253: the signal after stage 0 is finite. -/
theorem tpDry_isFinite (x : F32) : isFinite (tpDry x) = true := guardF_isFinite x f0 (by decide)

/-- R254, R258: a filter stage turns a finite signal into a finite signal. -/
theorem tpFilter_isFinite (d : Draw) (bq : Four BqParams) (j : Fin 4) (hist : Four BqHist) (x : F32)
    (hx : isFinite x = true) : isFinite (tpFilter d bq j hist x).2 = true := by
  unfold tpFilter
  simp only
  split
  · assumption
  · exact hx

/-- R254, R258: a filter stage, its check and its repair in one equation. -/
theorem tpFilter_eq (d : Draw) (bq : Four BqParams) (j : Fin 4) (hist : Four BqHist) (x : F32) :
    tpFilter d bq j hist x =
      let r := bqProcess d (bq.get j) (hist.get j) x
      let o := if isFinite r.2 then r else (.zero, x)
      (hist.set j o.1, o.2) := by
  unfold tpFilter; simp only; split <;> rfl

/-- R257: stage 4 writes its finite input at the cursor, advances it, and answers a finite signal. -/
theorem tpHeads_spec (d : Draw) (tp : Tp) (c : Chan) (ch : TpChan) (s3 m : F32) (h : isFinite s3 = true) :
    (tpHeads d tp c ch s3 m).1 = { ch with buf := ch.buf.write ch.w s3, w := ringAdvance tp.TN ch.w } ∧
      isFinite (tpHeads d tp c ch s3 m).2 = true := ⟨rfl, guardF_isFinite _ s3 h⟩

/-- R260 to R266: stages 6 to 9 leave the record ring, its cursor and the wow and flutter state alone, and turn a finite
signal into a finite signal. -/
theorem tpBack_spec (d : Draw) (tp : Tp) (c : Chan) (ch : TpChan) (s5 : F32) (h : isFinite s5 = true) :
    (tpBack d tp c ch s5).1.buf = ch.buf ∧ (tpBack d tp c ch s5).1.w = ch.w ∧
      (tpBack d tp c ch s5).1.wowPh = ch.wowPh ∧ (tpBack d tp c ch s5).1.flutPh = ch.flutPh ∧
      (tpBack d tp c ch s5).1.wowRW = ch.wowRW ∧ (tpBack d tp c ch s5).1.flutRW = ch.flutRW ∧
      isFinite (tpBack d tp c ch s5).2 = true := by
  have h6 : isFinite (tpAging (d.at 0) tp ch s5).2 = true := guardF_isFinite _ s5 h
  have h7 := guardF_isFinite (pre := (tpAging (d.at 0) tp ch s5).2)
  have h8 : ∀ (d' : Draw) (ch' : TpChan) (s7 : F32), isFinite s7 = true → isFinite (tpNoise d' tp ch' s7).2 = true := by
    intro d' ch' s7 hs
    unfold tpNoise
    split
    · exact guardF_isFinite _ s7 hs
    · exact hs
  have hn : ∀ (d' : Draw) (ch' : TpChan) (s7 : F32), (tpNoise d' tp ch' s7).1.buf = ch'.buf ∧
      (tpNoise d' tp ch' s7).1.w = ch'.w ∧ (tpNoise d' tp ch' s7).1.wowPh = ch'.wowPh ∧
      (tpNoise d' tp ch' s7).1.flutPh = ch'.flutPh ∧ (tpNoise d' tp ch' s7).1.wowRW = ch'.wowRW ∧
      (tpNoise d' tp ch' s7).1.flutRW = ch'.flutRW := by
    intro d' ch' s7
    unfold tpNoise
    split <;> exact ⟨rfl, rfl, rfl, rfl, rfl, rfl⟩
  obtain ⟨n1, n2, n3, n4, n5, n6⟩ := hn (d.at 2) (tpInstability (d.at 1) tp (tpAging (d.at 0) tp ch s5).1
    (tpAging (d.at 0) tp ch s5).2).1 (tpInstability (d.at 1) tp (tpAging (d.at 0) tp ch s5).1
    (tpAging (d.at 0) tp ch s5).2).2
  exact ⟨n1, n2, n3, n4, n5, n6, guardF_isFinite _ _ (h8 _ _ _ (h7 _ h6))⟩

/-! ### The quantizer -/

/-- A sum of finite values takes no draw (R107). -/
theorem fadd_draw_free (d d' : Draw) (a b : F32) (ha : isFinite a = true) (hb : isFinite b = true) :
    fadd d a b = fadd d' a b := by
  simp [fadd, isNaN_of_isFinite a ha, isNaN_of_isFinite b hb, isInf_of_isFinite a ha, isInf_of_isFinite b hb]

/-- A sum of finite values is no NaN. -/
theorem isNaN_fadd_finite (d : Draw) (a b : F32) (ha : isFinite a = true) (hb : isFinite b = true) :
    isNaN (fadd d a b) = false := by
  simp only [fadd, isNaN_of_isFinite a ha, isNaN_of_isFinite b hb, isInf_of_isFinite a ha, isInf_of_isFinite b hb,
    Bool.or_self, Bool.false_eq_true, if_false]
  split
  · cases h : (isNeg a && isNeg b) <;> decide
  · exact isNaN_roundTo _ _ _

/-- The distance of a finite entry from a finite remainder takes no draw and is no NaN. -/
theorem quantDist_spec (d d' : Draw) (rem e : F32) (hr : isFinite rem = true) (he : isFinite e = true) :
    quantDist d rem e = quantDist d' rem e ∧ isNaN (quantDist d rem e) = false := by
  have hn : isFinite (fneg e) = true := by simpa using he
  refine ⟨by simp only [quantDist, fsub, fadd_draw_free d d' rem (fneg e) hr hn], ?_⟩
  have := isNaN_fadd_finite d rem (fneg e) hr hn
  simp only [isNaN, quantDist, fsub, fabs, magOf_mkF _ _ (magOf_lt _)] at this ⊢
  exact this

/-- `k` is the first of the entries of `l` nearest to `rem` (R304). -/
def firstNearest (rem : F32) (l : List F32) (k : Nat) : Prop :=
  k < l.length ∧ (∀ j, j < l.length → flt (quantDist noDraw rem (l.getD j f0)) (quantDist noDraw rem (l.getD k f0)) = false) ∧
    ∀ j, j < k → flt (quantDist noDraw rem (l.getD k f0)) (quantDist noDraw rem (l.getD j f0)) = true

/-- R304: the scan goes on from the first nearest entry of what it has read to the first nearest entry of all. -/
theorem quantScan_firstNearest (d : Draw) (rem : F32) (hr : isFinite rem = true) (es pre : List F32) (n k : Nat)
    (hf : ∀ e ∈ pre ++ es, isFinite e = true) (hk : firstNearest rem pre k) :
    ∃ k', firstNearest rem (pre ++ es) k' ∧ quantScan d rem n (pre.getD k f0) es = (pre ++ es).getD k' f0 := by
  induction es generalizing pre n k with
  | nil => exact ⟨k, by simpa using hk, by simp [quantScan]⟩
  | cons e es ih =>
    have hfe : isFinite e = true := hf e (by simp)
    have hmem : ∀ j, j < pre.length → isFinite (pre.getD j f0) = true := fun j hj => by
      rw [List.getD_eq_getElem _ _ hj]; exact hf _ (List.mem_append_left _ (List.getElem_mem hj))
    have hlow : ∀ j, j < pre.length → (pre ++ [e]).getD j f0 = pre.getD j f0 := fun j hj => by
      simp [List.getD_eq_getElem?_getD, List.getElem?_append_left hj]
    have hnew : (pre ++ [e]).getD pre.length f0 = e := by simp [List.getD_eq_getElem?_getD]
    have hlen : (pre ++ [e]).length = pre.length + 1 := by simp
    have step : ∀ best k', firstNearest rem (pre ++ [e]) k' → best = (pre ++ [e]).getD k' f0 →
        ∃ k'', firstNearest rem (pre ++ e :: es) k'' ∧ quantScan d rem (n + 1) best es = (pre ++ e :: es).getD k'' f0 := by
      intro best k' h1 h2
      have := ih (pre ++ [e]) (n + 1) k' (by simpa using hf) h1
      rw [h2]; simpa using this
    obtain ⟨hkl, hmin, hfirst⟩ := hk
    have hD := fun j hj => (quantDist_spec noDraw noDraw rem _ hr (hmem j hj)).2
    have hE := (quantDist_spec noDraw noDraw rem e hr hfe).2
    rw [quantScan, (quantDist_spec _ noDraw rem e hr hfe).1, (quantDist_spec _ noDraw rem _ hr (hmem k hkl)).1]
    cases hlt : flt (quantDist noDraw rem e) (quantDist noDraw rem (pre.getD k f0)) with
    | true =>
      rw [if_pos rfl]
      refine step e pre.length ⟨by omega, fun j hj => ?_, fun j hj => ?_⟩ hnew.symm
      · rw [hnew]
        rcases Nat.lt_or_ge j pre.length with h | h
        · rw [hlow j h, Bool.eq_false_iff]
          intro hc
          have h1 := hmin j h
          rw [flt_iff] at hc hlt
          rw [Bool.eq_false_iff, ne_eq, flt_iff] at h1
          exact h1 ⟨hc.1, hlt.2.1, by omega⟩
        · have : j = pre.length := by omega
          rw [this, hnew, Bool.eq_false_iff, ne_eq, flt_iff]; omega
      · rw [hnew, hlow j hj, flt_iff]
        have h1 := hmin j hj
        rw [flt_iff] at hlt
        rw [Bool.eq_false_iff, ne_eq, flt_iff] at h1
        refine ⟨hE, hD j hj, ?_⟩
        by_contra hc
        exact h1 ⟨hD j hj, hlt.2.1, by omega⟩
    | false =>
      rw [if_neg (by simp)]
      refine step _ k ⟨by omega, fun j hj => ?_, fun j hj => ?_⟩ (hlow k hkl).symm
      · rw [hlow k hkl]
        rcases Nat.lt_or_ge j pre.length with h | h
        · rw [hlow j h]; exact hmin j h
        · have : j = pre.length := by omega
          rw [this, hnew]; exact hlt
      · rw [hlow k hkl, hlow j (by omega)]; exact hfirst j hj

/-- R304: the entry the quantizer takes is the first nearest one. -/
theorem quantBest_firstNearest (d : Draw) (tq : Tq) (rem : F32) (hr : isFinite rem = true) (h : tq.scaleOk = true) :
    ∃ k, firstNearest rem tq.scale k ∧ quantBest d tq rem = tq.scale.getD k f0 := by
  simp only [Tq.scaleOk, Bool.and_eq_true, decide_eq_true_eq] at h
  obtain ⟨⟨⟨⟨⟨⟨⟨⟨hl, h2⟩, _⟩, _⟩, _⟩, hf⟩, _⟩, _⟩, _⟩ := h
  unfold quantBest
  rw [hl, List.take_length]
  cases hs : tq.scale with
  | nil => rw [hs] at hl; simp at hl; omega
  | cons a l =>
    rw [hs] at hf
    have ha : isFinite a = true := by simp at hf; exact hf.1
    have h0 : firstNearest rem [a] 0 := by
      refine ⟨by simp, fun j hj => ?_, fun j hj => absurd hj (Nat.not_lt_zero j)⟩
      have : j = 0 := by simpa using hj
      subst this
      rw [Bool.eq_false_iff, ne_eq, flt_iff]; omega
    have := quantScan_firstNearest d rem hr l [a] 1 0 (by simpa using hf) h0
    simpa using this

end Sys2Proof.Machine
end

