-- ==== Sys2Proof/Laws/Window.lean ====
section
/-! SUPPORT. The samples of the pitch shifter's windows (43_pitchshifter.md R176): no rounding of them takes a draw. -/

namespace Sys2Proof.Machine

/-- A product of a finite value other than zero with a value takes no draw unless that value is a NaN. -/
theorem fmul_draw_free (d d' : Draw) (a b : F32) (ha : isFinite a = true) (h0 : isZero a = false) (hb : isNaN b = false) :
    fmul d a b = fmul d' a b ∧ isNaN (fmul d a b) = false := by
  have hI : ∀ neg, isNaN (mkF neg 0x7F800000) = false := by decide
  unfold fmul
  simp only [isNaN_of_isFinite a ha, isInf_of_isFinite a ha, hb, h0, Bool.or_self, Bool.false_or, Bool.false_eq_true,
    if_false]
  split
  · rename_i hi
    have hz : isZero b = false := by simp only [isInf, isZero, decide_eq_true_eq, decide_eq_false_iff_not] at *; omega
    simp [hz, hI]
  · exact ⟨rfl, isNaN_roundTo _ _ _⟩

/-- `toF32` of a natural number is not negative and grows with it. -/
theorem toF32_mono (m n : Nat) (h : m ≤ n) :
    magOf (toF32 m) ≤ magOf (toF32 n) ∧ isNeg (toF32 m) = false := by
  have hm : ∀ k : Nat, toF32 k = mkF false (roundMag (k * unitsPerOne) 1) := fun k => by
    rw [toF32, Int.natAbs_natCast, decide_eq_false (by omega : ¬ (k : Int) < 0)]; rfl
  have l1 := roundMag_le (m * unitsPerOne) 1
  have l2 := roundMag_le (n * unitsPerOne) 1
  rw [hm, hm, magOf_mkF _ _ (by omega), magOf_mkF _ _ (by omega), isNeg_mkF _ _ (by omega)]
  refine ⟨roundMag_mono _ _ _ _ Nat.one_pos Nat.one_pos ?_, rfl⟩
  exact Nat.mul_le_mul_right _ (Nat.mul_le_mul_right _ h)

/-- The angles of the window (R176) are finite. -/
theorem windowAngle_finite (n : Nat) (hn : n < 2048) :
    isFinite (fdiv noDraw (fmul noDraw fTwoPi (toF32 n)) (toF32 Config.fftSize)) = true := by
  have h1 := toF32_mono n 2047 (by omega)
  have f1 := (toF32_exact n (by omega)).1
  have p := fmul_mono noDraw noDraw fTwoPi (toF32 n) fTwoPi (toF32 (2047 : Nat)) (by decide) f1 (by decide) (by decide)
    (by decide) h1.2 (by decide) (by decide) (le_refl _) h1.1
  have hf : isFinite (fmul noDraw fTwoPi (toF32 (2047 : Nat))) = true := by decide
  have hf' : isFinite (fmul noDraw fTwoPi (toF32 n)) = true := by
    simp only [isFinite, decide_eq_true_eq] at hf ⊢; omega
  have q := fdiv_mono noDraw noDraw _ (fmul noDraw fTwoPi (toF32 (2047 : Nat))) (toF32 Config.fftSize) hf' hf (by decide)
    p.2 (by decide) (by decide) (by decide) p.1
  have hq : isFinite (fdiv noDraw (fmul noDraw fTwoPi (toF32 (2047 : Nat))) (toF32 Config.fftSize)) = true := by decide
  simp only [isFinite, decide_eq_true_eq] at hq ⊢; omega

/-- R176: the samples of both windows; no rounding of them takes a draw. -/
theorem psWindow_spec (d : Nat → Draw) (n : Nat) (hn : n < 2048) :
    psWindow.getD n f0 =
      fmul (d 0) (fsqrt (d 1) (fdiv (d 2) f2 f3))
        (fmul (d 3) fHalf (fsub (d 4) f1
          (Config.num.cos (fdiv (d 5) (fmul (d 6) 0x40C90FDB (toF32 n)) (toF32 2048))))) := by
  have ht : isNaN (toF32 (n : Nat)) = false := isNaN_roundTo _ _ _
  have e6 : fmul (d 6) 0x40C90FDB (toF32 n) = fmul noDraw fTwoPi (toF32 n) :=
    (fmul_draw_free _ _ _ _ (by decide) (by decide) ht).1
  have n6 := (fmul_draw_free noDraw noDraw fTwoPi (toF32 n) (by decide) (by decide) ht).2
  have e5 : fdiv (d 5) (fmul noDraw fTwoPi (toF32 n)) (toF32 2048) =
      fdiv noDraw (fmul noDraw fTwoPi (toF32 n)) (toF32 Config.fftSize) := by
    have h1 : isNaN (toF32 2048) = false := by decide
    have h2 : isInf (toF32 2048) = false := by decide
    have h3 : isZero (toF32 2048) = false := by decide
    have h4 : ((Config.fftSize : Nat) : Int) = 2048 := rfl
    rw [h4]
    simp only [fdiv, n6, h1, h2, h3, Bool.or_self, Bool.false_eq_true, if_false]
  have hc := Config.num.cos_range _ (windowAngle_finite n hn)
  have hcf := isFinite_of_between _ _ _ (show isFinite fm1 = true by decide) (by decide) hc.1 hc.2
  generalize hcos : Config.num.cos (fdiv noDraw (fmul noDraw fTwoPi (toF32 n)) (toF32 Config.fftSize)) = c at hc hcf
  have hcn : isFinite (fneg c) = true := by rw [isFinite_fneg]; exact hcf
  have e4 : fsub (d 4) f1 c = fsub noDraw f1 c := fadd_draw_free _ _ _ _ (by decide) hcn
  have n4 : isNaN (fsub noDraw f1 c) = false := isNaN_fadd_finite _ _ _ (by decide) hcn
  have e3 := fmul_draw_free (d 3) noDraw fHalf _ (by decide) (by decide) n4
  have ew : fsqrt (d 1) (fdiv (d 2) f2 f3) = windowScale := by
    rw [show fdiv (d 2) f2 f3 = fdiv noDraw f2 f3 from rfl]; rfl
  have hws : windowScale = 0x3F5105EC := by decide +kernel
  have hg : psWindow.getD n f0 = fmul noDraw windowScale (hann n) := by
    simp [psWindow, Config.fftSize, hn]
  rw [hg, hann, e6, e5, hcos, e4, e3.1, ew, hws]
  exact (fmul_draw_free _ _ _ _ (by decide) (by decide) (e3.1 ▸ e3.2)).1
end Sys2Proof.Machine
end

