-- ==== Sys2Proof/Tests/Slice0.lean ====
section
/-! SUPPORT. Tests of the model against the vectors of 95_test_vectors.md (each docstring names its vector), the refusals of
WellFormed.lean, and for every obligation with hypotheses a witness that meets them together. -/

namespace Sys2Proof.Tests

open Sys2Proof Sys2Proof.Machine

/-! ### Helpers -/

/-- A part of the next state, when there is one. -/
def part {α : Type} (f : State → α) : Host.Outcome State Fault Refusal → Option α
  | .next t => some (f t)
  | .fault _ => none
  | .refused _ => none

/-- Power-on with these words delivered. -/
def fed (ws : List Word) : State := State.reset.deliver ws

/-- A delay line at 1000 Hz with nine cells, one sample of delay, full wet. -/
def line9 : Dl :=
  { Dl.reset with cfg := true, sr := 0x447A0000, N := 9, dInt := 1, mix := f1 }

/-- A tape at 1000 Hz with one head at 1 ms, mode off. -/
def tape : Tp :=
  { Tp.reset with cfg := true, sr := 0x447A0000, TN := 2402, headDelay := ⟨f1, f0, f0, f0⟩,
                  ch := PerCh.both (TpChan.zero f1) }

/-- A peaking filter of 0 dB at 80 Hz. -/
def flat : BqParams := ⟨.peaking, 0x42A00000, f0, f1, f1, f0, f0, f0, f0⟩

/-- Every unit configured at 1000 Hz. -/
def ready : State :=
  { State.reset with
    dl := line9, tp := tape, bq := ⟨flat, flat, flat, flat⟩
    ps := { Ps.reset with cfg := true, sr := 0x447A0000, ch := PerCh.both (PsChan.zero f1) } }

/-- `ready` with these words delivered. -/
def readyFed (ws : List Word) : State := ready.deliver ws

/-- `ready` with the tape mode on. -/
def taped : State := { ready with tp := { tape with mode := true } }

/-- A halted block with these words delivered (the `STATUS` of V-F2). -/
def halted (ws : List Word) : State := { fed ws with status := 0x00000051 }

/-! ### WellFormed: one ill-formed term for each check -/

theorem test_wf_instance : (Instr.bqRst 4 .ch0).wellFormed = false ∧ (Instr.bqSetlp 4 f1 f1).wellFormed = false ∧
    (Instr.bqSetpk 4 f1 f1 f1).wellFormed = false ∧ (Instr.bqSeths 4 f1 f1 f1).wellFormed = false ∧
    (Instr.bqProc 4 .ch1 f1).wellFormed = false := by decide
theorem test_wf_enable : (Instr.tpSetmode 2).wellFormed = false ∧ (Instr.tpSetnoise 2 f1).wellFormed = false ∧
    (Instr.rtSetpitch 2 f1).wellFormed = false := by decide
theorem test_wf_waveform : (Instr.tpSetwf 3 0 f1 f1 f1 f1).wellFormed = false ∧
    (Instr.tpSetwf 0 3 f1 f1 f1 f1).wellFormed = false := by decide
theorem test_wf_heads_tuning : (Instr.tpSetheads 4).wellFormed = false ∧ (Instr.tqSettuning 11).wellFormed = false := by
  decide

/-! ### Decoding: every command's words of V-E1 -/

theorem test_decode_sys : decode [0x00000000] = .ok .sysNop [] ∧ decode [0x01000000] = .ok .sysStat [] := by decide
theorem test_decode_dl :
    decode [0x10100000, 0x447A0000] = .ok (.dlCfg 0x447A0000) [] ∧ decode [0x11000000] = .ok .dlRst [] ∧
    decode [0x12100000, 0x40400000] = .ok (.dlSetdelay 0x40400000) [] ∧
    decode [0x13100000, 0x3F000000] = .ok (.dlSetfb 0x3F000000) [] ∧
    decode [0x14100000, 0x3E800000] = .ok (.dlSetmix 0x3E800000) [] ∧
    decode [0x15100000, 0x3F800000] = .ok (.dlProc .ch0 0x3F800000) [] ∧
    decode [0x15200001, 0x3F000000, 0x3E800000] = .ok (.dlProcXfb .ch1 0x3F000000 0x3E800000) [] ∧
    decode [0x16000001] = .ok (.dlGetd .ch1) [] ∧ decode [0x17000001] = .ok (.dlGetw .ch1) [] := by decide
theorem test_decode_bq :
    decode [0x21000301] = .ok (.bqRst 3 .ch1) [] ∧
    decode [0x22200200, 0x463B8000, 0x3F3504F3] = .ok (.bqSetlp 2 0x463B8000 0x3F3504F3) [] ∧
    decode [0x23300100, 0x42A00000, 0x00000000, 0x3F800000] = .ok (.bqSetpk 1 0x42A00000 0x00000000 0x3F800000) [] ∧
    decode [0x24300000, 0x457A0000, 0x40C00000, 0x3F34FDF4] = .ok (.bqSeths 0 0x457A0000 0x40C00000 0x3F34FDF4) [] ∧
    decode [0x25100101, 0x3F000000] = .ok (.bqProc 1 .ch1 0x3F000000) [] := by decide
theorem test_decode_ps :
    decode [0x30100000, 0x473B8000] = .ok (.psCfg 0x473B8000) [] ∧ decode [0x31000000] = .ok .psRst [] ∧
    decode [0x32100000, 0xC4960000] = .ok (.psSetpitch 0xC4960000) [] ∧
    decode [0x33200000, 0x3F000000, 0x40A00000] = .ok (.psSetdrift 0x3F000000 0x40A00000) [] ∧
    decode [0x35100000, 0x3F800000] = .ok (.psProc .ch0 0x3F800000) [] := by decide
theorem test_decode_tp :
    decode [0x40100000, 0x473B8000] = .ok (.tpCfg 0x473B8000) [] ∧ decode [0x41000000] = .ok .tpRst [] ∧
    decode [0x42000100] = .ok (.tpSetmode 1) [] ∧
    decode [0x43400400, 0x3F000000, 0x3C23D70A, 0x40C00000, 0x3B03126F] =
      .ok (.tpSetwf 0 1 0x3F000000 0x3C23D70A 0x40C00000 0x3B03126F) [] ∧
    decode [0x44200000, 0x40000000, 0x3F000000] = .ok (.tpSetsat 0x40000000 0x3F000000) [] ∧
    decode [0x45100001, 0x3F000000] = .ok (.tpProc .ch1 0x3F000000) [] := by decide
theorem test_decode_tp_filters :
    decode [0x46300000, 0x42A00000, 0x40400000, 0x3F800000] = .ok (.tpSethb 0x42A00000 0x40400000 0x3F800000) [] ∧
    decode [0x47200000, 0x45FA0000, 0x3F000000] = .ok (.tpSetroll 0x45FA0000 0x3F000000) [] ∧
    decode [0x48100000, 0x3E99999A] = .ok (.tpSetage 0x3E99999A) [] ∧
    decode [0x49100000, 0x3F800000] = .ok (.tpSetinst 0x3F800000) [] ∧ decode [0x4A000300] = .ok (.tpSetheads 3) [] ∧
    decode [0x4B100100, 0x3E800000] = .ok (.tpSetnoise 1 0x3E800000) [] := by decide
theorem test_decode_tq :
    decode [0x51000000] = .ok .tqSetdef [] ∧ decode [0x52000A00] = .ok (.tqSettuning 10) [] ∧
    decode [0x53000000] = .ok .tqSclclr [] ∧ decode [0x54002100] = .ok (.tqSclb 0x21) [] ∧
    decode [0x55100000, 0x43160000] = .ok (.tqQuant 0x43160000) [] ∧ decode [0x56000000] = .ok .tqLoad [] ∧
    decode [0x57000000] = .ok .tqGetdesc [] := by decide
theorem test_decode_rt :
    decode [0x60100000, 0x473B8000] = .ok (.rtCfg 0x473B8000) [] ∧ decode [0x61000000] = .ok .rtRst [] ∧
    decode [0x62100000, 0x3E99999A] = .ok (.rtSetxfb 0x3E99999A) [] ∧
    decode [0x63100100, 0x43150000] = .ok (.rtSetpitch 1 0x43150000) [] ∧
    decode [0x65200000, 0x3F000000, 0xBE800000] = .ok (.rtFrame 0x3F000000 0xBE800000) [] := by decide
/-- V-E1 the other way. -/
theorem test_encode : encode (.bqProc 1 .ch1 0x3F000000) = [0x25100101, 0x3F000000] ∧
    encode (.dlProcXfb .ch1 0x3F000000 0x3E800000) = [0x15200001, 0x3F000000, 0x3E800000] ∧
    encode (.tpSetwf 0 1 0x3F000000 0x3C23D70A 0x40C00000 0x3B03126F) =
      [0x43400400, 0x3F000000, 0x3C23D70A, 0x40C00000, 0x3B03126F] := by decide
/-- `decodeTableWord` numbers the operand words on from the header. -/
theorem test_decode_table_word :
    decodeTableWord 64 0x3F80000015100001 = some (.dlProc .ch1 0x3F800000) ∧
    decodeTableWord 32 0x15100001 = some (.dlProc .ch1 0) ∧ decodeTableWord 32 0x20000000 = none := by decide
/-- `withFetchWord` makes the next step run the command. -/
theorem test_fetch_word : part (fun t => t.dl.fb) (step (State.reset.withFetchWord 64 0x3F00000013100000)) =
    some 0x3F000000 := by decide

/-! ### Faults (V-F1 to V-F27) -/

/-- `STATUS` after one step from power-on. -/
def statusOf (ws : List Word) : Option (BitVec 32) := part (fun t => t.status) (step (fed ws))

theorem test_fault_not_configured :
    statusOf [0x15100000, 0x3F800000] = some 0x51 ∧ statusOf [0x25100000, 0x3F800000] = some 0x51 ∧
    statusOf [0x46300000, 0x42A00000, 0x40400000, 0x3F800000] = some 0x51 ∧
    statusOf [0x45100000, 0x3F000000] = some 0x51 := by decide
theorem test_fault_illegal : statusOf [0x20000000] = some 0x11 ∧ statusOf [0x7F000000] = some 0x11 := by decide
theorem test_fault_narg : statusOf [0x15F00003] = some 0x21 ∧ statusOf [0x15300000] = some 0x21 ∧
    statusOf [0x01100000] = some 0x21 := by decide
theorem test_fault_reserved : statusOf [0x10100001] = some 0x31 ∧ statusOf [0x16000100] = some 0x31 ∧
    statusOf [0x00010000] = some 0x31 ∧ statusOf [0x01000001] = some 0x31 := by decide
theorem test_fault_sel : statusOf [0x21000400] = some 0x41 ∧ statusOf [0x52000B00] = some 0x41 ∧
    statusOf [0x42000200] = some 0x41 ∧ statusOf [0x43400300] = some 0x41 ∧ statusOf [0x43400C00] = some 0x41 ∧
    statusOf [0x43401000] = some 0x41 := by decide
/-- V-F3, V-F23: `FCIX`. -/
theorem test_fault_cix :
    part (fun t => (t.status, t.cix)) (step { fed [0x12000000] with cix := 1 }) = some (0x121, 1) ∧
    part (fun t => (t.status, t.cix)) (step { fed [0x20000000] with cix := 300 }) = some (0x12C11, 300) := by
  decide
/-- V-F1, V-F25, V-F26: the status answer, halted or not. -/
theorem test_sysStat : part (fun t => (t.rsp, t.cix)) (step (fed [0x01000000])) = some ([0], 1) ∧
    part (fun t => (t.rsp, t.cix, t.status)) (step (halted [0x01000000])) = some ([0x51], 1, 0x51) := by decide
/-- V-F25: a halted block ignores a configure and a second malformed header. -/
theorem test_halted : part (fun t => (t.cmd, t.dl.cfg, t.status)) (step (halted [0x10100000, 0x447A0000])) =
      some ([0x447A0000], false, 0x51) ∧
    part (fun t => (t.cmd, t.status, t.cix)) (step (halted [0x20000000])) = some ([], 0x51, 0) := by decide
/-- V-F27. -/
theorem test_truncated : step (fed [0x12100000]) = .fault .awaitingOperands ∧ step State.reset = .fault .awaitingCommand ∧
    part (fun t => (t.dl.delayMs, t.cix)) (step ((fed [0x12100000]).deliver [0x40400000])) = some (0x40400000, 1) :=
  ⟨rfl, rfl, by decide⟩
theorem test_sysNop : part (fun t => (t.cmd, t.cix, t.rsp)) (step (fed [0x00000000])) = some ([], 1, []) := by
  decide

/-! ### DL -/

/-- V-DL2, V-DL7g. -/
theorem test_dlCfg :
    part (fun t => (t.dl.N, t.dl.dInt, t.dl.dFrac)) (exec (.dlCfg 0x473B8000) State.reset) = some (96001, 48, 0) ∧
    part (fun t => t.dl.sr) (exec (.dlCfg 0x7FC00000) State.reset) = some 0x447A0000 := by decide
/-- V-DL17 (c), V-DL5: a reallocation keeps the delay and zeroes the rings. -/
theorem test_dlCfg_reallocates :
    part (fun t => (t.dl.N, t.dl.dInt, t.dl.dFrac, t.dl.ch.c0.buf))
      (exec (.dlCfg 0x472C4400)
        { ready with dl := { line9 with delayMs := 0x40E9999A, ch := ⟨⟨[(2, f1)], 3, f1⟩, ⟨[], 0, f0⟩⟩ } }) =
      some (88201, 321, 0x3F6E1400, []) := by decide
/-- V-DL4, V-DL7. -/
theorem test_dlSetdelay :
    part (fun t => (t.dl.dInt, t.dl.dFrac))
      (exec (.dlSetdelay 0x40E9999A) { ready with dl := { line9 with sr := 0x473B8000, N := 96001 } }) =
      some (350, 0x3ECCCC00) ∧
    part (fun t => (t.dl.delayMs, t.dl.dInt, t.dl.dFrac))
      (exec (.dlSetdelay 0x4E6E6B28) { ready with dl := { line9 with sr := 0x472C4400, N := 88201 } }) =
      some (0x44FA0000, 88200, 0) := by decide
/-- V-DL7c, V-DL7d, V-E4. -/
theorem test_dlSetfb : part (fun t => t.dl.fb) (exec (.dlSetfb f2) ready) = some 0x3F8CCCCD ∧
    part (fun t => t.dl.fb) (exec (.dlSetfb fm1) ready) = some f0 ∧
    part (fun t => t.dl.fb) (exec (.dlSetfb 0x7FC00000) ready) = some f0 ∧
    part (fun t => t.dl.fb) (exec (.dlSetfb 0x80000000) ready) = some 0x80000000 := by decide
/-- V-DL7e, V-DL7f. -/
theorem test_dlSetmix : part (fun t => t.dl.mix) (exec (.dlSetmix 0x40E00000) ready) = some f1 ∧
    part (fun t => t.dl.mix) (exec (.dlSetmix 0x7FC00000) ready) = some f0 := by decide
/-- V-DL9, fourth call: 1.1 times 1.21 in binary32. -/
theorem test_dlProc_feedback :
    part (fun t => (t.rsp, t.dl.ch.c0.buf.read 3))
      (exec (.dlProc .ch0 f0)
        { ready with dl := { line9 with fb := 0x3F8CCCCD, ch := ⟨⟨[(2, 0x3F9AE148)], 3, f0⟩, ⟨[], 0, f0⟩⟩ } }) =
      some ([0x3F9AE148], 0x3FAA5E36) := by decide
/-- V-DL12, call 8: the tap wraps to cell 0 and the weightless cell is the one overwritten. -/
theorem test_dlProc_wraps :
    part (fun t => (t.rsp, t.dl.ch.c0.w, t.dl.ch.c1.w))
      (exec (.dlProc .ch0 f0) { ready with dl := { line9 with dInt := 8, ch := ⟨⟨[(0, f1)], 8, f0⟩, ⟨[], 0, f0⟩⟩ } }) =
      some ([f1], 0, 0) := by decide
/-- V-DL10, second call, on channel 1. -/
theorem test_dlProc_fraction :
    part (fun t => (t.rsp, t.dl.ch.c0.w, t.dl.ch.c1.w))
      (exec (.dlProc .ch1 f2)
        { ready with dl := { line9 with dFrac := 0x3E800000, mix := 0x3E800000,
                                        ch := ⟨⟨[], 0, f0⟩, ⟨[(0, f1)], 1, f0⟩⟩ } }) =
      some ([0x3FD80000], 0, 2) := by decide
/-- V-DL11: the external feedback is added unscaled. -/
theorem test_dlProcXfb : part (fun t => (t.rsp, t.dl.ch.c0.buf)) (exec (.dlProcXfb .ch0 f1 0x3E800000) ready) =
    some ([f0], [(0, 0x3FA00000)]) := by decide
/-- V-DL14: an infinite input answers a NaN and stops nothing. -/
theorem test_dlProc_infinite :
    part (fun t => t.rsp.map isNaN) (exec (.dlProc .ch0 0x7F800000) ready) = some [true] := by
  have h0 : fsub (ready.draw.at 6) f1 ready.dl.mix = f0 := by decide
  have h1 : ∀ d, isNaN (fmul d 0x7F800000 f0) = true := fun d => isNaN_drawNaN d
  have h2 : ∀ d x y, isNaN x = true → isNaN (fadd d x y) = true := fun d x y h => by simp [fadd, h]
  have h3 : ready.dl.cfg = true := rfl
  have h4 : ready.rsp = [] := rfl
  simp only [part, exec, execDlProc, State.whenConfigured, h3, if_true, State.dlRun, dlProcess, State.respond, State.retire,
    h4, h0, List.nil_append, List.map_cons, List.map_nil, h2 _ _ _ (h1 _)]
/-- V-DL15, V-DL16. -/
theorem test_dlGet_rst :
    part (fun t => t.rsp) (exec (.dlGetd .ch0)
      { ready with dl := { line9 with ch := ⟨⟨[], 0, 0x3FA00000⟩, ⟨[], 0, f0⟩⟩ } }) = some [0x3FA00000] ∧
    part (fun t => t.rsp) (exec (.dlGetw .ch1)
      { ready with dl := { line9 with ch := ⟨⟨[], 0, 0x3FA00000⟩, ⟨[], 0, f0⟩⟩ } }) = some [f0] ∧
    part (fun t => (t.dl.fb, t.dl.dInt, t.dl.ch)) (exec .dlRst
      { ready with dl := { line9 with fb := fHalf, ch := ⟨⟨[(4, f1)], 5, f1⟩, ⟨[(2, f1)], 3, f1⟩⟩ } }) =
      some (fHalf, 1, ⟨⟨[], 0, f0⟩, ⟨[], 0, f0⟩⟩) := by decide
/-- V-DL18. -/
theorem test_ringIdx : ringIdx 9 1 3 = 7 ∧ ringIdx 9 1 4 = 6 := by decide

/-! ### BQ -/

/-- V-BQ3. -/
theorem test_bqProc :
    part (fun t => (t.rsp, (t.bqh.c0).i0))
      (exec (.bqProc 0 .ch0 f1)
        { ready with bq := { ready.bq with i0 := ⟨.lowpass, f1, f0, f1, fHalf, fHalf, f0, f0, f0⟩ }
                     bqh := { ready.bqh with c0 := { Four.zeroHist with i0 := ⟨fHalf, f0⟩ } } }) =
      some ([f1], ⟨fHalf, f0⟩) := by decide +kernel
/-- V-BQ8: the other channel's history is its own. -/
theorem test_bqProc_channels :
    part (fun t => t.rsp)
      (exec (.bqProc 0 .ch1 f0)
        { ready with bqh := { ready.bqh with c0 := { Four.zeroHist with i0 := ⟨fHalf, f0⟩ } } }) = some [f0] := by
  decide
theorem test_bqRst :
    part (fun t => (t.bqh.c0.i3, t.bqh.c1.i3))
      (exec (.bqRst 3 .ch1) { ready with bqh := PerCh.both { Four.zeroHist with i3 := ⟨f1, f1⟩ } }) =
      some (⟨f1, f1⟩, ⟨f0, f0⟩) := by decide
/-- V-BQ7. -/
theorem test_bqSet_clamps :
    part (fun t => (t.bq.i2.kind, t.bq.i2.f, t.bq.i2.q))
      (exec (.bqSetlp 2 0x49742400 f0) { ready with tp := { tape with sr := 0x473B8000 } }) =
      some (.lowpass, 0x46B7C000, 0x3DCCCCCD) ∧
    part (fun t => (t.bq.i1.g, t.bq.i0.kind)) (exec (.bqSetpk 1 0x42A00000 0x42C80000 f1) ready) =
      some (0x41C00000, .peaking) ∧
    part (fun t => (t.bq.i3.kind, t.bq.i3.g)) (exec (.bqSeths 3 0x42A00000 0x7FC00000 f1) ready) =
      some (.highShelf, 0xC1C00000) := by decide

/-! ### PS -/

/-- V-PS2, first call: the ring is priming. -/
theorem test_psProc :
    part (fun t => (t.rsp, t.ps.ch.c0.inp, t.ps.ch.c0.iw, t.ps.ch.c0.ow, t.ps.ch.c0.hopCnt, t.ps.ch.c1.iw))
      (exec (.psProc .ch0 f1) ready) = some ([f0], [(0, f1)], 1, 1, 1, 0) := by decide
/-- R185: the sample of a frame that lands in a cell, and the cell it lands in. -/
theorem test_psSampleAt : psSampleAt 2000 2000 = 0 ∧ psSampleAt 2000 0 = 48 ∧ psSampleAt 2000 1999 = 2047 := by decide
/-- V-PS6: the clamps of the drift setter; R172, R173 on a configured unit. -/
theorem test_psSetdrift_cfg_rst :
    part (fun t => (t.ps.driftRate, t.ps.driftDepth)) (exec (.psSetdrift 0x42C80000 0x447A0000) State.reset) =
      some (0x41200000, 0x42480000) ∧
    part (fun t => (t.ps.cfg, t.ps.sr)) (exec (.psCfg 0x473B8000) State.reset) = some (true, 0x473B8000) ∧
    part (fun t => (t.ps.ch.c0.iw, t.ps.ch.c0.ratioEff))
      (exec .psRst { ready with ps := { ready.ps with ratio := f2, ch := PerCh.both { PsChan.zero f1 with iw := 7 } } }) =
      some (0, f2) := by decide
/-- V-PS3: the stored cents. -/
theorem test_psSetpitch : part (fun t => t.ps.cents) (exec (.psSetpitch 0x451C4000) State.reset) = some 0x45160000 ∧
    part (fun t => t.ps.cents) (exec (.psSetpitch 0x7FC00000) State.reset) = some 0xC5160000 := by decide
theorem test_psWindow_length : psWindow.length = 2048 := by simp [psWindow, Config.fftSize]
/-- V-PS1: the window scale. -/
theorem test_windowScale : windowScale = 0x3F5105EC := by decide +kernel

/-! ### TP -/

/-- V-TP1. -/
theorem test_tpProc_off : part (fun t => t.rsp) (exec (.tpProc .ch1 0x7FC00001) ready) = some [0x7FC00001] ∧
    part (fun t => (t.rsp, t.tp.ch.c0.w)) (exec (.tpProc .ch0 0x80000000) ready) = some ([0x80000000], 0) := by
  decide
/-- V-TP8: with the mode on the cursor advances from where it was. -/
theorem test_tpProc_on :
    part (fun t => (t.tp.ch.c0.w, t.tp.ch.c1.w, t.rsp.length))
      (exec (.tpProc .ch0 f0)
        { taped with tp := { taped.tp with ch := ⟨{ TpChan.zero f1 with w := 10 }, TpChan.zero f1⟩ } }) =
      some (11, 0, 1) := by decide
/-- V-TP2. -/
theorem test_tpCfg : part (fun t => t.tp.TN) (exec (.tpCfg 0x473B8000) State.reset) = some 115202 ∧
    part (fun t => (t.tp.TN, t.tp.ch.c0.instSpeed)) (exec (.tpCfg 0x447A0000) State.reset) = some (2402, f1) := by
  decide
theorem test_tpRst : part (fun t => (t.tp.ch.c1.w, t.tp.ch.c1.instSpeed, t.bqh.c1.i2))
    (exec .tpRst { ready with tp := { tape with ch := PerCh.both { TpChan.zero f0p95 with w := 4 } }
                              bqh := PerCh.both { Four.zeroHist with i2 := ⟨f1, f1⟩ } }) = some (0, f1, ⟨f0, f0⟩) := by
  decide
/-- V-TP3. -/
theorem test_tpSetters :
    part (fun t => (t.tp.wowRate, t.tp.wowDepth, t.tp.flutRate, t.tp.flutDepth, t.tp.wowWave, t.tp.flutWave))
      (exec (.tpSetwf 0 1 0x3C23D70A f1 0x42C80000 fm1) ready) =
      some (0x3DCCCCCD, 0x3DCCCCCD, 0x41700000, f0, .sine, .triangle) ∧
    part (fun t => (t.tp.drive, t.tp.satAmt)) (exec (.tpSetsat 0x42C80000 f2) ready) = some (0x41200000, f1) ∧
    part (fun t => t.tp.aging) (exec (.tpSetage 0xBF000000) ready) = some f0 ∧
    part (fun t => t.tp.instab) (exec (.tpSetinst f2) ready) = some f1 ∧
    part (fun t => (t.tp.noiseEn, t.tp.noiseAmt)) (exec (.tpSetnoise 1 0x3E800000) ready) = some (true, 0x3E800000) ∧
    part (fun t => t.tp.mode) (exec (.tpSetmode 0) taped) = some false ∧
    part (fun t => t.tp.headCfg) (exec (.tpSetheads 2) ready) = some 2 := by decide
/-- R218, R219: the instances the two tape filter setters write. -/
theorem test_tpFilters :
    part (fun t => (t.bq.i1.kind, t.bq.i1.g, t.bq.i2.kind)) (exec (.tpSethb 0x42A00000 0x40400000 f1) ready) =
      some (.peaking, 0x40400000, .peaking) ∧
    part (fun t => (t.bq.i2.kind, t.bq.i2.q, t.bq.i1.kind)) (exec (.tpSetroll 0x42A00000 fHalf) ready) =
      some (.lowpass, fHalf, .peaking) := by decide
/-- V-TP4: the triangle. -/
theorem test_triangle :
    ([f0, 0x3E800000, fHalf, 0x3F400000].map fun ph => (lfoStep noDraw 0x447A0000 .triangle ph f0 f1).1) =
      [fm1, f0, f1, f0] := by decide
/-- V-TP9. -/
theorem test_phaseAdvance : phaseAdvance noDraw f0 0x40A00000 0x447A0000 = 0x3BA3D70A ∧
    phaseAdvance noDraw 0x3F400000 f0 0x473B8000 = 0x3F400000 := by decide

/-! ### TQ -/

/-- V-TQ1. -/
theorem test_tqQuant :
    ([0x43150000, 0x43160000, 0x42480000, 0x80000000, 0x448FC000, 0x448FE000, 0x4515F000, 0xC1F00000, 0xC2480000,
      0xC49C4000, 0x7F800000, 0x7FC00000].map fun v => tqQuantize noDraw Tq.reset v) =
      [0x42C80000, 0x42C80000, f0, f0, 0x44898000, 0x44960000, 0x45160000, f0, 0xC2C80000, 0xC4A28000, 0x48160000,
        0xC8160000] := by decide +kernel
/-- V-TQ2, V-TQ5: 31-EDO. -/
theorem test_tqSettuning :
    part (fun t => (t.tq.len, t.tq.scale.take 4, t.tq.desc)) (exec (.tqSettuning 4) State.reset) =
      some (32, [f0, 0x421AD6B6, 0x429AD6B6, 0x42E84211], [0x33, 0x31, 0x2D, 0x45, 0x44, 0x4F]) ∧
    tqQuantize noDraw (tqInstallTuning Tq.reset 4) 0xC4334000 = 0xC437DEF8 := by decide +kernel
theorem test_tqSetdef_getdesc :
    part (fun t => (t.tq.len, t.tq.scale.drop 11)) (exec .tqSetdef { State.reset with tq := tqInstallTuning Tq.reset 6 }) =
      some (13, [0x44898000, 0x44960000]) ∧
    part (fun t => t.rsp) (exec .tqGetdesc State.reset) = some [6, 0x31, 0x32, 0x2D, 0x45, 0x44, 0x4F] := by decide
/-- R302, R303. -/
theorem test_tqSclb_sclclr :
    part (fun t => (t.tq.sclLen, t.tq.sclbuf)) (exec (.tqSclb 0x21) { State.reset with tq := { Tq.reset with sclLen := 2 } }) =
      some (3, [(2, 0x21)]) ∧
    part (fun t => (t.tq.sclLen, t.tq.sclbuf))
      (exec (.tqSclb 0x21) { State.reset with tq := { Tq.reset with sclLen := 65536 } }) = some (65536, []) ∧
    part (fun t => (t.tq.sclLen, t.tq.sclbuf))
      (exec .tqSclclr { State.reset with tq := { Tq.reset with sclLen := 1, sclbuf := [(0, 0x21)] } }) =
      some (0, [(0, 0x21)]) := by decide

/-- The quantizer with this text staged. -/
def staged (text : String) : Tq :=
  { Tq.reset with sclLen := text.length, sclbuf := (asciiBytes text).zipIdx.map fun p => (p.2, p.1) }

/-- V-TQ8, V-TQ7 (a truncated file leaves the scale). -/
theorem test_tqLoad :
    part (fun t => (t.rsp, t.tq.len, t.tq.scale, t.tq.desc))
      (exec .tqLoad { State.reset with tq := staged "d\n2\n900.0\n300.0\n" }) =
      some ([1], 4, [f0, 0x44610000, 0x43960000, f1200], [0x64]) ∧
    part (fun t => (t.rsp, t.tq.len)) (exec .tqLoad { State.reset with tq := staged "x\n3\n100.0\n200.0\n" }) =
      some ([0], 13) := by decide
/-- V-TQ7: texts that fail. -/
theorem test_parse_fails :
    (["", "! only a comment\n", "desc\n", "desc\ntwelve\n", "desc\n-3\n", "desc\n1\nabc\n", "desc\n1\n3/0\n",
      "desc\n1\n1e3\n"].map fun text => (parseScl (asciiBytes text)).isNone) =
      [true, true, true, true, true, true, true, true] := by decide
/-- V-TQ7: texts that load. -/
theorem test_parse_loads : parseScl (asciiBytes "desc\n0\n") = some (asciiBytes "desc", []) ∧
    parseScl (asciiBytes "d\r\n1\r\n 100.0 cents\r\n") = some ([0x64], [0x42C80000]) := by decide

/-- R314, R315: the tokens a note may be; 0.1 and 16777217 round to the nearest binary32 (ties to even), and a minus zero
reads as the number zero. -/
theorem test_parse_notes :
    (["-0", "+.5", "0.1", "16777217", "-100.000000000000000000000000000"].map fun t => parseNote (asciiBytes t)) =
      [some f0, some fHalf, some 0x3DCCCCCD, some 0x4B800000, some 0xC2C80000] ∧
    (["5.", ".", "-", "1.2.3", "0/1", "1/1000000000", "-100.0000000000000000000000000000"].map fun t =>
      parseNote (asciiBytes t)) = [none, none, none, none, none, none, none] := by decide
/-- R314: a ratio of 1 is 0 cents, whatever `NUM.log2` is elsewhere. -/
theorem test_parse_ratio_one : ratioCents 3 3 = f0 := by
  have h : fdiv noDraw (toF32 (3 : Nat)) (toF32 (3 : Nat)) = f1 := by decide
  rw [ratioCents, h, Config.num.log2_one]; decide
/-- R293, R306: the built-in tables ascend, by more than 2^-7 cents: the open ones by the constraint, the equal divisions
as R296 computes them. -/
theorem test_tunings_apart :
    (∀ id k, 7 ≤ id → id ≤ 10 → k < 11 →
      intOf 0x3C000000 < intOf (Config.params.tuningTable id (k + 1)) - intOf (Config.params.tuningTable id k)) ∧
    ((List.range 7).all fun id => ((tuningScale id).zip (tuningScale id).tail).all fun e =>
      decide (intOf 0x3C000000 < intOf e.2 - intOf e.1)) = true :=
  ⟨fun id k h1 h2 h3 => Config.params.tuning_table_apart id k h1 h2 h3, by decide +kernel⟩

/-! ### RT -/

/-- V-RT1, the stored cents. -/
theorem test_rtSetpitch :
    part (fun t => (t.ps.cents, t.rt.quantEn)) (exec (.rtSetpitch 1 0x43150000) State.reset) = some (0x42C80000, true) ∧
    part (fun t => (t.ps.cents, t.rt.quantEn)) (exec (.rtSetpitch 0 0x43150000) State.reset) = some (0x43150000, false) ∧
    part (fun t => t.ps.cents) (exec (.rtSetpitch 1 0x459C4000) State.reset) = some 0x45160000 := by decide +kernel
/-- V-RT2, V-RT3. -/
theorem test_rtFrame :
    part (fun t => (t.rsp, t.ps.ch.c0.inp.read 0, t.ps.ch.c1.inp.read 0, t.dl.ch.c1.w))
      (exec (.rtFrame 0x3F000000 0xBE800000) { ready with dl := { line9 with mix := f0 } }) =
      some ([f0, f0], 0x3F000000, 0xBE800000, 1) ∧
    part (fun t => (t.rsp, t.ps.ch.c0.inp.length, t.ps.ch.c1.inp.length, t.rt.pollCnt))
      (exec (.rtFrame 0x7FC00000 0x7F800000) { ready with dl := { line9 with mix := f0 } }) = some ([f0, f0], 0, 0, 1) := by
  decide
/-- R340: channel 1's history is what channel 0 hears one frame later. -/
theorem test_rtFrame_crossfeed :
    part (fun t => (t.dl.ch.c0.buf, t.rt.prevDelayed))
      (exec (.rtFrame f0 f0)
        { ready with rt := { Rt.reset with xfbAmt := fHalf, prevDelayed := ⟨f0, f1⟩ } }) =
      some ([(0, fHalf)], ⟨f0, f0⟩) := by decide
/-- V-RT5. -/
theorem test_rtCfg :
    part (fun t => (t.dl.sr, t.ps.sr, t.tp.sr, t.rt.pollCnt))
      (exec (.rtCfg 0x473B8000) { State.reset with rt := { Rt.reset with pollCnt := 5 } }) =
      some (0x473B8000, 0x473B8000, 0x473B8000, 0) ∧
    part (fun t => t.rt.pollCnt) (exec (.rtCfg 0x447A0000) { ready with rt := { Rt.reset with pollCnt := 5 } }) = some 5 := by
  decide
theorem test_rtRst_setxfb :
    part (fun t => (t.rt.xfbAmt, t.rt.prevDelayed, t.dl.ch.c0.w))
      (exec .rtRst { ready with rt := { Rt.reset with xfbAmt := fHalf, prevDelayed := ⟨f1, f1⟩ }
                                dl := { line9 with ch := PerCh.both ⟨[], 3, f1⟩ } }) = some (fHalf, ⟨f0, f0⟩, 0) ∧
    part (fun t => t.rt.xfbAmt) (exec (.rtSetxfb f2) State.reset) = some f1 := by decide

/-! ### Witnesses: a concrete state and operands meeting the hypotheses of each obligation together -/

theorem witness_DecodeInvertsEncode : (Instr.bqProc 3 .ch1 f1).wellFormed = true ∧
    (Instr.tqSettuning 10).wellFormed = true ∧ (Instr.tpSetwf 2 2 f1 f1 f1 f1).wellFormed = true := by decide
theorem witness_DecodedWordsAreEncoded :
    decode [0x25100301, 0x3F800000, 0x00000007] = .ok (.bqProc 3 .ch1 0x3F800000) [0x00000007] := by decide
/-- One header for each clause; the last one is at the largest legal selector. -/
theorem witness_HeaderChecksInOrder :
    rowOf (field 0x7F000000 31 24) = none ∧
    (∃ r, rowOf (field 0x15F00003 31 24) = some r ∧ field 0x15F00003 23 20 ∉ r.nargs) ∧
    (∃ r, rowOf (field 0x10100001 31 24) = some r ∧ field 0x10100001 23 20 ∈ r.nargs ∧ r.ch = false ∧
      field 0x10100001 0 0 ≠ 0) ∧
    (∃ r, rowOf (field 0x52000B00 31 24) = some r ∧ field 0x52000B00 23 20 ∈ r.nargs ∧
      reservedNonzero r 0x52000B00 = false ∧ r.sel.legal (field 0x52000B00 15 8) = false) ∧
    (∃ r, rowOf (field 0x52000A00 31 24) = some r ∧ field 0x52000A00 23 20 ∈ r.nargs ∧
      reservedNonzero r 0x52000A00 = false ∧ r.sel.legal (field 0x52000A00 15 8) = true) :=
  ⟨by decide, ⟨_, rfl, by decide⟩, ⟨_, rfl, by decide, rfl, by decide⟩, ⟨_, rfl, by decide, by decide, by decide⟩,
    ⟨_, rfl, by decide, by decide, by decide⟩⟩
theorem witness_StepRunsDecoded : (fed [0x13100000, 0x3F000000, 0x00000000]).faulted = false ∧
    decode (fed [0x13100000, 0x3F000000, 0x00000000]).cmd = .ok (.dlSetfb 0x3F000000) [0x00000000] := ⟨rfl, by decide⟩
/-- One header for each of the four causes a header can have. -/
theorem witness_MalformedHeaderFaults : (fed [0x20000000]).faulted = false ∧
    decode (fed [0x20000000]).cmd = .bad .illegalCommand ∧ decode (fed [0x12000000]).cmd = .bad .badNarg ∧
    decode (fed [0x10100001]).cmd = .bad .reservedNonzero ∧ decode (fed [0x42000200]).cmd = .bad .badSel :=
  ⟨rfl, by decide, by decide, by decide, by decide⟩
/-- A frame with only the delay line and the pitch shifter configured (V-F21). -/
theorem witness_UnconfiguredCommandsFault : (Instr.rtFrame f0 f0).wellFormed = true ∧
    ({ ready with tp := Tp.reset } : State).faulted = false ∧
    ({ ready with tp := Tp.reset } : State).ready (.rtFrame f0 f0) = false := ⟨rfl, rfl, rfl⟩
theorem witness_ConfiguredCommandsExecute : (Instr.bqProc 3 .ch1 f1).wellFormed = true ∧
    ready.ready (.bqProc 3 .ch1 f1) = true := ⟨by decide, rfl⟩
theorem witness_TruncatedCommandWaits : (fed [0x15200001, 0x3F000000]).faulted = false ∧
    encode (.dlProcXfb .ch1 0x3F000000 0x3E800000) = (fed [0x15200001, 0x3F000000]).cmd ++ [0x3E800000] :=
  ⟨rfl, by decide⟩
theorem witness_HaltedBlockIgnoresWords : (halted [0x10100000, 0x447A0000]).faulted = true ∧
    (0x10100000 : Word) ≠ 0x01000000 ∧ (halted [0x01000000]).faulted = true := by decide
theorem witness_OnlyPowerOnRecovers : (halted [0x10100000]).faulted = true ∧ ∃ t, step (halted [0x10100000]) = .next t :=
  ⟨by decide, _, rfl⟩
/-- A raise and an executed command. -/
theorem witness_FaultsArePrecise : (∃ t, step (fed [0x20000000]) = .next t) ∧ (∃ t, step (fed [0x00000000]) = .next t) ∧
    (fed [0x20000000]).statusOk = true := ⟨⟨_, rfl⟩, ⟨_, rfl⟩, by decide⟩
theorem witness_StreamsInOrder : (∃ t, step (fed [0x01000000, 0x00000000]) = .next t ∧ t.cix = 1) ∧
    ∃ t, step (halted [0x00000000]) = .next t ∧ t.cix = 0 := ⟨⟨_, rfl, rfl⟩, ⟨_, rfl, rfl⟩⟩
/-- Frames on a block whose cursors stand at the ends of their rings. -/
def atEnds : State :=
  { readyFed [0x65200000, 0x3F000000, 0xBE800000] with
    dl := { line9 with ch := PerCh.both ⟨[(8, f1)], 8, f0⟩ }
    ps := { ready.ps with ch := PerCh.both { PsChan.zero f1 with iw := 2047, ow := 2047, hopCnt := 510 } }
    tp := { tape with mode := true, ch := PerCh.both { TpChan.zero f1 with w := 2401 } }
    rt := { Rt.reset with pollCnt := 63 } }
theorem witness_MemoriesStayCanonical : atEnds.memoriesOk = true ∧ atEnds.cursorsOk = true ∧
    ∃ t, step atEnds = .next t := ⟨by decide, by decide, _, rfl⟩
theorem witness_CursorsStayInRange : atEnds.cursorsOk = true ∧ atEnds.capacitiesOk = true ∧
    ∃ t, step atEnds = .next t := ⟨by decide, by decide, _, rfl⟩
theorem witness_ParametersStayLegal : atEnds.paramsOk = true ∧ atEnds.ps.ratioOk ∧ atEnds.ratesOk = true ∧
    atEnds.filterFreqsOk = true ∧ ∃ t, step atEnds = .next t := by
  refine ⟨by decide, ?_, by decide, by decide, _, rfl⟩
  have h : fdiv noDraw f0 f1200 = f0 := by decide
  show f1 = Config.num.exp2 (fdiv noDraw f0 f1200)
  rw [h, Config.num.exp2_zero f0 (by decide)]
theorem witness_DynamicsStayInRange : atEnds.dynamicOk = true ∧ ∃ t, step atEnds = .next t :=
  ⟨by decide, _, rfl⟩
theorem witness_ScaleStaysWellFormed : (readyFed [0x52000400]).tq.scaleOk = true ∧
    ∃ t, step (readyFed [0x52000400]) = .next t := ⟨by decide, _, rfl⟩
/-- A configured line at its longest delay: 3 samples in 4 cells, computed from 2000 ms. -/
def longest : State := { readyFed [0x12100000, 0x3F800000] with dl := { line9 with delayMs := 0x44FA0000, N := 4, dInt := 3 } }
theorem witness_ReadOffsetStaysExact : longest.capacitiesOk = true ∧ longest.dlOffsetOk ∧
    ∃ t, step longest = .next t := by
  have h1 : ∀ d, fmul d 0x44FA0000 0x447A0000 = 0x49F42400 := fun d => by
    rw [show fmul d 0x44FA0000 0x447A0000 = fmul noDraw 0x44FA0000 0x447A0000 from rfl]; decide
  have h2 : ∀ d, fdiv d 0x49F42400 f1000 = 0x44FA0000 := fun d => by
    rw [show fdiv d 0x49F42400 f1000 = fdiv noDraw 0x49F42400 f1000 from rfl]; decide
  have h3 : ∀ d, splitDelay d 4 0x44FA0000 = (3, f0) := fun d => by
    rw [show splitDelay d 4 0x44FA0000 = splitDelay noDraw 4 0x44FA0000 from rfl]; decide
  have h4 : ∀ d, msToSamples d 0x44FA0000 0x447A0000 = 0x44FA0000 := fun d => by simp only [msToSamples, h1, h2]
  have e1 : longest.dl.N = 4 := rfl
  have e2 : longest.dl.delayMs = 0x44FA0000 := rfl
  have e3 : longest.dl.sr = 0x447A0000 := rfl
  refine ⟨by decide, fun _ => ⟨by decide, fun d => ⟨?_, ?_⟩⟩, _, rfl⟩
  · simp only [dlOffset, e1, e2, e3, h4, h3]
    rfl
  · simp only [e1, e2, e3, h4]
    decide
/-- TQ and DL commands: between them they meet the premise of every clause. -/
theorem witness_UnitsOwnTheirState : (∃ t, exec .tqSclclr ready = .next t) ∧ instrUnit .tqSclclr = 5 ∧
    (∃ t, exec .dlRst ready = .next t) ∧ instrUnit .dlRst = 1 := ⟨⟨_, rfl⟩, rfl, ⟨_, rfl⟩, rfl⟩
theorem witness_DelayAndPitchReadOnlyThemselves :
    (∃ t, exec (.dlProc .ch0 f1) ready = .next t) ∧ instrUnit (.dlProc .ch0 f1) = 1 ∧
    (∃ t, exec (.psProc .ch0 f1) ready = .next t) ∧ instrUnit (.psProc .ch0 f1) = 3 ∧
    taped.draws = ready.draws ∧ taped.rsp = ready.rsp ∧ taped.dl = ready.dl ∧ taped.ps = ready.ps :=
  ⟨⟨_, rfl⟩, rfl, ⟨_, rfl⟩, rfl, rfl, rfl, rfl, rfl⟩
theorem witness_OnlyConfigureResizes :
    (∃ t, exec (.dlCfg 0x447A0000) State.reset = .next t ∧ t.dl.N ≠ State.reset.dl.N) ∧
    (∃ t, exec (.tpCfg 0x447A0000) State.reset = .next t ∧ t.tp.TN ≠ State.reset.tp.TN) ∧
    (∃ t, exec (.tqSettuning 4) State.reset = .next t ∧ t.tq.len ≠ State.reset.tq.len) :=
  ⟨⟨_, rfl, by decide⟩, ⟨_, rfl, by decide⟩, ⟨_, rfl, by decide⟩⟩
theorem witness_ParametersKept : keepsParams (.rtFrame f1 f1) = true ∧ ∃ t, exec (.rtFrame f1 f1) ready = .next t :=
  ⟨rfl, _, rfl⟩
/-- The 64th frame, with `TQ.auth` unlike the authority's answer. -/
def pollDue : State :=
  { ready with rt := { Rt.reset with pollCnt := 63 }, tq := { Tq.reset with auth := !Config.authConnected 0 [2] } }
theorem witness_AuthorityPolledByFramesOnly :
    ∃ t, exec (.rtFrame f0 f0) pollDue = .next t ∧ t.tq.auth ≠ pollDue.tq.auth := by
  refine ⟨_, rfl, ?_⟩
  have h : ∀ b : Bool, b ≠ !b := by decide
  exact h (Config.authConnected 0 [2])
theorem witness_ChannelsOwnTheirState : instrChan (.dlProc .ch1 f1) = some .ch1 ∧
    ∃ t, exec (.dlProc .ch1 f1) ready = .next t := ⟨rfl, _, rfl⟩
theorem witness_QuantEnableNeverRead : ∃ t, exec (.rtSetpitch 1 f0) ready = .next t := ⟨_, rfl⟩
/-- Power-on with other values in the registers and cells R381 leaves unspecified. -/
def otherPowerOn : State :=
  { fed [0x10100000, 0x447A0000] with
    dl := { Dl.reset with sr := f2, N := 7, dInt := 3, dFrac := fHalf, ch := PerCh.both ⟨[(2, f1)], 5, f0⟩ }
    tq := { Tq.reset with sclbuf := [(0, 0x21)] } }
theorem witness_UnspecifiedStateIsUnobservable : SameSpecified (fed [0x10100000, 0x447A0000]) otherPowerOn ∧
    (fed [0x10100000, 0x447A0000]).memoriesOk = true ∧ otherPowerOn.memoriesOk = true ∧
    ∃ t, step (fed [0x10100000, 0x447A0000]) = .next t := by
  refine ⟨⟨rfl, rfl, rfl, rfl, rfl, rfl, rfl, fun i h => absurd h (Nat.not_lt_zero i), rfl, ⟨rfl, rfl, rfl, rfl⟩,
    fun c => by cases c <;> rfl, fun h => Bool.noConfusion h, ⟨rfl, rfl, rfl, rfl, rfl, rfl, rfl⟩, fun _ => rfl,
    ⟨rfl, rfl⟩, fun _ => rfl, fun _ => ⟨rfl, rfl, rfl, rfl⟩, fun _ => rfl⟩, by decide, by decide, _, rfl⟩
/-- V-DL17 (b): 500 Hz clamps to the stored 1000 Hz. -/
theorem witness_ConfigureIsIdempotent : clampRate 0x447A0000 = clampRate 0x43FA0000 ∧
    (∃ t, exec (.dlCfg 0x447A0000) State.reset = .next t) ∧ (∃ t, exec (.psCfg 0x447A0000) State.reset = .next t) ∧
    (∃ t, exec (.tpCfg 0x447A0000) State.reset = .next t) ∧ ∃ t, exec (.rtCfg 0x447A0000) State.reset = .next t :=
  ⟨by decide, ⟨_, rfl⟩, ⟨_, rfl⟩, ⟨_, rfl⟩, ⟨_, rfl⟩⟩
theorem witness_SysCommands : (halted [0x01000000, 0x00000000]).cmd = 0x01000000 :: [0x00000000] := rfl
theorem witness_DelayConfigureAndReset :
    (ready.dl.cfg = true ∧ feq ready.dl.sr (fclamp 0x447A0000 Config.srMin Config.srMax) = true) ∧
    (ready.dl.cfg = true ∧ feq ready.dl.sr (fclamp 0x45000000 Config.srMin Config.srMax) = false) ∧
    State.reset.dl.cfg = false := by decide
/-- The smallest and the largest ring. -/
theorem witness_DelaySetters : State.reset.dl.cfg = false ∧
    (∀ N, N = 2 ∨ N = 1536001 → ({ ready with dl := { line9 with N := N } } : State).dl.cfg = true ∧ 2 ≤ N ∧
      N ≤ Config.dlRamDepth) := by
  refine ⟨rfl, fun N h => ⟨rfl, ?_⟩⟩
  rw [Config.dlRamDepth]
  omega
theorem witness_DelayProcessAndReads : ready.dl.cfg = true := rfl
theorem witness_DelayProcessStoresOneCell : atEnds.dl.cfg = true ∧ (atEnds.dl.ch.get .ch1).buf.wf = true ∧
    ∃ t, exec (.dlProcXfb .ch1 f1 f1) atEnds = .next t := ⟨rfl, by decide, _, rfl⟩
/-- The smallest ring, the ring of V-DL18 and the largest delay line's, each at its first and its last cursor; the witness
is a pair `(N, w)`. -/
theorem witness_RingHoldsItsHistory : ∀ p ∈ [(2, 0), (2, 1), (9, 0), (9, 8), (1536001, 0), (1536001, 1536000)],
    2 ≤ p.1 ∧ p.2 < p.1 := by decide
/-- Eight samples of delay in nine cells, the longest there, after two inputs. -/
def delay8 : State := { ready with dl := { line9 with dInt := 8 } }
theorem witness_IntegerDelayIsExact : delay8.dl.cfg = true ∧ delay8.dl.fb = f0 ∧ delay8.dl.mix = f1 ∧
    delay8.dl.dFrac = f0 ∧ delay8.dl.dInt = 8 ∧ 8 + 1 ≤ delay8.dl.N ∧ (delay8.dl.ch.get .ch0).buf = [] ∧
    (delay8.dl.ch.get .ch0).w < delay8.dl.N ∧ (∀ v ∈ [f1, f2, f3], isFinite v = true) ∧
    ∃ t, delay8.runAll ([f2, f3].map fun v => .dlProc .ch0 v) = some t := by
  have hs : ∀ (s : State) (v : F32), s.dl.cfg = true → ∃ t, exec (.dlProc .ch0 v) s = .next t ∧ t.dl.cfg = true :=
    fun s v h => ⟨(s.dlRun .ch0 v f0).retire, by simp only [exec, execDlProc, State.whenConfigured, h, if_true], h⟩
  obtain ⟨t1, e1, c1⟩ := hs delay8 f2 rfl
  obtain ⟨t2, e2, _⟩ := hs t1 f3 c1
  refine ⟨rfl, rfl, rfl, rfl, rfl, by decide, rfl, by decide, ?_, t2, ?_⟩
  · simp only [List.mem_cons, List.not_mem_nil, or_false]
    rintro v (rfl | rfl | rfl) <;> decide
  · simp only [List.map_cons, List.map_nil, State.runAll, e1, e2]
theorem witness_FilterCoefficients : flat.kind = .peaking ∧ ({ flat with kind := .lowpass } : BqParams).kind = .lowpass ∧
    ({ flat with kind := .highShelf } : BqParams).kind = .highShelf := ⟨rfl, rfl, rfl⟩
theorem witness_FilterSetters : ready.tp.cfg = true := rfl
theorem witness_FilterResetAndProcess : ready.tp.cfg = true := rfl
/-- A peaking filter of 0 dB whose angle has cosine 0.5 and sine 1.0, whatever `NUM` is. -/
theorem witness_ZeroDecibelPeakIsIdentity (d0 d1 d2 : Draw) :
    let r := bqRaw d0 flat.kind fHalf f1 flat.g flat.q
    let n := bqNormalise d1 flat r
    flat.kind = .peaking ∧ flat.g = f0 ∧ isFinite r.b1 = true ∧ isFinite r.b2 = true ∧ isFinite r.a0 = true ∧
      isZero r.a0 = false ∧ isFinite f1 = true ∧ isFinite (fmul d2 n.b1 f1) = true ∧ isFinite (fmul d2 n.b2 f1) = true ∧
      isZero f0 = true := by
  have hA : ∀ d, bqAmplitude d flat.g = f1 := fun d => by
    rw [bqAmplitude, show fdiv d flat.g f40 = fdiv noDraw f0 f40 from rfl, show fdiv noDraw f0 f40 = f0 by decide]
    exact Config.num.pow10_zero f0 (by decide)
  have hr : bqRaw d0 flat.kind fHalf f1 flat.g flat.q = bqPeaking (d0.at 2) fHalf fHalf f1 := by
    have hal : fdiv (d0.at 0) f1 (fmul (d0.at 1) f2 flat.q) = fHalf := by
      rw [show fmul (d0.at 1) f2 flat.q = fmul noDraw f2 f1 from rfl, show fmul noDraw f2 f1 = f2 by decide,
        show fdiv (d0.at 0) f1 f2 = fdiv noDraw f1 f2 from rfl]; decide
    simp only [bqRaw, hA, hal]; rfl
  have hp : ∀ d, bqPeaking d fHalf fHalf f1 = ⟨0x3FC00000, fm1, fHalf, 0x3FC00000, fm1, fHalf⟩ := fun d => by
    have m1 : ∀ d, fmul d fHalf f1 = fHalf := fun d => fmul_one_finite d fHalf (by decide)
    have m2 : ∀ d, fmul d fm2 fHalf = fm1 := fun d => by
      rw [show fmul d fm2 fHalf = fmul noDraw fm2 fHalf from rfl]; decide
    have m3 : ∀ d, fdiv d fHalf f1 = fHalf := fun d => by
      rw [show fdiv d fHalf f1 = fdiv noDraw fHalf f1 from rfl]; decide
    have m4 : ∀ d, fadd d f1 fHalf = 0x3FC00000 := fun d => by
      rw [show fadd d f1 fHalf = fadd noDraw f1 fHalf from rfl]; decide
    have m5 : ∀ d, fsub d f1 fHalf = fHalf := fun d => by
      rw [show fsub d f1 fHalf = fsub noDraw f1 fHalf from rfl]; decide
    simp only [bqPeaking, m1, m2, m3, m4, m5]
  simp only [hr, hp]
  have hb1 : ∀ d, fdiv d fm1 0x3FC00000 = 0xBF2AAAAB := fun d => by
    rw [show fdiv d fm1 0x3FC00000 = fdiv noDraw fm1 0x3FC00000 from rfl]; decide
  have hb2 : ∀ d, fdiv d fHalf 0x3FC00000 = 0x3EAAAAAB := fun d => by
    rw [show fdiv d fHalf 0x3FC00000 = fdiv noDraw fHalf 0x3FC00000 from rfl]; decide
  simp only [bqNormalise, hb1, hb2]
  rw [fmul_one_finite d2 0xBF2AAAAB (by decide), fmul_one_finite d2 0x3EAAAAAB (by decide)]
  decide
theorem witness_PitchControls :
    (ready.ps.cfg = true ∧ feq ready.ps.sr (fclamp 0x447A0000 Config.srMin Config.srMax) = true) ∧
    feq ready.ps.sr (fclamp 0x473B8000 Config.srMin Config.srMax) = false ∧ State.reset.ps.cfg = false := by decide
/-- The sample that runs a frame, with the output cursor at its last cell. -/
def frameDue : State :=
  { ready with ps := { ready.ps with ch := PerCh.both { PsChan.zero f1 with iw := 2047, ow := 2047, hopCnt := 511 } } }
/-- The same with a NaN in the input ring. -/
def poisonedDue : State :=
  { ready with ps := { ready.ps with
    ch := PerCh.both { PsChan.zero f1 with inp := [(5, 0x7FC00000)], iw := 2047, ow := 2047, hopCnt := 511 } } }
/-- The last sample before a frame, the one that runs it, and one that runs it over a NaN sample. -/
theorem witness_PitchProcess :
    (atEnds.ps.cfg = true ∧ atEnds.memoriesOk = true ∧ atEnds.ps.driftDepth = f0 ∧ isFinite atEnds.ps.ratio = true ∧
      isPhase (atEnds.ps.ch.get .ch0).driftPhase = true ∧ (atEnds.ps.ch.get .ch0).hopCnt + 1 ≠ 512) ∧
    (frameDue.ps.cfg = true ∧ frameDue.memoriesOk = true ∧ (frameDue.ps.ch.get .ch1).hopCnt + 1 = 512 ∧
      (frameDue.ps.ch.get .ch1).ow < 2048) ∧
    (poisonedDue.ps.cfg = true ∧ poisonedDue.memoriesOk = true ∧ (poisonedDue.ps.ch.get .ch1).hopCnt + 1 = 512 ∧
      (poisonedDue.ps.ch.get .ch1).ow < 2048 ∧ isFinite ((poisonedDue.ps.ch.get .ch1).inp.read 5) = false) := by decide
theorem witness_TapeConfigureAndReset :
    (ready.tp.cfg = true ∧ feq ready.tp.sr (fclamp 0x447A0000 Config.srMin Config.srMax) = true) ∧
    feq ready.tp.sr (fclamp 0x473B8000 Config.srMin Config.srMax) = false ∧ State.reset.tp.cfg = false := by decide
theorem witness_TapeSetters : (3 : Fin 4) ≤ 3 ∧ (2 : Fin 4) < 3 := by decide
theorem witness_TapeOffPassesThrough : ready.tp.cfg = true ∧ ready.tp.mode = false := ⟨rfl, rfl⟩
theorem witness_TapeOutputIsBounded : taped.tp.cfg = true ∧ taped.tp.mode = true := ⟨rfl, rfl⟩
theorem witness_TapeProcessFrame : atEnds.tp.cfg = true ∧ atEnds.tp.mode = true ∧
    (atEnds.tp.ch.get .ch1).buf.wf = true ∧ ∃ t, exec (.tpProc .ch1 f1) atEnds = .next t := ⟨rfl, rfl, rfl, _, rfl⟩
theorem witness_ModulationScalar : tape.wowDepth = f0 ∧ tape.flutDepth = f0 ∧ (TpChan.zero f1).dynamicOk = true := by
  decide
theorem witness_ScaleCommands : 0 ≤ 10 ∧ 10 ≤ 10 ∧ 7 ≤ 10 ∧ 11 < 12 := by decide
/-- The last byte that fits, and the first that does not. -/
theorem witness_StagingStoresOneByte : Tq.reset.sclbuf.wf = true ∧
    ({ Tq.reset with sclLen := 65535 } : Tq).sclLen < 65536 ∧ 65536 ≤ ({ Tq.reset with sclLen := 65536 } : Tq).sclLen :=
  ⟨rfl, by decide, by decide⟩
/-- Without the authority and with it. -/
theorem witness_QuantizerAnswerIsFinite : (Tq.reset.scaleOk = true ∧ Tq.reset.auth = false) ∧
    (({ Tq.reset with auth := true } : Tq).scaleOk = true ∧ ({ Tq.reset with auth := true } : Tq).auth = true) := by
  decide
theorem witness_QuantizerIsIdempotentOn12Edo : Tq.reset.len = 13 ∧ Tq.reset.scale = scale12 ∧ Tq.reset.auth = false := by
  decide
/-- Both ends of the range of `n`. -/
theorem witness_QuantizerOctaveSymmetryOn12Edo : Tq.reset.len = 13 ∧ Tq.reset.scale = scale12 ∧ Tq.reset.auth = false ∧
    (-153600 : Int) ≤ -153600 ∧ (152400 : Int) ≤ 152400 := by decide
/-- A text that loads, the empty text, and a full buffer. -/
theorem witness_ScaleLoadIsAtomic : (staged "desc\n0\n").sclLen < 65536 ∧
    parseScl ((List.range (staged "desc\n0\n").sclLen).map (staged "desc\n0\n").sclbuf.read) =
      some (asciiBytes "desc", []) ∧
    parseScl ((List.range Tq.reset.sclLen).map Tq.reset.sclbuf.read) = none ∧
    65536 ≤ ({ Tq.reset with sclLen := 65536 } : Tq).sclLen := by decide
/-- A decimal of 32 bytes, the longest that is read. -/
def longestDecimal : List Byte := asciiBytes "-100.000000000000000000000000000"
/-- Texts for each clause, the two smallest counts of a ratio token, and decimals with and without sign and fraction. -/
theorem witness_ScaleFileShape :
    contentLines (asciiBytes "! only a comment\n") = [] ∧ contentLines (asciiBytes "desc\n") = [asciiBytes "desc"] ∧
    (contentLines (asciiBytes "desc\ntwelve\n") = asciiBytes "desc" :: asciiBytes "twelve" :: [] ∧
      parseCount (firstToken (asciiBytes "twelve")) = none) ∧
    (contentLines (asciiBytes "desc\n1\n") = asciiBytes "desc" :: asciiBytes "1" :: [] ∧
      parseCount (firstToken (asciiBytes "1")) = some 1 ∧ ([] : List (List Byte)).length < 1) ∧
    parseScl (asciiBytes "d\n1\n100.0\n") = some ([0x64], [0x42C80000]) ∧
    (0x2F ∉ asciiBytes "1" ∧ parseCount (asciiBytes "1") = some 1 ∧ parseCount (asciiBytes "0") = some 0) ∧
    (longestDecimal.length = 32 ∧ 0x2F ∉ longestDecimal ∧ (asciiBytes "100" ++ List.replicate 27 0x30).all isDigit = true ∧
      longestDecimal = [0x2D] ++ asciiBytes "100" ++ 0x2E :: List.replicate 27 0x30) ∧
    (0x2F ∉ asciiBytes "+7" ∧ asciiBytes "+7" = [0x2B] ++ [0x37]) := by decide
/-- R311, R313: carriage returns, comments, a last line without 0x0A, the first token, the blanks around a description, and
counts of no, nine and ten digits, with a sign, and with a digit's neighbours 0x2F and 0x3A. -/
theorem test_lexical_layer :
    contentLines (asciiBytes "!c\r\n \t\r\n\n d !\r\r\n2") = [asciiBytes " d !\r", asciiBytes "2"] ∧
    firstToken (asciiBytes " \t3/2 cents") = asciiBytes "3/2" ∧ firstToken (asciiBytes " \t") = [] ∧
    trimBlank (asciiBytes "\t a b ") = asciiBytes "a b" ∧
    (["", "007", "999999999", "0000000001", "+1", "1/", "1:"].map fun t => parseCount (asciiBytes t)) =
      [none, some 7, some 999999999, none, none, none, none] := by decide
theorem witness_RouterFrame : (atEnds.dl.cfg = true ∧ atEnds.ps.cfg = true ∧ atEnds.tp.cfg = true ∧
      atEnds.rt.pollCnt + 1 = 64) ∧
    (ready.dl.cfg = true ∧ ready.ps.cfg = true ∧ ready.tp.cfg = true ∧ ready.tp.mode = false ∧
      ready.rt.pollCnt + 1 ≠ 64) := by decide

end Sys2Proof.Tests
end

section
/-! PROOFS. What a command can do to the state, said once: the change each unit can undergo, and that every command ends in a
raise or retires after changes of the units. Every invariant of 10_state.md is derived from this. -/

namespace Sys2Proof.Machine

/-- What one operation can do to the delay line (41_delayline.md R125 to R130). -/
inductive DlChange (dl : Dl) : Dl → Prop
  | reallocate (d : Draw) (v : F32) : DlChange dl (dlReallocate d dl (clampRate v))
  | reset : DlChange dl (dlReset dl)
  | setDelay (d : Draw) (ms : F32) : DlChange dl (dlSetDelay d dl ms)
  | setFb (v : F32) : DlChange dl { dl with fb := fclamp v f0 f1p1 }
  | setMix (v : F32) : DlChange dl { dl with mix := fclamp v f0 f1 }
  | process (d : Draw) (c : Chan) (x xfb : F32) :
    DlChange dl { dl with ch := dl.ch.set c (dlProcess d dl (dl.ch.get c) x xfb).1 }

/-- What one operation can do to the pitch shifter (43_pitchshifter.md R172 to R180). -/
inductive PsChange (ps : Ps) : Ps → Prop
  | reallocate (v : F32) :
    PsChange ps { ps with cfg := true, sr := clampRate v, ch := PerCh.both (PsChan.zero ps.ratio) }
  | reset : PsChange ps { ps with ch := PerCh.both (PsChan.zero ps.ratio) }
  | setPitch (d : Draw) (cents : F32) : PsChange ps (psSetPitch d ps cents)
  | setDrift (rate depth : F32) :
    PsChange ps
      { ps with driftRate := fclamp rate f0 Config.driftRateMax, driftDepth := fclamp depth f0 Config.driftDepthMax }
  | process (d : Draw) (c : Chan) (x : F32) :
    PsChange ps { ps with ch := ps.ch.set c (psProcess d ps (ps.ch.get c) x).1 }

/-- What one operation other than a configure can do to the tape registers (44_tape_heads_modulation.md R214 to R223,
45_tape_process.md R251). -/
inductive TpChange (tp : Tp) : Tp → Prop
  | reset : TpChange tp { tp with ch := PerCh.both (TpChan.zero f1) }
  | setMode (on : Bool) : TpChange tp { tp with mode := on }
  | setWf (wowRate wowDepth flutRate flutDepth : F32) (wow flut : Waveform) :
    TpChange tp
      { tp with
        wowRate := fclamp wowRate f0p1 f5, wowDepth := fclamp wowDepth f0 Config.wfDepthMax
        flutRate := fclamp flutRate f1 f15, flutDepth := fclamp flutDepth f0 Config.wfDepthMax
        wowWave := wow, flutWave := flut }
  | setSat (drive amount : F32) :
    TpChange tp { tp with drive := fclamp drive f0 Config.satDriveMax, satAmt := fclamp amount f0 f1 }
  | setAge (v : F32) : TpChange tp { tp with aging := fclamp v f0 f1 }
  | setInst (v : F32) : TpChange tp { tp with instab := fclamp v f0 f1 }
  | setHeads (k : Fin 4) : TpChange tp { tp with headCfg := k, headDelay := headDelays k }
  | setNoise (on : Bool) (v : F32) : TpChange tp { tp with noiseEn := on, noiseAmt := fclamp v f0 f1 }
  | process (d : Draw) (bq : Four BqParams) (c : Chan) (hist : Four BqHist) (x : F32) :
    TpChange tp { tp with ch := tp.ch.set c (tpProcess d tp bq c ⟨tp.ch.get c, hist⟩ x).1.ch }

/-- What a setter can do to one filter at the sample rate `sr` (42_biquad.md R154 to R156). -/
inductive BqChange (sr : F32) (p : BqParams) : BqParams → Prop
  | setLp (d : Draw) (freq q : F32) : BqChange sr p (bqSetLp d p freq q sr)
  | setGain (d : Draw) (kind : FilterKind) (freq gainDb q : F32) : BqChange sr p (bqSetGain d kind p freq gainDb q sr)

/-- What one operation can do to the quantizer (46_quantizer.md R300 to R310, 47_router.md R341). -/
inductive TqChange (tq : Tq) : Tq → Prop
  | install (id : Nat) (h : id ≤ 10) : TqChange tq (tqInstallTuning tq id)
  | clear : TqChange tq { tq with sclLen := 0 }
  | stage (b : Byte) : TqChange tq (tqStage tq b)
  | load : TqChange tq (tqLoad tq).1
  | latch (b : Bool) : TqChange tq { tq with auth := b }

/-- What one operation can do to the router's own registers (47_router.md R332 to R335, R340, R341). -/
inductive RtChange (dl : Dl) (rt : Rt) : Rt → Prop
  | clear : RtChange dl rt (rtClear rt)
  | setXfb (v : F32) : RtChange dl rt { rt with xfbAmt := fclamp v f0 f1 }
  | setQuant (b : Bool) : RtChange dl rt { rt with quantEn := b }
  | finish :
    RtChange dl rt
      { rt with
        prevDelayed := rtHistory dl
        pollCnt := if decide (rt.pollCnt + 1 = Config.authPollPeriod) then 0 else rt.pollCnt + 1 }

/-- One change of the units: every unit but those named keeps its state, and the streams and counters are kept. -/
inductive Change (s : State) : State → Prop
  | dl {dl' : Dl} (h : DlChange s.dl dl') : Change s { s with dl := dl' }
  | ps {ps' : Ps} (h : PsChange s.ps ps') : Change s { s with ps := ps' }
  | tp {tp' : Tp} (h : TpChange s.tp tp') : Change s { s with tp := tp' }
  | tpReallocate (d : Draw) (v : F32) : Change s (s.tpReallocate d (clampRate v))
  | bq (j : Fin 4) {p : BqParams} (h : BqChange s.tp.sr (s.bq.get j) p) : Change s (s.setBq j p)
  | bqh (h : PerCh (Four BqHist)) : Change s { s with bqh := h }
  | tq {tq' : Tq} (h : TqChange s.tq tq') : Change s { s with tq := tq' }
  | rt {rt' : Rt} (h : RtChange s.dl s.rt rt') : Change s { s with rt := rt' }

/-- Changes of the units one after the other. -/
abbrev Effects : State → State → Prop := Relation.ReflTransGen Change

/-! ### The effects of the shared operations -/

theorem Effects.dlConfigure (s : State) (d : Draw) (v : F32) : Effects s { s with dl := dlConfigure d s.dl v } := by
  unfold Machine.dlConfigure
  split
  · exact .refl
  · exact .single (.dl (.reallocate d v))

theorem Effects.psConfigure (s : State) (v : F32) : Effects s { s with ps := psConfigure s.ps v } := by
  unfold Machine.psConfigure
  split
  · exact .refl
  · exact .single (.ps (.reallocate v))

theorem Effects.tpConfigure (s : State) (d : Draw) (v : F32) : Effects s (s.tpConfigure d v) := by
  unfold State.tpConfigure
  split
  · exact .refl
  · exact .single (.tpReallocate d v)

theorem Effects.psReset (s : State) : Effects s { s with ps := psReset s.ps } := by
  unfold Machine.psReset
  split
  · exact .single (.ps .reset)
  · exact .refl

theorem Effects.tpReset (s : State) : Effects s s.tpReset := by
  unfold State.tpReset
  split
  · exact .tail (.single (.tp .reset)) (.bqh zeroHists)
  · exact .single (.bqh zeroHists)

theorem Effects.tpThrough (s : State) (d : Draw) (c : Chan) (x : F32) : Effects s (s.tpThrough d c x).1 := by
  unfold State.tpThrough
  split
  · exact .tail (.single (.tp (.process d s.bq c (s.bqh.get c) x))) (.bqh _)
  · exact .refl

theorem Effects.rtConfigure (s : State) (d : Draw) (v : F32) : Effects s (s.rtConfigure d v) := by
  have units : Effects s (s.rtConfigureUnits d v) :=
    ((Effects.dlConfigure s (d.at 0) v).trans (Effects.psConfigure _ v)).trans (Effects.tpConfigure _ (d.at 1) v)
  unfold State.rtConfigure
  split
  · exact units.tail (.rt .clear)
  · exact units

theorem Effects.rtReset (s : State) : Effects s s.rtReset := by
  have delay : Effects s { s with dl := dlReset s.dl } := .single (.dl .reset)
  exact ((delay.trans (Effects.psReset _)).tail (.rt .clear)).trans (Effects.tpReset _)

theorem Effects.rtChannel (s : State) (d : Draw) (c : Chan) (x : F32) : Effects s (s.rtChannel d c x).1 :=
  (Relation.ReflTransGen.tail (.single (.ps (.process _ c _))) (.dl (.process _ c _ _))).trans (Effects.tpThrough _ _ c _)

theorem Effects.rtFinish (s : State) (d : Draw) : Effects s (s.rtFinish d) :=
  .tail (.single (.rt .finish)) (.tq (.latch _))

/-! ### How a command ends -/

/-- A command raises a fault, or retires after changes of the units, with or without a response (30_encoding.md R88). -/
inductive Ends (s : State) : State → Prop
  | raised (c : Cause) : Ends s (s.raise c)
  | silent {b : State} (h : Effects s b) : Ends s b.retire
  | answered {b : State} (h : Effects s b) (ys : List Word) : Ends s (b.respond ys).retire

theorem Ends.whenConfigured {s body : State} (cfg : Bool) (h : Ends s body.retire) :
    Ends s (s.whenConfigured cfg body) := by
  cases cfg with
  | true => exact h
  | false => exact .raised .notConfigured

theorem Ends.withSel {α : Type} {s : State} (sel : Option α) {body : α → State} (h : ∀ v, sel = some v → Ends s (body v)) :
    Ends s (s.withSel sel body) := by
  cases sel with
  | some v => exact h v rfl
  | none => exact .raised .badSel

theorem le_ten_of_selTuning {id k : Nat} (h : selTuning id = some k) : k ≤ 10 := by
  unfold selTuning at h
  split at h
  · simpa [← Option.some.inj h]
  · cases h

/-- Every command ends in one of the ways of `Ends`. -/
theorem exec_ends (i : Instr) (s t : State) (h : exec i s = .next t) : Ends s t := by
  cases i <;> obtain rfl := Host.Outcome.next.inj h
  case sysNop => exact .silent .refl
  case sysStat => exact .answered .refl _
  case dlCfg v => exact .silent (.dlConfigure s s.draw v)
  case dlRst => exact .silent (.single (.dl .reset))
  case dlSetdelay ms => exact .silent (.single (.dl (.setDelay _ ms)))
  case dlSetfb v => exact .silent (.single (.dl (.setFb v)))
  case dlSetmix v => exact .silent (.single (.dl (.setMix v)))
  case dlProc c x => exact .whenConfigured _ (.answered (.single (.dl (.process _ c x _))) _)
  case dlProcXfb c x xfb => exact .whenConfigured _ (.answered (.single (.dl (.process _ c x xfb))) _)
  case dlGetd c => exact .whenConfigured _ (.answered .refl _)
  case dlGetw c => exact .whenConfigured _ (.answered .refl _)
  case bqRst j c => exact .withSel _ fun j _ => .silent (.single (.bqh _))
  case bqSetlp j f q => exact .withSel _ fun j _ => .whenConfigured _ (.silent (.single (.bq j (.setLp _ f q))))
  case bqSetpk j f g q => exact .withSel _ fun j _ => .whenConfigured _ (.silent (.single (.bq j (.setGain _ _ f g q))))
  case bqSeths j f g q => exact .withSel _ fun j _ => .whenConfigured _ (.silent (.single (.bq j (.setGain _ _ f g q))))
  case bqProc j c x => exact .withSel _ fun j _ => .whenConfigured _ (.answered (.single (.bqh _)) _)
  case psCfg v => exact .silent (.psConfigure s v)
  case psRst => exact .silent (.psReset s)
  case psSetpitch v => exact .silent (.single (.ps (.setPitch _ v)))
  case psSetdrift r v => exact .silent (.single (.ps (.setDrift r v)))
  case psProc c x => exact .whenConfigured _ (.answered (.single (.ps (.process _ c x))) _)
  case tpCfg v => exact .silent (.tpConfigure s s.draw v)
  case tpRst => exact .silent (.tpReset s)
  case tpSetmode e => exact .withSel _ fun on _ => .silent (.single (.tp (.setMode on)))
  case tpSetwf w f wr wd fr fd => exact .withSel _ fun w _ => .silent (.single (.tp (.setWf wr wd fr fd w.1 w.2)))
  case tpSetsat v a => exact .silent (.single (.tp (.setSat v a)))
  case tpProc c x => exact .whenConfigured _ (.answered (.tpThrough s s.draw c x) _)
  case tpSethb f g q => exact .whenConfigured _ (.silent (.single (.bq 1 (.setGain _ _ f g q))))
  case tpSetroll f q => exact .whenConfigured _ (.silent (.single (.bq 2 (.setLp _ f q))))
  case tpSetage v => exact .silent (.single (.tp (.setAge v)))
  case tpSetinst v => exact .silent (.single (.tp (.setInst v)))
  case tpSetheads k => exact .withSel _ fun k _ => .silent (.single (.tp (.setHeads k)))
  case tpSetnoise e v => exact .withSel _ fun on _ => .silent (.single (.tp (.setNoise on v)))
  case tqSetdef => exact .silent (.single (.tq (.install 0 (by decide))))
  case tqSettuning id => exact .withSel _ fun id h => .silent (.single (.tq (.install id (le_ten_of_selTuning h))))
  case tqSclclr => exact .silent (.single (.tq .clear))
  case tqSclb b => exact .silent (.single (.tq (.stage b)))
  case tqQuant v => exact .answered .refl _
  case tqLoad => exact .answered (.single (.tq .load)) _
  case tqGetdesc => exact .answered .refl _
  case rtCfg v => exact .silent (.rtConfigure s s.draw v)
  case rtRst => exact .silent (.rtReset s)
  case rtSetxfb v => exact .silent (.single (.rt (.setXfb v)))
  case rtSetpitch e v =>
    exact .withSel _ fun on _ => .silent (.tail (.single (.rt (.setQuant on))) (.ps (.setPitch _ _)))
  case rtFrame x0 x1 =>
    exact .whenConfigured _ (.answered (((Effects.rtChannel s _ .ch0 x0).trans (Effects.rtChannel _ _ .ch1 x1)).trans
      (Effects.rtFinish _ _)) _)

/-! ### Invariants of every step -/

/-- A predicate that does not look at the streams, the counters or `STATUS` (10_state.md R22 to R24). -/
def OfUnits (P : State → Prop) : Prop :=
  ∀ (s : State) (cix : Nat) (status : BitVec 32) (cmd rsp : List Word) (draws : Nat), P s →
    P { s with cix := cix, status := status, cmd := cmd, rsp := rsp, draws := draws }

theorem OfUnits.raise {P : State → Prop} (hP : OfUnits P) {s : State} (c : Cause) (hs : P s) : P (s.raise c) := by
  unfold State.raise
  split
  · exact hs
  · exact hP s s.cix _ s.cmd s.rsp s.draws hs

theorem Effects.keeps {P : State → Prop} (hc : ∀ s t, Change s t → P s → P t) {s t : State} (h : Effects s t) (hs : P s) :
    P t := by
  induction h with
  | refl => exact hs
  | tail _ hbc ih => exact hc _ _ hbc ih

theorem exec_keeps {P : State → Prop} (hP : OfUnits P) (hc : ∀ s t, Change s t → P s → P t) {i : Instr} {s t : State}
    (h : exec i s = .next t) (hs : P s) : P t := by
  cases exec_ends i s t h with
  | raised c => exact hP.raise c hs
  | @silent b he => exact hP b _ _ _ _ _ (he.keeps hc hs)
  | @answered b he ys => exact hP b _ _ _ (b.rsp ++ ys) _ (he.keeps hc hs)

/-- What every change of the units keeps, every step keeps. -/
theorem step_keeps {P : State → Prop} (hP : OfUnits P) (hc : ∀ s t, Change s t → P s → P t) {s t : State}
    (h : step s = .next t) (hs : P s) : P t := by
  obtain ⟨rest, _, rfl⟩ | ⟨_, w, rest, _, _, rfl⟩ | ⟨_, w, rest, c, _, _, _, rfl⟩ | ⟨_, i, rest, _, he⟩ := step_cases s t h
  · exact hP s _ _ _ _ _ hs
  · exact hP s _ _ rest _ _ hs
  · exact hP s _ _ rest _ _ hs
  · exact exec_keeps hP hc he (hP s _ _ rest _ _ hs)

end Sys2Proof.Machine
end

section
/-! PROOFS. The invariants of 10_state.md: one lemma per unit for the changes of `Change`, then the step. -/

namespace Sys2Proof.Machine

/-! ### Properties of all copies -/

theorem PerCh.all_get {α : Type} {f : α → Bool} {p : PerCh α} (h : p.all f = true) (c : Chan) : f (p.get c) = true := by
  obtain ⟨h0, h1⟩ := Bool.and_eq_true_iff.1 h
  cases c
  · exact h0
  · exact h1

theorem PerCh.all_set {α : Type} {f : α → Bool} {p : PerCh α} (h : p.all f = true) (c : Chan) {v : α} (hv : f v = true) :
    (p.set c v).all f = true := by
  obtain ⟨h0, h1⟩ := Bool.and_eq_true_iff.1 h
  cases c
  · exact Bool.and_eq_true_iff.2 ⟨hv, h1⟩
  · exact Bool.and_eq_true_iff.2 ⟨h0, hv⟩

theorem PerCh.all_both {α : Type} {f : α → Bool} {v : α} (hv : f v = true) : (PerCh.both v).all f = true :=
  Bool.and_eq_true_iff.2 ⟨hv, hv⟩

theorem Four.all_iff {α : Type} (f : α → Bool) (p : Four α) : p.all f = true ↔ ∀ j, f (p.get j) = true := by
  simp [Four.all, Fin.forall_fin_succ, Four.get, and_assoc]

theorem Four.all_set {α : Type} {f : α → Bool} {p : Four α} (h : p.all f = true) (j : Fin 4) {v : α} (hv : f v = true) :
    (p.set j v).all f = true := by
  rw [Four.all_iff] at h ⊢
  intro k
  by_cases hk : k = j
  · subst hk; simpa
  · rw [Four.get_set_other p j k v hk]; exact h k

/-! ### Cursors, counters and capacities (R26, R29, R31, R33, R63) -/

/-- A configured delay ring has a legal capacity and its cursors inside. -/
def Dl.ringOk (dl : Dl) : Prop :=
  dl.cfg = true →
    (2 ≤ dl.N ∧ dl.N ≤ Config.dlRamDepth) ∧ dl.ch.all (fun ch => decide (ch.w < dl.N)) = true

/-- A configured record ring has a legal capacity and its cursors inside. -/
def Tp.ringOk (tp : Tp) : Prop :=
  tp.cfg = true →
    (4 ≤ tp.TN ∧ tp.TN ≤ Config.tpRamDepth) ∧ tp.ch.all (fun ch => decide (ch.w < tp.TN)) = true

/-- The rings and counters of the four units that have some. -/
structure State.RingsOk (s : State) : Prop where
  dl : s.dl.ringOk
  ps : s.ps.ch.all PsChan.cursorsOk = true
  tp : s.tp.ringOk
  poll : s.rt.pollCnt < Config.authPollPeriod

theorem State.ringsOk_iff (s : State) : s.RingsOk ↔ s.cursorsOk = true ∧ s.capacitiesOk = true := by
  simp only [State.cursorsOk, State.capacitiesOk, Bool.and_eq_true, Bool.or_eq_true, Bool.not_eq_true', decide_eq_true_eq]
  constructor
  · rintro ⟨hd, hp, ht, hc⟩
    refine ⟨⟨⟨⟨?_, hp⟩, ?_⟩, hc⟩, ?_, ?_⟩
    · exact (Bool.eq_false_or_eq_true s.dl.cfg).symm.imp_right fun h => (hd h).2
    · exact (Bool.eq_false_or_eq_true s.tp.cfg).symm.imp_right fun h => (ht h).2
    · exact (Bool.eq_false_or_eq_true s.dl.cfg).symm.imp_right fun h => (hd h).1
    · exact (Bool.eq_false_or_eq_true s.tp.cfg).symm.imp_right fun h => (ht h).1
  · rintro ⟨⟨⟨⟨hd, hp⟩, ht⟩, hc⟩, hdN, htN⟩
    exact
      { dl := fun h => ⟨hdN.resolve_left (by simp [h]), hd.resolve_left (by simp [h])⟩
        ps := hp
        tp := fun h => ⟨htN.resolve_left (by simp [h]), ht.resolve_left (by simp [h])⟩
        poll := hc }

/-- R127: setting the delay writes the delay and the offset derived from it, nothing else. -/
theorem dlSetDelay_eq (d : Draw) (dl : Dl) (ms : F32) :
    ∃ n v, dlSetDelay d dl ms = { dl with delayMs := fclamp ms f1 Config.maxDelayMs, dInt := n, dFrac := v } := by
  unfold dlSetDelay
  simp only
  split
  · exact ⟨_, _, rfl⟩
  · exact ⟨dl.dInt, dl.dFrac, rfl⟩

theorem DlChange.keeps_ringOk {dl dl' : Dl} (h : DlChange dl dl') (hr : dl.ringOk) : dl'.ringOk := by
  cases h with
  | reallocate d v =>
    intro _
    have hN := dlCapacity_range (d.at 1) v
    exact ⟨hN, PerCh.all_both (decide_eq_true (Nat.lt_of_lt_of_le (by decide) hN.1))⟩
  | reset =>
    intro hcfg
    obtain ⟨hN, _⟩ := hr hcfg
    have hch : (dlReset dl).ch = PerCh.both dlZeroChan := by
      simp only [dlReset, dlResetChan, show dl.cfg = true from hcfg, if_true]; rfl
    rw [hch]
    exact ⟨hN, PerCh.all_both (decide_eq_true (Nat.lt_of_lt_of_le (by decide) hN.1))⟩
  | setDelay d ms =>
    obtain ⟨n, v, he⟩ := dlSetDelay_eq d dl ms
    rw [he]
    exact hr
  | setFb v => exact hr
  | setMix v => exact hr
  | process d c x xfb =>
    intro hcfg
    obtain ⟨hN, hw⟩ := hr hcfg
    exact ⟨hN, PerCh.all_set hw c (decide_eq_true (ringAdvance_lt _ _ (Nat.lt_of_lt_of_le (by decide) hN.1)))⟩

/-- R180: a sample advances both cursors of its channel inside the frame and its hop count inside the hop. -/
theorem psProcess_cursorsOk (d : Draw) (ps : Ps) (ch : PsChan) (x : F32) (h : ch.cursorsOk = true) :
    (psProcess d ps ch x).1.cursorsOk = true := by
  obtain ⟨_, hi, ho, hh, _⟩ := psProcess_chan d ps ch x
  simp only [PsChan.cursorsOk, Bool.and_eq_true, decide_eq_true_eq] at h ⊢
  rw [hi, ho, hh]
  refine ⟨⟨Nat.mod_lt _ (by decide), Nat.mod_lt _ (by decide)⟩, ?_⟩
  split
  · decide
  · omega

theorem PsChange.keeps_cursorsOk {ps ps' : Ps} (h : PsChange ps ps') (hr : ps.ch.all PsChan.cursorsOk = true) :
    ps'.ch.all PsChan.cursorsOk = true := by
  have zero (r : F32) : (PsChan.zero r).cursorsOk = true := by
    simp [PsChan.cursorsOk, PsChan.zero, Config.fftSize, Config.hop]
  cases h with
  | reallocate v => exact PerCh.all_both (zero _)
  | reset => exact PerCh.all_both (zero _)
  | setPitch d cents => exact hr
  | setDrift rate depth => exact hr
  | process d c x => exact PerCh.all_set hr c (psProcess_cursorsOk d ps _ x (PerCh.all_get hr c))

/-- R257, R260 to R266: the tape path advances the record cursor once. -/
theorem tpProcess_w (d : Draw) (tp : Tp) (bq : Four BqParams) (c : Chan) (p : TpPath) (x : F32) :
    (tpProcess d tp bq c p x).1.ch.w = ringAdvance tp.TN p.ch.w := by
  simp only [tpProcess, tpBack, tpDecorrelate, tpNoise]
  split <;> rfl

theorem TpChange.keeps_ringOk {tp tp' : Tp} (h : TpChange tp tp') (hr : tp.ringOk) : tp'.ringOk := by
  cases h with
  | reset =>
    intro hcfg
    obtain ⟨hN, _⟩ := hr hcfg
    exact ⟨hN, PerCh.all_both (decide_eq_true (Nat.lt_of_lt_of_le (by decide) hN.1))⟩
  | process d bq c hist x =>
    intro hcfg
    obtain ⟨hN, hw⟩ := hr hcfg
    refine ⟨hN, PerCh.all_set hw c (decide_eq_true ?_)⟩
    rw [tpProcess_w]
    exact ringAdvance_lt _ _ (Nat.lt_of_lt_of_le (by decide) hN.1)
  | setMode on => exact hr
  | setWf wr wd fr fd w f => exact hr
  | setSat v a => exact hr
  | setAge v => exact hr
  | setInst v => exact hr
  | setHeads k => exact hr
  | setNoise on v => exact hr

theorem tpReallocate_ringOk (s : State) (d : Draw) (v : F32) : (s.tpReallocate d (clampRate v)).tp.ringOk := by
  intro _
  have hN := tpCapacity_range (d.at 0) v
  exact ⟨hN, PerCh.all_both (decide_eq_true (Nat.lt_of_lt_of_le (by decide) hN.1))⟩

theorem RtChange.keeps_poll {dl : Dl} {rt rt' : Rt} (h : RtChange dl rt rt') (hr : rt.pollCnt < Config.authPollPeriod) :
    rt'.pollCnt < Config.authPollPeriod := by
  cases h with
  | clear => exact (by decide : 0 < Config.authPollPeriod)
  | setXfb v => exact hr
  | setQuant b => exact hr
  | finish =>
    show (if decide (rt.pollCnt + 1 = Config.authPollPeriod) then 0 else rt.pollCnt + 1) < Config.authPollPeriod
    split
    · decide
    · next h =>
      have := of_decide_eq_false (Bool.eq_false_iff.2 h)
      omega

theorem Change.keeps_ringsOk {s t : State} (h : Change s t) (hs : s.RingsOk) : t.RingsOk := by
  cases h with
  | dl h => exact { hs with dl := h.keeps_ringOk hs.dl }
  | ps h => exact { hs with ps := h.keeps_cursorsOk hs.ps }
  | tp h => exact { hs with tp := h.keeps_ringOk hs.tp }
  | tpReallocate d v => exact { hs with tp := tpReallocate_ringOk s d v }
  | bq j h => exact { hs with }
  | bqh h => exact { hs with }
  | tq h => exact { hs with }
  | rt h => exact { hs with poll := h.keeps_poll hs.poll }

/-- Settles O15: every change of a unit keeps its cursors, counters and capacity in range. -/
theorem cursorsStayInRange : Obligations.CursorsStayInRange := by
  intro s t hw hN h
  have hs : s.RingsOk := s.ringsOk_iff.2 ⟨hw, hN⟩
  have ofUnits : OfUnits State.RingsOk := fun _ _ _ _ _ _ h => { h with }
  exact t.ringsOk_iff.1 (step_keeps ofUnits (fun _ _ => Change.keeps_ringsOk) h hs)

end Sys2Proof.Machine
end

section
/-! PROOFS. The dynamic registers stay in range (10_state.md R29, R31, R33), whatever is drawn. -/

namespace Sys2Proof.Machine

/-! ### Ranges of the procedures' results -/

theorem isPhase_phaseAdvance (d : Draw) (ph rate sr : F32) : isPhase (phaseAdvance d ph rate sr) = true :=
  Bool.and_eq_true_iff.2 (phaseAdvance_range d ph rate sr)

theorem between_fclamp (v : F32) {lo hi : F32} (h : fle lo hi = true) : between lo hi (fclamp v lo hi) = true :=
  Bool.and_eq_true_iff.2 (fclamp_between v lo hi h)

/-- The range of every part of one tape channel (R31), as separate facts. -/
structure TpChan.InRange (ch : TpChan) : Prop where
  wowPh : isPhase ch.wowPh = true
  flutPh : isPhase ch.flutPh = true
  wowRW : between fm1 f1 ch.wowRW = true
  flutRW : between fm1 f1 ch.flutRW = true
  instPhA : isPhase ch.instPhA = true
  instPhS : isPhase ch.instPhS = true
  humPh : isPhase ch.humPh = true
  rumPh : isPhase ch.rumPh = true
  decPh : isPhase ch.decPh = true

theorem TpChan.dynamicOk_iff (ch : TpChan) : ch.dynamicOk = true ↔ ch.InRange := by
  simp only [TpChan.dynamicOk, Bool.and_eq_true]
  exact ⟨fun ⟨⟨⟨⟨⟨⟨⟨⟨h1, h2⟩, h3⟩, h4⟩, h5⟩, h6⟩, h7⟩, h8⟩, h9⟩ => ⟨h1, h2, h3, h4, h5, h6, h7, h8, h9⟩,
    fun ⟨h1, h2, h3, h4, h5, h6, h7, h8, h9⟩ => ⟨⟨⟨⟨⟨⟨⟨⟨h1, h2⟩, h3⟩, h4⟩, h5⟩, h6⟩, h7⟩, h8⟩, h9⟩⟩

/-- R228: an LFO's phase stays a phase, and its random walk stays in [-1.0, 1.0]. -/
theorem lfoStep_range (d : Draw) (sr : F32) (wave : Waveform) (ph rw rate : F32) (h : between fm1 f1 rw = true) :
    isPhase (lfoStep d sr wave ph rw rate).2.1 = true ∧ between fm1 f1 (lfoStep d sr wave ph rw rate).2.2 = true := by
  cases wave with
  | sine => exact ⟨isPhase_phaseAdvance _ _ _ _, h⟩
  | triangle => exact ⟨isPhase_phaseAdvance _ _ _ _, h⟩
  | randomWalk => exact ⟨isPhase_phaseAdvance _ _ _ _, between_fclamp _ (by decide)⟩

theorem tpModScalar_inRange (d : Draw) (tp : Tp) {ch : TpChan} (h : ch.InRange) : (tpModScalar d tp ch).1.InRange := by
  obtain ⟨hwp, hww⟩ := lfoStep_range (d.at 0) tp.sr tp.wowWave ch.wowPh ch.wowRW tp.wowRate h.wowRW
  obtain ⟨hfp, hfw⟩ := lfoStep_range (d.at 1) tp.sr tp.flutWave ch.flutPh ch.flutRW tp.flutRate h.flutRW
  exact { h with wowPh := hwp, wowRW := hww, flutPh := hfp, flutRW := hfw }

theorem tpHeads_inRange (d : Draw) (tp : Tp) (c : Chan) {ch : TpChan} (s3 m : F32) (h : ch.InRange) :
    (tpHeads d tp c ch s3 m).1.InRange := { h with }

theorem tpAging_inRange (d : Draw) (tp : Tp) {ch : TpChan} (s5 : F32) (h : ch.InRange) :
    (tpAging d tp ch s5).1.InRange := { h with }

theorem tpInstability_inRange (d : Draw) (tp : Tp) {ch : TpChan} (s6 : F32) (h : ch.InRange) :
    (tpInstability d tp ch s6).1.InRange :=
  { h with instPhA := isPhase_phaseAdvance _ _ _ _, instPhS := isPhase_phaseAdvance _ _ _ _ }

theorem tpNoise_inRange (d : Draw) (tp : Tp) {ch : TpChan} (s7 : F32) (h : ch.InRange) :
    (tpNoise d tp ch s7).1.InRange := by
  unfold tpNoise
  split
  · exact { h with humPh := isPhase_phaseAdvance _ _ _ _, rumPh := isPhase_phaseAdvance _ _ _ _ }
  · exact h

theorem tpDecorrelate_inRange (d : Draw) (tp : Tp) (c : Chan) {ch : TpChan} (s8 : F32) (h : ch.InRange) :
    (tpDecorrelate d tp c ch s8).1.InRange := { h with decPh := isPhase_phaseAdvance _ _ _ _ }

/-- R251: the tape path keeps every phase and random walk of its channel in range. -/
theorem tpProcess_inRange (d : Draw) (tp : Tp) (bq : Four BqParams) (c : Chan) (p : TpPath) (x : F32)
    (h : p.ch.InRange) : (tpProcess d tp bq c p x).1.ch.InRange := by
  have front : (tpFront (d.at 0) tp bq c p x).1.ch.InRange :=
    tpHeads_inRange ((d.at 0).at 2) tp c _ (tpModScalar ((d.at 0).at 1) tp p.ch).2
      (tpModScalar_inRange ((d.at 0).at 1) tp h)
  have back (ch : TpChan) (s5 : F32) (hc : ch.InRange) : (tpBack (d.at 1) tp c ch s5).1.InRange :=
    tpDecorrelate_inRange _ _ _ _ (tpNoise_inRange _ _ _ (tpInstability_inRange _ _ _ (tpAging_inRange _ _ _ hc)))
  exact back _ _ front

/-- R262: the tape path leaves a speed factor in [0.95, 1.05]. -/
theorem tpProcess_instSpeed (d : Draw) (tp : Tp) (bq : Four BqParams) (c : Chan) (p : TpPath) (x : F32) :
    between f0p95 f1p05 (tpProcess d tp bq c p x).1.ch.instSpeed = true := by
  have noise (d : Draw) (ch : TpChan) (s7 : F32) : (tpNoise d tp ch s7).1.instSpeed = ch.instSpeed := by
    unfold tpNoise
    split <;> rfl
  show between f0p95 f1p05 (tpNoise _ tp (tpInstability _ tp _ _).1 _).1.instSpeed = true
  rw [noise]
  exact between_fclamp _ (by decide)

/-! ### The invariant -/

/-- The tape's phases and random walks are in range, and the speed factor once the tape is configured. -/
structure Tp.MotionOk (tp : Tp) : Prop where
  chans : tp.ch.all TpChan.dynamicOk = true
  speed : tp.cfg = true → tp.ch.all (fun ch => between f0p95 f1p05 ch.instSpeed) = true

/-- The dynamic registers of the three units that have some. -/
structure State.DynamicsOk (s : State) : Prop where
  ps : s.ps.ch.all (fun ch => isPhase ch.driftPhase) = true
  tp : s.tp.MotionOk
  history : s.rt.prevDelayed.all isFinite = true

theorem State.dynamicsOk_iff (s : State) : s.DynamicsOk ↔ s.dynamicOk = true := by
  simp only [State.dynamicOk, Bool.and_eq_true, Bool.or_eq_true, Bool.not_eq_true']
  constructor
  · rintro ⟨hp, ⟨hc, hs⟩, hh⟩
    exact ⟨⟨⟨hp, hc⟩, (Bool.eq_false_or_eq_true s.tp.cfg).symm.imp_right hs⟩, hh⟩
  · rintro ⟨⟨⟨hp, hc⟩, hs⟩, hh⟩
    exact { ps := hp, tp := ⟨hc, fun h => hs.resolve_left (by simp [h])⟩, history := hh }

theorem PsChange.keeps_driftPhase {ps ps' : Ps} (h : PsChange ps ps')
    (hp : ps.ch.all (fun ch => isPhase ch.driftPhase) = true) : ps'.ch.all (fun ch => isPhase ch.driftPhase) = true := by
  cases h with
  | reallocate v => exact PerCh.all_both (by decide : isPhase f0 = true)
  | reset => exact PerCh.all_both (by decide : isPhase f0 = true)
  | setPitch d cents => exact hp
  | setDrift rate depth => exact hp
  | process d c x =>
    refine PerCh.all_set hp c ?_
    rw [(psProcess_chan d ps _ x).2.2.2.2]
    exact isPhase_phaseAdvance _ _ _ _

/-- A zeroed tape, at speed 1.0. -/
theorem motionOk_zero (tp : Tp) (h : tp.ch = PerCh.both (TpChan.zero f1)) : tp.MotionOk := by
  constructor
  · rw [h]
    exact PerCh.all_both (by decide)
  · intro _
    rw [h]
    exact PerCh.all_both (by decide)

theorem TpChange.keeps_motionOk {tp tp' : Tp} (h : TpChange tp tp') (ht : tp.MotionOk) : tp'.MotionOk := by
  cases h with
  | reset => exact motionOk_zero _ rfl
  | process d bq c hist x =>
    have hc := (TpChan.dynamicOk_iff _).1 (PerCh.all_get ht.chans c)
    exact
      { chans := PerCh.all_set ht.chans c ((TpChan.dynamicOk_iff _).2 (tpProcess_inRange d tp bq c _ x hc))
        speed := fun hcfg => PerCh.all_set (ht.speed hcfg) c (tpProcess_instSpeed d tp bq c _ x) }
  | setMode on => exact { ht with }
  | setWf wr wd fr fd w f => exact { ht with }
  | setSat v a => exact { ht with }
  | setAge v => exact { ht with }
  | setInst v => exact { ht with }
  | setHeads k => exact { ht with }
  | setNoise on v => exact { ht with }

theorem RtChange.keeps_history {dl : Dl} {rt rt' : Rt} (h : RtChange dl rt rt') (hr : rt.prevDelayed.all isFinite = true) :
    rt'.prevDelayed.all isFinite = true := by
  have hf0 : isFinite f0 = true := by decide
  cases h with
  | clear => exact PerCh.all_both hf0
  | setXfb v => exact hr
  | setQuant b => exact hr
  | finish => exact Bool.and_eq_true_iff.2 ⟨guardF_isFinite _ f0 hf0, guardF_isFinite _ f0 hf0⟩

theorem Change.keeps_dynamicsOk {s t : State} (h : Change s t) (hs : s.DynamicsOk) : t.DynamicsOk := by
  cases h with
  | dl h => exact { hs with }
  | ps h => exact { hs with ps := h.keeps_driftPhase hs.ps }
  | tp h => exact { hs with tp := h.keeps_motionOk hs.tp }
  | tpReallocate d v => exact { hs with tp := motionOk_zero _ rfl }
  | bq j h => exact { hs with }
  | bqh h => exact { hs with }
  | tq h => exact { hs with }
  | rt h => exact { hs with history := h.keeps_history hs.history }

/-- Settles O17: every change of a unit keeps its dynamic registers in range. -/
theorem dynamicsStayInRange : Obligations.DynamicsStayInRange := by
  intro s t hs h
  have ofUnits : OfUnits State.DynamicsOk := fun _ _ _ _ _ _ h => { h with }
  exact t.dynamicsOk_iff.1 (step_keeps ofUnits (fun _ _ => Change.keeps_dynamicsOk) h (s.dynamicsOk_iff.2 hs))

/-! ### The active scale (R32, R291, R292) -/

/-- A scale that may be installed (R291, R292): from 0.0 to 1200.0, finite, of 2 to 128 entries. -/
structure ScaleEntriesOk (scale : List F32) : Prop where
  two : 2 ≤ scale.length
  fits : scale.length ≤ Config.scaleMaxEntries
  first : scale.head? = some f0
  last : scale.getLast? = some f1200
  finite : scale.all isFinite = true

/-- Installing a legal scale and a description that fits keeps the quantizer well formed (R291). -/
theorem tqInstall_scaleOk (tq : Tq) {scale : List F32} {desc : List Byte} (h : ScaleEntriesOk scale)
    (hd : desc.length ≤ Config.descMaxBytes) (hs : tq.sclLen ≤ Config.sclBufBytes) :
    (tqInstall tq scale desc).scaleOk = true := by
  simp [Tq.scaleOk, tqInstall, h.two, h.fits, h.first, h.last, h.finite, hd, hs]

/-- Entries between the unison and the octave make a legal scale when they are finite and fit. -/
theorem scaleEntriesOk_framed (mid : List F32) (hm : mid.all isFinite = true)
    (hl : mid.length + 2 ≤ Config.scaleMaxEntries) : ScaleEntriesOk ([f0] ++ mid ++ [f1200]) where
  two := by simp
  fits := by
    simp only [List.length_append, List.length_singleton]
    omega
  first := rfl
  last := by rw [List.getLast?_concat]
  finite := by
    simp only [List.all_append, hm, Bool.and_true]
    decide

/-- R7, R296: an open tuning table, closed by the octave. -/
theorem openTable_scaleEntriesOk (id : Nat) (h7 : 7 ≤ id) (h10 : id ≤ 10) :
    ScaleEntriesOk ((List.range 12).map (Config.params.tuningTable id) ++ [f1200]) where
  two := by simp
  fits := by simp [Config.scaleMaxEntries]
  first := by
    rw [← Config.params.tuning_table_unison id h7 h10]
    rfl
  last := by rw [List.getLast?_concat]
  finite := by
    rw [List.all_append, List.all_map, Bool.and_eq_true]
    refine ⟨List.all_eq_true.2 fun k hk => ?_, by decide⟩
    have hk' : k ≤ 11 := by
      have := List.mem_range.1 hk
      omega
    obtain ⟨hlo, hhi⟩ := Config.params.tuning_table_range id k h7 h10 hk'
    exact isFinite_of_between f0 f1200 _ (by decide) (by decide) hlo (fle_of_flt _ _ hhi)

/-- R296: the built-in equal divisions. -/
theorem edoScale_scaleEntriesOk (n : Nat) (hn : n ∈ edoDivisions) : ScaleEntriesOk (edoScale n) := by
  have all : ∀ n ∈ edoDivisions, 2 ≤ (edoScale n).length ∧ (edoScale n).length ≤ Config.scaleMaxEntries ∧
      (edoScale n).head? = some f0 ∧ (edoScale n).getLast? = some f1200 ∧ (edoScale n).all isFinite = true := by
    decide
  obtain ⟨h2, hf, hh, hl, ha⟩ := all n hn
  exact ⟨h2, hf, hh, hl, ha⟩

/-- R296: every built-in tuning is a legal scale. -/
theorem tuningScale_scaleEntriesOk (id : Nat) (h : id ≤ 10) : ScaleEntriesOk (tuningScale id) := by
  unfold tuningScale
  split
  · next n hn => exact edoScale_scaleEntriesOk n (List.mem_of_getElem? hn)
  · next hn => exact openTable_scaleEntriesOk id (List.getElem?_eq_none_iff.1 hn) h

/-- R297: every built-in description fits. -/
theorem tuningDesc_length (id : Nat) (h : id ≤ 10) : (tuningDesc id).length ≤ Config.descMaxBytes := by
  have all : ∀ id ≤ 10, (tuningDesc id).length ≤ Config.descMaxBytes := by decide
  exact all id h

theorem isFinite_of_finiteOnly {v e : F32} (h : finiteOnly v = some e) : isFinite e = true := by
  unfold finiteOnly at h
  split at h
  · next hv => rwa [← Option.some.inj h]
  · cases h

/-- R314: a ratio is finite or refused. -/
theorem isFinite_of_parseRatio {a b : List Byte} {e : F32} (h : parseRatio a b = some e) : isFinite e = true := by
  unfold parseRatio at h
  split at h
  · split at h
    · exact isFinite_of_finiteOnly h
    · cases h
  · cases h

/-- R314: a decimal is finite or refused. -/
theorem isFinite_of_parseUnsigned {neg : Bool} {body : List Byte} {e : F32} (h : parseUnsigned neg body = some e) :
    isFinite e = true := by
  unfold parseUnsigned at h
  simp only at h
  split at h <;> split at h
  · exact isFinite_of_finiteOnly h
  · cases h
  · exact isFinite_of_finiteOnly h
  · cases h

theorem isFinite_of_parseCents {token : List Byte} {e : F32} (h : parseCents token = some e) : isFinite e = true := by
  unfold parseCents at h
  split at h
  · cases h
  split at h
  · cases h
  split at h
  · exact isFinite_of_parseUnsigned h
  split at h
  · exact isFinite_of_parseUnsigned h
  · exact isFinite_of_parseUnsigned h

/-- R314: a note that parses is finite. -/
theorem isFinite_of_parseNote {token : List Byte} {e : F32} (h : parseNote token = some e) : isFinite e = true := by
  unfold parseNote at h
  split at h
  · exact isFinite_of_parseCents h
  · exact isFinite_of_parseRatio h

/-- R314: as many notes as asked for, each finite. -/
theorem parseNotes_spec {n : Nat} {ls : List (List Byte)} {es : List F32} (h : parseNotes n ls = some es) :
    es.length = n ∧ es.all isFinite = true := by
  induction n generalizing ls es with
  | zero =>
    cases h
    exact ⟨rfl, rfl⟩
  | succ n ih =>
    cases ls with
    | nil => cases h
    | cons l ls =>
      unfold parseNotes at h
      split at h
      · next e es' he hes =>
        cases h
        obtain ⟨hlen, hall⟩ := ih hes
        exact ⟨congrArg (· + 1) hlen, by rw [List.all_cons, isFinite_of_parseNote he, hall]; rfl⟩
      · cases h

/-- R311 to R315: what a text that parses gives fits the quantizer's memories and is finite. -/
theorem parseScl_spec {text : List Byte} {r : List Byte × List F32} (h : parseScl text = some r) :
    r.1.length ≤ Config.descMaxBytes ∧ r.2.length + 2 ≤ Config.scaleMaxEntries ∧ r.2.all isFinite = true := by
  unfold parseScl at h
  split at h
  · split at h
    · cases h
    split at h
    · cases h
    · next hn =>
      split at h
      · cases h
      · next es hes =>
        cases h
        obtain ⟨hlen, hall⟩ := parseNotes_spec hes
        have fits : es.length + 2 ≤ Config.scaleMaxEntries := by
          have : Config.scaleMaxEntries = 128 := rfl
          omega
        exact ⟨List.length_take_le _ _, fits, hall⟩
  · cases h

/-- R310: loading keeps the quantizer well formed, whatever the staged text is. -/
theorem tqLoad_scaleOk (tq : Tq) (h : tq.scaleOk = true) (hs : tq.sclLen ≤ Config.sclBufBytes) :
    (tqLoad tq).1.scaleOk = true := by
  unfold tqLoad
  split
  · next r hr =>
    unfold tqParsed at hr
    split at hr
    · obtain ⟨hd, hl, hf⟩ := parseScl_spec hr
      exact tqInstall_scaleOk tq (scaleEntriesOk_framed r.2 hf hl) hd hs
    · cases hr
  · exact h

/-- `sclLen` alone may change, as long as it stays in the buffer. -/
theorem scaleOk_of_sclLen {tq tq' : Tq} (h : tq.scaleOk = true) (hs : tq'.sclLen ≤ Config.sclBufBytes)
    (hlen : tq'.len = tq.len) (hscale : tq'.scale = tq.scale) (hdl : tq'.descLen = tq.descLen)
    (hd : tq'.desc = tq.desc) : tq'.scaleOk = true := by
  unfold Tq.scaleOk at h ⊢
  rw [hlen, hscale, hdl, hd]
  rw [Bool.and_eq_true] at h ⊢
  exact ⟨h.1, decide_eq_true hs⟩

theorem sclLen_le_of_scaleOk {tq : Tq} (h : tq.scaleOk = true) : tq.sclLen ≤ Config.sclBufBytes :=
  of_decide_eq_true (Bool.and_eq_true_iff.1 h).2

theorem TqChange.keeps_scaleOk {tq tq' : Tq} (h : TqChange tq tq') (hq : tq.scaleOk = true) : tq'.scaleOk = true := by
  have hs := sclLen_le_of_scaleOk hq
  cases h with
  | install id hid => exact tqInstall_scaleOk tq (tuningScale_scaleEntriesOk id hid) (tuningDesc_length id hid) hs
  | clear => exact scaleOk_of_sclLen hq (Nat.zero_le _) rfl rfl rfl rfl
  | stage b =>
    unfold tqStage
    split
    · next hlt => exact scaleOk_of_sclLen hq hlt rfl rfl rfl rfl
    · exact hq
  | load => exact tqLoad_scaleOk tq hq hs
  | latch b => exact hq

/-- Settles O18: every change of the quantizer keeps the active scale well formed. -/
theorem scaleStaysWellFormed : Obligations.ScaleStaysWellFormed := by
  intro s t hs h
  have ofUnits : OfUnits fun s => s.tq.scaleOk = true := fun _ _ _ _ _ _ h => h
  refine step_keeps ofUnits (fun s t hc hq => ?_) h hs
  cases hc with
  | tq h => exact h.keeps_scaleOk hq
  | dl _ | ps _ | tp _ | tpReallocate _ _ | bq _ _ | bqh _ | rt _ => exact hq

end Sys2Proof.Machine
end

section
/-! PROOFS. No parameter register, pitch ratio, sample rate or filter frequency leaves its legal range (10_state.md R21, R27,
R28, R30; 42_biquad.md R151, R152; 43_pitchshifter.md R174). -/

namespace Sys2Proof.Machine

/-! ### The pitch ratio (R174) -/

/-- A quotient of finite values takes no draw (R106, R107). -/
theorem fdiv_finite_form (d : Draw) (a b : F32) (ha : isFinite a = true) (hb : isFinite b = true)
    (zb : isZero b = false) :
    fdiv d a b = mkF (isNeg a != isNeg b) (roundMag (unitsOf a * unitsPerOne) (unitsOf b)) := by
  have h1 := isNaN_of_isFinite a ha
  have h2 := isNaN_of_isFinite b hb
  have h3 := isInf_of_isFinite a ha
  have h4 := isInf_of_isFinite b hb
  simp [fdiv, h1, h2, h3, h4, zb, roundTo]

/-- Cents of the pitch range are at most 2400 in magnitude. -/
theorem magOf_le_of_cents {c : F32} (h : between Config.pitchCentsMin Config.pitchCentsMax c = true) :
    magOf c ≤ magOf Config.pitchCentsMax := by
  obtain ⟨hlo, hhi⟩ := Bool.and_eq_true_iff.1 h
  have k1 := ((fle_iff _ _).1 hlo).2.2
  have k2 := ((fle_iff _ _).1 hhi).2.2
  have e1 : key Config.pitchCentsMin = -(magOf Config.pitchCentsMax : Int) := by decide
  have e2 : key Config.pitchCentsMax = (magOf Config.pitchCentsMax : Int) := by decide
  rw [e1] at k1
  rw [e2] at k2
  unfold key at k1 k2
  cases hn : isNeg c <;> simp only [hn, if_true, if_false, Bool.false_eq_true] at k1 k2 <;> omega

/-- Cents of the pitch range are octaves from -2.0 to 2.0, whatever is drawn, so that `NUM.exp2` of them is positive. -/
theorem octaves_of_cents (d : Draw) {c : F32} (h : between Config.pitchCentsMin Config.pitchCentsMax c = true) :
    fdiv d c f1200 = fdiv noDraw c f1200 ∧ fle 0xC2FC0000 (fdiv d c f1200) = true := by
  have hmag := magOf_le_of_cents h
  have hfin : isFinite c = true := by
    have : magOf Config.pitchCentsMax < 0x7F800000 := by decide
    exact decide_eq_true (by omega)
  have form (d : Draw) := fdiv_finite_form d c f1200 hfin (by decide) (by decide)
  have hq : roundMag (unitsOf c * unitsPerOne) (unitsOf f1200) ≤ 0x40000000 := by
    have hu := unitsOf_mono c Config.pitchCentsMax (by decide) hmag
    calc roundMag (unitsOf c * unitsPerOne) (unitsOf f1200)
        ≤ roundMag (unitsOf Config.pitchCentsMax * unitsPerOne) (unitsOf f1200) :=
          roundMag_mono _ _ _ _ (by decide) (by decide) (Nat.mul_le_mul_right _ (Nat.mul_le_mul_right _ hu))
      _ = 0x40000000 := by decide
  refine ⟨by rw [form d, form noDraw], ?_⟩
  rw [form d, fle_iff, key_mkF _ _ (by omega)]
  have hk : key 0xC2FC0000 = -0x42FC0000 := by decide
  refine ⟨by decide, isNaN_roundTo _ _ _, ?_⟩
  rw [hk]
  split <;> omega

/-- R174: a pitch setter leaves legal cents and their own ratio, which is positive. -/
theorem psSetPitch_legal (d : Draw) (ps : Ps) (v : F32) :
    between Config.pitchCentsMin Config.pitchCentsMax (psSetPitch d ps v).cents = true ∧
      flt f0 (psSetPitch d ps v).ratio = true ∧ (psSetPitch d ps v).ratioOk := by
  have hc := between_fclamp v (lo := Config.pitchCentsMin) (hi := Config.pitchCentsMax) (by decide)
  obtain ⟨hdraw, hlow⟩ := octaves_of_cents d hc
  exact ⟨hc, Config.num.exp2_pos _ hlow, congrArg Config.num.exp2 hdraw⟩

/-! ### The filter frequencies (R151, R152) -/

/-- R151: at a legal sample rate the top of the frequency range takes no draw and is not below its bottom. -/
theorem freqTop_spec (d : Draw) {sr : F32} (h : between Config.srMin Config.srMax sr = true) :
    fmul d Config.bqFMaxFrac sr = fmul noDraw Config.bqFMaxFrac sr ∧
      fle Config.bqFMin (fmul noDraw Config.bqFMaxFrac sr) = true := by
  obtain ⟨hlo, hhi⟩ := Bool.and_eq_true_iff.1 h
  have fin : isFinite sr = true := isFinite_of_between _ _ sr (by decide) (by decide) hlo hhi
  have neg : isNeg sr = false := isNeg_of_fle Config.srMin sr (by decide) (by decide) hlo
  have frac : isFinite Config.bqFMaxFrac = true ∧ isNeg Config.bqFMaxFrac = false := by decide
  have hmin := fmul_mono noDraw noDraw Config.bqFMaxFrac Config.srMin Config.bqFMaxFrac sr frac.1 (by decide) frac.1 fin
    frac.2 (by decide) frac.2 neg (le_refl _) (mag_of_fle _ _ (by decide) neg hlo)
  have form (d : Draw) := fmul_nonneg_form d Config.bqFMaxFrac sr frac.1 fin frac.2 neg
  refine ⟨by rw [form d, form noDraw], ?_⟩
  have low : magOf Config.bqFMin ≤ magOf (fmul noDraw Config.bqFMaxFrac Config.srMin) := by decide
  have hle := roundMag_le (unitsOf Config.bqFMaxFrac * unitsOf sr) unitsPerOne
  have hm := hmin.1
  rw [form noDraw, magOf_mkF _ _ (by omega)] at hm
  rw [form noDraw, fle_iff, key_mkF _ _ (by omega)]
  have hk : key Config.bqFMin = (magOf Config.bqFMin : Int) := by decide
  refine ⟨by decide, isNaN_roundTo false _ _, ?_⟩
  rw [hk]
  simp only [Bool.false_eq_true, if_false]
  omega

/-- R27: the frequency of a filter is legal at a sample rate. -/
def BqParams.freqOk (sr : F32) (p : BqParams) : Bool :=
  between Config.bqFMin (fmul noDraw Config.bqFMaxFrac sr) p.f

/-- R151: the coefficient computation leaves a legal frequency, and gain and q alone. -/
theorem bqCoef_freqOk (d : Draw) (p : BqParams) (f : F32) {sr : F32} (h : between Config.srMin Config.srMax sr = true) :
    (bqCoef d p f sr).freqOk sr = true := by
  obtain ⟨hdraw, hle⟩ := freqTop_spec (d.at 0) h
  show between Config.bqFMin (fmul noDraw Config.bqFMaxFrac sr)
    (fclamp f Config.bqFMin (fmul (d.at 0) Config.bqFMaxFrac sr)) = true
  rw [hdraw]
  exact between_fclamp f hle

theorem bqCoef_gainOk (d : Draw) (p : BqParams) (f sr : F32) : (bqCoef d p f sr).gainOk = p.gainOk := rfl

theorem BqChange.gainOk {sr : F32} {p p' : BqParams} (h : BqChange sr p p') : p'.gainOk = true := by
  have hq (q : F32) : between Config.bqQMin Config.bqQMax (fclamp q Config.bqQMin Config.bqQMax) = true :=
    between_fclamp q (by decide)
  cases h with
  | setLp d f q => exact Bool.and_eq_true_iff.2 ⟨(by decide : between _ _ f0 = true), hq q⟩
  | setGain d kind f g q => exact Bool.and_eq_true_iff.2 ⟨between_fclamp g (by decide), hq q⟩

theorem BqChange.freqOk {sr : F32} {p p' : BqParams} (h : BqChange sr p p')
    (hsr : between Config.srMin Config.srMax sr = true) : p'.freqOk sr = true := by
  cases h with
  | setLp d f q => exact bqCoef_freqOk d _ f hsr
  | setGain d kind f g q => exact bqCoef_freqOk d _ f hsr

/-! ### The invariant -/

/-- The four facts about parameters, unit by unit. -/
structure State.Legal (s : State) : Prop where
  dl : s.dl.paramsOk = true
  ps : s.ps.paramsOk = true
  ratio : s.ps.ratioOk
  tp : s.tp.paramsOk = true
  gains : s.bq.all BqParams.gainOk = true
  xfb : between f0 f1 s.rt.xfbAmt = true
  dlRate : rateOk s.dl.cfg s.dl.sr = true
  psRate : rateOk s.ps.cfg s.ps.sr = true
  tpRate : rateOk s.tp.cfg s.tp.sr = true
  freqs : s.tp.cfg = true → s.bq.all (BqParams.freqOk s.tp.sr) = true

theorem State.legal_iff (s : State) :
    s.Legal ↔ s.paramsOk = true ∧ s.ps.ratioOk ∧ s.ratesOk = true ∧ s.filterFreqsOk = true := by
  simp only [State.paramsOk, State.ratesOk, State.filterFreqsOk, Bool.and_eq_true, Bool.or_eq_true, Bool.not_eq_true']
  constructor
  · rintro ⟨hd, hp, hr, ht, hg, hx, rd, rp, rt, hf⟩
    exact ⟨⟨⟨⟨⟨hd, hp⟩, ht⟩, hg⟩, hx⟩, hr, ⟨⟨rd, rp⟩, rt⟩, (Bool.eq_false_or_eq_true s.tp.cfg).symm.imp_right hf⟩
  · rintro ⟨⟨⟨⟨⟨hd, hp⟩, ht⟩, hg⟩, hx⟩, hr, ⟨⟨rd, rp⟩, rt⟩, hf⟩
    exact ⟨hd, hp, hr, ht, hg, hx, rd, rp, rt, fun h => hf.resolve_left (by simp [h])⟩

theorem between_of_rateOk {sr : F32} (h : rateOk true sr = true) : between Config.srMin Config.srMax sr = true := h

/-- R104: a configure stores a legal rate. -/
theorem between_clampRate (v : F32) : between Config.srMin Config.srMax (clampRate v) = true :=
  Bool.and_eq_true_iff.2 (clampRate_between v)

theorem DlChange.keeps_paramsOk {dl dl' : Dl} (h : DlChange dl dl') (hp : dl.paramsOk = true) : dl'.paramsOk = true := by
  simp only [Dl.paramsOk, Bool.and_eq_true] at hp
  obtain ⟨⟨hms, hfb⟩, hmix⟩ := hp
  have params (dl : Dl) (h1 : between f1 Config.maxDelayMs dl.delayMs = true) (h2 : between f0 f1p1 dl.fb = true)
      (h3 : between f0 f1 dl.mix = true) : dl.paramsOk = true := by simp only [Dl.paramsOk, h1, h2, h3, Bool.and_self]
  cases h with
  | reallocate d v => exact params _ hms hfb hmix
  | reset => exact params _ hms hfb hmix
  | setDelay d ms =>
    obtain ⟨n, v, he⟩ := dlSetDelay_eq d dl ms
    rw [he]
    exact params _ (between_fclamp ms (by decide)) hfb hmix
  | setFb v => exact params _ hms (between_fclamp v (by decide)) hmix
  | setMix v => exact params _ hms hfb (between_fclamp v (by decide))
  | process d c x xfb => exact params _ hms hfb hmix

theorem DlChange.keeps_rateOk {dl dl' : Dl} (h : DlChange dl dl') (hr : rateOk dl.cfg dl.sr = true) :
    rateOk dl'.cfg dl'.sr = true := by
  cases h with
  | reallocate d v => exact between_clampRate v
  | setDelay d ms =>
    obtain ⟨n, v, he⟩ := dlSetDelay_eq d dl ms
    rw [he]
    exact hr
  | reset | setFb v | setMix v | process d c x xfb => exact hr

theorem PsChange.keeps_legal {ps ps' : Ps} (h : PsChange ps ps') (hp : ps.paramsOk = true) (hr : ps.ratioOk)
    (hs : rateOk ps.cfg ps.sr = true) : ps'.paramsOk = true ∧ ps'.ratioOk ∧ rateOk ps'.cfg ps'.sr = true := by
  cases h with
  | reallocate v => exact ⟨hp, hr, between_clampRate v⟩
  | reset => exact ⟨hp, hr, hs⟩
  | process d c x => exact ⟨hp, hr, hs⟩
  | setPitch d v =>
    obtain ⟨hcents, hpos, hratio⟩ := psSetPitch_legal d ps v
    simp only [Ps.paramsOk, Bool.and_eq_true] at hp ⊢
    obtain ⟨⟨_, hrate⟩, hdepth⟩ := hp
    exact ⟨⟨⟨⟨hcents, hpos⟩, hrate⟩, hdepth⟩, hratio, hs⟩
  | setDrift rate depth =>
    simp only [Ps.paramsOk, Bool.and_eq_true] at hp ⊢
    obtain ⟨⟨hcents, _⟩, _⟩ := hp
    exact ⟨⟨⟨hcents, between_fclamp rate (by decide)⟩, between_fclamp depth (by decide)⟩, hr, hs⟩

theorem headDelayOk_headDelayOf (v : F32) : headDelayOk (headDelayOf v) = true := by
  unfold headDelayOk headDelayOf
  split
  · rfl
  · rw [between_fclamp v (by decide), Bool.or_true]

/-- The parameters of the tape (R30), as separate facts. -/
structure Tp.Legal (tp : Tp) : Prop where
  heads : tp.headDelay.all headDelayOk = true
  wowRate : between f0p1 f5 tp.wowRate = true
  wowDepth : between f0 Config.wfDepthMax tp.wowDepth = true
  flutRate : between f1 f15 tp.flutRate = true
  flutDepth : between f0 Config.wfDepthMax tp.flutDepth = true
  drive : between f0 Config.satDriveMax tp.drive = true
  satAmt : between f0 f1 tp.satAmt = true
  aging : between f0 f1 tp.aging = true
  instab : between f0 f1 tp.instab = true
  noiseAmt : between f0 f1 tp.noiseAmt = true

theorem Tp.paramsOk_iff (tp : Tp) : tp.paramsOk = true ↔ tp.Legal := by
  simp only [Tp.paramsOk, Bool.and_eq_true]
  exact ⟨fun ⟨⟨⟨⟨⟨⟨⟨⟨⟨h1, h2⟩, h3⟩, h4⟩, h5⟩, h6⟩, h7⟩, h8⟩, h9⟩, h10⟩ => ⟨h1, h2, h3, h4, h5, h6, h7, h8, h9, h10⟩,
    fun ⟨h1, h2, h3, h4, h5, h6, h7, h8, h9, h10⟩ => ⟨⟨⟨⟨⟨⟨⟨⟨⟨h1, h2⟩, h3⟩, h4⟩, h5⟩, h6⟩, h7⟩, h8⟩, h9⟩, h10⟩⟩

theorem TpChange.keeps_legal {tp tp' : Tp} (h : TpChange tp tp') (ht : tp.Legal) : tp'.Legal := by
  have unit (v : F32) : between f0 f1 (fclamp v f0 f1) = true := between_fclamp v (by decide)
  cases h with
  | reset => exact { ht with }
  | process d bq c hist x => exact { ht with }
  | setMode on => exact { ht with }
  | setWf wr wd fr fd w f =>
    exact
      { ht with
        wowRate := between_fclamp wr (by decide), wowDepth := between_fclamp wd (by decide)
        flutRate := between_fclamp fr (by decide), flutDepth := between_fclamp fd (by decide) }
  | setSat v a => exact { ht with drive := between_fclamp v (by decide), satAmt := unit a }
  | setAge v => exact { ht with aging := unit v }
  | setInst v => exact { ht with instab := unit v }
  | setHeads k =>
    have heads : (headDelays k).all headDelayOk = true := by
      simp only [Four.all, headDelays, headDelayOk_headDelayOf, Bool.and_self]
    exact { ht with heads := heads }
  | setNoise on v => exact { ht with noiseAmt := unit v }

/-- No change but a configure writes the tape's sample rate or `TP.cfg`. -/
theorem TpChange.keeps_rate {tp tp' : Tp} (h : TpChange tp tp') : tp'.cfg = tp.cfg ∧ tp'.sr = tp.sr := by
  cases h <;> exact ⟨rfl, rfl⟩

theorem RtChange.keeps_xfb {dl : Dl} {rt rt' : Rt} (h : RtChange dl rt rt') (hr : between f0 f1 rt.xfbAmt = true) :
    between f0 f1 rt'.xfbAmt = true := by
  cases h with
  | setXfb v => exact between_fclamp v (by decide)
  | clear | setQuant b | finish => exact hr

/-- R152: a tape configure recomputes every filter at the new rate. -/
theorem tpReallocate_legal {s : State} (d : Draw) (v : F32) (hs : s.Legal) :
    (s.tpReallocate d (clampRate v)).Legal := by
  have gains : (bqRecompute (d.at 1) s.bq (clampRate v)).all BqParams.gainOk = true := hs.gains
  have freqs : (bqRecompute (d.at 1) s.bq (clampRate v)).all (BqParams.freqOk (clampRate v)) = true := by
    simp only [Four.all, bqRecompute, bqCoef_freqOk _ _ _ (between_clampRate v), Bool.and_self]
  exact { hs with tpRate := between_clampRate v, gains := gains, freqs := fun _ => freqs }

theorem Change.keeps_legal {s t : State} (h : Change s t) (hs : s.Legal) : t.Legal := by
  cases h with
  | dl h => exact { hs with dl := h.keeps_paramsOk hs.dl, dlRate := h.keeps_rateOk hs.dlRate }
  | ps h =>
    obtain ⟨hp, hr, hrate⟩ := h.keeps_legal hs.ps hs.ratio hs.psRate
    exact { hs with ps := hp, ratio := hr, psRate := hrate }
  | tp h =>
    obtain ⟨hcfg, hsr⟩ := h.keeps_rate
    have tp := (Tp.paramsOk_iff _).2 (h.keeps_legal ((Tp.paramsOk_iff _).1 hs.tp))
    exact { hs with tp := tp, tpRate := by rw [hcfg, hsr]; exact hs.tpRate, freqs := by rw [hcfg, hsr]; exact hs.freqs }
  | tpReallocate d v => exact tpReallocate_legal d v hs
  | bq j h =>
    have freqs (hcfg : s.tp.cfg = true) : (s.bq.set j _).all (BqParams.freqOk s.tp.sr) = true :=
      Four.all_set (hs.freqs hcfg) j (h.freqOk (between_of_rateOk (hcfg ▸ hs.tpRate)))
    exact { hs with gains := Four.all_set hs.gains j h.gainOk, freqs := freqs }
  | bqh h => exact { hs with }
  | tq h => exact { hs with }
  | rt h => exact { hs with xfb := h.keeps_xfb hs.xfb }

/-- Settles O16: every change of a unit keeps its parameters, its rate and the filters legal. -/
theorem parametersStayLegal : Obligations.ParametersStayLegal := by
  intro s t hp hr hs hf h
  have ofUnits : OfUnits State.Legal := fun _ _ _ _ _ _ h => { h with }
  exact t.legal_iff.1 (step_keeps ofUnits (fun _ _ => Change.keeps_legal) h (s.legal_iff.2 ⟨hp, hr, hs, hf⟩))

end Sys2Proof.Machine
end

section
/-! PROOFS. The streams (10_state.md R22, R24): `CMD` is consumed from the front, `RSP` is only appended to and never read. -/

namespace Sys2Proof.Machine

/-! ### What the changes of the units leave alone -/

/-- The two streams, the command counter and `STATUS` are the same. -/
structure SameStreams (s t : State) : Prop where
  cix : t.cix = s.cix
  status : t.status = s.status
  cmd : t.cmd = s.cmd
  rsp : t.rsp = s.rsp

theorem Change.sameStreams {s t : State} (h : Change s t) : SameStreams s t := by cases h <;> exact ⟨rfl, rfl, rfl, rfl⟩

theorem Effects.sameStreams {s t : State} (h : Effects s t) : SameStreams s t := by
  induction h with
  | refl => exact ⟨rfl, rfl, rfl, rfl⟩
  | tail _ hbc ih =>
    have hc := hbc.sameStreams
    exact ⟨hc.cix.trans ih.cix, hc.status.trans ih.status, hc.cmd.trans ih.cmd, hc.rsp.trans ih.rsp⟩

/-- R352: the word a raise records has `FAULTED` set. -/
theorem statusWord_odd (c : Cause) (cix : Nat) : (statusWord c cix).toNat % 2 = 1 := by
  rw [statusWord, BitVec.toNat_ofNat]
  omega

/-- R352, R353: after a raise the block is halted, whether or not it already was. -/
theorem State.faulted_raise (s : State) (c : Cause) : (s.raise c).faulted = true := by
  unfold State.raise
  split
  · assumption
  · exact decide_eq_true (statusWord_odd c s.cix)

/-- What a command does to the streams: it leaves `CMD`, appends to `RSP`, and either counts itself or halts the block. -/
structure StreamEffect (s t : State) : Prop where
  cmd : t.cmd = s.cmd
  rsp : ∃ ys, t.rsp = s.rsp ++ ys
  cix : (t.cix = s.cix + 1 ∧ t.status = s.status) ∨ (t.cix = s.cix ∧ t.faulted = true ∧ t.rsp = s.rsp)

theorem Ends.streamEffect {s t : State} (h : Ends s t) : StreamEffect s t := by
  cases h with
  | raised c =>
    exact
      { cmd := s.raise_cmd c
        rsp := ⟨[], by rw [State.raise_rsp, List.append_nil]⟩
        cix := .inr ⟨s.raise_cix c, s.faulted_raise c, s.raise_rsp c⟩ }
  | silent he =>
    have hb := he.sameStreams
    exact
      { cmd := hb.cmd
        rsp := ⟨[], by rw [State.retire_rsp, hb.rsp, List.append_nil]⟩
        cix := .inl ⟨congrArg (· + 1) hb.cix, hb.status⟩ }
  | answered he ys =>
    have hb := he.sameStreams
    exact
      { cmd := hb.cmd
        rsp := ⟨ys, congrArg (· ++ ys) hb.rsp⟩
        cix := .inl ⟨congrArg (· + 1) hb.cix, hb.status⟩ }

/-- R80, R88: a decoded command is the words in front, its header at least. -/
theorem decode_ok_consumes {ws rest : List Word} {i : Instr} (h : decode ws = .ok i rest) :
    ∃ used, used ≠ [] ∧ ws = used ++ rest := by
  cases ws with
  | nil => cases h
  | cons w ops =>
    simp only [decode] at h
    split at h
    · cases h
    · repeat' split at h
      all_goals cases h
      exact ⟨w :: ops.take (field w 23 20), List.cons_ne_nil _ _, by rw [List.cons_append, List.take_append_drop]⟩

/-- R24, R22: what one step does to the streams. -/
theorem step_streams {s t : State} (h : step s = .next t) :
    (∃ used, used ≠ [] ∧ s.cmd = used ++ t.cmd) ∧ (∃ ys, t.rsp = s.rsp ++ ys) ∧
      ((t.cix = s.cix + 1 ∧ t.status = s.status) ∨ (t.cix = s.cix ∧ t.faulted = true ∧ t.rsp = s.rsp)) := by
  obtain ⟨rest, hc, rfl⟩ | ⟨hf, w, rest, _, hc, rfl⟩ | ⟨_, w, rest, c, _, hc, _, rfl⟩ | ⟨_, i, rest, hd, he⟩ :=
    step_cases s t h
  · exact ⟨⟨[statWord], by simp, hc⟩, ⟨[s.status], rfl⟩, .inl ⟨rfl, rfl⟩⟩
  · exact ⟨⟨[w], by simp, hc⟩, ⟨[], (List.append_nil _).symm⟩, .inr ⟨rfl, hf, rfl⟩⟩
  · exact ⟨⟨[w], by simp, hc⟩, ⟨[], (List.append_nil _).symm⟩,
      .inr ⟨rfl, decide_eq_true (statusWord_odd c s.cix), rfl⟩⟩
  · have effect := (exec_ends i _ t he).streamEffect
    rw [effect.cmd]
    exact ⟨decode_ok_consumes hd, effect.rsp, effect.cix⟩

/-! ### `RSP` is never read -/

/-- The state with other words already in `RSP`, before its own. -/
def State.earlierRsp (old : List Word) (s : State) : State := { s with rsp := old ++ s.rsp }

section
variable (old : List Word) (s : State)

theorem earlierRsp_respond (ys : List Word) : (s.respond ys).earlierRsp old = (s.earlierRsp old).respond ys := by
  simp only [State.respond, State.earlierRsp, List.append_assoc]

theorem earlierRsp_retire_respond (ys : List Word) :
    (s.respond ys).retire.earlierRsp old = ((s.earlierRsp old).respond ys).retire :=
  congrArg State.retire (earlierRsp_respond old s ys)

theorem earlierRsp_raise (c : Cause) : (s.raise c).earlierRsp old = (s.earlierRsp old).raise c := by
  cases h : s.faulted with
  | true => rw [State.raise_faulted _ c h, State.raise_faulted (s.earlierRsp old) c h]
  | false => rw [State.raise_running _ c h, State.raise_running (s.earlierRsp old) c h]; rfl

variable {old s}

theorem earlierRsp_whenConfigured (cfg : Bool) {body body' : State} (h : body.retire.earlierRsp old = body'.retire) :
    (s.whenConfigured cfg body).earlierRsp old = (s.earlierRsp old).whenConfigured cfg body' := by
  cases cfg with
  | true => exact h
  | false => exact earlierRsp_raise old s .notConfigured

theorem earlierRsp_withSel {α : Type} (sel : Option α) {body body' : α → State}
    (h : ∀ v, (body v).earlierRsp old = body' v) :
    (s.withSel sel body).earlierRsp old = (s.earlierRsp old).withSel sel body' := by
  cases sel with
  | some v => exact h v
  | none => exact earlierRsp_raise old s .badSel

variable (old s)

theorem earlierRsp_tpThrough (d : Draw) (c : Chan) (x : F32) :
    ((s.tpThrough d c x).1.earlierRsp old, (s.tpThrough d c x).2) = (s.earlierRsp old).tpThrough d c x := by
  show _ = if s.tp.mode then _ else _
  unfold State.tpThrough
  split <;> rfl

theorem earlierRsp_tpConfigure (d : Draw) (v : F32) :
    (s.tpConfigure d v).earlierRsp old = (s.earlierRsp old).tpConfigure d v := by
  show _ = if rateUnchanged s.tp.cfg s.tp.sr (clampRate v) then _ else _
  unfold State.tpConfigure
  split <;> rfl

theorem earlierRsp_rtConfigure (d : Draw) (v : F32) :
    (s.rtConfigure d v).earlierRsp old = (s.earlierRsp old).rtConfigure d v := by
  have units : (s.rtConfigureUnits d v).earlierRsp old = (s.earlierRsp old).rtConfigureUnits d v :=
    earlierRsp_tpConfigure old _ (d.at 1) v
  unfold State.rtConfigure
  rw [← units]
  show _ = if s.rtReallocates v then _ else _
  split <;> rfl

theorem earlierRsp_rtChannel (d : Draw) (c : Chan) (x : F32) :
    ((s.rtChannel d c x).1.earlierRsp old, (s.rtChannel d c x).2) = (s.earlierRsp old).rtChannel d c x :=
  earlierRsp_tpThrough old _ (d.at 3) c _

theorem earlierRsp_rtRun (x0 x1 : F32) : (s.rtRun x0 x1).earlierRsp old = (s.earlierRsp old).rtRun x0 x1 := by
  unfold State.rtRun
  simp only [← earlierRsp_rtChannel]
  exact earlierRsp_respond old _ _

end

/-- A command does the same whatever `RSP` holds. -/
theorem exec_earlierRsp (old : List Word) {i : Instr} {s t : State} (h : exec i s = .next t) :
    exec i (s.earlierRsp old) = .next (t.earlierRsp old) := by
  cases i <;> obtain rfl := Host.Outcome.next.inj h <;> refine (congrArg Host.Outcome.next ?_).symm
  case sysNop | dlCfg | dlRst | dlSetdelay | dlSetfb | dlSetmix | psCfg | psRst | psSetpitch | psSetdrift | tpRst | tpSetsat
    | tpSetage | tpSetinst | tqSetdef | tqSclclr | tqSclb | rtRst | rtSetxfb => rfl
  case sysStat | tqQuant | tqLoad | tqGetdesc => exact earlierRsp_retire_respond old _ _
  case dlProc | dlProcXfb | dlGetd | dlGetw | psProc => exact earlierRsp_whenConfigured _ (earlierRsp_retire_respond old _ _)
  case bqRst | tpSetmode | tpSetwf | tpSetheads | tpSetnoise | tqSettuning | rtSetpitch =>
    exact earlierRsp_withSel _ fun _ => rfl
  case bqSetlp | bqSetpk | bqSeths => exact earlierRsp_withSel _ fun _ => earlierRsp_whenConfigured _ rfl
  case bqProc => exact earlierRsp_withSel _ fun _ => earlierRsp_whenConfigured _ (earlierRsp_retire_respond old _ _)
  case tpSethb | tpSetroll => exact earlierRsp_whenConfigured _ rfl
  case tpCfg v => exact congrArg State.retire (earlierRsp_tpConfigure old s s.draw v)
  case rtCfg v => exact congrArg State.retire (earlierRsp_rtConfigure old s s.draw v)
  case rtFrame x0 x1 => exact earlierRsp_whenConfigured _ (congrArg State.retire (earlierRsp_rtRun old s x0 x1))
  case tpProc c x =>
    have through := earlierRsp_tpThrough old s s.draw c x
    refine earlierRsp_whenConfigured _ ((earlierRsp_retire_respond old _ _).trans ?_)
    exact congrArg (fun r : State × F32 => (r.1.respond [r.2]).retire) through

/-! ### The rules of a step -/

/-- R88: `SYS.STAT` is answered before every check. -/
theorem step_stat {s : State} {rest : List Word} (h : s.cmd = statWord :: rest) :
    step s = exec .sysStat { s with cmd := rest } := by
  simp only [step, fetch, h, if_true]

/-- R353: a halted block ignores every other word. -/
theorem step_halted {s : State} {w : Word} {rest : List Word} (h : s.cmd = w :: rest) (hw : w ≠ statWord)
    (hf : s.faulted = true) : step s = .next { s with cmd := rest } := by
  simp only [step, fetch, h, if_neg hw, hf, if_true]

/-- R352: a malformed header is raised. -/
theorem step_malformed {s : State} {w : Word} {rest : List Word} {c : Cause} (h : s.cmd = w :: rest) (hw : w ≠ statWord)
    (hf : s.faulted = false) (hd : decode s.cmd = .bad c) :
    step s = .next { s with cmd := rest, status := statusWord c s.cix } := by
  have raised := State.raise_running { s with cmd := rest } c hf
  rw [h] at hd
  simp only [step, fetch, h, if_neg hw, hf, Bool.false_eq_true, if_false, hd, raised]

/-- R88: a decoded command executes. -/
theorem step_decoded {s : State} {i : Instr} {rest : List Word} (hf : s.faulted = false)
    (hd : decode s.cmd = .ok i rest) : step s = exec i { s with cmd := rest } := by
  cases h : s.cmd with
  | nil => rw [h] at hd; cases hd
  | cons w ws =>
    rw [h] at hd
    by_cases hw : w = statWord
    · subst hw
      rw [decode_statWord] at hd
      cases hd
      exact step_stat h
    · simp only [step, fetch, h, if_neg hw, hf, Bool.false_eq_true, if_false, hd]

/-- A step does the same whatever `RSP` holds. -/
theorem step_earlierRsp (old : List Word) {s t : State} (h : step s = .next t) :
    step (s.earlierRsp old) = .next (t.earlierRsp old) := by
  obtain ⟨rest, hc, rfl⟩ | ⟨hf, w, rest, hw, hc, rfl⟩ | ⟨hf, w, rest, c, hw, hc, hd, rfl⟩ | ⟨hf, i, rest, hd, he⟩ :=
    step_cases s t h
  · rw [step_stat (s := s.earlierRsp old) hc]
    exact exec_earlierRsp old (s := { s with cmd := rest }) rfl
  · exact step_halted (s := s.earlierRsp old) hc hw hf
  · exact step_malformed (s := s.earlierRsp old) hc hw hf hd
  · rw [step_decoded (s := s.earlierRsp old) hf hd]
    exact exec_earlierRsp old he

/-- Settles O13: the streams of one step, and that `RSP` is never read. -/
theorem streamsInOrder : Obligations.StreamsInOrder := by
  intro s t h
  obtain ⟨hcmd, hrsp, hcix⟩ := step_streams h
  exact ⟨hcmd, hrsp, hcix, fun old => step_earlierRsp old h⟩

/-! ### Channels (R21) -/

/-- The dynamic state of channel `k` in every unit is the same. -/
structure ChanKept (k : Chan) (s t : State) : Prop where
  dl : t.dl.ch.get k = s.dl.ch.get k
  ps : t.ps.ch.get k = s.ps.ch.get k
  tp : t.tp.ch.get k = s.tp.ch.get k
  bqh : t.bqh.get k = s.bqh.get k

theorem ChanKept.raise (k : Chan) (s : State) (c : Cause) : ChanKept k s (s.raise c) := by
  constructor <;> simp

theorem ChanKept.whenConfigured {k : Chan} {s body : State} (cfg : Bool) (h : ChanKept k s body) :
    ChanKept k s (s.whenConfigured cfg body) := by
  cases cfg with
  | true => exact { h with }
  | false => exact .raise k s _

theorem ChanKept.withSel {α : Type} {k : Chan} {s : State} (sel : Option α) {body : α → State}
    (h : ∀ v, ChanKept k s (body v)) : ChanKept k s (s.withSel sel body) := by
  cases sel with
  | some v => exact h v
  | none => exact .raise k s _

/-- R250: the tape path writes its own channel. -/
theorem tpThrough_chanKept {c k : Chan} (hk : k ≠ c) (s : State) (d : Draw) (x : F32) :
    ChanKept k s (s.tpThrough d c x).1 where
  dl := by rw [State.tpThrough_dl]
  ps := by rw [State.tpThrough_ps]
  tp := by rw [State.tpThrough_tp]; exact PerCh.get_set_other _ c k _ hk
  bqh := by rw [State.tpThrough_bqh]; exact PerCh.get_set_other _ c k _ hk

/-- A command with a channel writes the dynamic state of that channel only. -/
theorem exec_chanKept {i : Instr} {c k : Chan} {s t : State} (hi : instrChan i = some c) (hk : k ≠ c)
    (h : exec i s = .next t) : ChanKept k s t := by
  have other {α : Type} (p : PerCh α) (v : α) : (p.set c v).get k = p.get k := PerCh.get_set_other p c k v hk
  cases i <;> cases hi <;> obtain rfl := Host.Outcome.next.inj h
  case dlProc x => exact .whenConfigured _ { dl := other _ _, ps := rfl, tp := rfl, bqh := rfl }
  case dlProcXfb x xfb => exact .whenConfigured _ { dl := other _ _, ps := rfl, tp := rfl, bqh := rfl }
  case dlGetd => exact .whenConfigured _ { dl := rfl, ps := rfl, tp := rfl, bqh := rfl }
  case dlGetw => exact .whenConfigured _ { dl := rfl, ps := rfl, tp := rfl, bqh := rfl }
  case bqRst j => exact .withSel _ fun _ => { dl := rfl, ps := rfl, tp := rfl, bqh := other _ _ }
  case bqProc j x => exact .withSel _ fun _ => .whenConfigured _ { dl := rfl, ps := rfl, tp := rfl, bqh := other _ _ }
  case psProc x => exact .whenConfigured _ { dl := rfl, ps := other _ _, tp := rfl, bqh := rfl }
  case tpProc x => exact .whenConfigured _ { tpThrough_chanKept hk s s.draw x with }

/-- Settles O27: the other channel is not the channel of the command. -/
theorem channelsOwnTheirState : Obligations.ChannelsOwnTheirState := by
  intro i c s t hi h
  obtain ⟨hdl, hps, htp, hbqh⟩ := exec_chanKept hi (otherChan_ne c) h
  exact ⟨hdl, hps, htp, hbqh⟩

end Sys2Proof.Machine
end

section
/-! PROOFS. What power-on leaves unspecified is never observed (10_state.md R20; 70_reset_and_hazards.md R381): one relation per
unit, kept by each of its operations, then the commands and the step. -/

namespace Sys2Proof.Machine

/-- R101: whether a configure changes nothing is a question of what is specified. -/
theorem rateUnchanged_congr {cfg cfg' : Bool} {sr sr' : F32} (v : F32) (hcfg : cfg = cfg') (hsr : cfg = true → sr = sr') :
    rateUnchanged cfg sr v = rateUnchanged cfg' sr' v := by
  subst hcfg
  cases cfg with
  | true => rw [hsr rfl]
  | false => rfl

/-! ### The delay line -/

/-- Delay lines that agree on what is specified (R25, R26). -/
structure Dl.Same (a b : Dl) : Prop where
  cfg : a.cfg = b.cfg
  params : Dl.sameParams a b
  taps : ∀ c, (a.ch.get c).delayed = (b.ch.get c).delayed
  unit : a.cfg = true → a = b

theorem Dl.Same.refl (a : Dl) : Dl.Same a a := ⟨rfl, ⟨rfl, rfl, rfl⟩, fun _ => rfl, fun _ => rfl⟩

theorem Dl.Same.of_eq {a b : Dl} (h : a = b) : Dl.Same a b := h ▸ Dl.Same.refl a

/-- Only an unconfigured delay line holds anything unspecified. -/
theorem Dl.Same.map {a b : Dl} (h : Dl.Same a b) (f : Dl → Dl)
    (off : a.cfg = false → b.cfg = false → Dl.Same (f a) (f b)) : Dl.Same (f a) (f b) := by
  cases hc : a.cfg with
  | true => exact .of_eq (congrArg f (h.unit hc))
  | false => exact off hc (h.cfg ▸ hc)

/-- R125: a configure writes every unspecified register. -/
theorem Dl.Same.configure {a b : Dl} (h : Dl.Same a b) (d : Draw) (v : F32) :
    Dl.Same (dlConfigure d a v) (dlConfigure d b v) := by
  refine h.map (dlConfigure d · v) fun ha hb => ?_
  obtain ⟨hms, hfb, hmix⟩ := h.params
  simp only [dlConfigure, rateUnchanged, ha, hb, Bool.false_and, Bool.false_eq_true, if_false]
  refine .of_eq ?_
  simp only [dlReallocate, dlOffset, hms, hfb, hmix]

theorem Dl.Same.reset {a b : Dl} (h : Dl.Same a b) : Dl.Same (dlReset a) (dlReset b) := by
  refine h.map dlReset fun ha hb => ?_
  refine ⟨h.cfg, h.params, fun c => ?_, fun hc => absurd (ha.symm.trans hc) Bool.false_ne_true⟩
  simp only [dlReset, dlResetChan, ha, hb, Bool.false_eq_true, if_false]
  cases c <;> rfl

theorem Dl.Same.setDelay {a b : Dl} (h : Dl.Same a b) (d : Draw) (ms : F32) :
    Dl.Same (dlSetDelay d a ms) (dlSetDelay d b ms) := by
  refine h.map (dlSetDelay d · ms) fun ha hb => ?_
  simp only [dlSetDelay, ha, hb, Bool.false_eq_true, if_false]
  obtain ⟨_, hfb, hmix⟩ := h.params
  exact ⟨rfl, ⟨rfl, hfb, hmix⟩, h.taps, fun hc => absurd hc Bool.false_ne_true⟩

theorem Dl.Same.setFb {a b : Dl} (h : Dl.Same a b) (v : F32) : Dl.Same { a with fb := v } { b with fb := v } := by
  obtain ⟨hms, _, hmix⟩ := h.params
  exact ⟨h.cfg, ⟨hms, rfl, hmix⟩, h.taps, fun hc => congrArg (fun dl : Dl => { dl with fb := v }) (h.unit hc)⟩

theorem Dl.Same.setMix {a b : Dl} (h : Dl.Same a b) (v : F32) : Dl.Same { a with mix := v } { b with mix := v } := by
  obtain ⟨hms, hfb, _⟩ := h.params
  exact ⟨h.cfg, ⟨hms, hfb, rfl⟩, h.taps, fun hc => congrArg (fun dl : Dl => { dl with mix := v }) (h.unit hc)⟩

/-! ### The pitch shifter -/

/-- Pitch shifters that agree on what is specified (R28, R29). -/
structure Ps.Same (a b : Ps) : Prop where
  cfg : a.cfg = b.cfg
  params : Ps.sameParams a b
  unit : a.cfg = true → a = b

theorem Ps.Same.refl (a : Ps) : Ps.Same a a := ⟨rfl, ⟨rfl, rfl, rfl, rfl, rfl, rfl⟩, fun _ => rfl⟩

theorem Ps.Same.of_eq {a b : Ps} (h : a = b) : Ps.Same a b := h ▸ Ps.Same.refl a

/-- Only an unconfigured pitch shifter holds anything unspecified. -/
theorem Ps.Same.map {a b : Ps} (h : Ps.Same a b) (f : Ps → Ps)
    (off : a.cfg = false → b.cfg = false → Ps.Same (f a) (f b)) : Ps.Same (f a) (f b) := by
  cases hc : a.cfg with
  | true => exact .of_eq (congrArg f (h.unit hc))
  | false => exact off hc (h.cfg ▸ hc)

theorem Ps.Same.configure {a b : Ps} (h : Ps.Same a b) (v : F32) : Ps.Same (psConfigure a v) (psConfigure b v) := by
  refine h.map (psConfigure · v) fun ha hb => ?_
  obtain ⟨hcents, hratio, hrate, hdepth, hwA, hwS⟩ := h.params
  simp only [psConfigure, rateUnchanged, ha, hb, Bool.false_and, Bool.false_eq_true, if_false]
  refine .of_eq ?_
  simp only [hcents, hratio, hrate, hdepth, hwA, hwS]

theorem Ps.Same.reset {a b : Ps} (h : Ps.Same a b) : Ps.Same (psReset a) (psReset b) := by
  refine h.map psReset fun ha hb => ?_
  simp only [psReset, ha, hb, Bool.false_eq_true, if_false]
  exact h

theorem Ps.Same.setPitch {a b : Ps} (h : Ps.Same a b) (d : Draw) (v : F32) :
    Ps.Same (psSetPitch d a v) (psSetPitch d b v) := by
  obtain ⟨_, _, hrate, hdepth, hwA, hwS⟩ := h.params
  exact ⟨h.cfg, ⟨rfl, rfl, hrate, hdepth, hwA, hwS⟩, fun hc => congrArg (psSetPitch d · v) (h.unit hc)⟩

theorem Ps.Same.setDrift {a b : Ps} (h : Ps.Same a b) (rate depth : F32) :
    Ps.Same { a with driftRate := rate, driftDepth := depth } { b with driftRate := rate, driftDepth := depth } := by
  obtain ⟨hcents, hratio, _, _, hwA, hwS⟩ := h.params
  exact ⟨h.cfg, ⟨hcents, hratio, rfl, rfl, hwA, hwS⟩,
    fun hc => congrArg (fun ps : Ps => { ps with driftRate := rate, driftDepth := depth }) (h.unit hc)⟩

/-! ### The tape -/

/-- Tapes that agree on what is specified (R30, R31). -/
structure Tp.Same (a b : Tp) : Prop where
  cfg : a.cfg = b.cfg
  params : Tp.sameParams a b
  unit : a.cfg = true → a = b

theorem Tp.Same.of_eq {a b : Tp} (h : a = b) : Tp.Same a b := h ▸ ⟨rfl, rfl, fun _ => rfl⟩

/-- The parts of a tape that are no parameters, replaced. -/
def Tp.withRest (a : Tp) (cfg : Bool) (sr : F32) (TN : Nat) (ch : PerCh TpChan) : Tp :=
  { a with cfg := cfg, sr := sr, TN := TN, ch := ch }

theorem Tp.sameParams_iff (a b : Tp) : Tp.sameParams a b ↔ ∃ cfg sr TN ch, b = a.withRest cfg sr TN ch := by
  constructor
  · intro h
    exact ⟨b.cfg, b.sr, b.TN, b.ch, h⟩
  · rintro ⟨cfg, sr, TN, ch, rfl⟩
    rfl

/-- A setter of a parameter keeps the relation. -/
theorem Tp.Same.set {a b : Tp} (h : Tp.Same a b) (f : Tp → Tp) (hcfg : ∀ tp, (f tp).cfg = tp.cfg)
    (hf : ∀ cfg sr TN ch, f (a.withRest cfg sr TN ch) = (f a).withRest cfg sr TN ch) : Tp.Same (f a) (f b) where
  cfg := by rw [hcfg, hcfg, h.cfg]
  params := by
    obtain ⟨cfg, sr, TN, ch, rfl⟩ := (Tp.sameParams_iff a b).1 h.params
    exact (Tp.sameParams_iff _ _).2 ⟨cfg, sr, TN, ch, hf cfg sr TN ch⟩
  unit hc := congrArg f (h.unit (hcfg a ▸ hc))

/-! ### The quantizer -/

/-- Quantizers that agree but for the scale-file bytes that are not staged (R32). -/
structure Tq.Same (a b : Tq) : Prop where
  regs : a = { b with sclbuf := a.sclbuf }
  staged : ∀ i, i < a.sclLen → a.sclbuf.read i = b.sclbuf.read i

theorem Tq.Same.exists_sclbuf {a b : Tq} (h : Tq.Same a b) : ∃ m, a = { b with sclbuf := m } := ⟨a.sclbuf, h.regs⟩

theorem Tq.Same.sclLen {a b : Tq} (h : Tq.Same a b) : a.sclLen = b.sclLen := by
  obtain ⟨m, rfl⟩ := h.exists_sclbuf
  rfl

/-- An operation that neither reads nor writes the staged text keeps the relation. -/
theorem Tq.Same.set {a b : Tq} (h : Tq.Same a b) (f : Tq → Tq) (hlen : (f a).sclLen ≤ a.sclLen)
    (hf : ∀ (tq : Tq) (m : Memory 8), f { tq with sclbuf := m } = { f tq with sclbuf := m }) :
    Tq.Same (f a) (f b) := by
  have hbuf (tq : Tq) : (f tq).sclbuf = tq.sclbuf := by
    have := congrArg Tq.sclbuf (hf tq tq.sclbuf)
    exact this
  constructor
  · rw [hbuf, ← hf, ← h.regs]
  · intro i hi
    rw [hbuf, hbuf]
    exact h.staged i (Nat.lt_of_lt_of_le hi hlen)

theorem Tq.Same.install {a b : Tq} (h : Tq.Same a b) (scale : List F32) (desc : List Byte) :
    Tq.Same (tqInstall a scale desc) (tqInstall b scale desc) :=
  h.set (tqInstall · scale desc) (Nat.le_refl _) fun _ _ => rfl

/-- R303: a staged byte is written in both. -/
theorem Tq.Same.stage {a b : Tq} (h : Tq.Same a b) (ha : a.sclbuf.wf = true) (hb : b.sclbuf.wf = true) (byte : Byte) :
    Tq.Same (tqStage a byte) (tqStage b byte) := by
  have hl := h.sclLen
  by_cases hfull : a.sclLen < Config.sclBufBytes
  · simp only [tqStage, if_pos hfull, if_pos (hl ▸ hfull)]
    constructor
    · show Tq.mk a.len a.scale a.descLen a.desc (a.sclLen + 1) _ a.auth = _
      rw [h.regs]
    · intro i hi
      show (a.sclbuf.write a.sclLen byte).read i = (b.sclbuf.write b.sclLen byte).read i
      rw [← hl]
      by_cases he : i = a.sclLen
      · rw [he, Memory.read_write_same _ _ _ ha, Memory.read_write_same _ _ _ hb]
      · rw [Memory.read_write_other _ _ _ _ he, Memory.read_write_other _ _ _ _ he]
        exact h.staged i (Nat.lt_of_le_of_ne (Nat.le_of_lt_succ hi) he)
  · simp only [tqStage, if_neg hfull, if_neg (hl ▸ hfull)]
    exact h

/-- R310: only the staged bytes are parsed. -/
theorem Tq.Same.parsed {a b : Tq} (h : Tq.Same a b) : tqParsed a = tqParsed b := by
  have cells : a.sclbuf.cells a.sclLen = b.sclbuf.cells a.sclLen :=
    List.map_congr_left fun i hi => h.staged i (List.mem_range.1 hi)
  unfold tqParsed
  rw [cells, h.sclLen]

theorem Tq.Same.load {a b : Tq} (h : Tq.Same a b) :
    Tq.Same (tqLoad a).1 (tqLoad b).1 ∧ (tqLoad a).2 = (tqLoad b).2 := by
  unfold tqLoad
  rw [h.parsed]
  split
  · exact ⟨h.install _ _, rfl⟩
  · exact ⟨h, rfl⟩

/-- R304: quantizing reads no scale-file byte. -/
theorem Tq.Same.quantize {a b : Tq} (h : Tq.Same a b) (d : Draw) (v : F32) : tqQuantize d a v = tqQuantize d b v := by
  obtain ⟨m, rfl⟩ := h.exists_sclbuf
  rfl

theorem Tq.Same.descWords {a b : Tq} (h : Tq.Same a b) : tqDescWords a = tqDescWords b := by
  obtain ⟨m, rfl⟩ := h.exists_sclbuf
  rfl

/-! ### The tape path and the router's channel -/

/-- R250: with the mode on the channel's tape path runs. -/
theorem State.tpThrough_on (s : State) (d : Draw) (c : Chan) (x : F32) (h : s.tp.mode = true) :
    s.tpThrough d c x =
      (s.setTpPath c (tpProcess d s.tp s.bq c (s.tpPath c) x).1, (tpProcess d s.tp s.bq c (s.tpPath c) x).2) :=
  if_pos h

theorem State.tpReset_cfg (s : State) : s.tpReset.tp.cfg = s.tp.cfg := by
  unfold State.tpReset
  simp only
  split <;> rfl

/-- R336: the pitch shifter's part of a channel. -/
def rtPitch (d : Draw) (ps : Ps) (c : Chan) (x : F32) : PsChan × F32 :=
  psProcess (d.at 0) ps (ps.ch.get c) (guardF x f0)

/-- R336: the delay line's part of a channel, on the checked pitch signal `p`. -/
def rtDelay (d : Draw) (dl : Dl) (rt : Rt) (c : Chan) (p : F32) : DlChan × F32 :=
  dlProcess (d.at 2) dl (dl.ch.get c) p (fmul (d.at 1) rt.xfbAmt (rt.prevDelayed.get (otherChan c)))

/-- R336, R338: a channel of a frame, part by part. -/
theorem State.rtChannel_eq (s : State) (d : Draw) (c : Chan) (x : F32) :
    s.rtChannel d c x =
      let pr := rtPitch d s.ps c x
      let p := guardF pr.2 (guardF x f0)
      let dr := rtDelay d s.dl s.rt c p
      { s with ps := { s.ps with ch := s.ps.ch.set c pr.1 }, dl := { s.dl with ch := s.dl.ch.set c dr.1 } }.tpThrough
        (d.at 3) c (guardF dr.2 p) := rfl

/-! ### The whole state -/

namespace SameSpecified

variable {s t : State}

theorem draw (h : SameSpecified s t) : s.draw = t.draw := by rw [State.draw, State.draw, h.draws]

theorem faulted (h : SameSpecified s t) : s.faulted = t.faulted := by rw [State.faulted, State.faulted, h.status]

theorem dlSame (h : SameSpecified s t) : Dl.Same s.dl t.dl := ⟨h.dlParams.1, h.dlParams.2, h.dlTaps, h.dlUnit⟩

theorem psSame (h : SameSpecified s t) : Ps.Same s.ps t.ps := ⟨h.psParams.1, h.psParams.2, h.psUnit⟩

theorem tpSame (h : SameSpecified s t) : Tp.Same s.tp t.tp := ⟨h.tpParams.1, h.tpParams.2, h.tpUnit⟩

theorem tqSame (h : SameSpecified s t) : Tq.Same s.tq t.tq := ⟨h.tq, h.staged⟩

theorem setDl (h : SameSpecified s t) {a b : Dl} (hab : Dl.Same a b) :
    SameSpecified { s with dl := a } { t with dl := b } :=
  { h with dlParams := ⟨hab.cfg, hab.params⟩, dlTaps := hab.taps, dlUnit := hab.unit }

theorem setPs (h : SameSpecified s t) {a b : Ps} (hab : Ps.Same a b) :
    SameSpecified { s with ps := a } { t with ps := b } :=
  { h with psParams := ⟨hab.cfg, hab.params⟩, psUnit := hab.unit }

theorem setTp (h : SameSpecified s t) {a b : Tp} (hab : Tp.Same a b) (hcfg : a.cfg = s.tp.cfg) :
    SameSpecified { s with tp := a } { t with tp := b } :=
  { h with tpParams := ⟨hab.cfg, hab.params⟩, tpUnit := hab.unit, bqUnit := fun hc => h.bqUnit (hcfg ▸ hc) }

theorem setTq (h : SameSpecified s t) {a b : Tq} (hab : Tq.Same a b) :
    SameSpecified { s with tq := a } { t with tq := b } :=
  { h with tq := hab.regs, staged := hab.staged }

theorem setRt (h : SameSpecified s t) {a b : Rt} (hab : a = b) : SameSpecified { s with rt := a } { t with rt := b } :=
  { h with rt := hab }

theorem setBqh (h : SameSpecified s t) {a b : PerCh (Four BqHist)} (hab : a = b) :
    SameSpecified { s with bqh := a } { t with bqh := b } :=
  { h with bqh := hab }

theorem setCmd (h : SameSpecified s t) (rest : List Word) :
    SameSpecified { s with cmd := rest } { t with cmd := rest } :=
  { h with cmd := rfl }

theorem setBq (h : SameSpecified s t) (hbq : s.bq = t.bq) (j : Fin 4) {a b : BqParams} (hab : a = b) :
    SameSpecified (s.setBq j a) (t.setBq j b) :=
  have eq : s.bq.set j a = t.bq.set j b := by rw [hbq, hab]
  { h with bqParams := fun k => by simp only [State.setBq_bq, eq, and_self], bqUnit := fun _ => eq }

theorem retire (h : SameSpecified s t) : SameSpecified s.retire t.retire :=
  { h with cix := congrArg (· + 1) h.cix, draws := congrArg (· + 1) h.draws }

theorem respond (h : SameSpecified s t) {ys zs : List Word} (e : ys = zs) :
    SameSpecified (s.respond ys) (t.respond zs) :=
  { h with rsp := by rw [State.respond_rsp, State.respond_rsp, h.rsp, e] }

theorem raise (h : SameSpecified s t) (c : Cause) : SameSpecified (s.raise c) (t.raise c) := by
  unfold State.raise
  rw [h.faulted]
  split
  · exact h
  · exact { h with status := congrArg (statusWord c) h.cix }

theorem whenConfigured (h : SameSpecified s t) {cfg cfg' : Bool} {body body' : State} (hcfg : cfg = cfg')
    (hb : cfg = true → SameSpecified body body') :
    SameSpecified (s.whenConfigured cfg body) (t.whenConfigured cfg' body') := by
  subst hcfg
  cases cfg with
  | true => exact (hb rfl).retire
  | false => exact h.raise .notConfigured

theorem withSel {α : Type} (h : SameSpecified s t) (sel : Option α) {body body' : α → State}
    (hb : ∀ v, SameSpecified (body v) (body' v)) : SameSpecified (s.withSel sel body) (t.withSel sel body') := by
  cases sel with
  | some v => exact hb v
  | none => exact h.raise .badSel

/-! ### The commands of each unit -/

/-- R130: a configured delay line is the same in both. -/
theorem dlRun (h : SameSpecified s t) (hc : s.dl.cfg = true) (c : Chan) (x xfb : F32) :
    SameSpecified (s.dlRun c x xfb) (t.dlRun c x xfb) := by
  have hdl := h.dlUnit hc
  unfold State.dlRun
  rw [h.draw, hdl]
  exact (h.setDl (.refl _)).respond rfl

/-- R131, R132 -/
theorem dlRead (h : SameSpecified s t) (c : Chan) :
    SameSpecified (s.respond [(s.dl.ch.get c).delayed]) (t.respond [(t.dl.ch.get c).delayed]) :=
  h.respond (congrArg (fun v => [v]) (h.dlTaps c))

theorem psRun (h : SameSpecified s t) (hc : s.ps.cfg = true) (c : Chan) (x : F32) :
    SameSpecified (s.psRun c x) (t.psRun c x) := by
  have hps := h.psUnit hc
  unfold State.psRun
  rw [h.draw, hps]
  exact (h.setPs (.refl _)).respond rfl

theorem setHist (h : SameSpecified s t) (c : Chan) (j : Fin 4) {a b : BqHist} (hab : a = b) :
    SameSpecified (s.setHist c j a) (t.setHist c j b) :=
  h.setBqh (by rw [h.bqh, hab])

theorem bqRun (h : SameSpecified s t) (hc : s.tp.cfg = true) (j : Fin 4) (c : Chan) (x : F32) :
    SameSpecified (s.bqRun j c x) (t.bqRun j c x) := by
  unfold State.bqRun
  rw [h.draw, h.bqUnit hc, h.bqh]
  exact (h.setHist c j rfl).respond rfl

theorem setLp (h : SameSpecified s t) (hc : s.tp.cfg = true) (j : Fin 4) (f q : F32) :
    SameSpecified (s.setBq j (bqSetLp s.draw (s.bq.get j) f q s.tp.sr))
      (t.setBq j (bqSetLp t.draw (t.bq.get j) f q t.tp.sr)) :=
  h.setBq (h.bqUnit hc) j (by rw [h.draw, h.bqUnit hc, h.tpUnit hc])

theorem setGain (h : SameSpecified s t) (hc : s.tp.cfg = true) (kind : FilterKind) (j : Fin 4) (f g q : F32) :
    SameSpecified (s.setBq j (bqSetGain s.draw kind (s.bq.get j) f g q s.tp.sr))
      (t.setBq j (bqSetGain t.draw kind (t.bq.get j) f g q t.tp.sr)) :=
  h.setBq (h.bqUnit hc) j (by rw [h.draw, h.bqUnit hc, h.tpUnit hc])

/-- A setter of a tape parameter. -/
theorem setTpParam (h : SameSpecified s t) (f : Tp → Tp) (hcfg : ∀ tp, (f tp).cfg = tp.cfg)
    (hf : ∀ cfg sr TN ch, f (s.tp.withRest cfg sr TN ch) = (f s.tp).withRest cfg sr TN ch) :
    SameSpecified { s with tp := f s.tp } { t with tp := f t.tp } :=
  h.setTp (h.tpSame.set f hcfg hf) (hcfg s.tp)

theorem setTpPath (h : SameSpecified s t) (hc : s.tp.cfg = true) (c : Chan) (p : TpPath) :
    SameSpecified (s.setTpPath c p) (t.setTpPath c p) := by
  have tp : Tp.Same (s.setTpPath c p).tp (t.setTpPath c p).tp :=
    .of_eq (by rw [State.setTpPath_tp, State.setTpPath_tp, h.tpUnit hc])
  exact (h.setTp tp rfl).setBqh (by rw [h.bqh])

/-- R250: a configured tape and its filters are the same in both. -/
theorem tpThrough (h : SameSpecified s t) (hc : s.tp.cfg = true) (d : Draw) (c : Chan) (x : F32) :
    SameSpecified (s.tpThrough d c x).1 (t.tpThrough d c x).1 ∧ (s.tpThrough d c x).2 = (t.tpThrough d c x).2 := by
  have htp := h.tpUnit hc
  cases hm : t.tp.mode with
  | false =>
    rw [s.tpThrough_off d c x (htp ▸ hm), t.tpThrough_off d c x hm]
    exact ⟨h, rfl⟩
  | true =>
    have run : tpProcess d s.tp s.bq c (s.tpPath c) x = tpProcess d t.tp t.bq c (t.tpPath c) x := by
      rw [State.tpPath, State.tpPath, htp, h.bqUnit hc, h.bqh]
    rw [s.tpThrough_on d c x (htp ▸ hm), t.tpThrough_on d c x hm, run]
    exact ⟨h.setTpPath hc c _, rfl⟩

/-- R152: of a filter, the coefficient computation reads what has a power-on value. -/
theorem bqCoef_congr (d : Draw) {p q : BqParams} (hp : p.kind = q.kind ∧ p.f = q.f ∧ p.g = q.g ∧ p.q = q.q) (sr : F32) :
    bqCoef d p p.f sr = bqCoef d q q.f sr := by
  obtain ⟨hkind, hf, hg, hq⟩ := hp
  simp only [bqCoef, bqNormalise, hkind, hf, hg, hq]

/-- R213: a configure writes every unspecified register of the tape and the filters. -/
theorem tpReallocate (h : SameSpecified s t) (d : Draw) (v : F32) :
    SameSpecified (s.tpReallocate d v) (t.tpReallocate d v) := by
  have bq : bqRecompute (d.at 1) s.bq v = bqRecompute (d.at 1) t.bq v := by
    have coef (e : Draw) (j : Fin 4) := bqCoef_congr e (h.bqParams j) v
    simp only [bqRecompute]
    congr 1
    · exact coef _ 0
    · exact coef _ 1
    · exact coef _ 2
    · exact coef _ 3
  obtain ⟨cfg, sr, TN, ch, htp⟩ := (Tp.sameParams_iff s.tp t.tp).1 h.tpParams.2
  unfold State.tpReallocate
  rw [bq, htp]
  exact
    { h with
      bqh := rfl
      tpParams := ⟨rfl, rfl⟩
      tpUnit := fun _ => rfl
      bqParams := fun _ => ⟨rfl, rfl, rfl, rfl⟩
      bqUnit := fun _ => rfl }

theorem tpConfigure (h : SameSpecified s t) (d : Draw) (v : F32) :
    SameSpecified (s.tpConfigure d v) (t.tpConfigure d v) := by
  unfold State.tpConfigure
  rw [rateUnchanged_congr (clampRate v) h.tpParams.1 fun hc => congrArg Tp.sr (h.tpUnit hc)]
  split
  · exact h
  · exact h.tpReallocate d _

theorem tpReset (h : SameSpecified s t) : SameSpecified s.tpReset t.tpReset := by
  have tp : Tp.Same s.tpReset.tp t.tpReset.tp := by
    cases hc : s.tp.cfg with
    | true => exact .of_eq (by simp only [State.tpReset, h.tpUnit hc])
    | false => simpa [State.tpReset, hc, ← h.tpParams.1] using h.tpSame
  exact (h.setTp tp s.tpReset_cfg).setBqh rfl

/-! ### The router -/

theorem rtReallocates (h : SameSpecified s t) (v : F32) : s.rtReallocates v = t.rtReallocates v := by
  unfold State.rtReallocates
  rw [rateUnchanged_congr (clampRate v) h.dlParams.1 fun hc => congrArg Dl.sr (h.dlUnit hc),
    rateUnchanged_congr (clampRate v) h.psParams.1 fun hc => congrArg Ps.sr (h.psUnit hc),
    rateUnchanged_congr (clampRate v) h.tpParams.1 fun hc => congrArg Tp.sr (h.tpUnit hc)]

theorem rtConfigure (h : SameSpecified s t) (d : Draw) (v : F32) :
    SameSpecified (s.rtConfigure d v) (t.rtConfigure d v) := by
  have units : SameSpecified (s.rtConfigureUnits d v) (t.rtConfigureUnits d v) :=
    ((h.setDl (h.dlSame.configure (d.at 0) v)).setPs (h.psSame.configure v)).tpConfigure (d.at 1) v
  unfold State.rtConfigure
  rw [h.rtReallocates v]
  split
  · exact units.setRt (congrArg rtClear units.rt)
  · exact units

theorem rtReset (h : SameSpecified s t) : SameSpecified s.rtReset t.rtReset :=
  (((h.setDl h.dlSame.reset).setPs h.psSame.reset).setRt (congrArg rtClear h.rt)).tpReset

theorem rtSetPitch (h : SameSpecified s t) (on : Bool) (v : F32) :
    SameSpecified (s.rtSetPitch on v) (t.rtSetPitch on v) := by
  have cents : rtCents (s.draw.at 1) s.tq on v = rtCents (t.draw.at 1) t.tq on v := by
    simp only [rtCents, h.draw, h.tqSame.quantize]
  unfold State.rtSetPitch
  rw [cents, h.draw]
  exact (h.setRt (congrArg (fun rt : Rt => { rt with quantEn := on }) h.rt)).setPs (h.psSame.setPitch _ _)

end SameSpecified

/-- The three units a frame needs are configured (47_router.md R336). -/
structure State.Running (s : State) : Prop where
  dl : s.dl.cfg = true
  ps : s.ps.cfg = true
  tp : s.tp.cfg = true

theorem State.Running.rtChannel {s : State} (h : s.Running) (d : Draw) (c : Chan) (x : F32) :
    (s.rtChannel d c x).1.Running where
  dl := by rw [State.rtChannel, State.tpThrough_dl]; exact h.dl
  ps := by rw [State.rtChannel, State.tpThrough_ps]; exact h.ps
  tp := by rw [State.rtChannel, State.tpThrough_tp]; exact h.tp

namespace SameSpecified

variable {s t : State}

/-- R336: a channel of a frame reads configured units only. -/
theorem rtChannel (h : SameSpecified s t) (hr : s.Running) (d : Draw) (c : Chan) (x : F32) :
    SameSpecified (s.rtChannel d c x).1 (t.rtChannel d c x).1 ∧ (s.rtChannel d c x).2 = (t.rtChannel d c x).2 := by
  have hps := h.psUnit hr.ps
  have hdl := h.dlUnit hr.dl
  have pitch : rtPitch d s.ps c x = rtPitch d t.ps c x := by rw [hps]
  have delay (p : F32) : rtDelay d s.dl s.rt c p = rtDelay d t.dl t.rt c p := by rw [hdl, h.rt]
  have psSame (ch : PsChan) : Ps.Same { s.ps with ch := s.ps.ch.set c ch } { t.ps with ch := t.ps.ch.set c ch } :=
    .of_eq (by rw [hps])
  have dlSame (ch : DlChan) : Dl.Same { s.dl with ch := s.dl.ch.set c ch } { t.dl with ch := t.dl.ch.set c ch } :=
    .of_eq (by rw [hdl])
  rw [s.rtChannel_eq, t.rtChannel_eq]
  simp only [pitch, delay]
  exact ((h.setPs (psSame _)).setDl (dlSame _)).tpThrough hr.tp _ _ _

theorem rtFinish (h : SameSpecified s t) (hr : s.Running) (d : Draw) : SameSpecified (s.rtFinish d) (t.rtFinish d) := by
  have rt : (s.rtFinish d).rt = (t.rtFinish d).rt := by simp only [State.rtFinish, h.dlUnit hr.dl, h.rt]
  have tq : Tq.Same (s.rtFinish d).tq (t.rtFinish d).tq := by
    obtain ⟨m, hm⟩ := h.tqSame.exists_sclbuf
    exact ⟨by simp only [State.rtFinish, h.rt, hm], h.staged⟩
  exact (h.setRt rt).setTq tq

theorem rtRun (h : SameSpecified s t) (hr : s.Running) (x0 x1 : F32) : SameSpecified (s.rtRun x0 x1) (t.rtRun x0 x1) := by
  obtain ⟨h0, e0⟩ := h.rtChannel hr (t.draw.at 0) .ch0 x0
  have hr0 := hr.rtChannel (t.draw.at 0) .ch0 x0
  obtain ⟨h1, e1⟩ := h0.rtChannel hr0 (t.draw.at 1) .ch1 x1
  have hr1 := hr0.rtChannel (t.draw.at 1) .ch1 x1
  unfold State.rtRun
  rw [h.draw]
  exact (h1.rtFinish hr1 _).respond (by rw [e0, e1])

end SameSpecified

/-! ### The commands and the step -/

/-- A command does the same in two states that agree on what is specified, and they agree again. -/
theorem exec_sameSpecified {i : Instr} {s t s' : State} (h : SameSpecified s t) (hs : s.tq.sclbuf.wf = true)
    (ht : t.tq.sclbuf.wf = true) (he : exec i s = .next s') : ∃ t', exec i t = .next t' ∧ SameSpecified s' t' := by
  cases i <;> obtain rfl := Host.Outcome.next.inj he <;> refine ⟨_, rfl, ?_⟩
  case sysNop => exact h.retire
  case sysStat => exact (h.respond (by rw [h.status])).retire
  case dlCfg v => rw [h.draw]; exact (h.setDl (h.dlSame.configure _ v)).retire
  case dlRst => exact (h.setDl h.dlSame.reset).retire
  case dlSetdelay ms => rw [h.draw]; exact (h.setDl (h.dlSame.setDelay _ ms)).retire
  case dlSetfb v => exact (h.setDl (h.dlSame.setFb _)).retire
  case dlSetmix v => exact (h.setDl (h.dlSame.setMix _)).retire
  case dlProc c x => exact h.whenConfigured h.dlParams.1 fun hc => h.dlRun hc c x f0
  case dlProcXfb c x xfb => exact h.whenConfigured h.dlParams.1 fun hc => h.dlRun hc c x xfb
  case dlGetd c => exact h.whenConfigured h.dlParams.1 fun _ => h.dlRead c
  case dlGetw c => exact h.whenConfigured h.dlParams.1 fun _ => h.dlRead c
  case bqRst j c => exact h.withSel _ fun j => (h.setHist c j rfl).retire
  case bqSetlp j f q => exact h.withSel _ fun j => h.whenConfigured h.tpParams.1 fun hc => h.setLp hc j f q
  case bqSetpk j f g q => exact h.withSel _ fun j => h.whenConfigured h.tpParams.1 fun hc => h.setGain hc _ j f g q
  case bqSeths j f g q => exact h.withSel _ fun j => h.whenConfigured h.tpParams.1 fun hc => h.setGain hc _ j f g q
  case bqProc j c x => exact h.withSel _ fun j => h.whenConfigured h.tpParams.1 fun hc => h.bqRun hc j c x
  case psCfg v => exact (h.setPs (h.psSame.configure v)).retire
  case psRst => exact (h.setPs h.psSame.reset).retire
  case psSetpitch v => rw [h.draw]; exact (h.setPs (h.psSame.setPitch _ v)).retire
  case psSetdrift r v => exact (h.setPs (h.psSame.setDrift _ _)).retire
  case psProc c x => exact h.whenConfigured h.psParams.1 fun hc => h.psRun hc c x
  case tpCfg v => rw [h.draw]; exact (h.tpConfigure _ v).retire
  case tpRst => exact h.tpReset.retire
  case tpSetmode e =>
    exact h.withSel _ fun on =>
      (h.setTpParam (fun tp => { tp with mode := on }) (fun _ => rfl) fun _ _ _ _ => rfl).retire
  case tpSetwf w f wr wd fr fd =>
    exact h.withSel _ fun w =>
      (h.setTpParam
        (fun tp => { tp with
          wowRate := fclamp wr f0p1 f5, wowDepth := fclamp wd f0 Config.wfDepthMax
          flutRate := fclamp fr f1 f15, flutDepth := fclamp fd f0 Config.wfDepthMax
          wowWave := w.1, flutWave := w.2 })
        (fun _ => rfl) fun _ _ _ _ => rfl).retire
  case tpSetsat v a =>
    exact (h.setTpParam
      (fun tp => { tp with drive := fclamp v f0 Config.satDriveMax, satAmt := fclamp a f0 f1 })
      (fun _ => rfl) fun _ _ _ _ => rfl).retire
  case tpProc c x =>
    refine h.whenConfigured h.tpParams.1 fun hc => ?_
    obtain ⟨through, out⟩ := h.tpThrough hc t.draw c x
    unfold State.tpRun
    rw [h.draw]
    exact through.respond (by rw [out])
  case tpSethb f g q => exact h.whenConfigured h.tpParams.1 fun hc => h.setGain hc _ 1 f g q
  case tpSetroll f q => exact h.whenConfigured h.tpParams.1 fun hc => h.setLp hc 2 f q
  case tpSetage v =>
    exact (h.setTpParam (fun tp => { tp with aging := fclamp v f0 f1 }) (fun _ => rfl) fun _ _ _ _ => rfl).retire
  case tpSetinst v =>
    exact (h.setTpParam (fun tp => { tp with instab := fclamp v f0 f1 }) (fun _ => rfl) fun _ _ _ _ => rfl).retire
  case tpSetheads k =>
    exact h.withSel _ fun k =>
      (h.setTpParam (fun tp => { tp with headCfg := k, headDelay := headDelays k }) (fun _ => rfl)
        fun _ _ _ _ => rfl).retire
  case tpSetnoise e v =>
    exact h.withSel _ fun on =>
      (h.setTpParam (fun tp => { tp with noiseEn := on, noiseAmt := fclamp v f0 f1 }) (fun _ => rfl)
        fun _ _ _ _ => rfl).retire
  case tqSetdef => exact (h.setTq (h.tqSame.install _ _)).retire
  case tqSettuning id => exact h.withSel _ fun id => (h.setTq (h.tqSame.install _ _)).retire
  case tqSclclr =>
    exact (h.setTq (h.tqSame.set (fun tq => { tq with sclLen := 0 }) (Nat.zero_le _) fun _ _ => rfl)).retire
  case tqSclb b => exact (h.setTq (h.tqSame.stage hs ht b)).retire
  case tqQuant v => exact (h.respond (by rw [h.draw, h.tqSame.quantize])).retire
  case tqLoad =>
    obtain ⟨load, answer⟩ := h.tqSame.load
    exact ((h.setTq load).respond (by rw [answer])).retire
  case tqGetdesc => exact (h.respond h.tqSame.descWords).retire
  case rtCfg v => rw [h.draw]; exact (h.rtConfigure _ v).retire
  case rtRst => exact h.rtReset.retire
  case rtSetxfb v => exact (h.setRt (congrArg (fun rt : Rt => { rt with xfbAmt := fclamp v f0 f1 }) h.rt)).retire
  case rtSetpitch e v => exact h.withSel _ fun on => (h.rtSetPitch on v).retire
  case rtFrame x0 x1 =>
    refine h.whenConfigured (by rw [h.dlParams.1, h.psParams.1, h.tpParams.1]) fun hc => ?_
    simp only [Bool.and_eq_true] at hc
    obtain ⟨⟨hdl, hps⟩, htp⟩ := hc
    exact h.rtRun ⟨hdl, hps, htp⟩ x0 x1

theorem sclbuf_wf_of_memoriesOk {s : State} (h : s.memoriesOk = true) : s.tq.sclbuf.wf = true := by
  simp only [State.memoriesOk, memOk, Bool.and_eq_true] at h
  exact h.2.1

/-- Settles O29: each command keeps the agreement, and the prologue reads specified state only. -/
theorem unspecifiedStateIsUnobservable : Obligations.UnspecifiedStateIsUnobservable := by
  intro s t s' h hs ht hstep
  have ws := sclbuf_wf_of_memoriesOk hs
  have wt := sclbuf_wf_of_memoriesOk ht
  obtain ⟨rest, hc, rfl⟩ | ⟨hf, w, rest, hw, hc, rfl⟩ | ⟨hf, w, rest, c, hw, hc, hd, rfl⟩ | ⟨hf, i, rest, hd, he⟩ :=
    step_cases s s' hstep
  · rw [step_stat (h.cmd ▸ hc)]
    exact exec_sameSpecified (i := .sysStat) (h.setCmd rest) ws wt rfl
  · exact ⟨_, step_halted (h.cmd ▸ hc) hw (h.faulted ▸ hf), h.setCmd rest⟩
  · refine ⟨_, step_malformed (h.cmd ▸ hc) hw (h.faulted ▸ hf) (h.cmd ▸ hd), ?_⟩
    exact { h.setCmd rest with status := congrArg (statusWord c) h.cix }
  · rw [step_decoded (h.faulted ▸ hf) (h.cmd ▸ hd)]
    exact exec_sameSpecified (h.setCmd rest) ws wt he

end Sys2Proof.Machine
end

section
/-! PROOFS. The memories (20_memory.md): what a command leaves of the rings, the canonical form every step keeps (R60,
R61), the capacities (R74), the history a ring holds (R63), and that the channels of a frame work apart (R71). -/

namespace Sys2Proof.Machine

/-! ### The rings a command leaves alone -/

/-- A ring and its write cursor (20_memory.md R63). -/
structure RingBuf where
  buf : Memory 32
  w : Nat

/-- What the delay line and the tape have in common: two rings of one capacity, in a unit that is configured or not. -/
structure RingPair where
  cfg : Bool
  cap : Nat
  ch : PerCh RingBuf

/-- `DLBUF` (R26). -/
def Dl.rings (dl : Dl) : RingPair := ⟨dl.cfg, dl.N, ⟨⟨dl.ch.c0.buf, dl.ch.c0.w⟩, ⟨dl.ch.c1.buf, dl.ch.c1.w⟩⟩⟩

/-- `TPBUF` (R31). -/
def Tp.rings (tp : Tp) : RingPair := ⟨tp.cfg, tp.TN, ⟨⟨tp.ch.c0.buf, tp.ch.c0.w⟩, ⟨tp.ch.c1.buf, tp.ch.c1.w⟩⟩⟩

/-- The capacity is kept, and the rings are too unless the unit is configured. -/
structure RingPair.Kept (a b : RingPair) : Prop where
  cfg : b.cfg = a.cfg
  cap : b.cap = a.cap
  idle : a.cfg = false → b.ch = a.ch

theorem RingPair.Kept.refl (a : RingPair) : RingPair.Kept a a := ⟨rfl, rfl, fun _ => rfl⟩

theorem RingPair.Kept.trans {a b c : RingPair} (h : RingPair.Kept a b) (k : RingPair.Kept b c) : RingPair.Kept a c :=
  ⟨k.cfg.trans h.cfg, k.cap.trans h.cap, fun hc => (k.idle (h.cfg.trans hc)).trans (h.idle hc)⟩

/-- Of a configured unit only the capacity is asked. -/
theorem RingPair.Kept.of_configured {a b : RingPair} (hc : a.cfg = true) (hcfg : b.cfg = a.cfg) (hcap : b.cap = a.cap) :
    RingPair.Kept a b :=
  ⟨hcfg, hcap, fun h => absurd (h.symm.trans hc) Bool.false_ne_true⟩

/-- R126: without a configured unit there is no ring to reset. -/
theorem dlReset_kept (dl : Dl) : RingPair.Kept dl.rings (dlReset dl).rings := by
  refine ⟨rfl, rfl, fun hc => ?_⟩
  have off : dl.cfg = false := hc
  simp only [Dl.rings, dlReset, dlResetChan, off, Bool.false_eq_true, if_false]

theorem dlSetDelay_kept (d : Draw) (dl : Dl) (ms : F32) : RingPair.Kept dl.rings (dlSetDelay d dl ms).rings := by
  obtain ⟨n, v, he⟩ := dlSetDelay_eq d dl ms
  rw [he]
  exact ⟨rfl, rfl, fun _ => rfl⟩

/-- R125: after a configure the unit is configured. -/
theorem dlConfigure_cfg (d : Draw) (dl : Dl) (v : F32) : (dlConfigure d dl v).cfg = true := by
  unfold dlConfigure
  split
  · next h => exact (Bool.and_eq_true_iff.1 h).1
  · rfl

/-- R213: after a configure the unit is configured. -/
theorem State.tpConfigure_cfg (s : State) (d : Draw) (v : F32) : (s.tpConfigure d v).tp.cfg = true := by
  unfold State.tpConfigure
  split
  · next h => exact (Bool.and_eq_true_iff.1 h).1
  · rfl

/-- R332: `RT.CFG` leaves the delay line and the tape as the configures of the units do, and the quantizer too. -/
theorem State.rtConfigure_units (s : State) (d : Draw) (v : F32) :
    (s.rtConfigure d v).dl = (s.rtConfigureUnits d v).dl ∧ (s.rtConfigure d v).tp = (s.rtConfigureUnits d v).tp ∧
      (s.rtConfigure d v).tq = (s.rtConfigureUnits d v).tq := by
  unfold State.rtConfigure
  split <;> exact ⟨rfl, rfl, rfl⟩

/-- R214: without a configured unit there is no ring to reset. -/
theorem State.tpReset_kept (s : State) : RingPair.Kept s.tp.rings s.tpReset.tp.rings := by
  unfold State.tpReset
  cases hc : s.tp.cfg with
  | true => exact .of_configured hc rfl rfl
  | false => exact .refl s.tp.rings

/-- The rings of both units and the capacities are kept, and so is the length of the active scale. -/
structure RingsKept (s t : State) : Prop where
  dl : RingPair.Kept s.dl.rings t.dl.rings
  tp : RingPair.Kept s.tp.rings t.tp.rings
  len : t.tq.len = s.tq.len

theorem RingsKept.trans {s t u : State} (h : RingsKept s t) (k : RingsKept t u) : RingsKept s u :=
  ⟨h.dl.trans k.dl, h.tp.trans k.tp, k.len.trans h.len⟩

theorem RingsKept.raise (s : State) (c : Cause) : RingsKept s (s.raise c) := by
  constructor
  · rw [State.raise_dl]; exact .refl s.dl.rings
  · rw [State.raise_tp]; exact .refl s.tp.rings
  · rw [State.raise_tq]

theorem RingsKept.whenConfigured {s body : State} {cfg : Bool} (h : cfg = true → RingsKept s body) :
    RingsKept s (s.whenConfigured cfg body) := by
  cases cfg with
  | true => exact { h rfl with }
  | false => exact .raise s _

theorem RingsKept.withSel {α : Type} {s : State} (sel : Option α) {body : α → State} (h : ∀ v, RingsKept s (body v)) :
    RingsKept s (s.withSel sel body) := by
  cases sel with
  | some v => exact h v
  | none => exact .raise s _

/-- R250: the tape path runs on a configured tape. -/
theorem tpThrough_ringsKept {s : State} (hc : s.tp.cfg = true) (d : Draw) (c : Chan) (x : F32) :
    RingsKept s (s.tpThrough d c x).1 := by
  constructor
  · rw [State.tpThrough_dl]; exact .refl s.dl.rings
  · rw [State.tpThrough_tp]; exact .of_configured hc rfl rfl
  · rw [State.tpThrough_tq]

theorem rtChannel_ringsKept {s : State} (h : s.Running) (d : Draw) (c : Chan) (x : F32) :
    RingsKept s (s.rtChannel d c x).1 := by
  have units (ps : Ps) (ch : PerCh DlChan) : RingsKept s { s with ps := ps, dl := { s.dl with ch := ch } } :=
    ⟨.of_configured h.dl rfl rfl, .refl _, rfl⟩
  exact (units _ _).trans (tpThrough_ringsKept (by exact h.tp) (d.at 3) c _)

theorem rtRun_ringsKept {s : State} (h : s.Running) (x0 x1 : F32) : RingsKept s (s.rtRun x0 x1) := by
  have ch0 := rtChannel_ringsKept h (s.draw.at 0) .ch0 x0
  have ch1 := rtChannel_ringsKept (h.rtChannel (s.draw.at 0) .ch0 x0) (s.draw.at 1) .ch1 x1
  exact { ch0.trans ch1 with }

theorem rtReset_ringsKept (s : State) : RingsKept s s.rtReset :=
  ⟨dlReset_kept s.dl, State.tpReset_kept { s with dl := _, ps := _, rt := _ }, rfl⟩

theorem tqStage_len (tq : Tq) (b : Byte) : (tqStage tq b).len = tq.len := by unfold tqStage; split <;> rfl

/-- What a command may do to the rings: only a configure sizes one, and then the unit is configured; only an install changes
the length of the scale. -/
structure RingEffect (i : Instr) (s t : State) : Prop where
  dl : RingPair.Kept s.dl.rings t.dl.rings ∨ t.dl.cfg = true ∧ ∃ v, i = .dlCfg v ∨ i = .rtCfg v
  tp : RingPair.Kept s.tp.rings t.tp.rings ∨ t.tp.cfg = true ∧ ∃ v, i = .tpCfg v ∨ i = .rtCfg v
  len : t.tq.len = s.tq.len ∨ i = .tqSetdef ∨ (∃ id, i = .tqSettuning id) ∨ i = .tqLoad

theorem RingsKept.effect {s t : State} (h : RingsKept s t) (i : Instr) : RingEffect i s t :=
  ⟨.inl h.dl, .inl h.tp, .inl h.len⟩

/-- R74: the effect of every command on the rings. -/
theorem exec_ringEffect {i : Instr} {s t : State} (h : exec i s = .next t) : RingEffect i s t := by
  have dlSame := RingPair.Kept.refl s.dl.rings
  have tpSame := RingPair.Kept.refl s.tp.rings
  cases i <;> obtain rfl := Host.Outcome.next.inj h
  case dlCfg v =>
    exact { dl := .inr ⟨dlConfigure_cfg _ _ v, v, .inl rfl⟩, tp := .inl tpSame, len := .inl rfl }
  case tpCfg v =>
    exact
      { dl := .inl (by rw [State.retire_dl, State.tpConfigure_dl]; exact dlSame)
        tp := .inr ⟨s.tpConfigure_cfg _ v, v, .inl rfl⟩
        len := .inl (by rw [State.retire_tq, State.tpConfigure_tq]) }
  case rtCfg v =>
    obtain ⟨hdl, htp, htq⟩ := s.rtConfigure_units s.draw v
    refine ⟨.inr ⟨?_, v, .inr rfl⟩, .inr ⟨?_, v, .inr rfl⟩, .inl ?_⟩
    · rw [State.retire_dl, hdl, State.rtConfigureUnits, State.tpConfigure_dl]; exact dlConfigure_cfg _ _ v
    · rw [State.retire_tp, htp]; exact State.tpConfigure_cfg _ _ v
    · rw [State.retire_tq, htq, State.rtConfigureUnits, State.tpConfigure_tq]
  case tqSetdef => exact ⟨.inl dlSame, .inl tpSame, .inr (.inl rfl)⟩
  case tqLoad => exact ⟨.inl dlSame, .inl tpSame, .inr (.inr (.inr rfl))⟩
  case tqSettuning id =>
    cases selTuning id with
    | none => rw [State.withSel_none]; exact (RingsKept.raise s _).effect _
    | some k => exact ⟨.inl dlSame, .inl tpSame, .inr (.inr (.inl ⟨id, rfl⟩))⟩
  all_goals refine RingsKept.effect ?_ _
  case sysNop | sysStat | dlSetfb | dlSetmix | psCfg | psRst | psSetpitch | psSetdrift | tpSetsat | tpSetage | tpSetinst
    | tqSclclr | tqQuant | tqGetdesc | rtSetxfb => exact ⟨⟨rfl, rfl, fun _ => rfl⟩, ⟨rfl, rfl, fun _ => rfl⟩, rfl⟩
  case bqRst | tpSetmode | tpSetwf | tpSetheads | tpSetnoise | rtSetpitch =>
    exact .withSel _ fun _ => ⟨dlSame, ⟨rfl, rfl, fun _ => rfl⟩, rfl⟩
  case bqSetlp | bqSetpk | bqSeths | bqProc => exact .withSel _ fun _ => .whenConfigured fun _ => ⟨dlSame, tpSame, rfl⟩
  case dlGetd | dlGetw | psProc | tpSethb | tpSetroll => exact .whenConfigured fun _ => ⟨dlSame, tpSame, rfl⟩
  case dlProc | dlProcXfb => exact .whenConfigured fun hc => ⟨.of_configured hc rfl rfl, tpSame, rfl⟩
  case dlRst => exact ⟨dlReset_kept s.dl, tpSame, rfl⟩
  case dlSetdelay ms => exact ⟨dlSetDelay_kept _ s.dl ms, tpSame, rfl⟩
  case tpRst => exact ⟨dlSame, s.tpReset_kept, rfl⟩
  case tpProc c x => exact .whenConfigured fun hc => { tpThrough_ringsKept hc s.draw c x with }
  case tqSclb b => exact ⟨dlSame, tpSame, tqStage_len s.tq b⟩
  case rtRst => exact { rtReset_ringsKept s with }
  case rtFrame x0 x1 =>
    refine .whenConfigured fun hc => ?_
    simp only [Bool.and_eq_true] at hc
    obtain ⟨⟨hdl, hps⟩, htp⟩ := hc
    exact rtRun_ringsKept ⟨hdl, hps, htp⟩ x0 x1

/-- Settles O24: a capacity that changed was not kept, so the command is one of those that size it. -/
theorem onlyConfigureResizes : Obligations.OnlyConfigureResizes := by
  intro i s t h
  have effect := exec_ringEffect h
  refine ⟨fun hN => ?_, fun hN => ?_, fun hlen => effect.len.resolve_left hlen⟩
  · exact (effect.dl.resolve_left fun kept => hN kept.cap).2
  · exact (effect.tp.resolve_left fun kept => hN kept.cap).2

/-! ### Canonical memories (R60, R61) -/

theorem memOk_write {w n i : Nat} {m : Memory w} (h : memOk n m = true) (hi : i < n) (v : BitVec w) :
    memOk n (m.write i v) = true := by
  obtain ⟨hwf, hbelow⟩ := Bool.and_eq_true_iff.1 h
  exact Bool.and_eq_true_iff.2 ⟨Memory.write_wf m i v hwf, Memory.write_below m n i v hbelow hi⟩

/-- An empty ring, its cursor at the start. -/
def RingBuf.empty : RingBuf := ⟨[], 0⟩

/-- A write at the cursor and its advance in a ring of `N` cells (R63). -/
def RingBuf.push (N : Nat) (r : RingBuf) (v : F32) : RingBuf := ⟨r.buf.write r.w v, ringAdvance N r.w⟩

/-- What a write at the cursor needs and keeps: the cells are canonical, and the cursor is inside. -/
def RingBuf.writable (N : Nat) (r : RingBuf) : Bool := memOk N r.buf && decide (r.w < N)

theorem RingBuf.writable_iff (N : Nat) (r : RingBuf) : r.writable N = true ↔ memOk N r.buf = true ∧ r.w < N := by
  simp only [RingBuf.writable, Bool.and_eq_true, decide_eq_true_eq]

theorem RingBuf.writable_empty {N : Nat} (h : 0 < N) : RingBuf.empty.writable N = true :=
  (RingBuf.writable_iff N _).2 ⟨rfl, h⟩

theorem RingBuf.writable_push {N : Nat} {r : RingBuf} (h : r.writable N = true) (v : F32) :
    (r.push N v).writable N = true := by
  obtain ⟨hm, hw⟩ := (r.writable_iff N).1 h
  exact (RingBuf.writable_iff N _).2 ⟨memOk_write hm hw v, ringAdvance_lt N r.w (Nat.zero_lt_of_lt hw)⟩

/-- The rings of a configured unit can be written. -/
def RingPair.writable (r : RingPair) : Prop := r.cfg = true → r.ch.all (RingBuf.writable r.cap) = true

/-- Both rings emptied (R102, R103). -/
def RingPair.zeroed (r : RingPair) : RingPair := { r with ch := PerCh.both .empty }

/-- One channel's ring written at its cursor. -/
def RingPair.push (r : RingPair) (c : Chan) (v : F32) : RingPair := { r with ch := r.ch.set c ((r.ch.get c).push r.cap v) }

theorem RingPair.writable_zeroed {r : RingPair} (h : r.writable) : r.zeroed.writable := fun hc =>
  have hN := ((RingBuf.writable_iff _ _).1 (PerCh.all_get (h hc) .ch0)).2
  PerCh.all_both (RingBuf.writable_empty (Nat.zero_lt_of_lt hN))

theorem RingPair.writable_push {r : RingPair} (h : r.writable) (c : Chan) (v : F32) : (r.push c v).writable := fun hc =>
  PerCh.all_set (h hc) c (RingBuf.writable_push (PerCh.all_get (h hc) c) v)

theorem RingPair.writable_sized {N : Nat} (h : 0 < N) (cfg : Bool) : RingPair.writable ⟨cfg, N, PerCh.both .empty⟩ :=
  fun _ => PerCh.all_both (RingBuf.writable_empty h)

/-- R126: a reset empties the rings of a configured unit. -/
theorem dlReset_rings {dl : Dl} (hc : dl.cfg = true) : (dlReset dl).rings = dl.rings.zeroed := by
  simp only [Dl.rings, RingPair.zeroed, dlReset, dlResetChan, hc, if_true]
  rfl

/-- R130: processing writes one cell of the channel's ring, at the cursor. -/
theorem dlProcess_rings (d : Draw) (dl : Dl) (c : Chan) (x xfb : F32) :
    ∃ v, Dl.rings { dl with ch := dl.ch.set c (dlProcess d dl (dl.ch.get c) x xfb).1 } = dl.rings.push c v := by
  obtain ⟨v, hbuf, hw⟩ := dlProcess_writes d dl (dl.ch.get c) x xfb
  refine ⟨v, ?_⟩
  cases c <;> simp only [Dl.rings, RingPair.push, RingBuf.push, PerCh.set, PerCh.get] at hbuf hw ⊢ <;> rw [hbuf, hw]

theorem DlChange.keeps_writable {dl dl' : Dl} (h : DlChange dl dl') (hr : dl.rings.writable) : dl'.rings.writable := by
  cases h with
  | reallocate d v => exact RingPair.writable_sized (Nat.lt_of_lt_of_le (by decide) (dlCapacity_range (d.at 1) v).1) true
  | reset =>
    intro hc
    rw [dlReset_rings (dl := dl) hc]
    exact RingPair.writable_zeroed hr hc
  | setDelay d ms =>
    obtain ⟨n, v, he⟩ := dlSetDelay_eq d dl ms
    rw [he]
    exact hr
  | setFb v => exact hr
  | setMix v => exact hr
  | process d c x xfb =>
    obtain ⟨v, he⟩ := dlProcess_rings d dl c x xfb
    rw [he]
    exact RingPair.writable_push hr c v

/-- R257, R260 to R266: the tape path writes one cell of the record ring, at the cursor. -/
theorem tpProcess_buf (d : Draw) (tp : Tp) (bq : Four BqParams) (c : Chan) (p : TpPath) (x : F32) :
    ∃ v, (tpProcess d tp bq c p x).1.ch.buf = p.ch.buf.write p.ch.w v := by
  simp only [tpProcess, tpBack, tpDecorrelate, tpNoise]
  split <;> exact ⟨_, rfl⟩

theorem tpProcess_rings (d : Draw) (tp : Tp) (bq : Four BqParams) (c : Chan) (hist : Four BqHist) (x : F32) :
    ∃ v, Tp.rings { tp with ch := tp.ch.set c (tpProcess d tp bq c ⟨tp.ch.get c, hist⟩ x).1.ch } = tp.rings.push c v := by
  obtain ⟨v, hbuf⟩ := tpProcess_buf d tp bq c ⟨tp.ch.get c, hist⟩ x
  have hw := tpProcess_w d tp bq c ⟨tp.ch.get c, hist⟩ x
  refine ⟨v, ?_⟩
  cases c <;> simp only [Tp.rings, RingPair.push, RingBuf.push, PerCh.set, PerCh.get] at hbuf hw ⊢ <;> rw [hbuf, hw]

theorem TpChange.keeps_writable {tp tp' : Tp} (h : TpChange tp tp') (hr : tp.rings.writable) : tp'.rings.writable := by
  cases h with
  | reset => exact RingPair.writable_zeroed hr
  | process d bq c hist x =>
    obtain ⟨v, he⟩ := tpProcess_rings d tp bq c hist x
    rw [he]
    exact RingPair.writable_push hr c v
  | setMode on => exact hr
  | setWf wr wd fr fd w f => exact hr
  | setSat v a => exact hr
  | setAge v => exact hr
  | setInst v => exact hr
  | setHeads k => exact hr
  | setNoise on v => exact hr

theorem tpReallocate_writable (s : State) (d : Draw) (v : F32) : (s.tpReallocate d (clampRate v)).tp.rings.writable :=
  RingPair.writable_sized (Nat.lt_of_lt_of_le (by decide) (tpCapacity_range (d.at 0) v).1) true

/-- The memories of one pitch-shifter channel, with the cursors that write them. -/
def PsChan.writable (ch : PsChan) : Bool := ch.memOk && ch.cursorsOk

theorem PsChan.memOk_iff (ch : PsChan) :
    ch.memOk = true ↔ Machine.memOk Config.fftSize ch.inp = true ∧ Machine.memOk Config.fftSize ch.out = true ∧
      Machine.memOk (psNyquist + 1) ch.lastPhase = true ∧ Machine.memOk (psNyquist + 1) ch.synPhase = true := by
  simp only [PsChan.memOk, Bool.and_eq_true, and_assoc]

theorem PsChan.cursorsOk_iff (ch : PsChan) :
    ch.cursorsOk = true ↔ ch.iw < Config.fftSize ∧ ch.ow < Config.fftSize ∧ ch.hopCnt < Config.hop := by
  simp only [PsChan.cursorsOk, Bool.and_eq_true, decide_eq_true_eq, and_assoc]

theorem psAccept_memOk (d : Draw) (ps : Ps) (ch : PsChan) (x : F32) (h : ch.memOk = true) (hi : ch.iw < Config.fftSize) :
    (psAccept d ps ch x).memOk = true := by
  obtain ⟨hin, hout, hlast, hsyn⟩ := ch.memOk_iff.1 h
  exact (PsChan.memOk_iff _).2 ⟨memOk_write hin hi x, hout, hlast, hsyn⟩

theorem psFrame_memOk (d : Draw) (ps : Ps) (ch : PsChan) (h : ch.memOk = true) : (psFrame d ps ch).memOk = true := by
  obtain ⟨hin, _, _, hsyn⟩ := ch.memOk_iff.1 h
  obtain ⟨hwf, hbelow⟩ := Bool.and_eq_true_iff.1 hsyn
  obtain ⟨hlast', hsyn', hout'⟩ := psFrame_memories d ps ch hwf hbelow
  exact (PsChan.memOk_iff _).2
    ⟨hin, Bool.and_eq_true_iff.2 hout', Bool.and_eq_true_iff.2 hlast', Bool.and_eq_true_iff.2 hsyn'⟩

/-- R180: the frame, when it is due, keeps the memories and leaves the output cursor. -/
theorem psMaybeFrame_memOk (d : Draw) (ps : Ps) (ch : PsChan) (h : ch.memOk = true) :
    (psMaybeFrame d ps ch).memOk = true ∧ (psMaybeFrame d ps ch).ow = ch.ow := by
  unfold psMaybeFrame
  split
  · exact ⟨psFrame_memOk d ps { ch with hopCnt := 0 } h, rfl⟩
  · exact ⟨h, rfl⟩

theorem psEmit_memOk (ch : PsChan) (h : ch.memOk = true) (ho : ch.ow < Config.fftSize) : (psEmit ch).1.memOk = true := by
  obtain ⟨hin, hout, hlast, hsyn⟩ := ch.memOk_iff.1 h
  exact (PsChan.memOk_iff _).2 ⟨hin, memOk_write hout ho f0, hlast, hsyn⟩

/-- R180: a sample keeps the memories of its channel. -/
theorem psProcess_writable (d : Draw) (ps : Ps) (ch : PsChan) (x : F32) (h : ch.writable = true) :
    (psProcess d ps ch x).1.writable = true := by
  obtain ⟨hm, hc⟩ := Bool.and_eq_true_iff.1 h
  obtain ⟨hi, ho, _⟩ := ch.cursorsOk_iff.1 hc
  obtain ⟨hframe, how⟩ := psMaybeFrame_memOk (d.at 0) ps _ (psAccept_memOk (d.at 1) ps ch x hm hi)
  exact Bool.and_eq_true_iff.2 ⟨psEmit_memOk _ hframe (how ▸ ho), psProcess_cursorsOk d ps ch x hc⟩

theorem PsChange.keeps_writable {ps ps' : Ps} (h : PsChange ps ps') (hr : ps.ch.all PsChan.writable = true) :
    ps'.ch.all PsChan.writable = true := by
  have zero (r : F32) : (PsChan.zero r).writable = true := rfl
  cases h with
  | reallocate v => exact PerCh.all_both (zero _)
  | reset => exact PerCh.all_both (zero _)
  | setPitch d cents => exact hr
  | setDrift rate depth => exact hr
  | process d c x => exact PerCh.all_set hr c (psProcess_writable d ps _ x (PerCh.all_get hr c))

/-- R303: a byte is staged only below the capacity of `SCLBUF`. -/
theorem tqStage_memOk (tq : Tq) (b : Byte) (h : memOk Config.sclBufBytes tq.sclbuf = true) :
    memOk Config.sclBufBytes (tqStage tq b).sclbuf = true := by
  unfold tqStage
  split
  · next hl => exact memOk_write h hl b
  · exact h

theorem TqChange.keeps_memOk {tq tq' : Tq} (h : TqChange tq tq') (hr : memOk Config.sclBufBytes tq.sclbuf = true) :
    memOk Config.sclBufBytes tq'.sclbuf = true := by
  cases h with
  | install id hid => exact hr
  | clear => exact hr
  | stage b => exact tqStage_memOk tq b hr
  | load =>
    unfold tqLoad
    split
    · exact hr
    · exact hr
  | latch b => exact hr

/-- The memories of the configured units, of the pitch shifter and of the quantizer, with the cursors that write them. -/
structure State.MemsOk (s : State) : Prop where
  dl : s.dl.rings.writable
  ps : s.ps.ch.all PsChan.writable = true
  tp : s.tp.rings.writable
  tq : memOk Config.sclBufBytes s.tq.sclbuf = true

theorem Change.keeps_memsOk {s t : State} (h : Change s t) (hs : s.MemsOk) : t.MemsOk := by
  cases h with
  | dl h => exact { hs with dl := h.keeps_writable hs.dl }
  | ps h => exact { hs with ps := h.keeps_writable hs.ps }
  | tp h => exact { hs with tp := h.keeps_writable hs.tp }
  | tpReallocate d v => exact { hs with tp := tpReallocate_writable s d v }
  | bq j h => exact { hs with }
  | bqh h => exact { hs with }
  | tq h => exact { hs with tq := h.keeps_memOk hs.tq }
  | rt h => exact { hs with }

theorem PerCh.all_iff {α : Type} (f : α → Bool) (p : PerCh α) : p.all f = true ↔ ∀ c, f (p.get c) = true :=
  ⟨PerCh.all_get, fun h => Bool.and_eq_true_iff.2 ⟨h .ch0, h .ch1⟩⟩

/-- The rings, configured or not, are canonical and inside their capacity. -/
def RingPair.memOk (r : RingPair) : Prop := r.ch.all (fun ring => Machine.memOk r.cap ring.buf) = true

theorem State.memoriesOk_iff (s : State) :
    s.memoriesOk = true ↔ s.dl.rings.memOk ∧ s.ps.ch.all PsChan.memOk = true ∧ s.tp.rings.memOk ∧
      memOk Config.sclBufBytes s.tq.sclbuf = true := by
  simp only [State.memoriesOk, Bool.and_eq_true, and_assoc]
  rfl

theorem RingPair.writable_of_memOk {r : RingPair} (hm : r.memOk)
    (hw : r.cfg = true → r.ch.all (fun ring => decide (ring.w < r.cap)) = true) : r.writable := fun hc =>
  (PerCh.all_iff _ _).2 fun c => Bool.and_eq_true_iff.2 ⟨PerCh.all_get hm c, PerCh.all_get (hw hc) c⟩

theorem State.memsOk_of_ok {s : State} (hm : s.memoriesOk = true) (hc : s.cursorsOk = true) : s.MemsOk := by
  obtain ⟨hdl, hps, htp, htq⟩ := s.memoriesOk_iff.1 hm
  simp only [State.cursorsOk, Bool.and_eq_true, Bool.or_eq_true, Bool.not_eq_true'] at hc
  obtain ⟨⟨⟨wdl, wps⟩, wtp⟩, _⟩ := hc
  exact
    { dl := RingPair.writable_of_memOk hdl fun h => wdl.resolve_left fun off => Bool.false_ne_true (off.symm.trans h)
      ps := (PerCh.all_iff _ _).2 fun c => Bool.and_eq_true_iff.2 ⟨PerCh.all_get hps c, PerCh.all_get wps c⟩
      tp := RingPair.writable_of_memOk htp fun h => wtp.resolve_left fun off => Bool.false_ne_true (off.symm.trans h)
      tq := htq }

/-- The rings of a unit that is configured can be written; those of one that is not are the old ones. -/
theorem RingPair.memOk_of_kept {a b : RingPair} (h : RingPair.Kept a b ∨ b.cfg = true) (ha : a.memOk) (hb : b.writable) :
    b.memOk := by
  have configured (hc : b.cfg = true) : b.memOk :=
    (PerCh.all_iff _ _).2 fun c => ((RingBuf.writable_iff _ _).1 (PerCh.all_get (hb hc) c)).1
  rcases h with kept | hc
  · cases hc : b.cfg with
    | true => exact configured hc
    | false =>
      unfold RingPair.memOk
      rw [kept.cap, kept.idle (kept.cfg ▸ hc)]
      exact ha
  · exact configured hc

/-- A step keeps the rings of a unit, or leaves it configured. -/
theorem step_rings {s t : State} (h : step s = .next t) :
    (RingPair.Kept s.dl.rings t.dl.rings ∨ t.dl.cfg = true) ∧ (RingPair.Kept s.tp.rings t.tp.rings ∨ t.tp.cfg = true) := by
  obtain ⟨rest, _, rfl⟩ | ⟨_, w, rest, _, _, rfl⟩ | ⟨_, w, rest, c, _, _, _, rfl⟩ | ⟨_, i, rest, _, he⟩ := step_cases s t h
  · exact ⟨.inl (.refl s.dl.rings), .inl (.refl s.tp.rings)⟩
  · exact ⟨.inl (.refl s.dl.rings), .inl (.refl s.tp.rings)⟩
  · exact ⟨.inl (.refl s.dl.rings), .inl (.refl s.tp.rings)⟩
  · have effect := exec_ringEffect he
    exact ⟨effect.dl.imp_right And.left, effect.tp.imp_right And.left⟩

/-- Settles O14: every change keeps the memories of the configured units, and no command writes a ring of another. -/
theorem memoriesStayCanonical : Obligations.MemoriesStayCanonical := by
  intro s t hm hc h
  have ofUnits : OfUnits State.MemsOk := fun _ _ _ _ _ _ h => { h with }
  have ht : t.MemsOk := step_keeps ofUnits (fun _ _ => Change.keeps_memsOk) h (State.memsOk_of_ok hm hc)
  obtain ⟨hdl, _, htp, _⟩ := s.memoriesOk_iff.1 hm
  obtain ⟨keptDl, keptTp⟩ := step_rings h
  refine t.memoriesOk_iff.2 ⟨RingPair.memOk_of_kept keptDl hdl ht.dl, ?_, RingPair.memOk_of_kept keptTp htp ht.tp, ht.tq⟩
  exact (PerCh.all_iff _ _).2 fun c => (Bool.and_eq_true_iff.1 (PerCh.all_get ht.ps c)).1

/-! ### What a ring holds (R63, R64) -/

/-- Behind a cursor of the ring, the cell at distance 0 is the one at the cursor. -/
theorem ringIdx_zero {N w : Nat} (h : w < N) : ringIdx N w 0 = w := by
  unfold ringIdx
  rw [Nat.cast_zero, sub_zero, Int.emod_eq_of_lt (by omega) (by omega), Int.toNat_natCast]

/-- The last write of a run. -/
theorem ringWrites_concat (N : Nat) (r : Memory 32 × Nat) (vs : List F32) (v : F32) :
    ringWrites N r (vs ++ [v]) =
      ((ringWrites N r vs).1.write (ringWrites N r vs).2 v, ringAdvance N (ringWrites N r vs).2) := by
  induction vs generalizing r with
  | nil => rfl
  | cons u vs ih => exact ih _

/-- The value written `d` writes ago, or zero before that. -/
def writtenAgo (vs : List F32) (d : Nat) : F32 := if d ≤ vs.length then vs.getD (vs.length - d) f0 else f0

theorem writtenAgo_concat_one (vs : List F32) (v : F32) : writtenAgo (vs ++ [v]) 1 = v := by
  simp [writtenAgo]

theorem writtenAgo_concat_succ (vs : List F32) (v : F32) {d : Nat} (hd : 1 ≤ d) :
    writtenAgo (vs ++ [v]) (d + 1) = writtenAgo vs d := by
  unfold writtenAgo
  rw [List.length_append, List.length_singleton, Nat.add_sub_add_right]
  by_cases h : d ≤ vs.length
  · rw [if_pos h, if_pos (Nat.add_le_add_right h 1), List.getD_append _ _ _ _ (by omega)]
  · rw [if_neg h, if_neg (by omega)]

/-- The ring is canonical, its cursor inside, and every cell behind the cursor holds what was written there. -/
structure HoldsHistory (N : Nat) (vs : List F32) (r : Memory 32 × Nat) : Prop where
  wf : r.1.wf = true
  cursor : r.2 < N
  cell : ∀ d, 1 ≤ d → d ≤ N → r.1.read (ringIdx N r.2 d) = writtenAgo vs d

theorem HoldsHistory.empty {N w : Nat} (hw : w < N) : HoldsHistory N [] ([], w) where
  wf := rfl
  cursor := hw
  cell _ hd _ := (if_neg (Nat.not_le.2 hd)).symm

/-- One write: the cell at the cursor is now at distance 1, and every other cell is one further behind. -/
theorem HoldsHistory.push {N : Nat} {vs : List F32} {r : Memory 32 × Nat} (h : HoldsHistory N vs r) (v : F32) :
    HoldsHistory N (vs ++ [v]) (r.1.write r.2 v, ringAdvance N r.2) where
  wf := Memory.write_wf r.1 r.2 v h.wf
  cursor := ringAdvance_lt N r.2 (Nat.zero_lt_of_lt h.cursor)
  cell d hd hN := by
    obtain ⟨d, rfl⟩ := Nat.exists_eq_add_of_le' hd
    rw [ringIdx_advance]
    cases d with
    | zero => rw [ringIdx_zero h.cursor, Memory.read_write_same _ _ _ h.wf, writtenAgo_concat_one]
    | succ d =>
      have other : ringIdx N r.2 (d + 1) ≠ r.2 := ringIdx_ne N r.2 (d + 1) h.cursor (by omega) hN
      rw [Memory.read_write_other _ _ _ _ other, writtenAgo_concat_succ _ _ (by omega)]
      exact h.cell (d + 1) (by omega) (by omega)

theorem ringWrites_holdsHistory {N w : Nat} (hw : w < N) (vs : List F32) : HoldsHistory N vs (ringWrites N ([], w) vs) := by
  induction vs using List.reverseRecOn with
  | nil => exact .empty hw
  | append_singleton vs v ih =>
    rw [ringWrites_concat]
    exact ih.push v

/-- Settles O37, by induction on the values written, the last one first. -/
theorem ringHoldsItsHistory : Obligations.RingHoldsItsHistory := by
  intro N w vs _ hw
  have h := ringWrites_holdsHistory hw vs
  exact ⟨h.cursor, h.cell⟩

/-! ### The channels of a frame (R71, R340) -/

/-- What a frame reads and writes of one channel: R26, R29, and the tape path. -/
structure ChanState where
  ps : PsChan
  dl : DlChan
  tp : TpPath

/-- Replace what a frame writes of channel `c`. -/
def State.setChan (s : State) (c : Chan) (k : ChanState) : State :=
  { s with ps := { s.ps with ch := s.ps.ch.set c k.ps }, dl := { s.dl with ch := s.dl.ch.set c k.dl } }.setTpPath c k.tp

/-- `tpProcess(c, x)`, or nothing with the mode off (R250). -/
def tpPathStep (d : Draw) (tp : Tp) (bq : Four BqParams) (c : Chan) (p : TpPath) (x : F32) : TpPath × F32 :=
  if tp.mode then tpProcess d tp bq c p x else (p, x)

theorem State.setTpPath_tpPath (s : State) (c : Chan) : s.setTpPath c (s.tpPath c) = s := by
  simp only [State.setTpPath, State.tpPath, PerCh.set_get]

theorem State.tpThrough_eq (s : State) (d : Draw) (c : Chan) (x : F32) :
    s.tpThrough d c x =
      (s.setTpPath c (tpPathStep d s.tp s.bq c (s.tpPath c) x).1, (tpPathStep d s.tp s.bq c (s.tpPath c) x).2) := by
  unfold tpPathStep
  cases hm : s.tp.mode with
  | true => rw [if_pos rfl]; exact s.tpThrough_on d c x hm
  | false => rw [if_neg Bool.false_ne_true, State.setTpPath_tpPath]; exact s.tpThrough_off d c x hm

/-- R336: the channel after its part of a frame, and its output. -/
def State.chanStep (s : State) (d : Draw) (c : Chan) (x : F32) : ChanState × F32 :=
  let pr := rtPitch d s.ps c x
  let p := guardF pr.2 (guardF x f0)
  let dr := rtDelay d s.dl s.rt c p
  let tr := tpPathStep (d.at 3) s.tp s.bq c (s.tpPath c) (guardF dr.2 p)
  (⟨pr.1, dr.1, tr.1⟩, tr.2)

/-- A channel of a frame writes that channel. -/
theorem State.rtChannel_eq_setChan (s : State) (d : Draw) (c : Chan) (x : F32) :
    s.rtChannel d c x = (s.setChan c (s.chanStep d c x).1, (s.chanStep d c x).2) := by
  rw [State.rtChannel_eq]
  exact State.tpThrough_eq _ (d.at 3) c _

section
variable (d : Draw) (x : F32)

/-- Of a unit, a procedure reads the parameters and the channel it is given. -/
theorem psProcess_ch (ps : Ps) (chs : PerCh PsChan) (ch : PsChan) :
    psProcess d { ps with ch := chs } ch x = psProcess d ps ch x := rfl

theorem dlProcess_ch (dl : Dl) (chs : PerCh DlChan) (ch : DlChan) (xfb : F32) :
    dlProcess d { dl with ch := chs } ch x xfb = dlProcess d dl ch x xfb := rfl

theorem tpProcess_ch (tp : Tp) (chs : PerCh TpChan) (bq : Four BqParams) (c : Chan) (p : TpPath) :
    tpProcess d { tp with ch := chs } bq c p x = tpProcess d tp bq c p x := rfl

variable {c k : Chan} (h : c ≠ k) (s : State) (v : ChanState)
include h

theorem rtPitch_setChan_other : rtPitch d (s.setChan k v).ps c x = rtPitch d s.ps c x := by
  show psProcess _ { s.ps with ch := s.ps.ch.set k v.ps } ((s.ps.ch.set k v.ps).get c) _ = _
  rw [psProcess_ch, PerCh.get_set_other _ k c _ h]
  rfl

theorem rtDelay_setChan_other (p : F32) :
    rtDelay d (s.setChan k v).dl (s.setChan k v).rt c p = rtDelay d s.dl s.rt c p := by
  show dlProcess _ { s.dl with ch := s.dl.ch.set k v.dl } ((s.dl.ch.set k v.dl).get c) _ _ = _
  rw [dlProcess_ch, PerCh.get_set_other _ k c _ h]
  rfl

theorem tpPath_setChan_other : (s.setChan k v).tpPath c = s.tpPath c := by
  show TpPath.mk ((s.tp.ch.set k v.tp.ch).get c) ((s.bqh.set k v.tp.hist).get c) = _
  rw [PerCh.get_set_other _ k c _ h, PerCh.get_set_other _ k c _ h]
  rfl

theorem tpPathStep_setChan_other :
    tpPathStep d (s.setChan k v).tp (s.setChan k v).bq c ((s.setChan k v).tpPath c) x =
      tpPathStep d s.tp s.bq c (s.tpPath c) x := by
  rw [tpPath_setChan_other h]
  show tpPathStep d { s.tp with ch := _ } s.bq c _ x = _
  simp only [tpPathStep, tpProcess_ch]

/-- A channel of a frame reads nothing the other channel writes: of that one it hears the history of the last frame. -/
theorem State.chanStep_setChan_other : (s.setChan k v).chanStep d c x = s.chanStep d c x := by
  simp only [State.chanStep, rtPitch_setChan_other _ _ h, rtDelay_setChan_other _ h, tpPathStep_setChan_other _ _ h]

end

theorem State.setChan_comm (s : State) (u v : ChanState) :
    (s.setChan .ch0 u).setChan .ch1 v = (s.setChan .ch1 v).setChan .ch0 u := rfl

/-- Settles O30: the channels write apart, and neither reads what the other writes. -/
theorem frameChannelOrderIrrelevant : Obligations.FrameChannelOrderIrrelevant := by
  intro s d0 d1 x0 x1
  have second (u : ChanState) : (s.setChan .ch0 u).chanStep d1 .ch1 x1 = s.chanStep d1 .ch1 x1 :=
    State.chanStep_setChan_other d1 x1 (by decide) s u
  have first (v : ChanState) : (s.setChan .ch1 v).chanStep d0 .ch0 x0 = s.chanStep d0 .ch0 x0 :=
    State.chanStep_setChan_other d0 x0 (by decide) s v
  simp only [State.rtChannel_eq_setChan, first, second]
  exact ⟨s.setChan_comm _ _, trivial, trivial⟩

end Sys2Proof.Machine
end

section
/-! PROOFS. The decoder and the encoder (30_encoding.md R80 to R89): what the prologue's checks decide about a header, that
a row of the opcode map makes exactly the command its columns name, and the two round trips. -/

namespace Sys2Proof

/-! ### The checks of the prologue (R86, R88) -/

/-- R86 item 3, as the spec lists it. -/
theorem reservedNonzero_iff (r : Row) (h : Word) :
    reservedNonzero r h = true ↔
      field h 19 16 ≠ 0 ∨ field h 7 1 ≠ 0 ∨ (r.ch = false ∧ field h 0 0 ≠ 0) ∨ (r.sel = .unused ∧ field h 15 8 ≠ 0) := by
  simp only [reservedNonzero, Bool.or_eq_true, Bool.and_eq_true, Bool.not_eq_true', decide_eq_true_eq, or_assoc]

/-- The header passes every check of its row (R86). -/
structure Row.Passes (r : Row) (h : Word) : Prop where
  row : rowOf (field h 31 24) = some r
  narg : field h 23 20 ∈ r.nargs
  reserved : reservedNonzero r h = false
  sel : r.sel.legal (field h 15 8) = true

section
variable {h : Word} {r : Row} (ops : List Word)

theorem decode_noRow (hr : rowOf (field h 31 24) = none) : decode (h :: ops) = .bad .illegalCommand := by
  simp only [decode, hr]

theorem decode_badNarg (hr : rowOf (field h 31 24) = some r) (hn : field h 23 20 ∉ r.nargs) :
    decode (h :: ops) = .bad .badNarg := by
  have hn' : r.nargs.contains (field h 23 20) = false := by simpa using hn
  simp only [decode, hr, hn', if_true]

theorem decode_reservedNonzero (hr : rowOf (field h 31 24) = some r) (hn : field h 23 20 ∈ r.nargs)
    (hz : reservedNonzero r h = true) : decode (h :: ops) = .bad .reservedNonzero := by
  have hn' : r.nargs.contains (field h 23 20) = true := by simpa using hn
  simp only [decode, hr, hn', hz, Bool.true_eq_false, if_false, if_true]

theorem decode_badSel (hr : rowOf (field h 31 24) = some r) (hn : field h 23 20 ∈ r.nargs)
    (hz : reservedNonzero r h = false) (hs : r.sel.legal (field h 15 8) = false) :
    decode (h :: ops) = .bad .badSel := by
  have hn' : r.nargs.contains (field h 23 20) = true := by simpa using hn
  simp only [decode, hr, hn', hz, hs, Bool.true_eq_false, Bool.false_eq_true, if_false, if_true]

/-- A header that passes waits for its operand words, and no longer. -/
theorem Row.Passes.decode (hp : r.Passes h) :
    decode (h :: ops) = if ops.length < field h 23 20 then .wait
      else .ok (r.build (field h 15 8) (chanOf (field h 0 0)) (ops.take (field h 23 20))) (ops.drop (field h 23 20)) := by
  have hn' : r.nargs.contains (field h 23 20) = true := by simpa using hp.narg
  simp only [Sys2Proof.decode, hp.row, hn', hp.reserved, hp.sel, Bool.true_eq_false, Bool.false_eq_true, if_false]

theorem Row.Passes.not_bad (hp : r.Passes h) (c : Cause) : Sys2Proof.decode (h :: ops) ≠ .bad c := by
  rw [hp.decode]
  split <;> exact Decoded.noConfusion

/-- A header either fails a check or passes them all for the row of its opcode. -/
theorem bad_or_passes (h : Word) : (∃ c, decode (h :: ops) = .bad c) ∨ ∃ r : Row, r.Passes h := by
  cases hr : rowOf (field h 31 24) with
  | none => exact .inl ⟨_, decode_noRow ops hr⟩
  | some r =>
    by_cases hn : field h 23 20 ∈ r.nargs
    · cases hz : reservedNonzero r h with
      | true => exact .inl ⟨_, decode_reservedNonzero ops hr hn hz⟩
      | false =>
        cases hs : r.sel.legal (field h 15 8) with
        | false => exact .inl ⟨_, decode_badSel ops hr hn hz hs⟩
        | true => exact .inr ⟨r, hr, hn, hz, hs⟩
    · exact .inl ⟨_, decode_badNarg ops hr hn⟩

end

/-- What decodes is a header that passes and its operand words, and the command is what the row makes of them. -/
theorem decode_ok_cases {ws rest : List Word} {i : Instr} (hd : decode ws = .ok i rest) :
    ∃ (h : Word) (ops : List Word) (r : Row), ws = h :: (ops ++ rest) ∧ r.Passes h ∧ ops.length = field h 23 20 ∧
      i = r.build (field h 15 8) (chanOf (field h 0 0)) ops := by
  cases ws with
  | nil => cases hd
  | cons h ops =>
    obtain ⟨c, hb⟩ | ⟨r, hp⟩ := bad_or_passes ops h
    · cases hb.symm.trans hd
    · rw [hp.decode] at hd
      split at hd
      · cases hd
      · next harrived =>
        obtain ⟨rfl, rfl⟩ := Decoded.ok.inj hd
        exact ⟨h, _, r, by rw [List.take_append_drop], hp, List.length_take_of_le (Nat.not_lt.1 harrived), rfl⟩

/-- Settles O3: one clause of the prologue after the other. -/
theorem headerChecksInOrder : Obligations.HeaderChecksInOrder := by
  intro h ops
  refine ⟨decode_noRow ops, fun r hr => ?_⟩
  simp only [← reservedNonzero_iff, Bool.not_eq_true]
  exact ⟨decode_badNarg ops hr, decode_reservedNonzero ops hr, decode_badSel ops hr,
    fun hn hz hs => Row.Passes.not_bad ops ⟨hr, hn, hz, hs⟩⟩

/-! ### Decoding what was encoded (R89) -/

/-- The header of every well-formed command passes the checks of a row that makes the command again. -/
theorem headerFormat (i : Instr) : Laws.HeaderFormat.Statement i := by
  cases i with
  | sysNop => exact Laws.HeaderFormat.sysNop
  | sysStat => exact Laws.HeaderFormat.sysStat
  | dlCfg sr => exact Laws.HeaderFormat.dlCfg sr
  | dlRst => exact Laws.HeaderFormat.dlRst
  | dlSetdelay ms => exact Laws.HeaderFormat.dlSetdelay ms
  | dlSetfb a => exact Laws.HeaderFormat.dlSetfb a
  | dlSetmix m => exact Laws.HeaderFormat.dlSetmix m
  | dlProc c x => exact Laws.HeaderFormat.dlProc c x
  | dlProcXfb c x xfb => exact Laws.HeaderFormat.dlProcXfb c x xfb
  | dlGetd c => exact Laws.HeaderFormat.dlGetd c
  | dlGetw c => exact Laws.HeaderFormat.dlGetw c
  | bqRst j c => exact Laws.HeaderFormat.bqRst j c
  | bqSetlp j f q => exact Laws.HeaderFormat.bqSetlp j f q
  | bqSetpk j f g q => exact Laws.HeaderFormat.bqSetpk j f g q
  | bqSeths j f g q => exact Laws.HeaderFormat.bqSeths j f g q
  | bqProc j c x => exact Laws.HeaderFormat.bqProc j c x
  | psCfg sr => exact Laws.HeaderFormat.psCfg sr
  | psRst => exact Laws.HeaderFormat.psRst
  | psSetpitch cents => exact Laws.HeaderFormat.psSetpitch cents
  | psSetdrift rate depth => exact Laws.HeaderFormat.psSetdrift rate depth
  | psProc c x => exact Laws.HeaderFormat.psProc c x
  | tpCfg sr => exact Laws.HeaderFormat.tpCfg sr
  | tpRst => exact Laws.HeaderFormat.tpRst
  | tpSetmode e => exact Laws.HeaderFormat.tpSetmode e
  | tpSetwf w f wr wd fr fd => exact Laws.HeaderFormat.tpSetwf w f wr wd fr fd
  | tpSetsat d a => exact Laws.HeaderFormat.tpSetsat d a
  | tpProc c x => exact Laws.HeaderFormat.tpProc c x
  | tpSethb f g q => exact Laws.HeaderFormat.tpSethb f g q
  | tpSetroll f q => exact Laws.HeaderFormat.tpSetroll f q
  | tpSetage a => exact Laws.HeaderFormat.tpSetage a
  | tpSetinst a => exact Laws.HeaderFormat.tpSetinst a
  | tpSetheads k => exact Laws.HeaderFormat.tpSetheads k
  | tpSetnoise e a => exact Laws.HeaderFormat.tpSetnoise e a
  | tqSetdef => exact Laws.HeaderFormat.tqSetdef
  | tqSettuning id => exact Laws.HeaderFormat.tqSettuning id
  | tqSclclr => exact Laws.HeaderFormat.tqSclclr
  | tqSclb b => exact Laws.HeaderFormat.tqSclb b
  | tqQuant cents => exact Laws.HeaderFormat.tqQuant cents
  | tqLoad => exact Laws.HeaderFormat.tqLoad
  | tqGetdesc => exact Laws.HeaderFormat.tqGetdesc
  | rtCfg sr => exact Laws.HeaderFormat.rtCfg sr
  | rtRst => exact Laws.HeaderFormat.rtRst
  | rtSetxfb a => exact Laws.HeaderFormat.rtSetxfb a
  | rtSetpitch e cents => exact Laws.HeaderFormat.rtSetpitch e cents
  | rtFrame x0 x1 => exact Laws.HeaderFormat.rtFrame x0 x1

/-- Settles O1: the header passes, and exactly the operand words follow it. -/
theorem decodeInvertsEncode : Obligations.DecodeInvertsEncode := by
  intro i rest hw
  obtain ⟨h, ops, r, henc, -, hlen, hrow, hnarg, hres, hsel, hbuild⟩ := headerFormat i hw
  have hp : r.Passes h := ⟨hrow, by simpa [hlen] using hnarg, hres, hsel⟩
  have harrived : ¬ (ops ++ rest).length < ops.length := by simp
  rw [henc, List.cons_append, hp.decode, hlen, if_neg harrived, List.take_left, List.drop_left, hbuild]

/-! ### The commands the rows make (R85) -/

/-- The command is well formed and has these header fields and operand words. -/
structure Instr.Has (i : Instr) (opc sel : Nat) (c : Chan) (ops : List Word) : Prop where
  wf : i.wellFormed = true
  parts : i.parts = (opc, sel, chanNum c, ops)

/-- The values that pass the checks of the row: an unused `SEL` or `CH` is zero (R86). -/
structure Row.Takes (r : Row) (sel : Nat) (c : Chan) (ops : List Word) : Prop where
  narg : ops.length ∈ r.nargs
  selUnused : r.sel = .unused → sel = 0
  chUnused : r.ch = false → c = .ch0
  legal : r.sel.legal sel = true

/-- From values it takes, the row makes the command that is encoded with them. -/
def Row.Faithful (r : Row) : Prop :=
  ∀ (sel : Nat) (c : Chan) (ops : List Word), r.Takes sel c ops → (r.build sel c ops).Has r.opc sel c ops

/-- The operand words, read one by one (R82). -/
def operandWords (n : Nat) (ops : List Word) : List Word := (List.range n).map (opWord ops)

theorem operandWords_length (ops : List Word) : operandWords ops.length ops = ops :=
  List.ext_getElem (by simp [operandWords]) fun k _ hk => by simp [operandWords, opWord, hk]

theorem Row.Takes.operandWords_eq {r : Row} {n sel : Nat} {c : Chan} {ops : List Word} (t : r.Takes sel c ops)
    (hn : r.nargs = [n]) : operandWords n ops = ops := by
  have hlen : ops.length = n := List.mem_singleton.1 (hn ▸ t.narg)
  rw [← hlen, operandWords_length]

section
variable {opc n : Nat} {u : SelUse} {b : Nat → Chan → List Word → Instr}

/-- A row without selector or channel. -/
theorem Row.faithful_plain (hb : ∀ o, (b 0 .ch0 o).Has opc 0 .ch0 (operandWords n o)) :
    Row.Faithful ⟨opc, [n], .unused, false, b⟩ := by
  intro sel c ops t
  obtain rfl := t.selUnused rfl
  obtain rfl := t.chUnused rfl
  have made := hb ops
  rwa [t.operandWords_eq rfl] at made

/-- A row with a channel only. -/
theorem Row.faithful_chan (hb : ∀ c o, (b 0 c o).Has opc 0 c (operandWords n o)) :
    Row.Faithful ⟨opc, [n], .unused, true, b⟩ := by
  intro sel c ops t
  obtain rfl := t.selUnused rfl
  have made := hb c ops
  rwa [t.operandWords_eq rfl] at made

/-- A row with a selector only. -/
theorem Row.faithful_sel (hb : ∀ sel o, u.legal sel = true → (b sel .ch0 o).Has opc sel .ch0 (operandWords n o)) :
    Row.Faithful ⟨opc, [n], u, false, b⟩ := by
  intro sel c ops t
  obtain rfl := t.chUnused rfl
  have made := hb sel ops t.legal
  rwa [t.operandWords_eq rfl] at made

/-- A row with a selector and a channel. -/
theorem Row.faithful_selChan (hb : ∀ sel c o, u.legal sel = true → (b sel c o).Has opc sel c (operandWords n o)) :
    Row.Faithful ⟨opc, [n], u, true, b⟩ := by
  intro sel c ops t
  have made := hb sel c ops t.legal
  rwa [t.operandWords_eq rfl] at made

end

/-- R85: `DL.PROC` has two forms, which `NARG` tells apart. -/
theorem dlProc_has (c : Chan) {o : List Word} (hn : o.length ∈ [1, 2]) :
    (if o.length = 1 then Instr.dlProc c (opWord o 0) else Instr.dlProcXfb c (opWord o 0) (opWord o 1)).Has 0x15 0 c o := by
  have words := operandWords_length o
  split
  · next h1 =>
    rw [h1] at words
    exact ⟨rfl, words ▸ rfl⟩
  · next h1 =>
    have h2 : o.length = 2 := by simpa [h1] using hn
    rw [h2] at words
    exact ⟨rfl, words ▸ rfl⟩

/-- R85: the two waveforms of `TP.SETWF` are the base 4 digits of `SEL`. -/
theorem tpSetwf_has {sel : Nat} (o : List Word) (hs : SelUse.waves.legal sel = true) :
    (Instr.tpSetwf (sel % 4) (sel / 4) (opWord o 0) (opWord o 1) (opWord o 2) (opWord o 3)).Has 0x43 sel .ch0
      (operandWords 4 o) :=
  ⟨hs, congrArg (fun v => (0x43, v, 0, operandWords 4 o)) (Nat.mod_add_div sel 4)⟩

/-- R85: `SEL` of `TQ.SCLB` is the byte. -/
theorem tqSclb_has {sel : Nat} (o : List Word) (hs : (SelUse.upTo 255).legal sel = true) :
    (Instr.tqSclb (BitVec.ofNat 8 sel)).Has 0x54 sel .ch0 (operandWords 0 o) := by
  have hlt : sel < 2 ^ 8 := Nat.lt_succ_of_le (of_decide_eq_true hs)
  exact ⟨rfl, congrArg (fun v => (0x54, v, 0, [])) ((BitVec.toNat_ofNat sel 8).trans (Nat.mod_eq_of_lt hlt))⟩

theorem rowsDl_faithful : ∀ r ∈ rowsDl, r.Faithful := by
  simp only [rowsDl, List.forall_mem_cons]
  have dlProc : Row.Faithful ⟨0x15, [1, 2], .unused, true,
      fun _ c o => if o.length = 1 then .dlProc c (opWord o 0) else .dlProcXfb c (opWord o 0) (opWord o 1)⟩ := by
    intro sel c ops t
    obtain rfl := t.selUnused rfl
    exact dlProc_has c t.narg
  exact ⟨Row.faithful_plain fun _ => ⟨rfl, rfl⟩,
    Row.faithful_plain fun _ => ⟨rfl, rfl⟩,
    Row.faithful_plain fun _ => ⟨rfl, rfl⟩,
    Row.faithful_plain fun _ => ⟨rfl, rfl⟩,
    Row.faithful_plain fun _ => ⟨rfl, rfl⟩,
    Row.faithful_plain fun _ => ⟨rfl, rfl⟩,
    Row.faithful_plain fun _ => ⟨rfl, rfl⟩,
    dlProc,
    Row.faithful_chan fun _ _ => ⟨rfl, rfl⟩,
    Row.faithful_chan fun _ _ => ⟨rfl, rfl⟩,
    List.forall_mem_nil _⟩

theorem rowsBqPs_faithful : ∀ r ∈ rowsBqPs, r.Faithful := by
  simp only [rowsBqPs, List.forall_mem_cons]
  exact ⟨Row.faithful_selChan fun _ _ _ hs => ⟨hs, rfl⟩,
    Row.faithful_sel fun _ _ hs => ⟨hs, rfl⟩,
    Row.faithful_sel fun _ _ hs => ⟨hs, rfl⟩,
    Row.faithful_sel fun _ _ hs => ⟨hs, rfl⟩,
    Row.faithful_selChan fun _ _ _ hs => ⟨hs, rfl⟩,
    Row.faithful_plain fun _ => ⟨rfl, rfl⟩,
    Row.faithful_plain fun _ => ⟨rfl, rfl⟩,
    Row.faithful_plain fun _ => ⟨rfl, rfl⟩,
    Row.faithful_plain fun _ => ⟨rfl, rfl⟩,
    Row.faithful_chan fun _ _ => ⟨rfl, rfl⟩,
    List.forall_mem_nil _⟩

theorem rowsTp_faithful : ∀ r ∈ rowsTp, r.Faithful := by
  simp only [rowsTp, List.forall_mem_cons]
  exact ⟨Row.faithful_plain fun _ => ⟨rfl, rfl⟩,
    Row.faithful_plain fun _ => ⟨rfl, rfl⟩,
    Row.faithful_sel fun _ _ hs => ⟨hs, rfl⟩,
    Row.faithful_sel fun _ o hs => tpSetwf_has o hs,
    Row.faithful_plain fun _ => ⟨rfl, rfl⟩,
    Row.faithful_chan fun _ _ => ⟨rfl, rfl⟩,
    Row.faithful_plain fun _ => ⟨rfl, rfl⟩,
    Row.faithful_plain fun _ => ⟨rfl, rfl⟩,
    Row.faithful_plain fun _ => ⟨rfl, rfl⟩,
    Row.faithful_plain fun _ => ⟨rfl, rfl⟩,
    Row.faithful_sel fun _ _ hs => ⟨hs, rfl⟩,
    Row.faithful_sel fun _ _ hs => ⟨hs, rfl⟩,
    List.forall_mem_nil _⟩

theorem rowsTqRt_faithful : ∀ r ∈ rowsTqRt, r.Faithful := by
  simp only [rowsTqRt, List.forall_mem_cons]
  exact ⟨Row.faithful_plain fun _ => ⟨rfl, rfl⟩,
    Row.faithful_sel fun _ _ hs => ⟨hs, rfl⟩,
    Row.faithful_plain fun _ => ⟨rfl, rfl⟩,
    Row.faithful_sel fun _ o hs => tqSclb_has o hs,
    Row.faithful_plain fun _ => ⟨rfl, rfl⟩,
    Row.faithful_plain fun _ => ⟨rfl, rfl⟩,
    Row.faithful_plain fun _ => ⟨rfl, rfl⟩,
    Row.faithful_plain fun _ => ⟨rfl, rfl⟩,
    Row.faithful_plain fun _ => ⟨rfl, rfl⟩,
    Row.faithful_plain fun _ => ⟨rfl, rfl⟩,
    Row.faithful_sel fun _ _ hs => ⟨hs, rfl⟩,
    Row.faithful_plain fun _ => ⟨rfl, rfl⟩,
    List.forall_mem_nil _⟩

/-- R85: the whole opcode map. -/
theorem opcodeMap_faithful : ∀ r ∈ opcodeMap, r.Faithful := by
  simp only [opcodeMap, List.forall_mem_append]
  exact ⟨⟨⟨rowsDl_faithful, rowsBqPs_faithful⟩, rowsTp_faithful⟩, rowsTqRt_faithful⟩

/-! ### Encoding what was decoded -/

theorem rowOf_eq_some {opc : Nat} {r : Row} (h : rowOf opc = some r) : r ∈ opcodeMap ∧ r.opc = opc :=
  ⟨List.mem_of_find?_eq_some h, by simpa using List.find?_some h⟩

theorem chanNum_chanOf {n : Nat} (h : n < 2) : chanNum (chanOf n) = n := by
  obtain rfl | rfl : n = 0 ∨ n = 1 := by omega
  all_goals rfl

/-- A field is below the power of two of its width (00_scope.md R8). -/
theorem field_lt (h : Word) (hi lo : Nat) : field h hi lo < 2 ^ (hi + 1 - lo) := Nat.mod_lt _ (Nat.two_pow_pos _)

section
variable {r : Row} {h : Word} (hp : r.Passes h)
include hp

/-- R86 item 3: the fields a header that passes may not use are zero. -/
theorem Row.Passes.unused_zero : field h 19 16 = 0 ∧ field h 7 1 = 0 ∧ (r.ch = false → field h 0 0 = 0) ∧
    (r.sel = .unused → field h 15 8 = 0) := by
  have hz := mt (reservedNonzero_iff r h).2 (hp.reserved ▸ Bool.false_ne_true)
  simpa only [not_or, not_and, Decidable.not_not] using hz

/-- R89: a header that passes is the word assembled from its four fields in use. -/
theorem Row.Passes.headerWord_eq :
    headerWord (field h 31 24) (field h 23 20) (field h 15 8) (field h 0 0) = h := by
  obtain ⟨hrz1, hrz0, -, -⟩ := hp.unused_zero
  apply BitVec.eq_of_toNat_eq
  rw [headerWord_toNat _ _ _ _ (field_lt h 31 24) (field_lt h 23 20) (field_lt h 15 8) (field_lt h 0 0), fields_toNat h,
    hrz1, hrz0]
  omega

/-- A row takes the fields of a header that passes, with as many operand words as `NARG` says. -/
theorem Row.Passes.takes {ops : List Word} (hn : ops.length = field h 23 20) :
    r.Takes (field h 15 8) (chanOf (field h 0 0)) ops := by
  obtain ⟨-, -, hch, hsel⟩ := hp.unused_zero
  exact
    { narg := hn ▸ hp.narg
      selUnused := hsel
      chUnused := fun hc => by rw [hch hc]; rfl
      legal := hp.sel }

end

/-- A command is encoded as the header of its parts, and its operand words. -/
theorem Instr.Has.encode {i : Instr} {opc sel : Nat} {c : Chan} {ops : List Word} (hi : i.Has opc sel c ops) :
    encode i = headerWord opc ops.length sel (chanNum c) :: ops := by
  simp only [Sys2Proof.encode, hi.parts]

/-- Settles O2: the row of a header that passes makes the command those words encode. -/
theorem decodedWordsAreEncoded : Obligations.DecodedWordsAreEncoded := by
  intro ws rest i hd
  obtain ⟨h, ops, r, rfl, hp, hn, rfl⟩ := decode_ok_cases hd
  obtain ⟨hmem, hopc⟩ := rowOf_eq_some hp.row
  have made := opcodeMap_faithful r hmem _ _ ops (hp.takes hn)
  refine ⟨made.wf, ?_⟩
  rw [made.encode, hopc, hn, chanNum_chanOf (field_lt h 0 0), hp.headerWord_eq, List.cons_append]

/-! ### Written words, and the step -/

/-- Settles O4: the commands by the round trip from their encodings, the refused headers by their first failing check. -/
theorem writtenWordsDecode : Obligations.WrittenWordsDecode := by
  have written (i : Instr) (hw : i.wellFormed = true) : decode (encode i) = .ok i [] :=
    List.append_nil (encode i) ▸ decodeInvertsEncode i [] hw
  exact ⟨written .sysNop rfl, written (.dlProcXfb .ch1 0x3F000000 0x3E800000) rfl, written (.bqProc 1 .ch1 0x3F000000) rfl,
    written (.psSetdrift 0x3F000000 0x40A00000) rfl,
    written (.tpSetwf 0 1 0x3F000000 0x3C23D70A 0x40C00000 0x3B03126F) rfl, written (.tqSclb 0x21) rfl,
    written (.rtSetpitch 1 0x43150000) rfl, decode_badNarg [] rfl (by decide),
    decode_reservedNonzero [] rfl (by decide) (by decide), decode_badSel [] rfl (by decide) (by decide) (by decide),
    decode_noRow [] rfl⟩

/-- Settles O5: the step's rule for a decoded command. -/
theorem stepRunsDecoded : Obligations.StepRunsDecoded :=
  fun _ _ _ running decoded => Machine.step_decoded running decoded

end Sys2Proof
end

section
/-! PROOFS. The lifecycle (40_lifecycle_sys.md): a configure at the stored rate changes nothing (R101), the commands that
only configure, reset, process or read write no host parameter (R102, R103), and the two commands of SYS (R110, R111). -/

namespace Sys2Proof.Machine

/-! ### Configuring again (R101, R104, R332) -/

/-- R104: the clamped rate is no NaN, so it is equal to itself. -/
theorem rateUnchanged_clampRate (v : F32) : rateUnchanged true (clampRate v) (clampRate v) = true := by
  obtain ⟨_, notNaN, _⟩ := (fle_iff _ _).1 (clampRate_between v).1
  exact feq_refl _ notNaN

/-- All three units are configured at the clamped rate `srC`. -/
structure State.AtRate (s : State) (srC : F32) : Prop where
  dl : rateUnchanged s.dl.cfg s.dl.sr srC = true
  ps : rateUnchanged s.ps.cfg s.ps.sr srC = true
  tp : rateUnchanged s.tp.cfg s.tp.sr srC = true

/-- R125: after a configure the delay line is at the clamped rate. -/
theorem dlConfigure_atRate (d : Draw) (dl : Dl) (v : F32) :
    rateUnchanged (dlConfigure d dl v).cfg (dlConfigure d dl v).sr (clampRate v) = true := by
  unfold dlConfigure
  split
  · assumption
  · exact rateUnchanged_clampRate v

/-- R172: after a configure the pitch shifter is at the clamped rate. -/
theorem psConfigure_atRate (ps : Ps) (v : F32) :
    rateUnchanged (psConfigure ps v).cfg (psConfigure ps v).sr (clampRate v) = true := by
  unfold psConfigure
  split
  · assumption
  · exact rateUnchanged_clampRate v

/-- R213: after a configure the tape is at the clamped rate. -/
theorem State.tpConfigure_atRate (s : State) (d : Draw) (v : F32) :
    rateUnchanged (s.tpConfigure d v).tp.cfg (s.tpConfigure d v).tp.sr (clampRate v) = true := by
  unfold State.tpConfigure
  split
  · assumption
  · exact rateUnchanged_clampRate v

/-- R332: the router configures all three units, whether or not it then clears its own registers. -/
theorem State.rtConfigure_atRate (s : State) (d : Draw) (v : F32) : (s.rtConfigure d v).AtRate (clampRate v) := by
  have units : (s.rtConfigureUnits d v).AtRate (clampRate v) :=
    { dl := by rw [State.rtConfigureUnits, State.tpConfigure_dl]; exact dlConfigure_atRate _ _ v
      ps := by rw [State.rtConfigureUnits, State.tpConfigure_ps]; exact psConfigure_atRate _ v
      tp := State.tpConfigure_atRate _ _ v }
  unfold State.rtConfigure
  split
  · exact { units with }
  · exact units

theorem dlConfigure_of_atRate (d : Draw) {dl : Dl} {v : F32} (h : rateUnchanged dl.cfg dl.sr (clampRate v) = true) :
    dlConfigure d dl v = dl := if_pos h

theorem psConfigure_of_atRate {ps : Ps} {v : F32} (h : rateUnchanged ps.cfg ps.sr (clampRate v) = true) :
    psConfigure ps v = ps := if_pos h

theorem State.tpConfigure_of_atRate {s : State} (d : Draw) {v : F32}
    (h : rateUnchanged s.tp.cfg s.tp.sr (clampRate v) = true) : s.tpConfigure d v = s := if_pos h

/-- R332: with nothing to reallocate the router clears nothing of its own. -/
theorem State.rtConfigure_of_atRate {s : State} (d : Draw) {v : F32} (h : s.AtRate (clampRate v)) :
    s.rtConfigure d v = s := by
  have units : s.rtConfigureUnits d v = s := by
    rw [State.rtConfigureUnits, dlConfigure_of_atRate _ h.dl, psConfigure_of_atRate h.ps]
    exact State.tpConfigure_of_atRate _ h.tp
  have stays : s.rtReallocates v = false := by
    rw [State.rtReallocates, h.dl, h.ps, h.tp]
    rfl
  simp only [State.rtConfigure, stays, Bool.false_eq_true, if_false, units]

/-! R101: a configure at the rate a unit has only retires, for each unit and for the router. -/

theorem exec_dlCfg_of_atRate {s : State} {v : F32} (h : rateUnchanged s.dl.cfg s.dl.sr (clampRate v) = true) :
    exec (.dlCfg v) s = .next s.retire :=
  congrArg (fun dl => Host.Outcome.next (State.retire { s with dl := dl })) (dlConfigure_of_atRate s.draw h)

theorem exec_psCfg_of_atRate {s : State} {v : F32} (h : rateUnchanged s.ps.cfg s.ps.sr (clampRate v) = true) :
    exec (.psCfg v) s = .next s.retire :=
  congrArg (fun ps => Host.Outcome.next (State.retire { s with ps := ps })) (psConfigure_of_atRate h)

theorem exec_tpCfg_of_atRate {s : State} {v : F32} (h : rateUnchanged s.tp.cfg s.tp.sr (clampRate v) = true) :
    exec (.tpCfg v) s = .next s.retire :=
  congrArg (fun t : State => Host.Outcome.next t.retire) (State.tpConfigure_of_atRate s.draw h)

theorem exec_rtCfg_of_atRate {s : State} {v : F32} (h : s.AtRate (clampRate v)) : exec (.rtCfg v) s = .next s.retire :=
  congrArg (fun t : State => Host.Outcome.next t.retire) (State.rtConfigure_of_atRate s.draw h)

/-- Settles O31: after a configure the unit is at the clamped rate, where configuring it changes nothing. -/
theorem configureIsIdempotent : Obligations.ConfigureIsIdempotent := by
  intro s t v w hvw
  refine ⟨fun h => ?_, fun h => ?_, fun h => ?_, fun h => ?_⟩ <;> obtain rfl := Host.Outcome.next.inj h
  · exact exec_dlCfg_of_atRate (hvw ▸ dlConfigure_atRate s.draw s.dl v)
  · exact exec_psCfg_of_atRate (hvw ▸ psConfigure_atRate s.ps v)
  · exact exec_tpCfg_of_atRate (hvw ▸ s.tpConfigure_atRate s.draw v)
  · have units : (s.rtConfigure s.draw v).AtRate (clampRate w) := hvw ▸ s.rtConfigure_atRate s.draw v
    exact exec_rtCfg_of_atRate { units with }

/-! ### The parameters a command keeps (R21, R102, R103) -/

theorem Dl.sameParams.trans {a b c : Dl} (h : Dl.sameParams a b) (k : Dl.sameParams b c) : Dl.sameParams a c := by
  obtain ⟨hms, hfb, hmix⟩ := h
  obtain ⟨kms, kfb, kmix⟩ := k
  exact ⟨kms.trans hms, kfb.trans hfb, kmix.trans hmix⟩

theorem Ps.sameParams.trans {a b c : Ps} (h : Ps.sameParams a b) (k : Ps.sameParams b c) : Ps.sameParams a c := by
  obtain ⟨hcents, hratio, hrate, hdepth, hwA, hwS⟩ := h
  obtain ⟨kcents, kratio, krate, kdepth, kwA, kwS⟩ := k
  exact ⟨kcents.trans hcents, kratio.trans hratio, krate.trans hrate, kdepth.trans hdepth, kwA.trans hwA, kwS.trans hwS⟩

theorem Tp.sameParams.trans {a b c : Tp} (h : Tp.sameParams a b) (k : Tp.sameParams b c) : Tp.sameParams a c := by
  obtain ⟨_, _, _, _, rfl⟩ := (Tp.sameParams_iff a b).1 h
  obtain ⟨_, _, _, _, rfl⟩ := (Tp.sameParams_iff _ c).1 k
  rfl

/-- A filter's type, gain and q; its frequency and coefficients follow the sample rate (R152). -/
def BqParams.Kept (p q : BqParams) : Prop := q.kind = p.kind ∧ q.g = p.g ∧ q.q = p.q

theorem BqParams.Kept.refl (p : BqParams) : p.Kept p := ⟨rfl, rfl, rfl⟩

theorem BqParams.Kept.trans {p q r : BqParams} (h : p.Kept q) (k : q.Kept r) : p.Kept r := by
  obtain ⟨hkind, hg, hq⟩ := h
  obtain ⟨kkind, kg, kq⟩ := k
  exact ⟨kkind.trans hkind, kg.trans hg, kq.trans hq⟩

/-- R152: a tape configure recomputes the frequency and the coefficients of every filter and nothing else of it. -/
theorem bqRecompute_kept (d : Draw) (bq : Four BqParams) (sr : F32) (j : Fin 4) :
    (bq.get j).Kept ((bqRecompute d bq sr).get j) := by
  match j with
  | 0 | 1 | 2 | 3 => exact ⟨rfl, rfl, rfl⟩

/-- No host parameter of any unit differs, nor the active scale and its description. -/
structure ParamsKept (s t : State) : Prop where
  dl : Dl.sameParams s.dl t.dl
  ps : Ps.sameParams s.ps t.ps
  tp : Tp.sameParams s.tp t.tp
  bq : ∀ j, (s.bq.get j).Kept (t.bq.get j)
  xfb : t.rt.xfbAmt = s.rt.xfbAmt
  quant : t.rt.quantEn = s.rt.quantEn
  scale : t.tq.scale = s.tq.scale
  desc : t.tq.desc = s.tq.desc

namespace ParamsKept

theorem refl (s : State) : ParamsKept s s where
  dl := ⟨rfl, rfl, rfl⟩
  ps := ⟨rfl, rfl, rfl, rfl, rfl, rfl⟩
  tp := rfl
  bq _ := .refl _
  xfb := rfl
  quant := rfl
  scale := rfl
  desc := rfl

theorem trans {s t u : State} (h : ParamsKept s t) (k : ParamsKept t u) : ParamsKept s u where
  dl := h.dl.trans k.dl
  ps := h.ps.trans k.ps
  tp := h.tp.trans k.tp
  bq j := (h.bq j).trans (k.bq j)
  xfb := k.xfb.trans h.xfb
  quant := k.quant.trans h.quant
  scale := k.scale.trans h.scale
  desc := k.desc.trans h.desc

theorem raise (s : State) (c : Cause) : ParamsKept s (s.raise c) := by
  unfold State.raise
  split
  · exact .refl s
  · exact { ParamsKept.refl s with }

theorem whenConfigured {s body : State} (cfg : Bool) (h : ParamsKept s body) :
    ParamsKept s (s.whenConfigured cfg body) := by
  cases cfg with
  | true => exact { h with }
  | false => exact .raise s _

theorem withSel {α : Type} {s : State} (sel : Option α) {body : α → State} (h : ∀ v, ParamsKept s (body v)) :
    ParamsKept s (s.withSel sel body) := by
  cases sel with
  | some v => exact h v
  | none => exact .raise s _

/-! What the procedures of the units keep. -/

theorem dlConfigure (s : State) (d : Draw) (v : F32) : ParamsKept s { s with dl := dlConfigure d s.dl v } := by
  unfold Machine.dlConfigure
  split
  · exact .refl s
  · exact { ParamsKept.refl s with dl := ⟨rfl, rfl, rfl⟩ }

theorem dlReset (s : State) : ParamsKept s { s with dl := dlReset s.dl } :=
  { ParamsKept.refl s with dl := ⟨rfl, rfl, rfl⟩ }

theorem psConfigure (s : State) (v : F32) : ParamsKept s { s with ps := psConfigure s.ps v } := by
  unfold Machine.psConfigure
  split
  · exact .refl s
  · exact { ParamsKept.refl s with ps := ⟨rfl, rfl, rfl, rfl, rfl, rfl⟩ }

theorem psReset (s : State) : ParamsKept s { s with ps := psReset s.ps } := by
  unfold Machine.psReset
  split
  · exact { ParamsKept.refl s with ps := ⟨rfl, rfl, rfl, rfl, rfl, rfl⟩ }
  · exact .refl s

/-- R213: a configure of the tape keeps its parameters and those of the filters. -/
theorem tpConfigure (s : State) (d : Draw) (v : F32) : ParamsKept s (s.tpConfigure d v) := by
  unfold State.tpConfigure
  split
  · exact .refl s
  · exact { ParamsKept.refl s with tp := rfl, bq := bqRecompute_kept (d.at 1) s.bq _ }

theorem tpReset (s : State) : ParamsKept s s.tpReset := by
  unfold State.tpReset
  split
  · exact { ParamsKept.refl s with tp := rfl }
  · exact { ParamsKept.refl s with }

theorem tpThrough (s : State) (d : Draw) (c : Chan) (x : F32) : ParamsKept s (s.tpThrough d c x).1 := by
  unfold State.tpThrough
  split
  · exact { ParamsKept.refl s with tp := rfl }
  · exact .refl s

/-- R332, R333: clearing the cross-feedback history and the poll counter is no write of a parameter. -/
theorem rtClear (s : State) : ParamsKept s { s with rt := rtClear s.rt } := { ParamsKept.refl s with }

theorem rtConfigure (s : State) (d : Draw) (v : F32) : ParamsKept s (s.rtConfigure d v) := by
  have units : ParamsKept s (s.rtConfigureUnits d v) :=
    ((ParamsKept.dlConfigure s (d.at 0) v).trans (.psConfigure _ v)).trans (.tpConfigure _ (d.at 1) v)
  unfold State.rtConfigure
  split
  · exact units.trans (.rtClear _)
  · exact units

theorem rtReset (s : State) : ParamsKept s s.rtReset :=
  (((ParamsKept.dlReset s).trans (.psReset _)).trans (.rtClear _)).trans (.tpReset _)

/-- R336: a channel of a frame writes dynamic state only. -/
theorem rtChannel (s : State) (d : Draw) (c : Chan) (x : F32) : ParamsKept s (s.rtChannel d c x).1 := by
  have units (ps : PerCh PsChan) (dl : PerCh DlChan) :
      ParamsKept s { s with ps := { s.ps with ch := ps }, dl := { s.dl with ch := dl } } :=
    { ParamsKept.refl s with dl := ⟨rfl, rfl, rfl⟩, ps := ⟨rfl, rfl, rfl, rfl, rfl, rfl⟩ }
  exact (units _ _).trans (.tpThrough _ (d.at 3) c _)

theorem rtRun (s : State) (x0 x1 : F32) : ParamsKept s (s.rtRun x0 x1) := by
  have channels := (ParamsKept.rtChannel s (s.draw.at 0) .ch0 x0).trans (.rtChannel _ (s.draw.at 1) .ch1 x1)
  exact { channels with }

end ParamsKept

/-- R102, R103: the parameters are kept by every command of `keepsParams`. -/
theorem exec_paramsKept {i : Instr} {s t : State} (hi : keepsParams i = true) (h : exec i s = .next t) :
    ParamsKept s t := by
  have same := ParamsKept.refl s
  cases i <;> cases hi <;> obtain rfl := Host.Outcome.next.inj h
  case sysNop | sysStat | tqQuant | tqGetdesc => exact { same with }
  case dlCfg v => exact { ParamsKept.dlConfigure s s.draw v with }
  case psCfg v => exact { ParamsKept.psConfigure s v with }
  case tpCfg v => exact { ParamsKept.tpConfigure s s.draw v with }
  case rtCfg v => exact { ParamsKept.rtConfigure s s.draw v with }
  case dlRst => exact { ParamsKept.dlReset s with }
  case psRst => exact { ParamsKept.psReset s with }
  case tpRst => exact { ParamsKept.tpReset s with }
  case rtRst => exact { ParamsKept.rtReset s with }
  case bqRst j c => exact .withSel _ fun _ => { same with }
  case dlGetd | dlGetw => exact .whenConfigured _ { same with }
  case dlProc | dlProcXfb => exact .whenConfigured _ { same with dl := ⟨rfl, rfl, rfl⟩ }
  case psProc => exact .whenConfigured _ { same with ps := ⟨rfl, rfl, rfl, rfl, rfl, rfl⟩ }
  case bqProc j c x => exact .withSel _ fun _ => .whenConfigured _ { same with }
  case tpProc c x => exact .whenConfigured _ { ParamsKept.tpThrough s s.draw c x with }
  case rtFrame x0 x1 => exact .whenConfigured _ (.rtRun s x0 x1)

/-- Settles O25: field by field. -/
theorem parametersKept : Obligations.ParametersKept := by
  intro i s t hi h
  obtain ⟨dl, ps, tp, bq, xfb, quant, scale, desc⟩ := exec_paramsKept hi h
  exact ⟨dl, ps, tp, bq, xfb, quant, scale, desc⟩

/-! ### SYS (R110, R111) -/

/-- Settles O32: both commands only retire, `SYS.STAT` after its response; the exact header of `SYS.STAT` passes every
check. -/
theorem sysCommands : Obligations.SysCommands := by
  intro s rest
  exact ⟨rfl, rfl, fun hcmd => step_stat hcmd⟩

end Sys2Proof.Machine
end

section
/-! PROOFS. Which unit's state a command writes (41_delayline.md R121, 43_pitchshifter.md R171, 46_quantizer.md R290, 10_state.md
R27), and that DL and PS commands read no other. -/

namespace Sys2Proof.Machine

/-- `UNIT` of a command, family by family (30_encoding.md R81). -/
def unitOf : Instr → Nat
  | .sysNop | .sysStat => 0
  | .dlCfg _ | .dlRst | .dlSetdelay _ | .dlSetfb _ | .dlSetmix _ | .dlProc _ _ | .dlProcXfb _ _ _ | .dlGetd _
  | .dlGetw _ => 1
  | .bqRst _ _ | .bqSetlp _ _ _ | .bqSetpk _ _ _ _ | .bqSeths _ _ _ _ | .bqProc _ _ _ => 2
  | .psCfg _ | .psRst | .psSetpitch _ | .psSetdrift _ _ | .psProc _ _ => 3
  | .tpCfg _ | .tpRst | .tpSetmode _ | .tpSetwf _ _ _ _ _ _ | .tpSetsat _ _ | .tpProc _ _ | .tpSethb _ _ _
  | .tpSetroll _ _ | .tpSetage _ | .tpSetinst _ | .tpSetheads _ | .tpSetnoise _ _ => 4
  | .tqSetdef | .tqSettuning _ | .tqSclclr | .tqSclb _ | .tqQuant _ | .tqLoad | .tqGetdesc => 5
  | .rtCfg _ | .rtRst | .rtSetxfb _ | .rtSetpitch _ _ | .rtFrame _ _ => 6

/-- The families are the units of the opcodes. -/
theorem instrUnit_eq (i : Instr) : instrUnit i = unitOf i := by
  cases i <;> simp only [instrUnit, Instr.parts, Nat.reduceDiv, unitOf]

/-! ### What a command writes -/

/-- What a command of unit `u` leaves alone: 1 DL, 2 BQ, 3 PS, 4 TP, 5 TQ, 6 RT. -/
structure OthersKept (u : Nat) (s t : State) : Prop where
  dl : u ≠ 1 → u ≠ 6 → t.dl = s.dl
  ps : u ≠ 3 → u ≠ 6 → t.ps = s.ps
  tp : u ≠ 4 → u ≠ 6 → t.tp = s.tp
  filters : u ≠ 2 → u ≠ 4 → u ≠ 6 → t.bq = s.bq ∧ t.bqh = s.bqh
  tq : u ≠ 5 → u ≠ 6 → t.tq = s.tq
  rt : u ≠ 6 → t.rt = s.rt

namespace OthersKept

variable {u : Nat} {s : State}

theorem refl (s : State) : OthersKept u s s :=
  ⟨fun _ _ => rfl, fun _ _ => rfl, fun _ _ => rfl, fun _ _ _ => ⟨rfl, rfl⟩, fun _ _ => rfl, fun _ => rfl⟩

theorem raise (s : State) (c : Cause) : OthersKept u s (s.raise c) := by
  constructor <;> simp

theorem retire {b : State} (h : OthersKept u s b) : OthersKept u s b.retire := { h with }

theorem answer {b : State} (h : OthersKept u s b) (ys : List Word) : OthersKept u s (b.respond ys).retire := { h with }

theorem whenConfigured {body : State} (cfg : Bool) (h : OthersKept u s body.retire) :
    OthersKept u s (s.whenConfigured cfg body) := by
  cases cfg with
  | true => exact h
  | false => exact .raise s _

theorem withSel {α : Type} (sel : Option α) {body : α → State} (h : ∀ v, OthersKept u s (body v)) :
    OthersKept u s (s.withSel sel body) := by
  cases sel with
  | some v => exact h v
  | none => exact .raise s _

/-! One lemma per unit for a state in which only that unit is written. -/

theorem ofDl (s : State) (dl : Dl) : OthersKept 1 s { s with dl := dl } := { refl s with dl := fun h => absurd rfl h }

theorem ofBq (s : State) (bq : Four BqParams) (bqh : PerCh (Four BqHist)) :
    OthersKept 2 s { s with bq := bq, bqh := bqh } := { refl s with filters := fun h => absurd rfl h }

theorem ofPs (s : State) (ps : Ps) : OthersKept 3 s { s with ps := ps } := { refl s with ps := fun h => absurd rfl h }

theorem ofTp (s : State) (tp : Tp) (bq : Four BqParams) (bqh : PerCh (Four BqHist)) :
    OthersKept 4 s { s with tp := tp, bq := bq, bqh := bqh } :=
  { refl s with tp := fun h => absurd rfl h, filters := fun _ h => absurd rfl h }

theorem ofTq (s : State) (tq : Tq) : OthersKept 5 s { s with tq := tq } := { refl s with tq := fun h => absurd rfl h }

/-- The router may write every unit (R331). -/
theorem ofRt (s t : State) : OthersKept 6 s t :=
  ⟨fun _ h => absurd rfl h, fun _ h => absurd rfl h, fun _ h => absurd rfl h, fun _ _ h => absurd rfl h,
    fun _ h => absurd rfl h, fun h => absurd rfl h⟩

theorem tpConfigure (s : State) (d : Draw) (v : F32) : OthersKept 4 s (s.tpConfigure d v) := by
  unfold State.tpConfigure
  split
  · exact refl s
  · exact ofTp s _ _ _

theorem tpThrough (s : State) (d : Draw) (c : Chan) (x : F32) : OthersKept 4 s (s.tpThrough d c x).1 := by
  unfold State.tpThrough
  split
  · exact ofTp s _ _ _
  · exact refl s

end OthersKept

/-- Every command writes the state of its own unit only. -/
theorem exec_othersKept {i : Instr} {s t : State} (h : exec i s = .next t) : OthersKept (instrUnit i) s t := by
  rw [instrUnit_eq]
  cases i <;> obtain rfl := Host.Outcome.next.inj h
  case sysNop => exact (OthersKept.refl s).retire
  case sysStat | tqQuant | tqGetdesc => exact (OthersKept.refl s).answer _
  case dlCfg | dlRst | dlSetdelay | dlSetfb | dlSetmix => exact (OthersKept.ofDl s _).retire
  case dlProc | dlProcXfb => exact .whenConfigured _ ((OthersKept.ofDl s _).answer _)
  case dlGetd | dlGetw => exact .whenConfigured _ ((OthersKept.refl s).answer _)
  case bqRst => exact .withSel _ fun _ => (OthersKept.ofBq s _ _).retire
  case bqSetlp | bqSetpk | bqSeths => exact .withSel _ fun _ => .whenConfigured _ (OthersKept.ofBq s _ _).retire
  case bqProc => exact .withSel _ fun _ => .whenConfigured _ ((OthersKept.ofBq s _ _).answer _)
  case psCfg | psRst | psSetpitch | psSetdrift => exact (OthersKept.ofPs s _).retire
  case psProc => exact .whenConfigured _ ((OthersKept.ofPs s _).answer _)
  case tpCfg v => exact (OthersKept.tpConfigure s s.draw v).retire
  case tpRst | tpSetsat | tpSetage | tpSetinst => exact (OthersKept.ofTp s _ _ _).retire
  case tpSetmode | tpSetwf | tpSetheads | tpSetnoise => exact .withSel _ fun _ => (OthersKept.ofTp s _ _ _).retire
  case tpProc c x => exact .whenConfigured _ ((OthersKept.tpThrough s s.draw c x).answer _)
  case tpSethb | tpSetroll => exact .whenConfigured _ (OthersKept.ofTp s _ _ _).retire
  case tqSetdef | tqSclclr | tqSclb => exact (OthersKept.ofTq s _).retire
  case tqSettuning => exact .withSel _ fun _ => (OthersKept.ofTq s _).retire
  case tqLoad => exact (OthersKept.ofTq s _).answer _
  case rtCfg | rtRst | rtSetxfb | rtSetpitch | rtFrame => exact .ofRt s _

/-- Settles O22: field by field. -/
theorem unitsOwnTheirState : Obligations.UnitsOwnTheirState := by
  intro i s t h
  obtain ⟨dl, ps, tp, filters, tq, rt⟩ := exec_othersKept h
  exact ⟨dl, ps, tp, filters, tq, rt⟩

/-! ### What DL and PS commands read -/

/-- The unit that `unit` reads off a state, and the responses, are the same in both states. -/
structure SameView {α : Type} (unit : State → α) (s t : State) : Prop where
  unit : unit t = unit s
  rsp : t.rsp = s.rsp

theorem SameView.whenConfigured {α : Type} {unit : State → α} (hraise : ∀ s c, unit (State.raise s c) = unit s)
    {s s' body body' : State} (h : SameView unit s s') (cfg : Bool) (hbody : SameView unit body.retire body'.retire) :
    SameView unit (s.whenConfigured cfg body) (s'.whenConfigured cfg body') := by
  cases cfg with
  | true => exact hbody
  | false =>
    exact
      { unit := (hraise s' _).trans (h.unit.trans (hraise s _).symm)
        rsp := (s'.raise_rsp _).trans (h.rsp.trans (s.raise_rsp _).symm) }

/-- R121: in a state `o` with the delay line, the responses and the draws of `s`, a DL command does what it does in `s`. -/
theorem exec_readsDl {i : Instr} {s t : State} (o : State) (hi : instrUnit i = 1) (h : exec i s = .next t) :
    ∃ t', exec i { o with draws := s.draws, rsp := s.rsp, dl := s.dl } = .next t' ∧ SameView State.dl t t' := by
  have same : SameView State.dl s { o with draws := s.draws, rsp := s.rsp, dl := s.dl } := ⟨rfl, rfl⟩
  rw [instrUnit_eq] at hi
  cases i <;> cases hi <;> obtain rfl := Host.Outcome.next.inj h <;> refine ⟨_, rfl, ?_⟩
  case dlCfg | dlRst | dlSetdelay | dlSetfb | dlSetmix => exact ⟨rfl, rfl⟩
  case dlProc | dlProcXfb | dlGetd | dlGetw => exact same.whenConfigured State.raise_dl _ ⟨rfl, rfl⟩

/-- R171: in a state `o` with the pitch shifter, the responses and the draws of `s`, a PS command does what it does in
`s`. -/
theorem exec_readsPs {i : Instr} {s t : State} (o : State) (hi : instrUnit i = 3) (h : exec i s = .next t) :
    ∃ t', exec i { o with draws := s.draws, rsp := s.rsp, ps := s.ps } = .next t' ∧ SameView State.ps t t' := by
  have same : SameView State.ps s { o with draws := s.draws, rsp := s.rsp, ps := s.ps } := ⟨rfl, rfl⟩
  rw [instrUnit_eq] at hi
  cases i <;> cases hi <;> obtain rfl := Host.Outcome.next.inj h <;> refine ⟨_, rfl, ?_⟩
  case psCfg | psRst | psSetpitch | psSetdrift => exact ⟨rfl, rfl⟩
  case psProc => exact same.whenConfigured State.raise_ps _ ⟨rfl, rfl⟩

/-- Settles O23: the second state is one with the unit, the responses and the draws of the first. -/
theorem delayAndPitchReadOnlyThemselves : Obligations.DelayAndPitchReadOnlyThemselves := by
  intro i s t s' h hdraws hrsp
  refine ⟨fun hi hdl => ?_, fun hi hps => ?_⟩
  · obtain ⟨t', step, view⟩ := exec_readsDl s' hi h
    rw [← hdraws, ← hrsp, ← hdl] at step
    exact ⟨t', step, view.unit, view.rsp⟩
  · obtain ⟨t', step, view⟩ := exec_readsPs s' hi h
    rw [← hdraws, ← hrsp, ← hps] at step
    exact ⟨t', step, view.unit, view.rsp⟩

end Sys2Proof.Machine
end

section
/-! PROOFS. The read offset of the delay line (41_delayline.md R123, R124): it takes no draw, whatever its operands, and every
operation of a configured unit leaves it equal to `dlOffset()`. -/

namespace Sys2Proof.Machine

/-! ### The offset takes no draw (R107, R123) -/

/-- Equal, or both a NaN of some pattern: what R107 leaves free of a result. -/
def SameUpToNaN (a b : F32) : Prop := a = b ∨ (isNaN a = true ∧ isNaN b = true)

theorem sameUpToNaN_drawNaN (d d' : Draw) : SameUpToNaN (drawNaN d) (drawNaN d') :=
  .inr ⟨isNaN_drawNaN d, isNaN_drawNaN d'⟩

/-- Only the pattern of a NaN product is drawn. -/
theorem fmul_sameUpToNaN (d d' : Draw) (a b : F32) : SameUpToNaN (fmul d a b) (fmul d' a b) := by
  have nan := sameUpToNaN_drawNaN d d'
  simp only [fmul]
  split_ifs
  exacts [nan, nan, .inl rfl, .inl rfl]

/-- R107: a NaN dividend gives a NaN. -/
theorem isNaN_fdiv_left (d : Draw) (a b : F32) (h : isNaN a = true) : isNaN (fdiv d a b) = true := by
  simp only [fdiv, h, Bool.true_or, if_true]
  exact isNaN_drawNaN d

/-- Only the pattern of a NaN quotient is drawn. -/
theorem fdiv_sameUpToNaN (d d' : Draw) {a a' : F32} (b : F32) (h : SameUpToNaN a a') :
    SameUpToNaN (fdiv d a b) (fdiv d' a' b) := by
  have nan := sameUpToNaN_drawNaN d d'
  obtain rfl | ⟨ha, ha'⟩ := h
  · simp only [fdiv]
    split_ifs
    exacts [nan, nan, .inl rfl, .inl rfl, nan, .inl rfl, .inl rfl]
  · exact .inr ⟨isNaN_fdiv_left d a b ha, isNaN_fdiv_left d' a' b ha'⟩

/-- R105: the clamp takes every NaN to the lower bound. -/
theorem fclamp_congr {a b : F32} (h : SameUpToNaN a b) (lo hi : F32) : fclamp a lo hi = fclamp b lo hi := by
  obtain rfl | ⟨ha, hb⟩ := h
  · rfl
  · simp only [fclamp, ha, hb, if_true]

/-- R123: of a delay in samples only the pattern of a NaN is drawn. -/
theorem msToSamples_sameUpToNaN (d d' : Draw) (ms sr : F32) : SameUpToNaN (msToSamples d ms sr) (msToSamples d' ms sr) :=
  fdiv_sameUpToNaN _ _ _ (fmul_sameUpToNaN _ _ _ _)

/-- R123: the clamped delay in samples takes no draw. -/
theorem fclamp_msToSamples (d d' : Draw) (ms sr lo hi : F32) :
    fclamp (msToSamples d ms sr) lo hi = fclamp (msToSamples d' ms sr) lo hi :=
  fclamp_congr (msToSamples_sameUpToNaN d d' ms sr) lo hi

/-- The difference of finite values takes no draw. -/
theorem fsub_finite_draw (d d' : Draw) {a b : F32} (ha : isFinite a = true) (hb : isFinite b = true) :
    fsub d a b = fsub d' a b := by
  have hb' : isFinite (fneg b) = true := (isFinite_fneg b).trans hb
  simp only [fsub, fadd, isNaN_of_isFinite a ha, isNaN_of_isFinite _ hb', isInf_of_isFinite a ha,
    isInf_of_isFinite _ hb', Bool.or_self, Bool.false_eq_true, if_false]

/-- R123: the integer part and the weight of a split delay, each from the clamped delay. -/
theorem splitDelay_parts (d : Draw) {N : Nat} (v : F32) (h2 : 2 ≤ N) (hN : N ≤ 2 ^ 24) :
    ((splitDelay d N v).1 : Int) = floorI (fclamp v f1 (toF32 ((N : Int) - 1))) ∧
      (splitDelay d N v).2 = fsub d (fclamp v f1 (toF32 ((N : Int) - 1))) (toF32 ((splitDelay d N v).1 : Int)) := by
  obtain ⟨hpos, _⟩ := splitDelay_spec d N v h2 hN
  have hint : ((splitDelay d N v).1 : Int) = floorI (fclamp v f1 (toF32 ((N : Int) - 1))) := by
    simp only [splitDelay] at hpos ⊢
    omega
  exact ⟨hint, by rw [hint]; rfl⟩

/-- The clamped delay of R123 is finite. -/
theorem isFinite_clampedDelay {N : Nat} (v : F32) (h2 : 2 ≤ N) (hN : N ≤ 2 ^ 24) :
    isFinite (fclamp v f1 (toF32 ((N : Int) - 1))) = true := by
  obtain ⟨finite, units⟩ := toF32_exact (N - 1) (by omega)
  rw [show ((N - 1 : Nat) : Int) = (N : Int) - 1 by omega] at finite units
  have range : fle f1 (toF32 ((N : Int) - 1)) = true := by
    rw [fle_iff_intOf _ _ (by decide) finite, intOf_f1, units]
    nlinarith [unitsPerOne_pos]
  obtain ⟨hlo, hhi⟩ := fclamp_between v _ _ range
  exact isFinite_of_between _ _ _ (by decide) finite hlo hhi

/-- R123: the split of a delay takes no draw. -/
theorem splitDelay_congr (d d' : Draw) {N : Nat} {v v' : F32} (h2 : 2 ≤ N) (hN : N ≤ 2 ^ 24) (h : SameUpToNaN v v') :
    splitDelay d N v = splitDelay d' N v' := by
  obtain ⟨int, frac⟩ := splitDelay_parts d v h2 hN
  obtain ⟨int', frac'⟩ := splitDelay_parts d' v' h2 hN
  have same := fclamp_congr h f1 (toF32 ((N : Int) - 1))
  have parts : (splitDelay d N v).1 = (splitDelay d' N v').1 := by
    rw [← same] at int'
    exact_mod_cast int.trans int'.symm
  obtain ⟨_, bound, _⟩ := splitDelay_spec d' N v' h2 hN
  obtain ⟨finite, _⟩ := toF32_exact (splitDelay d' N v').1 (by omega)
  refine Prod.ext parts ?_
  rw [frac, frac', parts, same]
  exact fsub_finite_draw d d' (isFinite_clampedDelay v' h2 hN) finite

/-- R123: `dlOffset()` of a legal capacity takes no draw. -/
theorem dlOffset_draw (d d' : Draw) (dl : Dl) (h2 : 2 ≤ dl.N) (hN : dl.N ≤ Config.dlRamDepth) :
    dlOffset d dl = dlOffset d' dl := by
  have hN' : dl.N ≤ 2 ^ 24 := hN.trans (by decide)
  have parts : splitDelay (d.at 0) dl.N (msToSamples (d.at 1) dl.delayMs dl.sr) =
      splitDelay (d'.at 0) dl.N (msToSamples (d'.at 1) dl.delayMs dl.sr) :=
    splitDelay_congr _ _ h2 hN' (msToSamples_sameUpToNaN _ _ _ _)
  simp only [dlOffset, parts]

/-! ### The offset of a configured unit (R124) -/

/-- R124 (i) and (iii), clause by clause. -/
theorem offsetOk_iff (N dInt : Nat) (dFrac : F32) :
    offsetOk N dInt dFrac = true ↔ 1 ≤ dInt ∧ dInt + 1 ≤ N ∧ fle f0 dFrac = true ∧ flt dFrac f1 = true ∧
      (dInt + 1 < N ∨ feq dFrac f0 = true) := by
  simp only [offsetOk, Bool.and_eq_true, Bool.or_eq_true, decide_eq_true_eq, and_assoc]

/-- R124 for one delay line: the offset is in range, is what `dlOffset()` gives, and its weight is exact. -/
def Dl.OffsetExact (dl : Dl) : Prop :=
  offsetOk dl.N dl.dInt dl.dFrac = true ∧ ∀ d, dlOffset d dl = dl ∧
    let ds := fclamp (msToSamples d dl.delayMs dl.sr) f1 (toF32 ((dl.N : Int) - 1))
    intOf dl.dFrac = intOf ds - dl.dInt * unitsPerOne

/-- `dlOffset()` of a legal capacity gives an offset that meets R124. -/
theorem dlOffset_exact (d : Draw) (dl : Dl) (h2 : 2 ≤ dl.N) (hN : dl.N ≤ Config.dlRamDepth) :
    (dlOffset d dl).OffsetExact := by
  have hN' : dl.N ≤ 2 ^ 24 := hN.trans (by decide)
  obtain ⟨hpos, hlast, hlo, hhi, hzero, hexact⟩ :=
    splitDelay_spec (d.at 0) dl.N (msToSamples (d.at 1) dl.delayMs dl.sr) h2 hN'
  refine ⟨(offsetOk_iff _ _ _).2 ⟨hpos, hlast, hlo, hhi, ?_⟩, fun d' => ⟨dlOffset_draw d' d dl h2 hN, ?_⟩⟩
  · exact (Nat.lt_or_eq_of_le hlast).imp_right fun h => feq_of_isZero _ _ (hzero h) (by decide)
  · exact hexact.trans (by rw [fclamp_msToSamples (d.at 1) d' dl.delayMs dl.sr]; rfl)

/-- The offset depends on the delay, the rate and the capacity alone. -/
theorem Dl.OffsetExact.congr {dl : Dl} (h : dl.OffsetExact) (fb mix : F32) (ch : PerCh DlChan) :
    Dl.OffsetExact { dl with fb := fb, mix := mix, ch := ch } := by
  obtain ⟨range, offset⟩ := h
  refine ⟨range, fun d => ?_⟩
  obtain ⟨current, weight⟩ := offset d
  exact ⟨congrArg (fun dl : Dl => { dl with fb := fb, mix := mix, ch := ch }) current, weight⟩

/-- A configured delay line has a legal capacity and an offset that meets R124. -/
def Dl.OffsetOk (dl : Dl) : Prop := dl.cfg = true → (2 ≤ dl.N ∧ dl.N ≤ Config.dlRamDepth) ∧ dl.OffsetExact

theorem DlChange.keeps_offsetOk {dl dl' : Dl} (h : DlChange dl dl') (hs : dl.OffsetOk) : dl'.OffsetOk := by
  intro hcfg
  cases h with
  | reallocate d v =>
    obtain ⟨h2, hN⟩ := dlCapacity_range (d.at 1) v
    exact ⟨⟨h2, hN⟩, dlOffset_exact (d.at 0) _ h2 hN⟩
  | setDelay d ms =>
    obtain ⟨n, v, he⟩ := dlSetDelay_eq d dl ms
    have hcfg' : dl.cfg = true := by rw [he] at hcfg; exact hcfg
    obtain ⟨⟨h2, hN⟩, _⟩ := hs hcfg'
    simp only [dlSetDelay, hcfg', if_true]
    exact ⟨⟨h2, hN⟩, dlOffset_exact d _ h2 hN⟩
  | reset => exact (hs hcfg).imp_right fun h => h.congr _ _ _
  | setFb v => exact (hs hcfg).imp_right fun h => h.congr _ _ _
  | setMix v => exact (hs hcfg).imp_right fun h => h.congr _ _ _
  | process d c x xfb => exact (hs hcfg).imp_right fun h => h.congr _ _ _

/-- Only the changes of the delay line can touch its offset. -/
theorem Change.keeps_offsetOk {s t : State} (h : Change s t) (hs : s.dl.OffsetOk) : t.dl.OffsetOk := by
  cases h with
  | dl h => exact h.keeps_offsetOk hs
  | _ => exact hs

/-- Settles O19: a step either recomputes the offset or leaves all that it depends on. -/
theorem readOffsetStaysExact : Obligations.ReadOffsetStaysExact := by
  intro s t hN ho h
  have capacity : s.dl.cfg = true → 2 ≤ s.dl.N ∧ s.dl.N ≤ Config.dlRamDepth := by
    intro hcfg
    simp only [State.capacitiesOk, hcfg, Bool.not_true, Bool.false_or, Bool.and_eq_true, decide_eq_true_eq] at hN
    exact hN.1
  have hs : s.dl.OffsetOk := fun hcfg => ⟨capacity hcfg, ho hcfg⟩
  have ht : t.dl.OffsetOk :=
    step_keeps (P := fun s => s.dl.OffsetOk) (fun _ _ _ _ _ _ h => h) (fun _ _ => Change.keeps_offsetOk) h hs
  exact fun hcfg => (ht hcfg).2

end Sys2Proof.Machine
end

section
/-! PROOFS. What each DL command does (41_delayline.md R125 to R132), the one cell a sample stores, and the integer delay
without feedback (R135). -/

namespace Sys2Proof.Machine

/-- The places of a rule's roundings, in the order a statement counts them. -/
def placesOf (places : List Draw) (k : Nat) : Draw := places.getD k noDraw

/-! ### Configure, reset and setters (R125 to R129) -/

/-- R122: the capacity at a clamped rate, without the natural number's cut at zero. -/
theorem dlCapacity_eq (d : Draw) (v : F32) :
    (dlCapacity d (clampRate v) : Int) =
      min (ceilI (msToSamples d Config.maxDelayMs (clampRate v)) + 1) Config.dlRamDepth := by
  obtain ⟨h2, _⟩ := dlCapacity_range d v
  simp only [dlCapacity] at h2 ⊢
  omega

/-- R125: a configure at another rate, or the first one, reallocates. -/
theorem dlConfigure_new {dl : Dl} {v : F32} (h : dl.cfg = true → feq dl.sr (clampRate v) = false) (d : Draw) :
    dlConfigure d dl v = dlReallocate d dl (clampRate v) := by
  have changed : rateUnchanged dl.cfg dl.sr (clampRate v) = false := by
    cases hc : dl.cfg with
    | true => exact h hc
    | false => rfl
  rw [dlConfigure, changed, if_neg Bool.false_ne_true]

/-- R123: what `dlOffset()` writes at a legal capacity; the draws are those of its three roundings. -/
theorem dlOffset_eq (d : Draw) (dl : Dl) (h2 : 2 ≤ dl.N) (hN : dl.N ≤ Config.dlRamDepth) :
    ∃ (dInt : Nat) (dFrac : F32), dlOffset d dl = { dl with dInt := dInt, dFrac := dFrac } ∧
      let ds := fclamp (msToSamples (d.at 1) dl.delayMs dl.sr) f1 (toF32 ((dl.N : Int) - 1))
      (dInt : Int) = floorI ds ∧ dFrac = fsub (d.at 0) ds (toF32 (dInt : Int)) :=
  ⟨_, _, rfl, splitDelay_parts (d.at 0) _ h2 (hN.trans (by decide))⟩

/-- R127: a configured unit recomputes its offset from the new delay. -/
theorem dlSetDelay_on {dl : Dl} (hc : dl.cfg = true) (d : Draw) (ms : F32) :
    dlSetDelay d dl ms = dlOffset d { dl with delayMs := fclamp ms f1 Config.maxDelayMs } := if_pos hc

/-- R127: an unconfigured unit stores the delay alone. -/
theorem dlSetDelay_off {dl : Dl} (hc : dl.cfg = false) (d : Draw) (ms : F32) :
    dlSetDelay d dl ms = { dl with delayMs := fclamp ms f1 Config.maxDelayMs } :=
  if_neg (by rw [hc]; exact Bool.false_ne_true)

/-- R126: without a configured unit only the taps are zeroed. -/
theorem dlReset_eq (dl : Dl) :
    (dl.cfg = true → dlReset dl = { dl with ch := ⟨⟨[], 0, f0⟩, ⟨[], 0, f0⟩⟩ }) ∧
      (dl.cfg = false →
        dlReset dl = { dl with ch := ⟨{ dl.ch.c0 with delayed := f0 }, { dl.ch.c1 with delayed := f0 }⟩ }) := by
  constructor <;> intro hc <;> simp only [dlReset, dlResetChan, hc, if_true, Bool.false_eq_true, if_false, dlZeroChan]

/-- A command that only writes the delay line is known by what it writes there. -/
theorem next_retire_dl (s : State) {dl dl' : Dl} (h : dl = dl') :
    (Host.Outcome.next (State.retire { s with dl := dl }) : Host.Outcome State Fault Refusal) =
      .next (State.retire { s with dl := dl' }) := by rw [h]

/-- Settles O33: by whether the rate is the stored one, and by whether the unit is configured. -/
theorem delayConfigureAndReset : Obligations.DelayConfigureAndReset := by
  intro s v
  refine ⟨fun hc h => ?_, fun h => ?_, fun hc => ?_, fun hc => ?_⟩
  · exact exec_dlCfg_of_atRate (Bool.and_eq_true_iff.2 ⟨hc, h⟩)
  · let d := s.draw
    obtain ⟨h2, hN⟩ := dlCapacity_range (d.at 1) v
    obtain ⟨dInt, dFrac, offset, hInt, hFrac⟩ := dlOffset_eq (d.at 0)
      { s.dl with cfg := true, sr := clampRate v, N := dlCapacity (d.at 1) (clampRate v), ch := PerCh.both dlZeroChan }
      h2 hN
    refine ⟨placesOf [(d.at 1).at 0, (d.at 1).at 1, ((d.at 0).at 1).at 0, ((d.at 0).at 1).at 1, (d.at 0).at 0],
      _, dInt, _, dFrac, ?_, dlCapacity_eq (d.at 1) v, h2, rfl, hInt, hFrac⟩
    exact next_retire_dl s ((dlConfigure_new h d).trans offset)
  · exact next_retire_dl s ((dlReset_eq s.dl).1 hc)
  · exact next_retire_dl s ((dlReset_eq s.dl).2 hc)

/-- Settles O34: the two gains are clamped; the delay is clamped, and a configured unit recomputes its offset from it. -/
theorem delaySetters : Obligations.DelaySetters := by
  intro s v
  refine ⟨rfl, rfl, fun hc => ?_, fun hc h2 hN => ?_⟩
  · exact next_retire_dl s (dlSetDelay_off hc s.draw v)
  · let d := s.draw
    obtain ⟨dInt, dFrac, offset, hInt, hFrac⟩ :=
      dlOffset_eq d { s.dl with delayMs := fclamp v f1 Config.maxDelayMs } h2 hN
    refine ⟨placesOf [(d.at 1).at 0, (d.at 1).at 1, d.at 0], dInt, _, _, dFrac, ?_, rfl, rfl, hInt, hFrac⟩
    exact next_retire_dl s ((dlSetDelay_on hc d v).trans offset)

/-! ### A sample and the reads (R130 to R132) -/

/-- R130: a sample of a configured unit. -/
theorem exec_dlProcXfb {s : State} (hc : s.dl.cfg = true) (c : Chan) (x xfb : F32) :
    exec (.dlProcXfb c x xfb) s = .next (s.dlRun c x xfb).retire := by
  show Host.Outcome.next (s.whenConfigured s.dl.cfg _) = _
  rw [hc, State.whenConfigured_true]

/-- R130: with one operand nothing is fed back from outside. -/
theorem exec_dlProc (s : State) (c : Chan) (x : F32) : exec (.dlProc c x) s = exec (.dlProcXfb c x f0) s := rfl

/-- R131: a read of a configured unit answers the tap of the channel. -/
theorem exec_dlGetd {s : State} (hc : s.dl.cfg = true) (c : Chan) :
    exec (.dlGetd c) s = .next (s.respond [(s.dl.ch.get c).delayed]).retire := by
  show Host.Outcome.next (s.whenConfigured s.dl.cfg _) = _
  rw [hc, State.whenConfigured_true]

/-- Settles O35: the tap reads the cells at distances `dInt` and `dInt + 1`, and each rounding has a place of its own. -/
theorem delayProcessAndReads : Obligations.DelayProcessAndReads := by
  intro s c x xfb hc
  let d := s.draw
  refine ⟨⟨placesOf [d.at 0, (d.at 0).at 0, (d.at 0).at 1, (d.at 0).at 2, d.at 1, d.at 2, d.at 4, d.at 5, d.at 6,
    d.at 7, d.at 3], ?_⟩, exec_dlProc s c x, exec_dlGetd hc c, rfl⟩
  simp only [exec_dlProcXfb hc, ← ringIdx_succ]
  rfl

/-- Settles O36: a write leaves the other cells of its ring alone, and a sample writes one cell of one ring. -/
theorem delayProcessStoresOneCell : Obligations.DelayProcessStoresOneCell := by
  intro s t c x xfb hc hwf h
  rw [exec_dlProcXfb hc] at h
  obtain rfl := Host.Outcome.next.inj h
  have chan : (s.dlRun c x xfb).retire.dl.ch.get c = (dlProcess s.draw s.dl (s.dl.ch.get c) x xfb).1 :=
    PerCh.get_set_same _ _ _
  obtain ⟨cells, _⟩ := dlProcess_chan s.draw s.dl (s.dl.ch.get c) x xfb
  refine ⟨fun a ha => ?_, ⟨placesOf [s.draw.at 3, s.draw.at 1, s.draw.at 2], ?_⟩,
    PerCh.get_set_other _ c _ _ (otherChan_ne c), rfl⟩
  · rw [chan, cells a ha]
  · rw [chan]
    exact Memory.read_write_same _ _ _ hwf

/-! ### The integer delay (R135) -/

/-- The comparison of R107 passes on. -/
theorem feq_trans {a b c : F32} (hab : feq a b = true) (hbc : feq b c = true) : feq a c = true := by
  simp only [feq, Bool.and_eq_true, Bool.not_eq_true', decide_eq_true_eq] at hab hbc ⊢
  obtain ⟨⟨ha, _⟩, kab⟩ := hab
  obtain ⟨⟨_, hc⟩, kbc⟩ := hbc
  exact ⟨⟨ha, hc⟩, kab.trans kbc⟩

/-- A value equal to a finite one is finite. -/
theorem isFinite_of_feq {a b : F32} (h : feq a b = true) (hb : isFinite b = true) : isFinite a = true := by
  simp only [feq, Bool.and_eq_true, decide_eq_true_eq] at h
  obtain rfl | ⟨ha, _⟩ := eq_of_key a b h.2
  · exact hb
  · exact isFinite_of_isZero a ha

/-- A zero added to a finite value changes at most the sign of a zero. -/
theorem feq_fadd_zero (d : Draw) {x z : F32} (hx : isFinite x = true) (hz : isZero z = true) :
    feq (fadd d x z) x = true := by
  obtain h | ⟨hx0, h⟩ := fadd_zero d x z hx hz
  · rw [h]; exact feq_refl x (isNaN_of_isFinite x hx)
  · exact feq_of_isZero _ _ h hx0

/-- Finite values add in either order. -/
theorem fadd_comm_finite (d : Draw) {a b : F32} (ha : isFinite a = true) (hb : isFinite b = true) :
    fadd d a b = fadd d b a := by
  simp only [fadd, isNaN_of_isFinite a ha, isNaN_of_isFinite b hb, isInf_of_isFinite a ha, isInf_of_isFinite b hb,
    Bool.or_self, Bool.false_eq_true, if_false, Int.add_comm (intOf a), Bool.and_comm (isNeg a)]

theorem isZero_fadd (d : Draw) {a b : F32} (ha : isZero a = true) (hb : isZero b = true) :
    isZero (fadd d a b) = true := by
  obtain h | ⟨_, h⟩ := fadd_zero d a b (isFinite_of_isZero a ha) hb
  · rw [h]; exact ha
  · exact h

/-- R64: with a zero weight the tap is the newer cell. -/
theorem ringTap_integer (d : Draw) (M : Memory 32) (N w dInt : Nat) (hA : isFinite (M.read (ringIdx N w dInt)) = true)
    (hB : isFinite (M.read (ringIdx N w (dInt + 1))) = true) :
    feq (ringTap d M N w dInt f0) (M.read (ringIdx N w dInt)) = true := by
  simp only [ringTap, fsub_one_zero, fmul_one_finite _ _ hA]
  exact feq_fadd_zero d hA (isZero_fmul _ _ _ hB (by decide))

/-- The settings of R135: no feedback, full wet, an integer delay of `d` samples inside the ring. -/
structure Dl.IntegerDelay (d : Nat) (dl : Dl) : Prop where
  cfg : dl.cfg = true
  fb : dl.fb = f0
  mix : dl.mix = f1
  dFrac : dl.dFrac = f0
  dInt : dl.dInt = d
  pos : 1 ≤ d
  inside : d + 1 ≤ dl.N

/-- R130 at the settings of R135: the answer is the tap and the stored value is the input, up to the sign of a zero. -/
theorem dlProcess_integer {d : Nat} {dl : Dl} (h : dl.IntegerDelay d) (p : Draw) (ch : DlChan) {x : F32}
    (hx : isFinite x = true) (hA : isFinite (ch.buf.read (ringIdx dl.N ch.w d)) = true)
    (hB : isFinite (ch.buf.read (ringIdx dl.N ch.w (d + 1))) = true) :
    feq (dlProcess p dl ch x f0).2 (ch.buf.read (ringIdx dl.N ch.w d)) = true ∧
      ∃ v, feq v x = true ∧ (dlProcess p dl ch x f0).1.buf = ch.buf.write ch.w v ∧
        (dlProcess p dl ch x f0).1.w = ringAdvance dl.N ch.w := by
  have tap := ringTap_integer (p.at 0) ch.buf dl.N ch.w d hA hB
  have finite := isFinite_of_feq tap hA
  have silent : isZero (fadd (p.at 1) (fmul (p.at 2) f0 (ringTap (p.at 0) ch.buf dl.N ch.w d f0)) f0) = true := by
    refine isZero_fadd _ ?_ (by decide)
    rw [fmul_comm_value]
    exact isZero_fmul _ _ _ finite (by decide)
  simp only [dlProcess, h.fb, h.mix, h.dFrac, h.dInt]
  refine ⟨?_, _, feq_fadd_zero (p.at 3) hx silent, rfl, trivial⟩
  have dry : isZero (fmul (p.at 5) x f0) = true := isZero_fmul _ _ _ hx (by decide)
  rw [fsub_one_one, fmul_one_finite _ _ finite, fadd_comm_finite _ (isFinite_of_isZero _ dry) finite]
  exact feq_trans (feq_fadd_zero (p.at 4) finite dry) tap

/-- A stored value that stands for a finite input, up to the sign of a zero. -/
def StandsFor (stored input : F32) : Prop := isFinite input = true ∧ feq stored input = true

theorem StandsFor.zero : StandsFor f0 f0 := ⟨by decide, by decide⟩

theorem StandsFor.getD {stored inputs : List F32} (h : List.Forall₂ StandsFor stored inputs) (k : Nat) :
    StandsFor (stored.getD k f0) (inputs.getD k f0) := by
  induction h generalizing k with
  | nil => exact .zero
  | cons hd _ ih =>
    cases k with
    | zero => exact hd
    | succ k => exact ih k

theorem StandsFor.writtenAgo {stored inputs : List F32} (h : List.Forall₂ StandsFor stored inputs) (d : Nat) :
    StandsFor (writtenAgo stored d) (writtenAgo inputs d) := by
  unfold Machine.writtenAgo
  rw [h.length_eq]
  split
  · exact StandsFor.getD h _
  · exact .zero

/-- The ring of channel `c` holds these inputs, and the unit is set as in R135. -/
structure HoldsInputs (c : Chan) (d : Nat) (inputs : List F32) (s : State) : Prop where
  settings : s.dl.IntegerDelay d
  ring : ∃ stored, HoldsHistory s.dl.N stored ((s.dl.ch.get c).buf, (s.dl.ch.get c).w) ∧
    List.Forall₂ StandsFor stored inputs

/-- R135: one sample answers the input of `d` samples ago, and the ring holds one input more. -/
theorem HoldsInputs.sample {c : Chan} {d : Nat} {inputs : List F32} {s : State} (h : HoldsInputs c d inputs s) {x : F32}
    (hx : isFinite x = true) :
    ∃ (u : State) (y : F32), exec (.dlProc c x) s = .next u ∧ u.rsp = s.rsp ++ [y] ∧
      feq y (writtenAgo inputs d) = true ∧ feq ((u.dl.ch.get c).buf.read (s.dl.ch.get c).w) x = true ∧
      HoldsInputs c d (inputs ++ [x]) u := by
  obtain ⟨settings, stored, history, stands⟩ := h
  have cell (k : Nat) (hpos : 1 ≤ k) (hk : k ≤ s.dl.N) :
      feq ((s.dl.ch.get c).buf.read (ringIdx s.dl.N (s.dl.ch.get c).w k)) (writtenAgo inputs k) = true ∧
        isFinite ((s.dl.ch.get c).buf.read (ringIdx s.dl.N (s.dl.ch.get c).w k)) = true := by
    obtain ⟨finite, same⟩ := StandsFor.writtenAgo stands k
    rw [show (s.dl.ch.get c).buf.read _ = _ from history.cell k hpos hk]
    exact ⟨same, isFinite_of_feq same finite⟩
  obtain ⟨newer, finite⟩ := cell d settings.pos (Nat.le_of_succ_le settings.inside)
  obtain ⟨_, finite'⟩ := cell (d + 1) (Nat.le_add_left 1 d) settings.inside
  obtain ⟨answer, v, hv, hbuf, hw⟩ := dlProcess_integer settings s.draw (s.dl.ch.get c) hx finite finite'
  have chan : (s.dlRun c x f0).retire.dl.ch.get c = (dlProcess s.draw s.dl (s.dl.ch.get c) x f0).1 :=
    PerCh.get_set_same _ _ _
  refine ⟨(s.dlRun c x f0).retire, _, (exec_dlProc s c x).trans (exec_dlProcXfb settings.cfg c x f0), rfl,
    feq_trans answer newer, ?_, { settings with }, stored ++ [v], ?_, List.rel_append stands (.cons ⟨hx, hv⟩ .nil)⟩
  · rw [chan, hbuf, Memory.read_write_same _ _ _ history.wf]
    exact hv
  · rw [chan, hbuf, hw]
    exact history.push v

/-- R135: a run of samples leaves all of them in the ring. -/
theorem HoldsInputs.run {c : Chan} {d : Nat} {t : State} (xs : List F32) (hxs : ∀ v ∈ xs, isFinite v = true)
    {inputs : List F32} {s : State} (h : HoldsInputs c d inputs s)
    (ht : s.runAll (xs.map fun v => .dlProc c v) = some t) : HoldsInputs c d (inputs ++ xs) t := by
  induction xs generalizing inputs s with
  | nil =>
    obtain rfl := Option.some.inj ht
    rwa [List.append_nil]
  | cons x xs ih =>
    obtain ⟨hx, hxs⟩ := List.forall_mem_cons.1 hxs
    obtain ⟨u, _, step, _, _, _, held⟩ := h.sample hx
    simp only [List.map_cons, State.runAll, step] at ht
    rw [List.append_cons]
    exact ih hxs held ht

/-- Settles O38: an empty ring holds no input yet, each sample adds one, and the tap reads the one of `d` samples ago. -/
theorem integerDelayIsExact : Obligations.IntegerDelayIsExact := by
  intro s t c xs x d hcfg hfb hmix hfrac hint hpos hin hbuf hw hfin hrun
  obtain ⟨hx, hxs⟩ := List.forall_mem_cons.1 hfin
  have start : HoldsInputs c d [] s :=
    { settings := ⟨hcfg, hfb, hmix, hfrac, hint, hpos, hin⟩
      ring := ⟨[], by rw [hbuf]; exact .empty hw, .nil⟩ }
  obtain ⟨u, y, step, hrsp, answer, stored, _⟩ := (start.run xs hxs hrun).sample hx
  exact ⟨u, y, step, hrsp, answer, stored⟩

end Sys2Proof.Machine
end

section
/-! PROOFS. What each BQ command and the filter setters of TP do (42_biquad.md R151 to R157, 44_tape_heads_modulation.md
R218, R219), and the peaking filter of 0 dB (R159). -/

namespace Sys2Proof.Machine

/-! ### Coefficients (R151) -/

/-- The place of rounding number `k` of R151, as FilterCoefficients counts them: six of the clamp, the angle, `alpha` and
the amplitude, those of the type's own formulas (a high shelf begins with `k`, `A + 1` and `A - 1`), and from 40 on the
divisions by `a0`. -/
def coefPlaces (d : Draw) (kind : FilterKind) (k : Nat) : Draw :=
  if k < 6 then
    placesOf [d.at 0, (d.at 1).at 0, (d.at 1).at 1, (d.at 3).at 0, (d.at 3).at 1, (d.at 3).at 3] k
  else if k < 40 then
    match kind with
    | .highShelf => ((d.at 3).at 2).at (k - 6)
    | .lowpass | .peaking => ((d.at 3).at 2).at (k - 11)
  else (d.at 2).at (k - 40)

/-- Settles O39: by the type; each rounding of the rule has a place of its own. -/
theorem filterCoefficients : Obligations.FilterCoefficients := by
  rintro d0 ⟨kind, f', g, q, b0, b1, b2, a1, a2⟩ f sr
  refine ⟨coefPlaces d0 kind, ?_⟩
  cases kind with
  | lowpass => exact ⟨fun _ => rfl, nofun, nofun⟩
  | peaking => exact ⟨nofun, fun _ => rfl, nofun⟩
  | highShelf => exact ⟨nofun, nofun, fun _ => rfl⟩

/-! ### Setters, reset and a sample (R153 to R157, R218, R219) -/

/-- A command on filter `j` of a configured block runs its body (R88). -/
theorem State.withFilter_configured {s : State} {cfg : Bool} (hc : cfg = true) (j : Fin 4) (body : Fin 4 → State) :
    (s.withSel (selFour j.val) fun j => s.whenConfigured cfg (body j)) = (body j).retire := by
  rw [selFour_val, State.withSel_some, hc, State.whenConfigured_true]

/-- R154: `BQ.SETLP` on a configured block. -/
theorem exec_bqSetlp {s : State} (hc : s.tp.cfg = true) (j : Fin 4) (freq q : F32) :
    exec (.bqSetlp j.val freq q) s =
      .next (s.setBq j (bqSetLp s.draw (s.bq.get j) freq q s.tp.sr)).retire :=
  congrArg Host.Outcome.next (State.withFilter_configured hc j _)

/-- R155: `BQ.SETPK` on a configured block. -/
theorem exec_bqSetpk {s : State} (hc : s.tp.cfg = true) (j : Fin 4) (freq gainDb q : F32) :
    exec (.bqSetpk j.val freq gainDb q) s =
      .next (s.setBq j (bqSetGain s.draw .peaking (s.bq.get j) freq gainDb q s.tp.sr)).retire :=
  congrArg Host.Outcome.next (State.withFilter_configured hc j _)

/-- R156: `BQ.SETHS` on a configured block. -/
theorem exec_bqSeths {s : State} (hc : s.tp.cfg = true) (j : Fin 4) (freq gainDb q : F32) :
    exec (.bqSeths j.val freq gainDb q) s =
      .next (s.setBq j (bqSetGain s.draw .highShelf (s.bq.get j) freq gainDb q s.tp.sr)).retire :=
  congrArg Host.Outcome.next (State.withFilter_configured hc j _)

/-- R219: the roll-off of the tape is filter 2. -/
theorem exec_tpSetroll (s : State) (freq q : F32) : exec (.tpSetroll freq q) s = exec (.bqSetlp 2 freq q) s := rfl

/-- R218: the head bump of the tape is filter 1. -/
theorem exec_tpSethb (s : State) (freq gainDb q : F32) :
    exec (.tpSethb freq gainDb q) s = exec (.bqSetpk 1 freq gainDb q) s := rfl

/-- R153: `BQ.RST` needs no configured block. -/
theorem exec_bqRst (s : State) (j : Fin 4) (c : Chan) :
    exec (.bqRst j.val c) s = .next (s.setHist c j .zero).retire := by
  show Host.Outcome.next (s.withSel (selFour j.val) fun j => (s.setHist c j .zero).retire) = _
  rw [selFour_val, State.withSel_some]

/-- R157: `BQ.PROC` on a configured block. -/
theorem exec_bqProc {s : State} (hc : s.tp.cfg = true) (j : Fin 4) (c : Chan) (x : F32) :
    exec (.bqProc j.val c x) s = .next (s.bqRun j c x).retire :=
  congrArg Host.Outcome.next (State.withFilter_configured hc j _)

/-- Settles O40: each setter writes one filter, and the two of the tape are the block's own on a fixed filter. -/
theorem filterSetters : Obligations.FilterSetters := by
  intro s j freq gainDb q hc
  exact ⟨⟨s.draw, exec_bqSetlp hc j freq q⟩, ⟨s.draw, exec_bqSetpk hc j freq gainDb q⟩,
    ⟨s.draw, exec_bqSeths hc j freq gainDb q⟩,
    ⟨s.draw, (exec_tpSetroll s freq q).trans (exec_bqSetlp hc 2 freq q)⟩,
    ⟨s.draw, (exec_tpSethb s freq gainDb q).trans (exec_bqSetpk hc 1 freq gainDb q)⟩⟩

/-- Settles O41: the nine roundings of a sample lie directly inside the step's own place, in the order of the rule. -/
theorem filterResetAndProcess : Obligations.FilterResetAndProcess :=
  fun s j c x => ⟨exec_bqRst s j c, fun hc => ⟨s.draw.at, exec_bqProc hc j c x⟩⟩

/-! ### Finite results have finite operands (R106, R107) -/

/-- A finite product has finite factors. -/
theorem isFinite_of_fmul {d : Draw} {a b : F32} (h : isFinite (fmul d a b) = true) :
    isFinite a = true ∧ isFinite b = true := by
  have left {u v : F32} (huv : isFinite (fmul d u v) = true) : isFinite u = true := by
    by_contra hu
    rw [fmul_not_finite d u v (Bool.eq_false_of_not_eq_true hu)] at huv
    exact Bool.false_ne_true huv
  exact ⟨left h, left (fmul_comm_value d a b ▸ h)⟩

/-- A value that is not finite is a NaN or an infinity. -/
theorem isNaN_or_isInf {v : F32} (h : isFinite v = false) : isNaN v = true ∨ isInf v = true := by
  simp only [isFinite, isNaN, isInf, decide_eq_false_iff_not, decide_eq_true_eq] at *
  omega

theorem not_isFinite_drawNaN (d : Draw) : isFinite (drawNaN d) = false := not_isFinite_of_isNaN _ (isNaN_drawNaN d)

theorem not_isFinite_of_isInf {v : F32} (h : isInf v = true) : isFinite v = false := by
  simp only [isFinite, isInf, decide_eq_false_iff_not, decide_eq_true_eq] at *
  omega

/-- A finite sum has a finite right operand. -/
theorem isFinite_of_fadd_right {d : Draw} {a b : F32} (h : isFinite (fadd d a b) = true) : isFinite b = true := by
  by_contra hb
  have poisoned : isFinite (fadd d a b) = false := by
    obtain nan | inf := isNaN_or_isInf (Bool.eq_false_of_not_eq_true hb)
    · exact not_isFinite_of_isNaN _ (isNaN_fadd d a b (.inr nan))
    · unfold fadd
      split_ifs with _ ha
      exacts [not_isFinite_drawNaN d, not_isFinite_drawNaN d, not_isFinite_of_isInf ha, not_isFinite_of_isInf inf]
  rw [poisoned] at h
  exact Bool.false_ne_true h

/-- A finite quotient has a finite dividend. -/
theorem isFinite_of_fdiv_left {d : Draw} {a b : F32} (h : isFinite (fdiv d a b) = true) : isFinite a = true := by
  by_contra ha
  have poisoned : isFinite (fdiv d a b) = false := by
    obtain nan | inf := isNaN_or_isInf (Bool.eq_false_of_not_eq_true ha)
    · exact not_isFinite_of_isNaN _ (isNaN_fdiv_left d a b nan)
    · have infinite : ∀ neg, isFinite (mkF neg 0x7F800000) = false := by decide
      simp only [fdiv, inf, if_true]
      split_ifs
      exacts [not_isFinite_drawNaN d, not_isFinite_drawNaN d, infinite _]
  rw [poisoned] at h
  exact Bool.false_ne_true h

/-! ### Where no draw is taken (R107) -/

/-- Two places of one operation with a finite result give that result. -/
theorem SameUpToNaN.eq_of_isFinite {a b : F32} (h : SameUpToNaN a b) (ha : isFinite a = true) : a = b := by
  obtain rfl | ⟨nan, _⟩ := h
  · rfl
  · rw [not_isFinite_of_isNaN a nan] at ha
    exact absurd ha Bool.false_ne_true

/-- A finite product takes no draw. -/
theorem fmul_finite_draw {d : Draw} (d' : Draw) {a b : F32} (h : isFinite (fmul d a b) = true) :
    fmul d' a b = fmul d a b := ((fmul_sameUpToNaN d d' a b).eq_of_isFinite h).symm

/-- A quotient of a finite value by a finite one other than zero takes no draw. -/
theorem fdiv_finite_draw (d d' : Draw) {a b : F32} (ha : isFinite a = true) (hb : isFinite b = true)
    (h0 : isZero b = false) : fdiv d a b = fdiv d' a b := by
  rw [fdiv_finite_form d a b ha hb h0, fdiv_finite_form d' a b ha hb h0]

/-- A finite value divided by 1.0 is that value. -/
theorem fdiv_one_finite (d : Draw) {x : F32} (h : isFinite x = true) : fdiv d x f1 = x := by
  have positive : isNeg f1 = false := by decide
  rw [fdiv_finite_form d x f1 h (by decide) (by decide), unitsOf_f1, roundMag_exact x _ unitsPerOne_pos' h, positive,
    Bool.bne_false, mkF_magOf]

/-! ### The peaking filter of 0 dB (R159) -/

/-- W1: at 0 dB the amplitude is 1.0. -/
theorem bqAmplitude_zero (d : Draw) : bqAmplitude d f0 = f1 := by
  refine Config.num.pow10_zero _ ?_
  rw [fdiv_finite_form d f0 f40 (by decide) (by decide) (by decide)]
  decide

/-- R159: at 0 dB the raw numerator of a peaking filter is its raw denominator. -/
theorem bqRaw_peaking_zero (d : Draw) (cs sn q : F32) (h1 : isFinite (bqRaw d .peaking cs sn f0 q).b1 = true)
    (h0 : isFinite (bqRaw d .peaking cs sn f0 q).a0 = true) :
    (bqRaw d .peaking cs sn f0 q).b0 = (bqRaw d .peaking cs sn f0 q).a0 ∧
      (bqRaw d .peaking cs sn f0 q).b1 = (bqRaw d .peaking cs sn f0 q).a1 ∧
      (bqRaw d .peaking cs sn f0 q).b2 = (bqRaw d .peaking cs sn f0 q).a2 := by
  simp only [bqRaw, bqPeaking, bqAmplitude_zero] at h0 h1 ⊢
  have alpha := isFinite_of_fdiv_left (isFinite_of_fadd_right h0)
  simp only [fmul_one_finite _ _ alpha, fdiv_one_finite _ alpha]
  exact ⟨fadd_draw_free _ _ _ _ (by decide) alpha, (fmul_finite_draw _ h1).symm,
    fsub_finite_draw _ _ (by decide) alpha⟩

/-- R159: a numerator equal to the denominator stays equal to it after the division by `a0`, which leaves `b0 = 1.0`. -/
theorem bqNormalise_of_equal {r : BqRaw} (d : Draw) (p : BqParams) (hr : r.b0 = r.a0 ∧ r.b1 = r.a1 ∧ r.b2 = r.a2)
    (h1 : isFinite r.b1 = true) (h2 : isFinite r.b2 = true) (h0 : isFinite r.a0 = true) (hz : isZero r.a0 = false) :
    (bqNormalise d p r).b0 = f1 ∧ (bqNormalise d p r).b1 = (bqNormalise d p r).a1 ∧
      (bqNormalise d p r).b2 = (bqNormalise d p r).a2 := by
  obtain ⟨e0, e1, e2⟩ := hr
  simp only [bqNormalise, e0, ← e1, ← e2]
  exact ⟨fdiv_self _ _ h0 hz, fdiv_finite_draw _ _ h1 h0 hz, fdiv_finite_draw _ _ h2 h0 hz⟩

/-- R159: the forward and the feedback product of one coefficient cancel, as the input and the answer are one value or
two zeros. -/
theorem isZero_fsub_products {d : Draw} (e e1 e2 : Draw) {b x y : F32} (h : isFinite (fmul d b x) = true)
    (hy : y = x ∨ (isZero x = true ∧ isZero y = true)) :
    isZero (fsub e (fmul e1 b x) (fmul e2 b y)) = true := by
  obtain rfl | ⟨zx, zy⟩ := hy
  · rw [fmul_finite_draw e1 h, fmul_finite_draw e2 h, fsub_self e _ h]
    decide
  · obtain ⟨hb, _⟩ := isFinite_of_fmul h
    exact isZero_fadd e (isZero_fmul e1 b x hb zx) ((isZero_fneg _).trans (isZero_fmul e2 b y hb zy))

/-- R159: coefficients equal in numerator and denominator pass a finite input on and keep a zero history. -/
theorem bqProcess_identity {d : Draw} {n : BqParams} {h : BqHist} {x : F32} (e0 : n.b0 = f1) (e1 : n.b1 = n.a1)
    (e2 : n.b2 = n.a2) (hx : isFinite x = true) (p1 : isFinite (fmul d n.b1 x) = true)
    (p2 : isFinite (fmul d n.b2 x) = true) (z1 : isZero h.z1 = true) (z2 : isZero h.z2 = true) :
    feq (bqProcess d n h x).2 x = true ∧ isZero (bqProcess d n h x).1.z1 = true ∧
      isZero (bqProcess d n h x).1.z2 = true := by
  have answer := fadd_zero (d.at 0) x h.z1 hx z1
  simp only [bqProcess, e0, ← e1, ← e2, fmul_one_left _ x hx]
  exact ⟨feq_fadd_zero _ hx z1, isZero_fadd _ (isZero_fsub_products _ _ _ p1 answer) z2,
    isZero_fsub_products _ _ _ p2 answer⟩

/-- Settles O42: at 0 dB numerator and denominator agree, so the two products of each history cell cancel. -/
theorem zeroDecibelPeakIsIdentity : Obligations.ZeroDecibelPeakIsIdentity := by
  intro d0 d1 d2 p cs sn x h hkind hg r n h1 h2 h0 hz
  have equal : r.b0 = r.a0 ∧ r.b1 = r.a1 ∧ r.b2 = r.a2 := by
    simp only [r, hkind, hg] at h1 h0 ⊢
    exact bqRaw_peaking_zero d0 cs sn p.q h1 h0
  obtain ⟨e0, e1, e2⟩ := bqNormalise_of_equal d1 p equal h1 h2 h0 hz
  exact ⟨e0, e1, e2, bqProcess_identity e0 e1 e2⟩

end Sys2Proof.Machine
end

section
/-! PROOFS. What each PS command does (43_pitchshifter.md R172 to R190): configure, reset and setters, then one sample and the
phase-vocoder frame of every `HOP`-th sample. -/

namespace Sys2Proof.Machine

/-! ### Configure, reset and setters (R172 to R175) -/

/-- R172: a configure at another rate, or the first one, zeroes both channels. -/
theorem psConfigure_new {ps : Ps} {v : F32} (h : ps.cfg = true → feq ps.sr (clampRate v) = false) :
    psConfigure ps v = { ps with cfg := true, sr := clampRate v, ch := PerCh.both (PsChan.zero ps.ratio) } := by
  have changed : rateUnchanged ps.cfg ps.sr (clampRate v) = false := by
    cases hc : ps.cfg with
    | true => exact h hc
    | false => rfl
  rw [psConfigure, changed, if_neg Bool.false_ne_true]

/-- R173: a configured unit zeroes both channels. -/
theorem psReset_on {ps : Ps} (hc : ps.cfg = true) :
    psReset ps = { ps with ch := PerCh.both (PsChan.zero ps.ratio) } := if_pos hc

/-- R103, log 16: an unconfigured unit keeps its registers. -/
theorem psReset_off {ps : Ps} (hc : ps.cfg = false) : psReset ps = ps := if_neg (by rw [hc]; exact Bool.false_ne_true)

/-- A command that only writes the pitch shifter is known by what it writes there. -/
theorem next_retire_ps (s : State) {ps ps' : Ps} (h : ps = ps') :
    (Host.Outcome.next (State.retire { s with ps := ps }) : Host.Outcome State Fault Refusal) =
      .next (State.retire { s with ps := ps' }) := by rw [h]

/-- A zero divided by a finite value other than zero is a zero. -/
theorem isZero_fdiv (d : Draw) {a b : F32} (ha : isZero a = true) (hb : isFinite b = true) (h0 : isZero b = false) :
    isZero (fdiv d a b) = true := by
  have positive : 0 < unitsOf b := by
    refine Nat.pos_of_ne_zero fun h => ?_
    rw [(isZero_iff b).2 h] at h0
    exact Bool.false_ne_true h0.symm
  have rounded : roundMag 0 (unitsOf b) = 0 := by
    have value := roundMag_exact f0 (unitsOf b) positive (by decide)
    rwa [(isZero_iff f0).1 (by decide), Nat.zero_mul] at value
  have zero : ∀ neg, isZero (mkF neg 0) = true := by decide
  rw [fdiv_finite_form d a b (isFinite_of_isZero a ha) hb h0, (isZero_iff a).1 ha, Nat.zero_mul, rounded]
  exact zero _

/-- R174, E1: no shift, an octave up and an octave down. -/
theorem pitchRatio_octaves (d : Draw) :
    Config.num.exp2 (fdiv d f0 f1200) = f1 ∧ Config.num.exp2 (fdiv d f1200 f1200) = f2 ∧
      Config.num.exp2 (fdiv d 0xC4960000 f1200) = fHalf := by
  have down : fdiv d 0xC4960000 f1200 = fm1 := by
    rw [fdiv_finite_form d _ f1200 (by decide) (by decide) (by decide)]
    decide
  refine ⟨Config.num.exp2_zero _ (isZero_fdiv d (by decide) (by decide) (by decide)), ?_, ?_⟩
  · rw [fdiv_self d f1200 (by decide) (by decide), Config.num.exp2_one]
  · rw [down, Config.num.exp2_neg_one]

/-- R105: the three landmarks lie inside the pitch range. -/
theorem fclamp_octaves :
    fclamp f0 Config.pitchCentsMin Config.pitchCentsMax = f0 ∧
      fclamp f1200 Config.pitchCentsMin Config.pitchCentsMax = f1200 ∧
      fclamp 0xC4960000 Config.pitchCentsMin Config.pitchCentsMax = 0xC4960000 := by decide

/-- Settles O43: by whether the rate is the stored one, and by whether the unit is configured. -/
theorem pitchControls : Obligations.PitchControls := by
  intro s v w
  refine ⟨fun hc h => ?_, fun h => ?_, fun hc => ?_, fun hc => ?_, ?_, rfl⟩
  · exact exec_psCfg_of_atRate (Bool.and_eq_true_iff.2 ⟨hc, h⟩)
  · exact next_retire_ps s (psConfigure_new h)
  · exact next_retire_ps s (psReset_on hc)
  · exact next_retire_ps s (psReset_off hc)
  · obtain ⟨clampZero, clampUp, clampDown⟩ := fclamp_octaves
    obtain ⟨zero, up, down⟩ := pitchRatio_octaves s.draw
    refine ⟨s.draw, _, _, rfl, rfl, rfl, ?_, ?_, ?_⟩
    · rintro rfl
      rw [clampZero]
      exact zero
    · rintro rfl
      rw [show (0x44960000 : F32) = f1200 from rfl, clampUp]
      exact up
    · rintro rfl
      rw [clampDown]
      exact down

/-! ### One sample (R179, R180, R190) -/

/-- R180: a sample of a configured unit. -/
theorem exec_psProc {s : State} (hc : s.ps.cfg = true) (c : Chan) (x : F32) :
    exec (.psProc c x) s = .next (s.psRun c x).retire := by
  show Host.Outcome.next (s.whenConfigured s.ps.cfg _) = _
  rw [hc, State.whenConfigured_true]

section
variable (d : Draw) (ps : Ps) (ch : PsChan) (x : F32)

/-- R180: the sample that completes a hop runs a frame before the output cell is read. -/
theorem psProcess_due (h : ch.hopCnt + 1 = 512) :
    psProcess d ps ch x = psEmit (psFrame (d.at 0) ps { psAccept (d.at 1) ps ch x with hopCnt := 0 }) :=
  congrArg psEmit (if_pos h)

/-- R180: every other sample runs none. -/
theorem psProcess_between (h : ch.hopCnt + 1 ≠ 512) : psProcess d ps ch x = psEmit (psAccept (d.at 1) ps ch x) :=
  congrArg psEmit (if_neg h)

/-- R179: the effective ratio of a sample is the one its input half computes. -/
theorem psProcess_ratioEff :
    (psProcess d ps ch x).1.ratioEff = (psRatioUpdate (d.at 1) ps ch).ratioEff := by
  by_cases h : ch.hopCnt + 1 = 512
  · rw [psProcess_due d ps ch x h]
    rfl
  · rw [psProcess_between d ps ch x h]
    rfl

/-- R190: the cell that is read is cleared. -/
theorem psProcess_clears (hout : ch.out.wf = true) : (psProcess d ps ch x).1.out.read ch.ow = f0 := by
  by_cases h : ch.hopCnt + 1 = 512
  · rw [psProcess_due d ps ch x h]
    exact Memory.read_write_same _ ch.ow f0 (Memory.tabulate_wf _ _)
  · rw [psProcess_between d ps ch x h]
    exact Memory.read_write_same ch.out ch.ow f0 hout

end

/-- In canonical memories both rings of a channel are canonical. -/
theorem psRings_wf {s : State} (h : s.memoriesOk = true) (c : Chan) :
    (s.ps.ch.get c).inp.wf = true ∧ (s.ps.ch.get c).out.wf = true := by
  obtain ⟨_, hps, _⟩ := s.memoriesOk_iff.1 h
  obtain ⟨hin, hout, _⟩ := (PsChan.memOk_iff _).1 (PerCh.all_get hps c)
  obtain ⟨wfIn, _⟩ := Bool.and_eq_true_iff.1 hin
  obtain ⟨wfOut, _⟩ := Bool.and_eq_true_iff.1 hout
  exact ⟨wfIn, wfOut⟩

/-! ### Without drift (R179) -/

/-- A factor of magnitude at most 1.0 keeps a product finite. -/
theorem isFinite_fmul_of_le_one (d : Draw) {x v : F32} (hx : isFinite x = true) (hv : magOf v ≤ magOf f1) :
    isFinite (fmul d x v) = true := by
  have finite : isFinite v = true := decide_eq_true (Nat.lt_of_le_of_lt hv (by decide))
  have bound : roundMag (unitsOf x * unitsOf v) unitsPerOne ≤ magOf x := by
    calc roundMag (unitsOf x * unitsOf v) unitsPerOne
        ≤ roundMag (unitsOf x * unitsPerOne) unitsPerOne := by
          refine roundMag_mono _ _ _ _ unitsPerOne_pos' unitsPerOne_pos' (Nat.mul_le_mul_right _ ?_)
          exact Nat.mul_le_mul_left _ (unitsOf_f1 ▸ unitsOf_mono v f1 (by decide) hv)
      _ = magOf x := roundMag_exact x _ unitsPerOne_pos' hx
  have form : fmul d x v = mkF (isNeg x != isNeg v) (roundMag (unitsOf x * unitsOf v) unitsPerOne) := by
    simp [fmul, roundTo, isNaN_of_isFinite x hx, isNaN_of_isFinite v finite, isInf_of_isFinite x hx,
      isInf_of_isFinite v finite]
  have small := of_decide_eq_true hx
  rw [form]
  refine decide_eq_true ?_
  rw [magOf_mkF _ _ (Nat.lt_of_le_of_lt bound (magOf_lt x))]
  exact Nat.lt_of_le_of_lt bound small

/-- A phase is below one cycle in magnitude. -/
theorem magOf_le_one_of_isPhase {ph : F32} (h : isPhase ph = true) : magOf ph ≤ magOf f1 := by
  obtain ⟨hlo, hhi⟩ := Bool.and_eq_true_iff.1 h
  obtain ⟨_, _, lo⟩ := (fle_iff _ _).1 hlo
  obtain ⟨_, _, hi⟩ := (flt_iff _ _).1 hhi
  have zero : key f0 = 0 := by decide
  have one : key f1 = (magOf f1 : Int) := by decide
  rw [zero] at lo
  rw [one] at hi
  unfold key at lo hi
  cases hn : isNeg ph <;> simp only [hn, if_true, if_false, Bool.false_eq_true] at lo hi <;> omega

/-- S2: the sine LFO of a phase is finite. -/
theorem isFinite_sineAt (d : Draw) {ph : F32} (h : isPhase ph = true) : isFinite (sineAt d ph) = true := by
  have angle : isFinite (fmul d fTwoPi ph) = true :=
    isFinite_fmul_of_le_one d (by decide) (magOf_le_one_of_isPhase h)
  obtain ⟨lo, hi⟩ := Config.num.sin_range _ angle
  exact isFinite_of_between fm1 f1 _ (by decide) (by decide) lo hi

/-- R179, E1: without drift the effective ratio is the ratio. -/
theorem psRatioUpdate_noDrift (d : Draw) (ps : Ps) (ch : PsChan) (hd : ps.driftDepth = f0)
    (hr : isFinite ps.ratio = true) (hp : isPhase ch.driftPhase = true) :
    (psRatioUpdate d ps ch).ratioEff = ps.ratio := by
  have still : isZero (fmul (d.at 4) ps.driftDepth (sineAt (d.at 0) ch.driftPhase)) = true := by
    rw [hd, fmul_comm_value]
    exact isZero_fmul _ _ _ (isFinite_sineAt _ hp) (by decide)
  have one := Config.num.exp2_zero _ (isZero_fdiv (d.at 3) still (b := f1200) (by decide) (by decide))
  simp only [psRatioUpdate]
  rw [one]
  exact fmul_one_finite _ _ hr

/-! ### The frame (R181 to R185) -/

/-- R185: the half spectrum, with the Nyquist bin as a number. -/
theorem psHalfSpectrum_eq (a : PsSynth) :
    psHalfSpectrum a =
      (List.range 1025).map fun b => (a.re.read b, if b = 0 ∨ b = 1024 then f0 else a.im.read b) := by
  simp only [psHalfSpectrum, psBins, psNyquist_eq]

/-- R185: sample `n` grows the cell that is read `n` calls from now. -/
theorem psOverlapAdd_read (d : Draw) (ps : Ps) (y : Nat → F32) (ow : Nat) (out : Memory 32) (n : Nat) (hn : n < 2048) :
    (psOverlapAdd d ps y ow out).read ((ow + n) % 2048) =
      fadd ((d.at n).at 0) (out.read ((ow + n) % 2048)) (fmul ((d.at n).at 1) (y n) (ps.winS.getD n f0)) := by
  have inside : (ow + n) % 2048 < 0 + Config.fftSize := Nat.mod_lt _ (by decide)
  rw [psOverlapAdd, Memory.read_tabulate _ 0 _ _ (Nat.zero_le _) inside]
  simp only [psSampleAt_spec ow n hn]

section
variable (d : Draw) (ps : Ps) (ch : PsChan)

/-- The bins of a frame (R182). -/
def frameBins (k : Nat) : F32 × F32 := psSpectrum (d.at 5) (psExtract (d.at 0) ps ch) k

/-- What R184 has accumulated in a frame from the bins below `i`. -/
def frameSynth (i : Nat) : PsSynth :=
  psRemapBins (d.at 3) ch.ratioEff
    (fun k => psIncrement ((d.at 1).at k) k (psPhase (frameBins d ps ch k)) (ch.lastPhase.read k))
    (fun k => psMag ((d.at 2).at k) (frameBins d ps ch k)) ch.synPhase i

/-- R183: a frame stores the phase of each bin. -/
theorem psFrame_lastPhase (k : Nat) (hk : k ≤ 1024) :
    (psFrame d ps ch).lastPhase.read k = psPhase (frameBins d ps ch k) :=
  Memory.read_tabulate _ 0 _ k (Nat.zero_le k) (by rw [psNyquist_eq]; omega)

/-- R184: a frame keeps the phases that all its bins have left. -/
theorem psFrame_synPhase : (psFrame d ps ch).synPhase = (frameSynth d ps ch 1025).phase := rfl

/-- R185: sample `n` of the inverse transform grows the cell that is read `n` calls from now. -/
theorem psFrame_out (n : Nat) (hn : n < 2048) :
    (psFrame d ps ch).out.read ((ch.ow + n) % 2048) =
      fadd (((d.at 4).at n).at 0) (ch.out.read ((ch.ow + n) % 2048))
        (fmul (((d.at 4).at n).at 1)
          (Config.num.idftReal ((List.range 1025).map fun b => ((frameSynth d ps ch 1025).re.read b,
            if b = 0 ∨ b = 1024 then f0 else (frameSynth d ps ch 1025).im.read b)) n)
          (ps.winS.getD n f0)) := by
  rw [← psHalfSpectrum_eq]
  exact psOverlapAdd_read _ ps _ _ _ n hn

end

/-- R184: a bin whose target is not finite or above bin 1024 contributes nothing. -/
theorem psRemapBin_dropped (d : Draw) (r inc mag : F32) (i : Nat) (a : PsSynth)
    (h : isFinite (fmul (d.at 0) (toF32 i) r) = false ∨ flt 0x44800000 (fmul (d.at 0) (toF32 i) r) = true) :
    psRemapBin d r inc mag i a = a := if_pos ((psDropped_iff _).2 h)

/-- R184: every other bin contributes at its target. -/
theorem psRemapBin_kept (d : Draw) (r inc mag : F32) (i : Nat) (a : PsSynth)
    (hf : isFinite (fmul (d.at 0) (toF32 i) r) = true) (hl : flt 0x44800000 (fmul (d.at 0) (toF32 i) r) = false) :
    psRemapBin d r inc mag i a = psSplit (d.at 1) r inc mag (fmul (d.at 0) (toF32 i) r) a := by
  refine if_neg ?_
  rw [psDropped_iff, hf, hl]
  simp

/-! ### The whole effect of a sample -/

/-- The place of rounding `n` of rule number `k` of PitchProcess: the drift phase, the effective ratio, the windowed input,
the magnitude and the increment of each bin, its target, its fraction and the floor's weight, the two roundings of the
overlap-add, and from 20 and from 30 on the roundings of a bin's first and second contribution. -/
def pitchPlaces (d : Draw) (k n : Nat) : Draw :=
  let accept := d.at 1
  let frame := d.at 0
  let inc := (frame.at 1).at n
  let mag := (frame.at 2).at n
  let bin := (frame.at 3).at n
  let cell := (frame.at 4).at n
  if k < 20 then
    placesOf [placesOf [(accept.at 1).at 0, (accept.at 1).at 1, (accept.at 1).at 2] n,
      placesOf [accept.at 2, accept.at 3, accept.at 4, accept.at 0] n, (frame.at 0).at n,
      mag.at 0, mag.at 1, mag.at 2, mag.at 3, inc.at 1, inc.at 2, inc.at 3, inc.at 4, inc.at 0,
      bin.at 0, (bin.at 1).at 0, (bin.at 1).at 3, cell.at 0, cell.at 1] k
  else if k < 30 then ((bin.at 1).at 1).at (k - 20)
  else ((bin.at 1).at 2).at (k - 30)

/-- Settles O44: by whether the sample completes a hop; a frame is taken apart into its bins, the contributions of each bin
and the overlap-add. -/
theorem pitchProcess : Obligations.PitchProcess := by
  intro s c x hc hm old
  obtain ⟨wfInp, wfOut⟩ := psRings_wf hm c
  obtain ⟨hinp, hiw, how, hhop, hdrift⟩ := psProcess_chan s.draw s.ps old x
  have hratio := psProcess_ratioEff s.draw s.ps old x
  refine ⟨_, _, pitchPlaces s.draw, exec_psProc hc c x, hdrift, hratio,
    fun hd hr hp => hratio.trans (psRatioUpdate_noDrift _ s.ps old hd hr hp), ?_, fun a ha => ?_, hiw, how, hhop,
    psProcess_clears s.draw s.ps old x wfOut, fun h => ?_, fun h ho => ?_⟩
  · exact hinp ▸ Memory.read_write_same _ _ _ wfInp
  · exact hinp ▸ Memory.read_write_other _ _ _ _ ha
  · rw [psProcess_between _ _ _ _ h]
    exact ⟨rfl, rfl, rfl, fun a ha => Memory.read_write_other _ _ _ _ ha⟩
  · rw [psProcess_due _ _ _ _ h]
    let acc := { psAccept (s.draw.at 1) s.ps old x with hopCnt := 0 }
    let d := s.draw.at 0
    refine ⟨frameBins d s.ps acc, fun hx k => psSpectrum_finite _ _ k hx, fun hx k => psSpectrum_poisoned _ _ k hx, ?_⟩
    intro re im mag phase expct inc add
    refine ⟨frameSynth d s.ps acc, rfl, fun i _ => ⟨fun h => ?_, fun hf hl => ⟨fun hz => ?_, fun hz => ?_⟩⟩,
      psFrame_lastPhase d s.ps acc, psFrame_synPhase d s.ps acc, ?_, fun n h1 hn => ?_⟩
    · exact psRemapBin_dropped _ _ _ _ i _ h
    · exact (psRemapBin_kept _ _ _ _ i _ hf hl).trans ((psSplit_one _ _ _ _ _ _ hz).trans (psContribute_eq _ _ _ _ _ _ _))
    · refine (psRemapBin_kept _ _ _ _ i _ hf hl).trans ((psSplit_two _ _ _ _ _ _ hz).trans ?_)
      exact (psContribute_eq _ _ _ _ _ _ _).trans
        (congrArg (add (fun k => pitchPlaces s.draw (30 + k) i) i _ _) (psContribute_eq _ _ _ _ _ _ _))
    · exact (congrArg (psFrame d s.ps acc).out.read (Nat.mod_eq_of_lt ho).symm).trans
        (psFrame_out d s.ps acc 0 (by decide))
    · have unread : (old.ow + n) % 2048 ≠ old.ow := by omega
      exact (Memory.read_write_other _ _ _ f0 unread).trans (psFrame_out d s.ps acc n hn)

end Sys2Proof.Machine
end

section
/-! PROOFS. What the tape's configure, reset and setters do (44_tape_heads_modulation.md R212 to R227), and the modulation
scalar of its two LFOs (R228, R230). -/

namespace Sys2Proof.Machine

/-! ### Sums and products that stay finite (R106) -/

/-- A bipolar value is at most 1.0 in magnitude. -/
theorem magOf_le_one_of_bipolar {v : F32} (h : between fm1 f1 v = true) : magOf v ≤ magOf f1 := by
  obtain ⟨hlo, hhi⟩ := Bool.and_eq_true_iff.1 h
  obtain ⟨_, _, lo⟩ := (fle_iff _ _).1 hlo
  obtain ⟨_, _, hi⟩ := (fle_iff _ _).1 hhi
  have minusOne : key fm1 = -(magOf f1 : Int) := by decide
  have one : key f1 = (magOf f1 : Int) := by decide
  rw [minusOne] at lo
  rw [one] at hi
  unfold key at lo hi
  cases hn : isNeg v <;> simp only [hn, if_true, if_false, Bool.false_eq_true] at lo hi <;> omega

/-- A bipolar value is finite. -/
theorem isFinite_of_bipolar {v : F32} (h : between fm1 f1 v = true) : isFinite v = true :=
  decide_eq_true (Nat.lt_of_le_of_lt (magOf_le_one_of_bipolar h) (by decide))

/-- The exact value of a pattern is its units and its sign. -/
theorem natAbs_intOf (v : F32) : (intOf v).natAbs = unitsOf v := by
  unfold intOf
  split <;> omega

/-- The largest finite binary32. -/
def maxFinite : F32 := 0x7F7FFFFF

/-- No finite value exceeds the largest one in magnitude. -/
theorem unitsOf_le_maxFinite {a : F32} (ha : isFinite a = true) : unitsOf a ≤ unitsOf maxFinite := by
  have bound : magOf a < magOf maxFinite + 1 := of_decide_eq_true ha
  exact unitsOf_mono a maxFinite (by decide) (Nat.le_of_lt_succ bound)

/-- Even the largest finite value absorbs a 4.0. -/
theorem roundMag_maxFinite_add_four : roundMag (unitsOf maxFinite + unitsOf f4) 1 = magOf maxFinite := by decide

/-- A finite value stays finite when a value of magnitude at most 4.0 is added: 4.0 is far below half the last quantum. -/
theorem isFinite_fadd_of_le_four (d : Draw) {a b : F32} (ha : isFinite a = true) (hb : magOf b ≤ magOf f4) :
    isFinite (fadd d a b) = true := by
  have finite : isFinite b = true := decide_eq_true (Nat.lt_of_le_of_lt hb (by decide))
  have sumLe : (intOf a + intOf b).natAbs ≤ unitsOf maxFinite + unitsOf f4 := by
    calc (intOf a + intOf b).natAbs
        ≤ (intOf a).natAbs + (intOf b).natAbs := Int.natAbs_add_le _ _
      _ = unitsOf a + unitsOf b := by rw [natAbs_intOf, natAbs_intOf]
      _ ≤ unitsOf maxFinite + unitsOf f4 :=
          Nat.add_le_add (unitsOf_le_maxFinite ha) (unitsOf_mono b f4 (by decide) hb)
  have rounded : roundMag (intOf a + intOf b).natAbs 1 ≤ magOf maxFinite :=
    roundMag_maxFinite_add_four ▸ roundMag_mono _ 1 _ 1 Nat.one_pos Nat.one_pos (Nat.mul_le_mul_right 1 sumLe)
  have zeros : ∀ neg, isFinite (mkF neg 0) = true := by decide
  simp only [fadd, isNaN_of_isFinite a ha, isNaN_of_isFinite b finite, isInf_of_isFinite a ha,
    isInf_of_isFinite b finite, Bool.or_self, Bool.false_eq_true, if_false]
  split
  · exact zeros _
  · refine decide_eq_true ?_
    rw [roundTo, magOf_mkF _ _ (Nat.lt_of_le_of_lt rounded (magOf_lt _))]
    exact Nat.lt_of_le_of_lt rounded (by decide)

/-- 1.0 plus a zero is 1.0. -/
theorem fadd_one_zero (d : Draw) {z : F32} (hz : isZero z = true) : fadd d f1 z = f1 := by
  obtain h | ⟨oneIsZero, _⟩ := fadd_zero d f1 z (by decide) hz
  · exact h
  · exact absurd oneIsZero (by decide)

/-! ### The LFOs and the modulation scalar (R228, R230) -/

/-- The places of the roundings of one LFO as ModulationScalar counts them: three of the phase, then those of the waveform.
The random walk takes its draw before its first rounding. -/
def lfoPlaces (d : Draw) (wave : Waveform) (k : Nat) : Draw :=
  if k < 3 then (d.at 0).at k
  else
    match wave with
    | .sine | .triangle => d.at (k - 2)
    | .randomWalk => d.at (k - 1)

/-- The places of ModulationScalar: the wow LFO, the flutter LFO and the sum of R230. -/
def modulationPlaces (d : Draw) (tp : Tp) : Nat → Nat → Draw
  | 0 => lfoPlaces (d.at 0) tp.wowWave
  | 1 => lfoPlaces (d.at 1) tp.flutWave
  | _ => (d.at 2).at

/-- The draws of ModulationScalar: the two random walks and the jitter. -/
def modulationDraws (d : Draw) : Nat → F32
  | 0 => drawBipolar ((d.at 0).at 1)
  | 1 => drawBipolar ((d.at 1).at 1)
  | _ => drawBipolar (d.at 3)

theorem modulationDraws_range (d : Draw) (k : Nat) :
    fle fm1 (modulationDraws d k) = true ∧ fle (modulationDraws d k) f1 = true := by
  unfold modulationDraws
  split <;> exact drawBipolar_range _

/-- R228: the value of an LFO and its random walk, over the places `e` and the draw `u`. -/
def lfoValue (e : Nat → Draw) (u sr : F32) (wave : Waveform) (ph rw rate : F32) : F32 × F32 :=
  match wave with
  | .sine => (Config.num.sin (fmul (e 3) fTwoPi ph), rw)
  | .triangle =>
    (if flt ph fHalf then fsub (e 3) (fmul (e 4) f4 ph) f1 else fsub (e 3) f3 (fmul (e 4) f4 ph), rw)
  | .randomWalk =>
    let walk := fclamp
      (fadd (e 3) rw (fmul (e 4) (fmul (e 5) u Config.params.rwStep) (fdiv (e 6) rate sr))) fm1 f1
    (walk, walk)

/-- R228: one LFO step is its value, its advanced phase and its random walk. -/
theorem lfoStep_eq (d : Draw) (sr : F32) (wave : Waveform) (ph rw rate : F32) :
    let value := lfoValue (lfoPlaces d wave) (drawBipolar (d.at 1)) sr wave ph rw rate
    lfoStep d sr wave ph rw rate = (value.1, phaseAdvance (d.at 0) ph rate sr, value.2) := by
  cases wave with
  | sine => rfl
  | triangle => rfl
  | randomWalk => rfl

/-- R228: from a phase and a walk in range every LFO has a finite value. -/
theorem isFinite_lfoStep (d : Draw) (sr : F32) (wave : Waveform) {ph rw : F32} (rate : F32) (hph : isPhase ph = true)
    (hrw : between fm1 f1 rw = true) : isFinite (lfoStep d sr wave ph rw rate).1 = true := by
  cases wave with
  | sine => exact isFinite_sineAt _ hph
  | triangle =>
    have finite : isFinite (fmul (d.at 2) f4 ph) = true :=
      isFinite_fmul_of_le_one _ (by decide) (magOf_le_one_of_isPhase hph)
    have rising : isFinite (fsub (d.at 1) (fmul (d.at 2) f4 ph) f1) = true :=
      isFinite_fadd_of_le_four _ finite (by decide)
    have falling : isFinite (fsub (d.at 1) f3 (fmul (d.at 2) f4 ph)) = true := by
      have negated := (isFinite_fneg _).trans finite
      rw [fsub, fadd_comm_finite _ (by decide) negated]
      exact isFinite_fadd_of_le_four _ negated (by decide)
    show isFinite (if flt ph fHalf then _ else _) = true
    split
    · exact rising
    · exact falling
  | randomWalk => exact isFinite_of_bipolar (lfoStep_range d sr .randomWalk ph rw rate hrw).2

/-- R230: the scalar is in [0.8, 1.2], whatever is summed. -/
theorem modScalar_range (d : Draw) (wow wowDepth flu flutDepth u : F32) :
    fle f0p8 (modScalar d wow wowDepth flu flutDepth u) = true ∧
      fle (modScalar d wow wowDepth flu flutDepth u) f1p2 = true :=
  fclamp_between _ _ _ (by decide)

/-- R230: without depths the three terms added to 1.0 are zeros. -/
theorem modScalar_still (d : Draw) {wow flu u : F32} (hw : isFinite wow = true) (hf : isFinite flu = true)
    (hu : between fm1 f1 u = true) : modScalar d wow f0 flu f0 u = f1 := by
  have jitterMax : isFinite Config.params.jitterMax = true :=
    (Bool.and_eq_true_iff.1 Config.params.jitter_max_level).1
  have jitter : isFinite (fmul (d.at 1) u Config.params.jitterMax) = true := by
    rw [fmul_comm_value]
    exact isFinite_fmul_of_le_one _ jitterMax (magOf_le_one_of_bipolar hu)
  have depth : isZero (fadd (d.at 2) f0 f0) = true := isZero_fadd _ (by decide) (by decide)
  have inside : fclamp f1 f0p8 f1p2 = f1 := by decide
  simp only [modScalar]
  rw [fadd_one_zero _ (isZero_fmul _ _ _ hw (by decide)), fadd_one_zero _ (isZero_fmul _ _ _ hf (by decide)),
    fadd_one_zero _ (isZero_fmul _ _ _ jitter depth), inside]

/-- Settles O50: each LFO by its waveform; the sum is clamped, and without depths its terms are zeros. -/
theorem modulationScalar : Obligations.ModulationScalar := by
  intro d tp ch
  refine ⟨⟨modulationPlaces d tp, modulationDraws d, modulationDraws_range d, ?_⟩, modScalar_range _ _ _ _ _ _,
    fun hw hf hch => ?_⟩
  · simp only [tpModScalar, lfoStep_eq]
    exact ⟨rfl, rfl⟩
  · have range := ch.dynamicOk_iff.1 hch
    have wow := isFinite_lfoStep (d.at 0) tp.sr tp.wowWave tp.wowRate range.wowPh range.wowRW
    have flutter := isFinite_lfoStep (d.at 1) tp.sr tp.flutWave tp.flutRate range.flutPh range.flutRW
    simp only [tpModScalar, hw, hf]
    exact modScalar_still (d.at 2) wow flutter (Bool.and_eq_true_iff.2 (drawBipolar_range _))

/-! ### Configure and reset (R212 to R214) -/

/-- R212: the capacity at a clamped rate, without the natural number's cut at zero. -/
theorem tpCapacity_eq (d : Draw) (v : F32) :
    (tpCapacity d (clampRate v) : Int) =
      min (ceilI (msToSamples (d.at 0) (fmul (d.at 1) f1p2 Config.tpMaxDelayMs) (clampRate v)) + 2)
        Config.tpRamDepth := by
  obtain ⟨h4, _⟩ := tpCapacity_range d v
  simp only [tpCapacity] at h4 ⊢
  omega

/-- R213: a configure at another rate, or the first one, reallocates. -/
theorem State.tpConfigure_new {s : State} {v : F32} (h : s.tp.cfg = true → feq s.tp.sr (clampRate v) = false)
    (d : Draw) : s.tpConfigure d v = s.tpReallocate d (clampRate v) := by
  have changed : rateUnchanged s.tp.cfg s.tp.sr (clampRate v) = false := by
    cases hc : s.tp.cfg with
    | true => exact h hc
    | false => rfl
  rw [State.tpConfigure, changed, if_neg Bool.false_ne_true]

/-- R214: a configured unit zeroes both channels and every filter history. -/
theorem State.tpReset_on {s : State} (hc : s.tp.cfg = true) :
    s.tpReset = { s with tp := { s.tp with ch := PerCh.both (TpChan.zero f1) }, bqh := zeroHists } := by
  rw [State.tpReset, if_pos hc]

/-- R214: an unconfigured unit zeroes the filter histories alone. -/
theorem State.tpReset_off {s : State} (hc : s.tp.cfg = false) : s.tpReset = { s with bqh := zeroHists } := by
  rw [State.tpReset, if_neg (hc ▸ Bool.false_ne_true)]

/-- A command that retires a state is known by that state. -/
theorem next_retire {s t : State} (h : s = t) :
    (Host.Outcome.next s.retire : Host.Outcome State Fault Refusal) = .next t.retire := by rw [h]

/-- Settles O45: by whether the rate is the stored one, and by whether the unit is configured. -/
theorem tapeConfigureAndReset : Obligations.TapeConfigureAndReset := by
  intro s v
  refine ⟨fun hc h => ?_, fun h => ?_, fun hc => ?_, fun hc => ?_⟩
  · exact exec_tpCfg_of_atRate (Bool.and_eq_true_iff.2 ⟨hc, h⟩)
  · let capacity := s.draw.at 0
    let coef := s.draw.at 1
    exact ⟨placesOf [coef.at 0, coef.at 1, coef.at 2, coef.at 3,
        (capacity.at 0).at 0, (capacity.at 0).at 1, capacity.at 1],
      _, next_retire (State.tpConfigure_new h s.draw), tpCapacity_eq capacity v, (tpCapacity_range capacity v).1⟩
  · exact next_retire (State.tpReset_on hc)
  · exact next_retire (State.tpReset_off hc)

/-! ### Setters (R215 to R217, R220 to R224, R227) -/

/-- R86: a command whose selector is legal runs its body. -/
theorem next_withSel {α : Type} {sel : Option α} {v : α} (h : sel = some v) (s : State) (body : α → State) :
    (Host.Outcome.next (s.withSel sel body) : Host.Outcome State Fault Refusal) = .next (body v) := by
  rw [h, State.withSel_some]

/-- R216: two legal waveforms make a legal selector. -/
theorem selWaveforms_some {i j : Nat} {wow flut : Waveform} (hw : selWaveform i = some wow)
    (hf : selWaveform j = some flut) : selWaveforms i j = some (wow, flut) := by
  rw [selWaveforms, hw, hf]

/-- R224: a delay of at least 1.0 enables its head. -/
theorem headEnabled_of_one_le {v : F32} (h : fle f1 v = true) : headEnabled v = true := by
  obtain ⟨_, _, atLeast⟩ := (fle_iff _ _).1 h
  have one : key f1 = 0x3F800000 := by decide
  have zero : key f0 = 0 := by decide
  have differ : key v ≠ key f0 := by omega
  simp [headEnabled, feq, differ]

/-- R222, R224: the table's entries are stored as they are. -/
theorem headDelayOf_table (k h : Fin 4) :
    headDelayOf (Config.params.headDelayMs k h) = Config.params.headDelayMs k h := by
  obtain enabled | disabled := le_or_gt h k
  · obtain ⟨lo, hi⟩ := Bool.and_eq_true_iff.1 (Config.params.head_delay_enabled k h enabled)
    have notSentinel : feq (Config.params.headDelayMs k h) f0 = false := by
      simpa [headEnabled] using headEnabled_of_one_le lo
    rw [headDelayOf, notSentinel, if_neg Bool.false_ne_true, fclamp_id _ _ _ lo hi]
  · rw [Config.params.head_delay_disabled k h disabled]
    rfl

/-- R222: every head stores the table's entry. -/
theorem headDelays_get (k h : Fin 4) : (headDelays k).get h = Config.params.headDelayMs k h := by
  rw [← headDelayOf_table]
  match h with
  | 0 | 1 | 2 | 3 => rfl

/-- Settles O46: a selector in range reads as its value; the head table meets the ranges of R224. -/
theorem tapeSetters : Obligations.TapeSetters := by
  intro s on wow flut k a b e g sel withTp
  have enable : selEnable (if on then 1 else 0) = some on := by cases on <;> rfl
  have wave (w : Waveform) : selWaveform (sel w) = some w := by cases w <;> rfl
  refine ⟨next_withSel enable s _, next_withSel (selWaveforms_some (wave wow) (wave flut)) s _, rfl, rfl, rfl,
    next_withSel enable s _, headDelays k, next_withSel (selFour_val k) s _, headDelays_get k, fun h hk => ?_,
    fun h hk => ?_⟩
  · rw [headDelays_get]
    exact headEnabled_of_one_le (Bool.and_eq_true_iff.1 (Config.params.head_delay_enabled k h hk)).1
  · rw [headDelays_get]
    exact Config.params.head_delay_disabled k h hk

end Sys2Proof.Machine
end

section
/-! PROOFS. The tape path `TP.PROC` (45_tape_process.md R250 to R271): with the mode off it is not entered, its answer is
bounded, and its whole effect stage by stage. -/

namespace Sys2Proof.Machine

/-! ### What `TP.PROC` does by the mode (R250) -/

/-- R250: `TP.PROC` of a configured unit. -/
theorem exec_tpProc {s : State} (hc : s.tp.cfg = true) (c : Chan) (x : F32) :
    exec (.tpProc c x) s = .next (s.tpRun c x).retire := by
  show Host.Outcome.next (s.whenConfigured s.tp.cfg _) = _
  rw [hc, State.whenConfigured_true]

/-- R250: with the mode on the channel's tape path is written back and its signal is the answer. -/
theorem exec_tpProc_on {s : State} (hc : s.tp.cfg = true) (hm : s.tp.mode = true) (c : Chan) (x : F32) {p : TpPath}
    {y : F32} (h : tpProcess s.draw s.tp s.bq c (s.tpPath c) x = (p, y)) :
    exec (.tpProc c x) s = .next ((s.setTpPath c p).respond [y]).retire := by
  rw [exec_tpProc hc, State.tpRun, s.tpThrough_on _ c x hm, h]

/-- Settles O47: with the mode off the tape path is not entered. -/
theorem tapeOffPassesThrough : Obligations.TapeOffPassesThrough := by
  intro s c x hc hm
  rw [exec_tpProc hc, State.tpRun, s.tpThrough_off _ c x hm]
  rfl

/-! ### The answer is bounded (R252, R268, R270) -/

/-- R256: saturation keeps a finite signal finite. -/
theorem tpSaturate_isFinite (d : Draw) (tp : Tp) {s1 : F32} (h : isFinite s1 = true) :
    isFinite (tpSaturate d tp s1) = true := guardF_isFinite _ s1 h

/-- R252 to R258: the signal after stage 5 is finite, whatever comes in. -/
theorem tpFront_isFinite (d : Draw) (tp : Tp) (bq : Four BqParams) (c : Chan) (p : TpPath) (x : F32) :
    isFinite (tpFront d tp bq c p x).2 = true := by
  have s1 := tpFilter_isFinite (d.at 0) bq 0 p.hist (tpDry x) (tpDry_isFinite x)
  have s3 := tpSaturate_isFinite (d.at 3) tp s1
  obtain ⟨_, s4⟩ := tpHeads_spec (d.at 2) tp c (tpModScalar (d.at 1) tp p.ch).1 _ (tpModScalar (d.at 1) tp p.ch).2 s3
  exact tpFilter_isFinite _ bq 3 _ _ (tpFilter_isFinite _ bq 2 _ _ (tpFilter_isFinite _ bq 1 _ _ s4))

/-- R268: the limiter turns a finite signal into its hyperbolic tangent. -/
theorem tpLimit_range {s9 : F32} (h : isFinite s9 = true) :
    isFinite (tpLimit s9) = true ∧ fle fm1 (tpLimit s9) = true ∧ fle (tpLimit s9) f1 = true := by
  obtain ⟨lo, hi⟩ := Config.num.tanh_range s9 (isNaN_of_isFinite s9 h)
  have finite : isFinite (Config.num.tanh s9) = true := isFinite_of_between fm1 f1 _ (by decide) (by decide) lo hi
  have unguarded : tpLimit s9 = Config.num.tanh s9 := if_pos finite
  rw [unguarded]
  exact ⟨finite, lo, hi⟩

/-- R270: whatever comes in, the tape path answers a value in [-1.0, 1.0]. -/
theorem tpProcess_range (d : Draw) (tp : Tp) (bq : Four BqParams) (c : Chan) (p : TpPath) (x : F32) :
    isFinite (tpProcess d tp bq c p x).2 = true ∧ fle fm1 (tpProcess d tp bq c p x).2 = true ∧
      fle (tpProcess d tp bq c p x).2 f1 = true := by
  obtain ⟨_, _, _, _, _, _, s9⟩ := tpBack_spec (d.at 1) tp c (tpFront (d.at 0) tp bq c p x).1.ch _
    (tpFront_isFinite (d.at 0) tp bq c p x)
  exact tpLimit_range s9

/-- Settles O48: every stage keeps the signal finite, and the last one is a hyperbolic tangent. -/
theorem tapeOutputIsBounded : Obligations.TapeOutputIsBounded :=
  fun s c x hc hm => ⟨_, _, exec_tpProc_on hc hm c x rfl, rfl, tpProcess_range s.draw s.tp s.bq c (s.tpPath c) x⟩

/-! ### Stages 0 to 5 (R253 to R258) -/

/-- R254, R258: the history and the signal of one filter stage. -/
def filterStage (d : Draw) (bq : Four BqParams) (j : Fin 4) (h : BqHist) (x : F32) : BqHist × F32 :=
  let r := bqProcess d (bq.get j) h x
  if isFinite r.2 then r else (.zero, x)

/-- R254, R258: a filter stage replaces the one history it reads. -/
theorem tpFilter_eq_stage (d : Draw) (bq : Four BqParams) (j : Fin 4) (hist : Four BqHist) (x : F32) :
    tpFilter d bq j hist x =
      (hist.set j (filterStage d bq j (hist.get j) x).1, (filterStage d bq j (hist.get j) x).2) :=
  tpFilter_eq d bq j hist x

/-- R254, R258: a filter stage turns a finite signal into a finite signal. -/
theorem filterStage_isFinite (d : Draw) (bq : Four BqParams) (j : Fin 4) (hist : Four BqHist) {x : F32}
    (hx : isFinite x = true) : isFinite (filterStage d bq j (hist.get j) x).2 = true := by
  have stage := tpFilter_isFinite d bq j hist x hx
  rwa [tpFilter_eq_stage] at stage

/-- R251 to R258: what stages 0 to 5 give together; each filter stage finds the history its channel had before the call. -/
theorem tpFront_eq {d : Draw} {tp : Tp} {bq : Four BqParams} {c : Chan} {p : TpPath} {x s3 s4 : F32} {m : TpChan × F32}
    {ch4 : TpChan} {r1 r2 r3 r4 : BqHist × F32}
    (pre : filterStage (d.at 0) bq 0 (p.hist.get 0) (tpDry x) = r1) (modulation : tpModScalar (d.at 1) tp p.ch = m)
    (saturation : tpSaturate (d.at 3) tp r1.2 = s3) (heads : tpHeads (d.at 2) tp c m.1 s3 m.2 = (ch4, s4))
    (bump : filterStage (d.at 4) bq 1 (p.hist.get 1) s4 = r2)
    (rollOff : filterStage (d.at 5) bq 2 (p.hist.get 2) r2.2 = r3)
    (equaliser : filterStage (d.at 6) bq 3 (p.hist.get 3) r3.2 = r4) :
    tpFront d tp bq c p x = (⟨ch4, ⟨r1.1, r2.1, r3.1, r4.1⟩⟩, r4.2) := by
  subst pre modulation saturation bump rollOff equaliser
  simp only [tpFront, tpFilter_eq_stage, heads]
  rfl

/-- The places of one head's tap (R226) as TapeProcessFrame counts them. -/
def headPlaces (d : Draw) : Nat → Draw :=
  let delay := d.at 0
  let tap := d.at 1
  placesOf [delay.at 1, (delay.at 2).at 0, (delay.at 2).at 1, delay.at 3, delay.at 0, tap, tap.at 0, tap.at 1, tap.at 2]

/-- R226: the tap of a head, at its delay in samples clamped to the ring. -/
theorem thRead_eq (d : Draw) (tp : Tp) (ch : TpChan) (delayMs m : F32) :
    let e := headPlaces d
    let ds := fclamp (fmul (e 0) (fdiv (e 1) (fmul (e 2) delayMs tp.sr) f1000) (fmul (e 3) m ch.instSpeed)) f1
      (toF32 ((tp.TN : Int) - 1))
    let dI := (floorI ds).toNat
    let dF := fsub (e 4) ds (toF32 (floorI ds))
    thRead d tp ch delayMs m =
      fadd (e 5) (fmul (e 6) (ch.buf.read (((ch.w : Int) - dI) % (tp.TN : Int)).toNat) (fsub (e 7) f1 dF))
        (fmul (e 8) (ch.buf.read (((ch.w : Int) - dI - 1) % (tp.TN : Int)).toNat) dF) := by
  rw [thRead, ringTap, ringIdx_succ]
  intros
  rfl

/-- R257: a head is tapped when it is active and its delay is not the sentinel. -/
theorem tpTap_eq (d : Draw) (tp : Tp) (ch : TpChan) (m : F32) (h : Fin 4) :
    tpTap d tp ch m h =
      if h ≤ tp.headCfg ∧ feq (tp.headDelay.get h) f0 = false then thRead (d.at h.val) tp ch (tp.headDelay.get h) m
      else f0 := by
  simp only [tpTap, headEnabled, Bool.and_eq_true, decide_eq_true_eq, Bool.not_eq_true']

/-- R257: stage 4 over the taps of the ring with the new cell in it. -/
theorem tpHeads_eq {d : Draw} {tp : Tp} {c : Chan} {ch : TpChan} {s3 m : F32} {tap : Fin 4 → F32}
    (taps : ∀ h, tpTap d tp { ch with buf := ch.buf.write ch.w s3 } m h = tap h) :
    tpHeads d tp c ch s3 m =
      ({ ch with buf := ch.buf.write ch.w s3, w := ringAdvance tp.TN ch.w },
        guardF (Config.params.headCombine tp.headCfg.val c (tap 0) (tap 1) (tap 2) (tap 3)) s3) := by
  simp only [tpHeads, taps]

/-! ### Stages 6 to 9 (R260 to R266) -/

/-- R260, R262: the counter of a dropout after a call that finds it at `count` and draws `u`. -/
def dropoutCount (count len : Nat) (u prob : F32) : Nat :=
  if 0 < count then count - 1 else if flt u prob then len else count

/-- R260, R262: a dropout changes the signal of a call only while its counter is positive. -/
theorem dropout_eq (count len : Nat) (u prob during outside : F32) :
    (if 0 < count then (count - 1, during) else if flt u prob then (len, outside) else (count, outside)) =
      (dropoutCount count len u prob, if 0 < count then during else outside) := by
  unfold dropoutCount
  split
  · rfl
  · split <;> rfl

/-- R260: the aging stage, its dropout taken apart into the counter and the signal. -/
theorem tpAging_eq (d : Draw) (tp : Tp) (ch : TpChan) (s5 : F32) :
    let a2 := fmul (d.at 0) tp.aging tp.aging
    let lp := fadd (d.at 1) ch.ageLp (fmul (d.at 2) (Config.params.ageCoef a2 tp.sr) (fsub (d.at 3) s5 ch.ageLp))
    let aged := fadd (d.at 4) (fmul (d.at 5) s5 (fsub (d.at 6) f1 a2)) (fmul (d.at 7) lp a2)
    let y := if 0 < ch.ageDrop then fmul (d.at 8) aged Config.params.ageDropGain else aged
    tpAging d tp ch s5 =
      ({ ch with
          ageDrop := dropoutCount ch.ageDrop Config.params.ageDropLen (drawUnit (d.at 9))
            (Config.params.ageDropProb tp.aging)
          ageLp := if isFinite y && isFinite lp then lp else f0 },
        guardF y s5) := by
  simp only [tpAging, dropout_eq]

/-- R262: the instability stage, its dropout taken apart into the counter and the signal. -/
theorem tpInstability_eq (d : Draw) (tp : Tp) (ch : TpChan) (s6 : F32) :
    let scaled := fmul (d.at 2) s6
      (fadd (d.at 3) f1 (fmul (d.at 4) (fmul (d.at 5) Config.instMax tp.instab) (sineAt (d.at 0) ch.instPhA)))
    tpInstability d tp ch s6 =
      ({ ch with
          instPhA := phaseAdvance (d.at 7) ch.instPhA Config.params.instRateAmp tp.sr
          instPhS := phaseAdvance (d.at 8) ch.instPhS Config.params.instRateSpeed tp.sr
          instSpeed := fclamp
            (fadd (d.at 9) f1 (fmul (d.at 10) (fmul (d.at 11) Config.instMax tp.instab) (sineAt (d.at 1) ch.instPhS)))
            f0p95 f1p05
          instDrop := dropoutCount ch.instDrop Config.params.instDropLen (drawUnit (d.at 6))
            (Config.params.instDropProb tp.instab) },
        guardF (if 0 < ch.instDrop then f0 else scaled) s6) := by
  simp only [tpInstability, dropout_eq]

/-- R264: stage 8 of a tape with the noise enabled. -/
def noiseAdded (d : Draw) (tp : Tp) (ch : TpChan) (s7 : F32) : TpChan × F32 := tpNoise d { tp with noiseEn := true } ch s7

/-- R264: with the noise disabled stage 8 does nothing at all. -/
theorem tpNoise_eq (d : Draw) (tp : Tp) (ch : TpChan) (s7 : F32) :
    tpNoise d tp ch s7 = if tp.noiseEn then noiseAdded d tp ch s7 else (ch, s7) := by
  cases h : tp.noiseEn with
  | true => rw [if_pos rfl, noiseAdded, ← h]
  | false => exact if_neg (h ▸ Bool.false_ne_true)

/-- R264, R266: the noise changes its own state and the signal, so decorrelation finds its phase as the call found it. -/
theorem tpDecorrelate_tpNoise {d e : Draw} {tp : Tp} {c : Chan} {ch : TpChan} {s7 s8 : F32}
    (signal : (noiseAdded d tp ch s7).2 = s8) :
    let noise := (noiseAdded d tp ch s7).1
    let quiet := { ch with decPh := phaseAdvance (e.at 2) ch.decPh Config.params.decorrRate tp.sr }
    tpDecorrelate e tp c (tpNoise d tp ch s7).1 (tpNoise d tp ch s7).2 =
      (if tp.noiseEn then { quiet with pk := noise.pk, humPh := noise.humPh, rumPh := noise.rumPh } else quiet,
        (tpDecorrelate e tp c ch (if tp.noiseEn then s8 else s7)).2) := by
  subst signal
  rw [tpNoise_eq]
  split <;> rfl

/-- R251, R260 to R266: what stages 6 to 9 give together. -/
theorem tpBack_eq {d : Draw} {tp : Tp} {c : Chan} {ch ch6 ch7 ch9 : TpChan} {s5 s6 s7 s9 : F32}
    (aging : tpAging (d.at 0) tp ch s5 = (ch6, s6)) (instability : tpInstability (d.at 1) tp ch6 s6 = (ch7, s7))
    (decorrelation : tpDecorrelate (d.at 3) tp c (tpNoise (d.at 2) tp ch7 s7).1 (tpNoise (d.at 2) tp ch7 s7).2 =
      (ch9, s9)) :
    tpBack d tp c ch s5 = (ch9, s9) := by
  simp only [tpBack, aging, instability, decorrelation]

/-! ### The whole effect (R250 to R268) -/

/-- The place of rounding `n` of rule number `k` of TapeProcessFrame: 1, 5, 6 and 7 the filters, 2 the modulation, 3 the
saturation, 8 the aging, 9 the instability, from 20 on the heads, from 30 on the noise (pink sections, their sum, hum,
other sources, sample), 39 the decorrelation, from 40 on the phases. The noise's clamp takes no draw. -/
def tapePlaces (d : Draw) (k n : Nat) : Draw :=
  let front := d.at 0
  let heads := front.at 2
  let back := d.at 1
  let inst := back.at 1
  let noise := back.at 2
  let decorr := back.at 3
  match k with
  | 1 => (front.at 0).at n
  | 2 => front.at 1
  | 3 => (front.at 3).at n
  | 5 => (front.at 4).at n
  | 6 => (front.at 5).at n
  | 7 => (front.at 6).at n
  | 8 => (back.at 0).at n
  | 9 => placesOf [inst.at 0, inst.at 1, inst.at 2, inst.at 3, inst.at 4, inst.at 5, inst.at 9, inst.at 10, inst.at 11] n
  | 20 | 21 | 22 | 23 => headPlaces (heads.at (k - 20)) n
  | 30 => (noise.at 1).at (3 * n)
  | 31 => (noise.at 1).at (3 * n + 1)
  | 32 => (noise.at 1).at (3 * n + 2)
  | 33 => if n = 8 then (noise.at 1).at 18 else (noise.at 2).at n
  | 34 => (noise.at (5 + n)).at 0
  | 35 => (noise.at (5 + n)).at 1
  | 36 => (noise.at (5 + n)).at 2
  | 37 => placesOf [noise.at 3, noise.at 4, noise.at 8, noise.at 9, noise.at 11] n
  | 38 =>
    let sum := noise.at 16
    placesOf [sum.at 0, sum.at 1, sum.at 2, sum.at 3, sum.at 4, noise.at 15] n
  | 39 => placesOf [decorr.at 0, decorr.at 1, decorr.at 3, decorr.at 4, decorr.at 5] n
  | 40 => (inst.at 7).at n
  | 41 => (inst.at 8).at n
  | 42 => (decorr.at 2).at n
  | 43 => (noise.at 13).at n
  | 44 => (noise.at 14).at n
  | _ => noDraw

/-- The draws of R260 to R264 in [0.0, 1.0): a dropout of the aging, one of the instability, an artifact. -/
def tapeDraws (d : Draw) (k : Nat) : F32 :=
  drawUnit (placesOf [((d.at 1).at 0).at 9, ((d.at 1).at 1).at 6, ((d.at 1).at 2).at 10] k)

/-- The rules from 20 on are the heads in their order. -/
theorem tapePlaces_head (d : Draw) (h : Fin 4) :
    tapePlaces d (20 + h.val) = headPlaces (((d.at 0).at 2).at h.val) := by
  match h with
  | 0 | 1 | 2 | 3 => rfl

/-- Settles O49: the stages one by one, each from the signal of the one before; `ch4`, `ch6` and `ch7` are the channel after
the heads, the aging and the instability. -/
theorem tapeProcessFrame : Obligations.TapeProcessFrame := by
  intro s c x hc hm tp ch P check sine advance filter
  let front := s.draw.at 0
  let back := s.draw.at 1
  let noise := back.at 2
  refine ⟨tapePlaces s.draw, tapeDraws s.draw, drawBipolar (noise.at 0), drawSign (noise.at 12),
    fun k => drawUnit_range _, (drawBipolar_range _).1, (drawBipolar_range _).2, drawSign_mem _, ?_⟩
  intro r1 s1 lfo m s3 buf tap s4 r2 r3 r4 s5 a2 lp aged y6 s6 la ls y7 s7 white p0 p1 p2 p3 p4 p5 pink partial_ hum rum
    art n s8 v s9 y noisy ch'
  let ch4 := { lfo with buf := buf, w := (ch.w + 1) % tp.TN }
  let ch6 := { ch4 with ageDrop := noisy.ageDrop, ageLp := noisy.ageLp }
  let ch7 := { ch6 with
    instPhA := noisy.instPhA, instPhS := noisy.instPhS, instSpeed := noisy.instSpeed, instDrop := noisy.instDrop }
  have saturated : isFinite s3 = true := by
    have filtered : isFinite s1 = true := filterStage_isFinite (front.at 0) s.bq 0 (s.bqh.get c) (tpDry_isFinite x)
    exact tpSaturate_isFinite (front.at 3) tp filtered
  have taps (h : Fin 4) : tpTap (front.at 2) tp { lfo with buf := buf } m h = tap h := by
    rw [tpTap_eq, thRead_eq, ← tapePlaces_head]
    rfl
  have toEqualiser : tpFront front tp s.bq c (s.tpPath c) x = (⟨ch4, ⟨r1.1, r2.1, r3.1, r4.1⟩⟩, s5) :=
    tpFront_eq rfl rfl rfl (tpHeads_eq taps) rfl rfl rfl
  have aging : tpAging (back.at 0) tp ch4 s5 = (ch6, s6) := tpAging_eq _ _ _ _
  have instability : tpInstability (back.at 1) tp ch6 s6 = (ch7, s7) := tpInstability_eq _ _ _ _
  have noiseSignal : (noiseAdded noise tp ch7 s7).2 = check (fadd (tapePlaces s.draw 38 5) s7 n) s7 := rfl
  have toDecorrelation : tpBack back tp c ch4 s5 = (ch', s9) :=
    tpBack_eq aging instability (tpDecorrelate_tpNoise noiseSignal)
  have process : tpProcess s.draw tp s.bq c (s.tpPath c) x = (⟨ch', ⟨r1.1, r2.1, r3.1, r4.1⟩⟩, y) := by
    rw [tpProcess, toEqualiser, toDecorrelation]
    rfl
  refine ⟨exec_tpProc_on hc hm c x process, saturated, fun hwf => ⟨?_, fun a ha => ?_⟩⟩
  · exact Memory.read_write_same ch.buf ch.w s3 hwf
  · exact Memory.read_write_other ch.buf ch.w a s3 ha

end Sys2Proof.Machine
end

section
/-! PROOFS. The scale commands of TQ (46_quantizer.md R300 to R303, R310, R316), and who writes the authority's latch (R319;
47_router.md R341). -/

namespace Sys2Proof.Machine

/-! ### The authority's latch (R319, R341) -/

theorem tqStage_auth (tq : Tq) (b : Byte) : (tqStage tq b).auth = tq.auth := by unfold tqStage; split <;> rfl

theorem tqLoad_auth (tq : Tq) : (tqLoad tq).1.auth = tq.auth := by unfold tqLoad; split <;> rfl

/-- No command of the quantizer writes the latch. -/
theorem exec_tq_auth {i : Instr} {s t : State} (hi : instrUnit i = 5) (h : exec i s = .next t) :
    t.tq.auth = s.tq.auth := by
  rw [instrUnit_eq] at hi
  cases i <;> cases hi <;> obtain rfl := Host.Outcome.next.inj h
  case tqSetdef | tqSclclr | tqQuant | tqGetdesc => rfl
  case tqSettuning id =>
    cases selTuning id with
    | none => rw [State.withSel_none, State.raise_tq]
    | some k => rfl
  case tqSclb b => exact tqStage_auth s.tq b
  case tqLoad => exact tqLoad_auth s.tq

theorem State.rtConfigure_tq (s : State) (d : Draw) (v : F32) : (s.rtConfigure d v).tq = s.tq := by
  obtain ⟨_, _, htq⟩ := s.rtConfigure_units d v
  rw [htq, State.rtConfigureUnits, State.tpConfigure_tq]

theorem State.rtReset_tq (s : State) : s.rtReset.tq = s.tq := by
  unfold State.rtReset State.tpReset
  split <;> rfl

theorem State.rtChannel_tq (s : State) (d : Draw) (c : Chan) (x : F32) : (s.rtChannel d c x).1.tq = s.tq :=
  State.tpThrough_tq _ _ c _

theorem State.rtChannel_rt (s : State) (d : Draw) (c : Chan) (x : F32) : (s.rtChannel d c x).1.rt = s.rt :=
  State.tpThrough_rt _ _ c _

/-- R341: a frame that is not due for the poll keeps the latch, and one that is due restarts the count. -/
theorem State.rtFinish_poll (s : State) (d : Draw) (h : (s.rtFinish d).tq.auth ≠ s.tq.auth) :
    s.rt.pollCnt + 1 = Config.authPollPeriod ∧ (s.rtFinish d).rt.pollCnt = 0 := by
  by_cases due : s.rt.pollCnt + 1 = Config.authPollPeriod
  · exact ⟨due, by simp only [State.rtFinish, due, decide_true, if_true]⟩
  · refine absurd ?_ h
    simp only [State.rtFinish, due, decide_false, Bool.false_eq_true, if_false]

/-- R336, R341: the channels of a frame leave the latch and the count to its end. -/
theorem State.rtRun_poll (s : State) (x0 x1 : F32) (h : (s.rtRun x0 x1).tq.auth ≠ s.tq.auth) :
    s.rt.pollCnt + 1 = Config.authPollPeriod ∧ (s.rtRun x0 x1).rt.pollCnt = 0 := by
  let channels := ((s.rtChannel (s.draw.at 0) .ch0 x0).1.rtChannel (s.draw.at 1) .ch1 x1).1
  have tq : channels.tq = s.tq := by simp only [channels, State.rtChannel_tq]
  have rt : channels.rt = s.rt := by simp only [channels, State.rtChannel_rt]
  rw [← tq] at h
  rw [← rt]
  exact channels.rtFinish_poll (s.draw.at 2) h

/-- No router command but a frame writes the latch. -/
theorem exec_rt_auth {i : Instr} {s t : State} (hi : instrUnit i = 6) (h : exec i s = .next t)
    (hauth : t.tq.auth ≠ s.tq.auth) :
    (∃ x0 x1, i = .rtFrame x0 x1) ∧ s.rt.pollCnt + 1 = Config.authPollPeriod ∧ t.rt.pollCnt = 0 := by
  rw [instrUnit_eq] at hi
  cases i <;> cases hi <;> obtain rfl := Host.Outcome.next.inj h
  case rtCfg v => exact absurd (congrArg Tq.auth (s.rtConfigure_tq s.draw v)) hauth
  case rtRst => exact absurd (congrArg Tq.auth s.rtReset_tq) hauth
  case rtSetxfb v => exact absurd rfl hauth
  case rtSetpitch q v =>
    refine absurd ?_ hauth
    cases selEnable q with
    | none => rw [State.withSel_none, State.raise_tq]
    | some on => rfl
  case rtFrame x0 x1 =>
    refine ⟨⟨x0, x1, rfl⟩, ?_⟩
    cases hc : s.dl.cfg && s.ps.cfg && s.tp.cfg with
    | false =>
      rw [hc, State.whenConfigured_false, State.raise_tq] at hauth
      exact absurd rfl hauth
    | true =>
      rw [hc, State.whenConfigured_true] at hauth
      exact s.rtRun_poll x0 x1 hauth

/-- Settles O26: by the unit of the command; only TQ and RT commands write the quantizer at all. -/
theorem authorityPolledByFramesOnly : Obligations.AuthorityPolledByFramesOnly := by
  intro i s t h hauth
  by_cases h5 : instrUnit i = 5
  · exact absurd (exec_tq_auth h5 h) hauth
  by_cases h6 : instrUnit i = 6
  · exact exec_rt_auth h6 h hauth
  · exact absurd (congrArg Tq.auth ((exec_othersKept h).tq h5 h6)) hauth

/-! ### The built-in tunings (R296, R297, R300, R301) -/

/-- R300: tuning 0 is the 12-EDO scale. -/
theorem tuningScale_zero : tuningScale 0 = scale12 := by decide

theorem tuningDesc_zero : tuningDesc 0 = [0x31, 0x32, 0x2D, 0x45, 0x44, 0x4F] := by decide

theorem selTuning_of_le {id : Nat} (h : id ≤ 10) : selTuning id = some id := if_pos h

/-- R296: the divisions of identifiers 0 to 6, and none above. -/
theorem tuningScale_edo {id : Nat} (h : id < 7) : tuningScale id = edoScale (edoDivisions.getD id 0) := by
  have division : edoDivisions[id]? = some (edoDivisions.getD id 0) := by
    rw [List.getD_eq_getElem _ _ h, List.getElem?_eq_getElem h]
  rw [tuningScale, division]

theorem tuningScale_table {id : Nat} (h : 7 ≤ id) :
    tuningScale id = (List.range 12).map (Config.params.tuningTable id) ++ [f1200] := by
  have none : edoDivisions[id]? = none := List.getElem?_eq_none h
  rw [tuningScale, none]

/-- The lengths of the eleven scales. -/
theorem tuningScale_length {id : Nat} (h : id ≤ 10) :
    (tuningScale id).length = [13, 20, 23, 25, 32, 54, 73, 13, 13, 13, 13].getD id 0 := by
  obtain low | high := Nat.lt_or_ge id 7
  · rw [tuningScale_edo low, edoScale]
    interval_cases id <;> simp [edoDivisions]
  · rw [tuningScale_table high]
    interval_cases id <;> simp

/-- An entry of a tabulated list, before what is appended. -/
theorem getD_map_range_append {α : Type} (f : Nat → α) {n k : Nat} (hk : k < n) (l : List α) (dflt : α) :
    ((List.range n).map f ++ l).getD k dflt = f k := by
  simp [List.getD_eq_getElem?_getD, List.getElem?_append_left, hk]

/-- R296: every entry of an equal division below the octave is a product of its index and the step. -/
theorem edoScale_getD {n k : Nat} (hk : k < n) :
    (edoScale n).getD k f1 = fmul noDraw (toF32 (k : Int)) (fdiv noDraw f1200 (toF32 (n : Int))) := by
  rw [edoScale, getD_map_range_append _ hk]

theorem tuningScale_getLast? (id : Nat) : (tuningScale id).getLast? = some f1200 := by
  unfold tuningScale
  split
  · exact List.getLast?_concat
  · exact List.getLast?_concat

theorem tuningScale_getD_table {id k : Nat} (h : 7 ≤ id) (hk : k < 12) :
    (tuningScale id).getD k f1 = Config.params.tuningTable id k := by
  rw [tuningScale_table h, getD_map_range_append _ hk]

theorem tuningScale_getD_edo {id n k : Nat} (hn : n = edoDivisions.getD id 0) (hk : k < n) :
    (tuningScale id).getD k f1 = fmul noDraw (toF32 (k : Int)) (fdiv noDraw f1200 (toF32 (n : Int))) := by
  obtain low | high := Nat.lt_or_ge id 7
  · rw [tuningScale_edo low, ← hn, edoScale_getD hk]
  · rw [List.getD_eq_default _ _ high] at hn
    omega

/-- Settles O51: each of the four commands is one write of the quantizer, or a response. -/
theorem scaleCommands : Obligations.ScaleCommands := by
  intro s id hid
  have setdef : tqInstallTuning s.tq 0 = { s.tq with
      len := 13, scale := scale12, descLen := 6, desc := [0x31, 0x32, 0x2D, 0x45, 0x44, 0x4F] } := by
    rw [tqInstallTuning, tuningScale_zero, tuningDesc_zero]
    rfl
  refine ⟨?_, ⟨tuningScale id, tuningDesc id, ?_, tuningScale_length hid, fun k => tuningScale_getD_table,
    ⟨noDraw, fun n k => tuningScale_getD_edo⟩, tuningScale_getLast? id, rfl⟩, rfl, rfl⟩
  · exact next_retire (congrArg (fun tq => { s with tq := tq }) setdef)
  · exact next_withSel (selTuning_of_le hid) s _

/-! ### Staging (R303) -/

theorem tqStage_room {tq : Tq} (h : tq.sclLen < Config.sclBufBytes) (b : Byte) :
    tqStage tq b = { tq with sclbuf := tq.sclbuf.write tq.sclLen b, sclLen := tq.sclLen + 1 } := if_pos h

theorem tqStage_full {tq : Tq} (h : Config.sclBufBytes ≤ tq.sclLen) (b : Byte) : tqStage tq b = tq :=
  if_neg (Nat.not_lt.2 h)

/-- Settles O52: a write to one cell, or none when the buffer is full. -/
theorem stagingStoresOneByte : Obligations.StagingStoresOneByte := by
  intro s b hwf
  have stage {tq' : Tq} (h : tqStage s.tq b = tq') : exec (.tqSclb b) s = .next (State.retire { s with tq := tq' }) :=
    next_retire (congrArg (fun tq => { s with tq := tq }) h)
  refine ⟨fun room => ⟨s.tq.sclbuf.write s.tq.sclLen b, stage (tqStage_room room b), ?_, fun a ha => ?_⟩, fun full => ?_⟩
  · exact Memory.read_write_same _ _ b hwf
  · exact Memory.read_write_other _ _ a b ha
  · exact stage (tqStage_full full b)

/-! ### Loading (R310) -/

/-- R310: a text that parses is installed between the unison and the octave. -/
theorem tqLoad_parsed {tq : Tq} {desc : List Byte} {e : List F32} (h : tqParsed tq = some (desc, e)) :
    tqLoad tq = ({ tq with
      len := e.length + 2, scale := f0 :: e ++ [f1200], descLen := desc.length, desc := desc }, 1) := by
  simp [tqLoad, h, tqInstall]

/-- R310: what does not parse leaves the quantizer alone. -/
theorem tqLoad_failed {tq : Tq} (h : tqParsed tq = none) : tqLoad tq = (tq, 0) := by
  simp only [tqLoad, h]

/-- Settles O56: by whether the staged bytes, if they left room, parse. -/
theorem scaleLoadIsAtomic : Obligations.ScaleLoadIsAtomic := by
  intro s text
  have load {r : Tq × Word} (h : tqLoad s.tq = r) :
      exec .tqLoad s = .next ({ s with tq := r.1 }.respond [r.2]).retire :=
    next_retire (congrArg (fun r : Tq × Word => { s with tq := r.1 }.respond [r.2]) h)
  refine ⟨fun desc e room parsed => ?_, fun fails => ?_⟩
  · exact load (tqLoad_parsed ((if_pos room).trans parsed))
  · have failed : tqParsed s.tq = none := by
      unfold tqParsed
      split
      · next room => exact fails.resolve_left (Nat.not_le.2 room)
      · rfl
    exact load (tqLoad_failed failed)

end Sys2Proof.Machine
end

section
/-! PROOFS. What a scale file denotes (46_quantizer.md R311 to R315): which texts parse, and the value of each note token. -/

namespace Sys2Proof.Machine

/-! ### Lines (R311, R312) -/

/-- R311: the content lines of a text, from its lines. -/
theorem contentLines_spec (text : List Byte) : ∃ (ls : List (List Byte)) (last : List Byte),
    text = ls.flatMap (fun l => l ++ [0x0A]) ++ last ∧ (∀ l ∈ ls, 0x0A ∉ l) ∧ 0x0A ∉ last ∧
      contentLines text = ((if last = [] then ls else ls ++ [last]).map stripCr).filter fun l => !isComment l := by
  obtain ⟨ls, last, htext, hls, hlast, hsplit⟩ := splitLines_spec text
  exact ⟨ls, last, htext, hls, hlast, by rw [contentLines, hsplit]⟩

/-- R311, R312: a content line is more than blanks, so its description is not empty. -/
theorem one_le_length_trimBlank {text line : List Byte} (h : line ∈ contentLines text) : 1 ≤ (trimBlank line).length := by
  have content : isComment line = false := by simpa using (List.mem_filter.1 h).2
  have notBlank : line.all isBlank = false := (Bool.or_eq_false_iff.1 content).2
  refine List.length_pos_iff.2 fun empty => ?_
  obtain ⟨pre, post, hline, hpre, hpost, _⟩ := trimBlank_spec line
  rw [empty, List.append_nil] at hline
  rw [hline, List.all_append, hpre, hpost] at notBlank
  cases notBlank

/-! ### The whole text (R312, R313, R315) -/

/-- R314: the notes of a text, one from the first token of each of the next `n` lines. -/
theorem parseNotes_iff (n : Nat) (ls : List (List Byte)) (es : List F32) :
    parseNotes n ls = some es ↔
      es.length = n ∧ n ≤ ls.length ∧ ∀ i, i < n → parseNote (firstToken (ls.getD i [])) = es[i]? := by
  induction n generalizing ls es with
  | zero => simp [parseNotes, List.length_eq_zero_iff, eq_comm (a := ([] : List F32))]
  | succ n ih =>
    cases ls with
    | nil => simp [parseNotes]
    | cons l ls =>
      constructor
      · intro h
        unfold parseNotes at h
        split at h
        · next e es' he hes =>
          cases h
          obtain ⟨hlen, hle, hall⟩ := (ih ls es').1 hes
          refine ⟨congrArg (· + 1) hlen, Nat.succ_le_succ hle, fun i hi => ?_⟩
          cases i with
          | zero => exact he
          | succ i => exact hall i (Nat.lt_of_succ_lt_succ hi)
        · cases h
      · rintro ⟨hlen, hle, hall⟩
        cases es with
        | nil => cases hlen
        | cons e es =>
          have first : parseNote (firstToken l) = some e := hall 0 (Nat.succ_pos n)
          have rest : parseNotes n ls = some es :=
            (ih ls es).2 ⟨Nat.succ.inj hlen, Nat.le_of_succ_le_succ hle, fun i hi => hall (i + 1) (Nat.succ_lt_succ hi)⟩
          rw [parseNotes, first, rest]

section
variable {text l0 l1 : List Byte} {notes : List (List Byte)}

/-- R312: a text needs a description line and a count line. -/
theorem parseScl_short (h : contentLines text = [] ∨ contentLines text = [l0]) : parseScl text = none := by
  rcases h with h | h <;> rw [parseScl, h]

variable (h : contentLines text = l0 :: l1 :: notes)
include h

/-- R313: without a count nothing parses. -/
theorem parseScl_noCount (hn : parseCount (firstToken l1) = none) : parseScl text = none := by
  rw [parseScl, h]
  simp only [hn]

/-- R312 to R314: a text with a count parses when the count fits and its notes do. -/
theorem parseScl_counted {n : Nat} (hn : parseCount (firstToken l1) = some n) (desc : List Byte) (e : List F32) :
    parseScl text = some (desc, e) ↔
      n ≤ 126 ∧ desc = (trimBlank l0).take 255 ∧ parseNotes n notes = some e := by
  have most : Config.scaleMaxEntries - 2 = 126 := rfl
  have longest : Config.descMaxBytes = 255 := rfl
  rw [parseScl, h]
  simp only [hn]
  by_cases fits : n ≤ 126
  · rw [if_neg (by omega)]
    cases parseNotes n notes with
    | none => simp
    | some es => simp [fits, longest, eq_comm]
  · rw [if_pos (by omega)]
    simp [fits]

/-- R314: fewer lines than the count fail. -/
theorem parseScl_missing {n : Nat} (hn : parseCount (firstToken l1) = some n) (short : notes.length < n) :
    parseScl text = none := by
  cases parsed : parseScl text with
  | none => rfl
  | some r =>
    obtain ⟨_, _, hnotes⟩ := (parseScl_counted h hn r.1 r.2).1 parsed
    obtain ⟨_, enough, _⟩ := (parseNotes_iff n notes r.2).1 hnotes
    omega

end

/-- R312 to R314: which texts parse, and what they denote. -/
theorem parseScl_iff (text desc : List Byte) (e : List F32) :
    parseScl text = some (desc, e) ↔
      e.length ≤ 126 ∧ ∃ l0 l1 notes, contentLines text = l0 :: l1 :: notes ∧
        parseCount (firstToken l1) = some e.length ∧ e.length ≤ notes.length ∧ desc = (trimBlank l0).take 255 ∧
        ∀ i, i < e.length → parseNote (firstToken (notes.getD i [])) = e[i]? := by
  constructor
  · intro parsed
    match hc : contentLines text with
    | [] => rw [parseScl_short (l0 := []) (.inl hc)] at parsed; cases parsed
    | [l0] => rw [parseScl_short (.inr hc)] at parsed; cases parsed
    | l0 :: l1 :: notes =>
      cases hn : parseCount (firstToken l1) with
      | none => rw [parseScl_noCount hc hn] at parsed; cases parsed
      | some n =>
        obtain ⟨fits, hdesc, hnotes⟩ := (parseScl_counted hc hn desc e).1 parsed
        obtain ⟨rfl, enough, each⟩ := (parseNotes_iff n notes e).1 hnotes
        exact ⟨fits, l0, l1, notes, rfl, hn, enough, hdesc, each⟩
  · rintro ⟨fits, l0, l1, notes, hc, hn, enough, hdesc, each⟩
    exact (parseScl_counted hc hn desc e).2 ⟨fits, hdesc, (parseNotes_iff _ _ _).2 ⟨rfl, enough, each⟩⟩

/-- R312, R315: the notes of a text that parses are finite, and its description has 1 to 255 bytes. -/
theorem parseScl_bounds {text desc : List Byte} {e : List F32} (parsed : parseScl text = some (desc, e)) :
    (∀ v ∈ e, isFinite v = true) ∧ 1 ≤ desc.length ∧ desc.length ≤ 255 := by
  obtain ⟨atMost, _, finite⟩ := parseScl_spec parsed
  obtain ⟨_, l0, l1, notes, hc, _, _, hdesc, _⟩ := (parseScl_iff text desc e).1 parsed
  have nonempty : 1 ≤ (trimBlank l0).length := one_le_length_trimBlank (text := text) (by rw [hc]; exact List.mem_cons_self)
  refine ⟨List.all_eq_true.1 finite, ?_, atMost⟩
  rw [hdesc, List.length_take]
  omega

/-! ### Ratios (R314) -/

theorem finiteOnly_iff (v w : F32) : finiteOnly v = some w ↔ isFinite w = true ∧ w = v := by
  unfold finiteOnly
  split
  · next finite =>
    rw [Option.some.injEq, eq_comm]
    exact ⟨fun e => ⟨e ▸ finite, e⟩, fun ⟨_, e⟩ => e⟩
  · next infinite =>
    simp only [reduceCtorEq, false_iff, not_and]
    exact fun hw e => infinite (e ▸ hw)

theorem parseRatio_iff (a b : List Byte) (v : F32) :
    parseRatio a b = some v ↔
      ∃ m n, parseCount a = some m ∧ parseCount b = some n ∧ 1 ≤ m ∧ 1 ≤ n ∧ isFinite v = true ∧ v = ratioCents m n := by
  unfold parseRatio
  cases parseCount a with
  | none => simp
  | some m =>
    cases parseCount b with
    | none => simp
    | some n =>
      by_cases pos : 1 ≤ m ∧ 1 ≤ n
      · simp [pos, finiteOnly_iff]
      · simp only [if_neg pos]
        constructor
        · intro h; cases h
        · rintro ⟨m', n', ⟨⟩, ⟨⟩, hm, hn, _⟩
          exact absurd ⟨hm, hn⟩ pos

/-- R314: a token is cut at its first `/`. -/
theorem parseNote_slash {a : List Byte} (ha : 0x2F ∉ a) (b : List Byte) : parseNote (a ++ 0x2F :: b) = parseRatio a b := by
  have before : ∀ x ∈ a, (x != 0x2F) = true := fun x hx => bne_iff_ne.2 fun e => ha (e ▸ hx)
  have slash : ((0x2F : Byte) != 0x2F) = false := by decide
  have drop : (a ++ 0x2F :: b).dropWhile (fun x => x != 0x2F) = 0x2F :: b := by
    rw [List.dropWhile_append_of_pos before, List.dropWhile_cons_of_neg (by rw [slash]; exact Bool.false_ne_true)]
  have take : (a ++ 0x2F :: b).takeWhile (fun x => x != 0x2F) = a := by
    rw [List.takeWhile_append_of_pos before, List.takeWhile_cons_of_neg (by rw [slash]; exact Bool.false_ne_true),
      List.append_nil]
  simp only [parseNote, drop, take]

/-- R314: a token without a `/` is in cents. -/
theorem parseNote_cents {token : List Byte} (h : 0x2F ∉ token) : parseNote token = parseCents token := by
  have drop : token.dropWhile (fun x => x != 0x2F) = [] :=
    List.dropWhile_eq_nil_iff.2 fun x hx => bne_iff_ne.2 fun e => h (e ▸ hx)
  simp only [parseNote, drop]

/-! ### Decimals (R314) -/

/-- The unsigned part of a decimal: digits, and after a period at least one more; at least one digit in all (log 14). -/
structure UnsignedDecimal (body whole frac : List Byte) : Prop where
  digits : (whole ++ frac).all isDigit = true
  nonempty : whole ++ frac ≠ []
  written : frac = [] ∧ body = whole ∨ frac ≠ [] ∧ body = whole ++ 0x2E :: frac

/-- The sign bytes of a decimal, and whether it is negative. -/
def IsSign (sign : List Byte) (neg : Bool) : Prop := sign = [0x2D] ∧ neg = true ∨ (sign = [0x2B] ∨ sign = []) ∧ neg = false

theorem isDigitRun_iff (t : List Byte) : isDigitRun t = true ↔ t ≠ [] ∧ t.all isDigit = true := by
  cases t <;> simp [isDigitRun]

/-- R314: every unsigned decimal reads as its digits over a power of ten. -/
theorem parseUnsigned_decimal {body whole frac : List Byte} (h : UnsignedDecimal body whole frac) (neg : Bool) :
    parseUnsigned neg body = finiteOnly (decimalF32 neg (decimalValue (whole ++ frac)) frac.length) := by
  obtain ⟨hwhole, hfrac⟩ : whole.all isDigit = true ∧ frac.all isDigit = true := by
    simpa only [List.all_append, Bool.and_eq_true] using h.digits
  have nonempty := h.nonempty
  obtain ⟨rfl, rfl⟩ | ⟨hf, rfl⟩ := h.written
  · have take : body.takeWhile isDigit = body := List.takeWhile_eq_self_iff.2 (List.all_eq_true.1 hwhole)
    have drop : body.dropWhile isDigit = [] := List.dropWhile_eq_nil_iff.2 (List.all_eq_true.1 hwhole)
    rw [List.append_nil] at nonempty ⊢
    simp only [parseUnsigned, take, drop, (isDigitRun_iff body).2 ⟨nonempty, hwhole⟩, if_true, List.length_nil]
  · have period : ¬ isDigit 0x2E = true := by decide
    have take : (whole ++ 0x2E :: frac).takeWhile isDigit = whole := by
      rw [List.takeWhile_append_of_pos (List.all_eq_true.1 hwhole), List.takeWhile_cons_of_neg period, List.append_nil]
    have drop : (whole ++ 0x2E :: frac).dropWhile isDigit = 0x2E :: frac := by
      rw [List.dropWhile_append_of_pos (List.all_eq_true.1 hwhole), List.dropWhile_cons_of_neg period]
    simp only [parseUnsigned, take, drop, (isDigitRun_iff frac).2 ⟨hf, hfrac⟩, and_self, if_true]

/-- R314: nothing but an unsigned decimal is read. -/
theorem exists_unsignedDecimal {neg : Bool} {body : List Byte} {v : F32} (h : parseUnsigned neg body = some v) :
    ∃ whole frac, UnsignedDecimal body whole frac := by
  have hbody : body.takeWhile isDigit ++ body.dropWhile isDigit = body := List.takeWhile_append_dropWhile
  have digits : (body.takeWhile isDigit).all isDigit = true := List.all_takeWhile
  simp only [parseUnsigned] at h
  split at h
  · next hd =>
    rw [hd, List.append_nil] at hbody
    split at h
    · next run =>
      obtain ⟨nonempty, _⟩ := (isDigitRun_iff _).1 run
      exact ⟨body.takeWhile isDigit, [], by rwa [List.append_nil], by rwa [List.append_nil], .inl ⟨rfl, hbody.symm⟩⟩
    · cases h
  · next p frac hd =>
    rw [hd] at hbody
    split at h
    · next run =>
      obtain ⟨rfl, run⟩ := run
      obtain ⟨nonempty, hfrac⟩ := (isDigitRun_iff _).1 run
      exact ⟨body.takeWhile isDigit, frac, by rw [List.all_append, digits, hfrac]; rfl,
        fun e => nonempty (List.append_eq_nil_iff.1 e).2, .inr ⟨nonempty, hbody.symm⟩⟩
    · cases h

/-- An unsigned decimal does not begin with a sign. -/
theorem UnsignedDecimal.head {b : Byte} {rest whole frac : List Byte} (h : UnsignedDecimal (b :: rest) whole frac) :
    b ≠ 0x2B ∧ b ≠ 0x2D := by
  have first : isDigit b = true ∨ b = 0x2E := by
    obtain ⟨_, rfl⟩ | ⟨_, hbody⟩ := h.written
    · exact .inl (List.all_eq_true.1 h.digits b (by simp))
    · cases whole with
      | nil => exact .inr (List.cons.inj hbody).1
      | cons c whole =>
        obtain ⟨rfl, _⟩ := List.cons.inj hbody
        exact .inl (List.all_eq_true.1 h.digits b (by simp))
  constructor <;> rintro rfl <;> revert first <;> decide

/-- R314: the sign of a decimal is read, and the rest of it as unsigned. -/
theorem parseCents_signed {sign body whole frac : List Byte} {neg : Bool} (hlen : (sign ++ body).length ≤ 32)
    (hs : IsSign sign neg) (h : UnsignedDecimal body whole frac) : parseCents (sign ++ body) = parseUnsigned neg body := by
  unfold parseCents
  rw [if_neg (Nat.not_lt.2 hlen)]
  obtain ⟨rfl, rfl⟩ | ⟨rfl | rfl, rfl⟩ := hs
  · rfl
  · rfl
  · cases body with
    | nil => exact absurd rfl (by obtain ⟨rfl, rfl⟩ | ⟨_, e⟩ := h.written; exacts [h.nonempty, by simp at e])
    | cons b rest =>
      obtain ⟨plus, minus⟩ := h.head
      simp only [List.nil_append, plus, minus, if_false]

/-- R314: what is read is at most 32 bytes, a sign and an unsigned decimal. -/
theorem exists_signedDecimal {token : List Byte} {v : F32} (h : parseCents token = some v) :
    token.length ≤ 32 ∧ ∃ sign neg body, token = sign ++ body ∧ IsSign sign neg ∧ parseUnsigned neg body = some v := by
  unfold parseCents at h
  split at h
  · cases h
  next short =>
  refine ⟨Nat.not_lt.1 short, ?_⟩
  split at h
  · cases h
  next b rest =>
  split at h
  · next plus => exact ⟨[0x2B], false, rest, by rw [plus]; rfl, .inr ⟨.inl rfl, rfl⟩, h⟩
  split at h
  · next minus => exact ⟨[0x2D], true, rest, by rw [minus]; rfl, .inl ⟨rfl, rfl⟩, h⟩
  · exact ⟨[], false, b :: rest, rfl, .inr ⟨.inr rfl, rfl⟩, h⟩

/-- A run of digits is below the power of ten of its length. -/
theorem decimalValue_lt {ds : List Byte} (h : ds.all isDigit = true) : decimalValue ds < 10 ^ ds.length := by
  induction ds using List.reverseRecOn with
  | nil => decide
  | append_singleton ds b ih =>
    obtain ⟨hds, hb⟩ : ds.all isDigit = true ∧ isDigit b = true := by
      simpa only [List.all_append, List.all_cons, List.all_nil, Bool.and_true, Bool.and_eq_true] using h
    have digit : b.toNat ≤ 0x39 := by simpa using (Bool.and_eq_true_iff.1 hb).2
    have := ih hds
    rw [decimalValue_append, List.length_append, List.length_singleton, pow_succ]
    omega

/-- R314: 32 digits are far below the largest binary32. -/
theorem isFinite_decimalF32 (neg : Bool) {digits : Nat} (scale : Nat) (h : digits ≤ 10 ^ 32) :
    isFinite (decimalF32 neg digits scale) = true := by
  unfold decimalF32
  split
  · decide
  · have largest : roundMag (10 ^ 32 * unitsPerOne) 1 < 0x7F800000 := by decide
    have bound : roundMag (digits * unitsPerOne) (10 ^ scale) ≤ roundMag (10 ^ 32 * unitsPerOne) 1 := by
      refine roundMag_mono _ _ _ _ (by positivity) Nat.one_pos ?_
      rw [Nat.mul_one]
      exact (Nat.mul_le_mul_right _ h).trans (Nat.le_mul_of_pos_right _ (by positivity))
    rw [roundTo, isFinite, magOf_mkF _ _ (by omega)]
    exact decide_eq_true (Nat.lt_of_le_of_lt bound largest)

/-- R314: no finite value is nearer to a decimal than its reading, and where another is as near the reading is even. -/
theorem decimalF32_nearest (neg : Bool) (digits scale : Nat) (hf : isFinite (decimalF32 neg digits scale) = true) (z : F32)
    (hz : isFinite z = true) :
    let value : Int := (if neg then -1 else 1) * digits * unitsPerOne
    let error := fun (w : F32) => (intOf w * 10 ^ scale - value).natAbs
    error (decimalF32 neg digits scale) ≤ error z ∧
      (error (decimalF32 neg digits scale) = error z →
        intOf (decimalF32 neg digits scale) = intOf z ∨ (decimalF32 neg digits scale).toNat % 2 = 0) := by
  intro value error
  by_cases zero : digits = 0
  · have exact : error (decimalF32 neg digits scale) = 0 := by
      simp [error, value, decimalF32, zero, intOf_f0]
    have even : (decimalF32 neg digits scale).toNat % 2 = 0 := by
      rw [decimalF32, if_pos zero]
      rfl
    exact ⟨exact ▸ Nat.zero_le _, fun _ => .inr even⟩
  · have rounded : decimalF32 neg digits scale = roundTo neg (digits * unitsPerOne) (10 ^ scale) := if_neg zero
    rw [rounded] at hf ⊢
    have nearest := roundTo_nearest neg (digits * unitsPerOne) (10 ^ scale) (by positivity) hf z hz
    have same : (if neg then -((digits * unitsPerOne : Nat) : Int) else ((digits * unitsPerOne : Nat) : Int)) = value := by
      cases neg <;> simp [value]
    simpa only [same, Nat.cast_pow, Nat.cast_ofNat] using nearest

/-- A decimal token: at most 32 bytes, a sign and an unsigned decimal (R314). -/
structure DecimalToken (token : List Byte) (neg : Bool) (whole frac : List Byte) : Prop where
  short : token.length ≤ 32
  shape : ∃ sign body, token = sign ++ body ∧ IsSign sign neg ∧ UnsignedDecimal body whole frac

/-- R314: every decimal token is read, as its digits over a power of ten. -/
theorem parseCents_decimal {token whole frac : List Byte} {neg : Bool} (h : DecimalToken token neg whole frac) :
    parseCents token = some (decimalF32 neg (decimalValue (whole ++ frac)) frac.length) := by
  obtain ⟨short, sign, body, rfl, hs, hu⟩ := h
  have length : (whole ++ frac).length ≤ 32 := by
    rw [List.length_append] at short
    obtain ⟨rfl, rfl⟩ | ⟨_, rfl⟩ := hu.written <;> simp only [List.length_append, List.length_cons, List.length_nil] at * <;>
      omega
  have digits : decimalValue (whole ++ frac) ≤ 10 ^ 32 :=
    (decimalValue_lt hu.digits).le.trans (Nat.pow_le_pow_right (by norm_num) length)
  rw [parseCents_signed short hs hu, parseUnsigned_decimal hu, finiteOnly_iff]
  exact ⟨isFinite_decimalF32 neg _ digits, rfl⟩

/-- R314: nothing but a decimal token is read as cents. -/
theorem exists_decimalToken {token : List Byte} {v : F32} (h : parseCents token = some v) :
    ∃ neg whole frac, DecimalToken token neg whole frac := by
  obtain ⟨short, sign, neg, body, htoken, hs, hu⟩ := exists_signedDecimal h
  obtain ⟨whole, frac, decimal⟩ := exists_unsignedDecimal hu
  exact ⟨neg, whole, frac, short, sign, body, htoken, hs, decimal⟩

/-- The words of R314 for a decimal token. -/
theorem decimalToken_iff (token : List Byte) (neg : Bool) (whole frac : List Byte) :
    DecimalToken token neg whole frac ↔
      token.length ≤ 32 ∧ (whole ++ frac).all isDigit = true ∧ whole ++ frac ≠ [] ∧
        ∃ sign, (sign = [0x2D] ∧ neg = true ∨ (sign = [0x2B] ∨ sign = []) ∧ neg = false) ∧
          (frac = [] ∧ token = sign ++ whole ∨ frac ≠ [] ∧ token = sign ++ whole ++ 0x2E :: frac) := by
  constructor
  · rintro ⟨short, sign, body, rfl, hs, digits, nonempty, written⟩
    refine ⟨short, digits, nonempty, sign, hs, written.imp ?_ ?_⟩
    · rintro ⟨hf, rfl⟩; exact ⟨hf, rfl⟩
    · rintro ⟨hf, rfl⟩; exact ⟨hf, (List.append_assoc _ _ _).symm⟩
  · rintro ⟨short, digits, nonempty, sign, hs, ⟨hf, rfl⟩ | ⟨hf, rfl⟩⟩
    · exact ⟨short, sign, whole, rfl, hs, digits, nonempty, .inl ⟨hf, rfl⟩⟩
    · exact ⟨short, sign, whole ++ 0x2E :: frac, List.append_assoc _ _ _, hs, digits, nonempty, .inr ⟨hf, rfl⟩⟩

/-- Settles O57: clause by clause, the lexical layer first, then the text, the ratios and the decimals. -/
theorem scaleFileShape : Obligations.ScaleFileShape := by
  refine ⟨contentLines_spec, firstToken_spec, trimBlank_spec, fun b => ?_, rfl, decimalValue_append, parseCount_iff,
    fun text => ⟨fun l0 => parseScl_short, fun l0 l1 notes => parseScl_noCount,
      fun l0 l1 notes n hc hn => parseScl_missing hc hn, parseScl_iff text⟩,
    fun text desc e => parseScl_bounds, fun a b v ha => ?_, fun token htoken => ⟨fun neg whole frac h => ?_, fun v h => ?_⟩⟩
  · simp only [isDigit, Bool.and_eq_true, decide_eq_true_eq]
  · rw [parseNote_slash ha]
    exact parseRatio_iff a b v
  · exact ⟨_, (parseNote_cents htoken).trans (parseCents_decimal ((decimalToken_iff token neg whole frac).2 h))⟩
  · rw [parseNote_cents htoken] at h
    obtain ⟨neg, whole, frac, decimal⟩ := exists_decimalToken h
    obtain rfl := Option.some.inj ((parseCents_decimal decimal).symm.trans h)
    have finite := isFinite_of_parseCents h
    exact ⟨neg, whole, frac, (decimalToken_iff token neg whole frac).1 decimal, finite,
      decimalF32_nearest neg _ _ finite⟩

end Sys2Proof.Machine
end

section
/-! PROOFS. The arithmetic of the quantizer (46_quantizer.md R294, R304): which sums, products, quotients and remainders are
exact, and how near the others are to the exact value. -/

namespace Sys2Proof.Machine

/-! ### One rounding (R106) -/

/-- The exact value of a rounded magnitude, with its sign. -/
theorem intOf_roundTo (neg : Bool) (p q : Nat) :
    intOf (roundTo neg p q) = if neg then -(unitsOf (roundTo neg p q) : Int) else unitsOf (roundTo neg p q) := by
  have small := roundMag_le p q
  have sign : isNeg (roundTo neg p q) = neg := isNeg_mkF neg _ (by omega)
  rw [intOf, sign]

/-- Rounding does not pass a binary32 value from below. -/
theorem roundTo_le {B : F32} (hB : isFinite B = true) (neg : Bool) {p q : Nat} (hq : 0 < q) (h : p ≤ unitsOf B * q) :
    isFinite (roundTo neg p q) = true ∧ unitsOf (roundTo neg p q) ≤ unitsOf B := by
  have small := roundMag_le p q
  have mag : magOf (roundTo neg p q) = roundMag p q := magOf_mkF neg _ (by omega)
  have bound : roundMag p q ≤ magOf B := by
    rw [← roundMag_exact B q hq hB]
    exact roundMag_mono _ _ _ _ hq hq (Nat.mul_le_mul_right _ h)
  refine ⟨decide_eq_true ?_, unitsOf_mono _ B hB (mag ▸ bound)⟩
  have finite : magOf B < 0x7F800000 := of_decide_eq_true hB
  omega

/-- Rounding does not pass a binary32 value from above. -/
theorem le_roundTo {B : F32} (hB : isFinite B = true) {neg : Bool} {p q : Nat} (hq : 0 < q) (h : unitsOf B * q ≤ p)
    (hf : isFinite (roundTo neg p q) = true) : unitsOf B ≤ unitsOf (roundTo neg p q) := by
  have small := roundMag_le p q
  have mag : magOf (roundTo neg p q) = roundMag p q := magOf_mkF neg _ (by omega)
  refine unitsOf_mono B _ hf (mag ▸ ?_)
  rw [← roundMag_exact B q hq hB]
  exact roundMag_mono _ _ _ _ hq hq (Nat.mul_le_mul_right _ h)

/-- Below `2 ^ (k + 24)` units a rounding is off by at most `2 ^ k`. -/
theorem roundTo_near (neg : Bool) {p q k : Nat} (hq : 0 < q) (hk : k ≤ 252) (h : p < q * 2 ^ (k + 24)) :
    isFinite (roundTo neg p q) = true ∧ ((unitsOf (roundTo neg p q) * q : Nat) - (p : Int)).natAbs ≤ q * 2 ^ k := by
  obtain ⟨B, hB, top⟩ := exists_units (k + 1) (2 ^ 23) (by norm_num) (by omega)
  have finite : isFinite (roundTo neg p q) = true := by
    refine (roundTo_le hB neg hq ?_).1
    rw [top, ← pow_add, show 23 + (k + 1) = k + 24 by omega, Nat.mul_comm]
    exact h.le
  have grid : p / (q * 2 ^ k) < 2 ^ 24 := by
    rw [Nat.div_lt_iff_lt_mul (by positivity)]
    calc p < q * 2 ^ (k + 24) := h
      _ = 2 ^ 24 * (q * 2 ^ k) := by rw [pow_add]; ring
  obtain ⟨z, hz, below⟩ := exists_units k _ grid (by omega)
  have mag : roundMag p q < 0x7F800000 := by
    have small := roundMag_le p q
    rw [roundTo, isFinite, magOf_mkF _ _ (by omega)] at finite
    exact of_decide_eq_true finite
  obtain ⟨nearest, _⟩ := roundMag_nearest p q hq neg mag z hz
  refine ⟨finite, nearest.trans ?_⟩
  have split := Nat.div_add_mod p (q * 2 ^ k)
  have rest : p % (q * 2 ^ k) < q * 2 ^ k := Nat.mod_lt _ (by positivity)
  have product : unitsOf z * q = q * 2 ^ k * (p / (q * 2 ^ k)) := by rw [below]; ring
  omega

/-- The same of a signed number `x / q` of units. -/
theorem roundTo_near_signed {neg : Bool} {x : Int} {q k : Nat} (hneg : x ≠ 0 → neg = decide (x < 0)) (hq : 0 < q)
    (hk : k ≤ 252) (h : x.natAbs < q * 2 ^ (k + 24)) :
    isFinite (roundTo neg x.natAbs q) = true ∧ (intOf (roundTo neg x.natAbs q) * q - x).natAbs ≤ q * 2 ^ k := by
  obtain ⟨finite, near⟩ := roundTo_near neg hq hk h
  refine ⟨finite, ?_⟩
  rw [intOf_roundTo]
  generalize unitsOf (roundTo neg x.natAbs q) = u at near ⊢
  have product : (u : Int) * q = ((u * q : Nat) : Int) := by push_cast; rfl
  cases neg with
  | false =>
    have nonneg : 0 ≤ x := by
      by_contra hx
      exact absurd (hneg (by omega)) (by simpa using hx)
    simp only [Bool.false_eq_true, if_false, product]
    omega
  | true =>
    have nonpos : x ≤ 0 := by
      by_contra hx
      exact absurd (hneg (by omega)) (by simp; omega)
    simp only [if_true, Int.neg_mul, product]
    omega

/-! ### Sums and quotients (R106) -/

/-- R106: a sum of finite values, with the sign of an exact zero. -/
theorem fadd_finite_form (d : Draw) {a b : F32} (ha : isFinite a = true) (hb : isFinite b = true) :
    fadd d a b = roundTo (if intOf a + intOf b = 0 then isNeg a && isNeg b else decide (intOf a + intOf b < 0))
      (intOf a + intOf b).natAbs 1 := by
  simp only [fadd, isNaN_of_isFinite a ha, isNaN_of_isFinite b hb, isInf_of_isFinite a ha, isInf_of_isFinite b hb,
    Bool.or_self, Bool.false_eq_true, if_false]
  split
  · next zero => rw [zero]; rfl
  · rfl

/-- A sum below `2 ^ (k + 24)` units is off by at most `2 ^ k`. -/
theorem fadd_near (d : Draw) {a b : F32} {k : Nat} (ha : isFinite a = true) (hb : isFinite b = true) (hk : k ≤ 252)
    (h : (intOf a + intOf b).natAbs < 2 ^ (k + 24)) :
    isFinite (fadd d a b) = true ∧ (intOf (fadd d a b) - (intOf a + intOf b)).natAbs ≤ 2 ^ k := by
  rw [fadd_finite_form d ha hb]
  simpa using roundTo_near_signed (q := 1) (fun nonzero => if_neg nonzero) Nat.one_pos hk (by simpa using h)

/-- A difference below `2 ^ (k + 24)` units is off by at most `2 ^ k`. -/
theorem fsub_near (d : Draw) {a b : F32} {k : Nat} (ha : isFinite a = true) (hb : isFinite b = true) (hk : k ≤ 252)
    (h : (intOf a - intOf b).natAbs < 2 ^ (k + 24)) :
    isFinite (fsub d a b) = true ∧ (intOf (fsub d a b) - (intOf a - intOf b)).natAbs ≤ 2 ^ k := by
  have difference : intOf a + intOf (fneg b) = intOf a - intOf b := by rw [intOf_fneg, Int.sub_eq_add_neg]
  have hb' : isFinite (fneg b) = true := (isFinite_fneg b).trans hb
  rw [← difference] at h ⊢
  exact fadd_near d ha hb' hk h

theorem unitsOf_f1200 : unitsOf f1200 = 1200 * unitsPerOne := by decide

theorem intOf_f1200 : intOf f1200 = 1200 * (unitsPerOne : Int) := by decide

/-- The sign of a value other than zero. -/
theorem isNeg_eq_of_ne {v : F32} (h : intOf v ≠ 0) : isNeg v = decide (intOf v < 0) := by
  unfold intOf at h ⊢
  cases hn : isNeg v with
  | false => exact (decide_eq_false (by simp)).symm
  | true =>
    simp only [hn, if_true] at h ⊢
    exact (decide_eq_true (by omega)).symm

/-- R106: a finite value over 1200.0 is the rounding of a 1200th of its units. -/
theorem fdiv_octave (d : Draw) {a : F32} (ha : isFinite a = true) :
    fdiv d a f1200 = roundTo (isNeg a) (intOf a).natAbs 1200 := by
  have sign : isNeg f1200 = false := by decide
  rw [fdiv_finite_form d a f1200 ha (by decide) (by decide), sign, Bool.bne_false, natAbs_intOf, unitsOf_f1200,
    roundMag_scale _ _ _ (by norm_num) unitsPerOne_pos']
  rfl

/-- A quotient by 1200.0 below `2 ^ (k + 24)` units is off by at most `2 ^ k`. -/
theorem fdiv_octave_near (d : Draw) {a : F32} {k : Nat} (ha : isFinite a = true) (hk : k ≤ 252)
    (h : (intOf a).natAbs < 1200 * 2 ^ (k + 24)) :
    isFinite (fdiv d a f1200) = true ∧ (intOf (fdiv d a f1200) * 1200 - intOf a).natAbs ≤ 1200 * 2 ^ k := by
  rw [fdiv_octave d ha]
  exact roundTo_near_signed isNeg_eq_of_ne (by norm_num) hk h

/-! ### Whole numbers (00_scope.md R10) -/

/-- The sign of a converted integer. -/
theorem isNeg_toF32 (i : Int) : isNeg (toF32 i) = decide (i < 0) :=
  isNeg_mkF _ _ (lt_of_le_of_lt (roundMag_le _ _) (by norm_num))

/-- Integers up to 2^24 in magnitude convert exactly (R10). -/
theorem toF32_exact_int {i : Int} (h : i.natAbs ≤ 2 ^ 24) :
    isFinite (toF32 i) = true ∧ intOf (toF32 i) = i * (unitsPerOne : Int) := by
  obtain ⟨finite, value⟩ := toF32_exact i.natAbs h
  have mag : magOf (toF32 i) = magOf (toF32 i.natAbs) := by
    have small := roundMag_le (i.natAbs * unitsPerOne) 1
    rw [toF32, toF32, roundTo, roundTo, magOf_mkF _ _ (by omega), Int.natAbs_natCast, magOf_mkF _ _ (by omega)]
  have units : unitsOf (toF32 i) = i.natAbs * unitsPerOne := by
    have same : unitsOf (toF32 i) = unitsOf (toF32 i.natAbs) := by simp only [unitsOf, mag]
    rw [same, ← natAbs_intOf, value, Int.natAbs_mul, Int.natAbs_natCast, Int.natAbs_natCast]
  refine ⟨by rw [isFinite, mag]; exact finite, ?_⟩
  rw [intOf, isNeg_toF32, units]
  push_cast
  split
  · next neg => rw [abs_of_neg (of_decide_eq_true neg)]; ring
  · next neg => rw [abs_of_nonneg (by simpa using neg)]

theorem unitsOf_toF32 {i : Int} (h : i.natAbs ≤ 2 ^ 24) : unitsOf (toF32 i) = i.natAbs * unitsPerOne := by
  rw [← natAbs_intOf, (toF32_exact_int h).2, Int.natAbs_mul, Int.natAbs_natCast]

/-- A sum of finite values that is a whole number is that number, where not both are negative. -/
theorem fadd_eq_toF32 (d : Draw) {a b : F32} {i : Int} (ha : isFinite a = true) (hb : isFinite b = true)
    (hsign : (isNeg a && isNeg b) = false) (h : intOf a + intOf b = i * (unitsPerOne : Int)) : fadd d a b = toF32 i := by
  have zero : i * (unitsPerOne : Int) = 0 ↔ i = 0 := by simp [unitsPerOne]
  have neg : i * (unitsPerOne : Int) < 0 ↔ i < 0 := by rw [Int.mul_neg_iff]; simp [unitsPerOne]
  rw [fadd_finite_form d ha hb, h, hsign, toF32, Int.natAbs_mul, Int.natAbs_natCast]
  simp only [zero, neg]
  split
  · next e => rw [e]; rfl
  · rfl

/-- The octave's multiples are exact (R304). -/
theorem fmul_octave (d : Draw) {j : Int} (h : j.natAbs ≤ 2 ^ 24) : fmul d (toF32 j) f1200 = toF32 (1200 * j) := by
  obtain ⟨finite, _⟩ := toF32_exact_int h
  have sign : isNeg f1200 = false := by decide
  have neg : decide (1200 * j < 0) = decide (j < 0) := decide_eq_decide.2 (by omega)
  have units : unitsOf (toF32 j) * unitsOf f1200 = (1200 * j).natAbs * unitsPerOne * unitsPerOne := by
    rw [unitsOf_toF32 h, unitsOf_f1200, Int.natAbs_mul]
    ring
  simp only [fmul, isNaN_of_isFinite _ finite, isInf_of_isFinite _ finite, show isNaN f1200 = false by decide,
    show isInf f1200 = false by decide, Bool.or_self, Bool.false_eq_true, if_false, sign, Bool.bne_false, isNeg_toF32]
  rw [units, toF32, neg, roundTo, roundTo, ← roundMag_scale ((1200 * j).natAbs * unitsPerOne) 1 unitsPerOne
    Nat.one_pos unitsPerOne_pos', Nat.one_mul]

/-- A finite value stays finite when at most 128 octaves are added: they are far below half the last quantum. -/
theorem isFinite_octave_fadd (d : Draw) {j : Int} {e : F32} (hj : j.natAbs ≤ 128) (he : isFinite e = true) :
    isFinite (fadd d (toF32 (1200 * j)) e) = true := by
  obtain ⟨finite, value⟩ := toF32_exact_int (i := 1200 * j) (by omega)
  have absorbed : roundMag (153600 * unitsPerOne + unitsOf maxFinite) 1 = magOf maxFinite := by decide
  have sum : (intOf (toF32 (1200 * j)) + intOf e).natAbs ≤ 153600 * unitsPerOne + unitsOf maxFinite := by
    have entry := unitsOf_le_maxFinite he
    have octaves : (1200 * j).natAbs * unitsPerOne ≤ 153600 * unitsPerOne := Nat.mul_le_mul_right _ (by omega)
    calc (intOf (toF32 (1200 * j)) + intOf e).natAbs
        ≤ (intOf (toF32 (1200 * j))).natAbs + (intOf e).natAbs := Int.natAbs_add_le _ _
      _ = (1200 * j).natAbs * unitsPerOne + unitsOf e := by rw [natAbs_intOf, natAbs_intOf, unitsOf_toF32 (by omega)]
      _ ≤ 153600 * unitsPerOne + unitsOf maxFinite := Nat.add_le_add octaves entry
  have rounded := roundMag_mono _ 1 _ 1 Nat.one_pos Nat.one_pos (Nat.mul_le_mul_right 1 sum)
  rw [absorbed] at rounded
  have largest : magOf maxFinite < 0x7F800000 := by decide
  rw [fadd_finite_form d finite he, isFinite, roundTo, magOf_mkF _ _ (by omega)]
  exact decide_eq_true (by omega)

/-! ### The remainder (R294) -/

/-- The remainder of a 24-bit multiple of a power of two by the octave is another one. -/
theorem mod_octave_form (m e : Nat) (hm : m < 2 ^ 24) (he : e ≤ 253) :
    ∃ m' e', m' < 2 ^ 24 ∧ e' ≤ 253 ∧ m * 2 ^ e % (1200 * unitsPerOne) = m' * 2 ^ e' := by
  have octave : 1200 * unitsPerOne = 75 * 2 ^ 153 := by decide
  rw [octave]
  obtain low | high := Nat.le_total e 153
  · refine ⟨m % (75 * 2 ^ (153 - e)), e, (Nat.mod_le _ _).trans_lt hm, he, ?_⟩
    have : 75 * 2 ^ 153 = 75 * 2 ^ (153 - e) * 2 ^ e := by rw [Nat.mul_assoc, ← pow_add, Nat.sub_add_cancel low]
    rw [this, Nat.mul_mod_mul_right]
  · refine ⟨m * 2 ^ (e - 153) % 75, 153, (Nat.mod_lt _ (by norm_num)).trans (by norm_num), by norm_num, ?_⟩
    have : m * 2 ^ e = m * 2 ^ (e - 153) * 2 ^ 153 := by rw [Nat.mul_assoc, ← pow_add, Nat.sub_add_cancel high]
    rw [this, Nat.mul_mod_mul_right]

/-- R294: the remainder by 1200.0 is exact, with the sign of the dividend. -/
theorem fmodf_octave {a : F32} (ha : isFinite a = true) :
    isFinite (fmodf a f1200) = true ∧ unitsOf (fmodf a f1200) = unitsOf a % (1200 * unitsPerOne) ∧
      isNeg (fmodf a f1200) = isNeg a := by
  obtain ⟨m, e, hm, he, units⟩ := units_form a ha
  obtain ⟨m', e', hm', he', rest⟩ := mod_octave_form m e hm he
  rw [fmodf, unitsOf_f1200, units, rest]
  exact roundTo_exact (isNeg a) m' e' hm' he'

end Sys2Proof.Machine
end

section
/-! PROOFS. `TQ.QUANT` (46_quantizer.md R304 to R308): the octave and the remainder of every request, the finite answer, and
12-EDO, where the answer to a whole number of cents is the nearest hundred. -/

namespace Sys2Proof.Machine

/-! ### The clamped request -/

theorem quantClamp_eq (v : F32) : quantClamp v = fclamp v 0xC8160000 0x48160000 := by
  have lower : fsub noDraw f0 Config.quantCentsMax = 0xC8160000 := by decide
  rw [quantClamp, lower]
  rfl

/-- R304: every request is clamped to 128 octaves either way. -/
theorem quantClamp_range (v : F32) :
    isFinite (quantClamp v) = true ∧ (intOf (quantClamp v)).natAbs ≤ 153600 * unitsPerOne := by
  have low : intOf 0xC8160000 = -(153600 * unitsPerOne : Int) := by decide
  have high : intOf 0x48160000 = (153600 * unitsPerOne : Int) := by decide
  obtain ⟨hlo, hhi⟩ := fclamp_between v 0xC8160000 0x48160000 (by decide)
  rw [← quantClamp_eq] at hlo hhi
  have finite := isFinite_of_between _ _ _ (by decide) (by decide) hlo hhi
  have lower := (fle_iff_intOf _ _ (by decide) finite).1 hlo
  have upper := (fle_iff_intOf _ _ finite (by decide)).1 hhi
  rw [low] at lower
  rw [high] at upper
  exact ⟨finite, by omega⟩

/-- A whole number of cents inside the range is not clamped. -/
theorem quantClamp_toF32 {n : Int} (h : n.natAbs ≤ 153600) : quantClamp (toF32 n) = toF32 n := by
  have low : intOf 0xC8160000 = -153600 * (unitsPerOne : Int) := by decide
  have high : intOf 0x48160000 = 153600 * (unitsPerOne : Int) := by decide
  obtain ⟨finite, value⟩ := toF32_exact_int (i := n) (by omega)
  rw [quantClamp_eq]
  refine fclamp_id _ _ _ ((fle_iff_intOf _ _ (by decide) finite).2 ?_) ((fle_iff_intOf _ _ finite (by decide)).2 ?_)
  · rw [low, value]
    exact Int.mul_le_mul_of_nonneg_right (by omega) unitsPerOne_pos.le
  · rw [high, value]
    exact Int.mul_le_mul_of_nonneg_right (by omega) unitsPerOne_pos.le

/-! ### Octave and remainder (R304) -/

/-- The units of a request's remainder with the request's sign, an octave up: `r1 + 1200` of R304 before it is rounded. -/
def octaveUp (cC : F32) : Nat :=
  if isNeg cC then 1200 * unitsPerOne - unitsOf cC % (1200 * unitsPerOne)
  else 1200 * unitsPerOne + unitsOf cC % (1200 * unitsPerOne)

theorem octaveUp_range (cC : F32) : 0 < octaveUp cC ∧ octaveUp cC < 2400 * unitsPerOne := by
  have rest : unitsOf cC % (1200 * unitsPerOne) < 1200 * unitsPerOne := Nat.mod_lt _ (by simp [unitsPerOne])
  unfold octaveUp
  split <;> omega

/-- A request and its raised remainder differ by whole octaves. -/
theorem exists_octaves (cC : F32) : ∃ o : Int, intOf cC = 1200 * (unitsPerOne : Int) * o + octaveUp cC := by
  have split := Nat.div_add_mod (unitsOf cC) (1200 * unitsPerOne)
  have rest : unitsOf cC % (1200 * unitsPerOne) < 1200 * unitsPerOne := Nat.mod_lt _ (by simp [unitsPerOne])
  unfold octaveUp intOf
  generalize unitsOf cC / (1200 * unitsPerOne) = n at split
  generalize unitsOf cC % (1200 * unitsPerOne) = r at split rest
  rw [← split]
  cases isNeg cC with
  | false =>
    refine ⟨n - 1, ?_⟩
    simp only [Bool.false_eq_true, if_false]
    push_cast
    ring
  | true =>
    refine ⟨-n - 1, ?_⟩
    simp only [if_true]
    push_cast [rest.le]
    ring

/-- R304: `r1 +f 1200.0`. -/
theorem fadd_fmodf_octave (d : Draw) {cC : F32} (h : isFinite cC = true) :
    fadd d (fmodf cC f1200) f1200 = roundTo false (octaveUp cC) 1 := by
  obtain ⟨finite, units, sign⟩ := fmodf_octave h
  have rest : unitsOf cC % (1200 * unitsPerOne) < 1200 * unitsPerOne := Nat.mod_lt _ (by simp [unitsPerOne])
  have sum : intOf (fmodf cC f1200) + intOf f1200 = octaveUp cC := by
    rw [intOf_f1200, intOf, sign, units, octaveUp]
    split
    · push_cast [rest.le]; ring
    · push_cast; ring
  obtain ⟨positive, _⟩ := octaveUp_range cC
  rw [fadd_finite_form d finite (by decide), sum, if_neg (by omega), Int.natAbs_natCast, decide_eq_false (by omega)]

/-- Where the raised remainder is rounded to: near, and on the same side of each octave. -/
theorem octaveUp_rounded (cC : F32) :
    let S := unitsOf (roundTo false (octaveUp cC) 1)
    isFinite (roundTo false (octaveUp cC) 1) = true ∧ ((S : Int) - octaveUp cC).natAbs ≤ 2 ^ 137 ∧
      ∀ n ≤ 2, (octaveUp cC ≤ n * (1200 * unitsPerOne) → S ≤ n * (1200 * unitsPerOne)) ∧
        (n * (1200 * unitsPerOne) ≤ octaveUp cC → n * (1200 * unitsPerOne) ≤ S) := by
  intro S
  obtain ⟨_, below⟩ := octaveUp_range cC
  obtain ⟨finite, near⟩ := roundTo_near false (p := octaveUp cC) (q := 1) (k := 137) Nat.one_pos (by norm_num)
    (below.trans (by simp [unitsPerOne]))
  refine ⟨finite, by simpa [S] using near, fun n hn => ?_⟩
  have whole : isFinite (toF32 (1200 * n : Nat)) = true ∧ unitsOf (toF32 (1200 * n : Nat)) = n * (1200 * unitsPerOne) := by
    obtain ⟨hf, _⟩ := toF32_exact (1200 * n) (by omega)
    exact ⟨hf, by rw [unitsOf_toF32 (by omega), Int.natAbs_natCast]; ring⟩
  obtain ⟨hB, units⟩ := whole
  rw [← units]
  exact ⟨fun h => (roundTo_le hB false Nat.one_pos (by rwa [Nat.mul_one])).2,
    fun h => le_roundTo hB Nat.one_pos (by rwa [Nat.mul_one]) finite⟩

/-- R304: the in-octave remainder, exactly. -/
theorem quantRem_value (d : Draw) {cC : F32} (h : isFinite cC = true) :
    isFinite (quantRem d cC) = true ∧ isNeg (quantRem d cC) = false ∧
      intOf (quantRem d cC) = ((unitsOf (roundTo false (octaveUp cC) 1) % (1200 * unitsPerOne) : Nat) : Int) := by
  obtain ⟨finite, _, _⟩ := octaveUp_rounded cC
  obtain ⟨hf, units, sign⟩ := fmodf_octave finite
  have positive : isNeg (roundTo false (octaveUp cC) 1) = false :=
    isNeg_mkF false _ ((roundMag_le _ _).trans_lt (by norm_num))
  rw [positive] at sign
  rw [quantRem, fadd_fmodf_octave d h]
  exact ⟨hf, sign, by rw [intOf, sign, units]; rfl⟩

/-- `j` is the octave of the request `cC` with the remainder `rem`, up to one rounding; in the last one there is no
remainder. -/
structure OctaveOf (cC rem : F32) (j : Int) : Prop where
  bound : j.natAbs ≤ 128
  near : (intOf cC - intOf rem - 1200 * (unitsPerOne : Int) * j).natAbs ≤ 2 ^ 137
  last : j = 128 → intOf rem = 0

/-- R304: every request of the clamp range has an octave. The rounding of `r1 +f 1200.0` does not cross a multiple of 1200.0,
so the remainder and the octave stay on the request's side of it. -/
theorem exists_octaveOf (d : Draw) {cC : F32} (h : isFinite cC = true) (hr : (intOf cC).natAbs ≤ 153600 * unitsPerOne) :
    ∃ j, OctaveOf cC (quantRem d cC) j := by
  obtain ⟨o, request⟩ := exists_octaves cC
  obtain ⟨positive, below⟩ := octaveUp_range cC
  obtain ⟨_, near, sides⟩ := octaveUp_rounded cC
  obtain ⟨_, _, value⟩ := quantRem_value d h
  have zero := sides 0 (by norm_num)
  have one := sides 1 (by norm_num)
  have two := sides 2 (by norm_num)
  obtain ⟨i, r, split, rest, rem⟩ : ∃ i r : Nat, 1200 * unitsPerOne * i + r = unitsOf (roundTo false (octaveUp cC) 1) ∧
      r < 1200 * unitsPerOne ∧ intOf (quantRem d cC) = r :=
    ⟨_, _, Nat.div_add_mod _ _, Nat.mod_lt _ (by simp [unitsPerOne]), value⟩
  refine ⟨o + i, ?_, ?_, ?_⟩ <;> simp only [unitsPerOne] at * <;> omega

/-- R304: the rounded quotient gives the octave when the remainder is that near. -/
theorem quantOct_eq (d : Draw) {cC rem : F32} {j : Int} (hc : isFinite cC = true) (hr : isFinite rem = true)
    (h : OctaveOf cC rem j) : quantOct d cC rem = j := by
  obtain ⟨hj, h, _⟩ := h
  have half : intOf fHalf = 2 ^ 148 := by decide
  have units : (unitsPerOne : Int) = 2 ^ 149 := by simp [unitsPerOne]
  rw [units] at h
  obtain ⟨hD, nearD⟩ := fsub_near (d.at 2) (k := 143) hc hr (by norm_num) (by omega)
  obtain ⟨hQ, nearQ⟩ := fdiv_octave_near (d.at 1) (k := 133) hD (by norm_num) (by omega)
  obtain ⟨_, nearH⟩ := fadd_near (d.at 0) (b := fHalf) (k := 133) hQ (by decide) (by norm_num) (by rw [half]; omega)
  rw [half] at nearH
  rw [quantOct, roundI, floorI, units]
  omega

/-! ### The answer (R304, R308) -/

/-- The answer of R304 without the authority: the octave, and the nearest entry of the scale. -/
def quantFree (d : Draw) (tq : Tq) (v : F32) : F32 :=
  let rem := quantRem (d.at 0) (quantClamp v)
  fadd (d.at 1) (fmul (d.at 2) (toF32 (quantOct (d.at 3) (quantClamp v) rem)) f1200) (quantBest (d.at 4) tq rem)

theorem tqQuantize_free {tq : Tq} (h : tq.auth = false) (d : Draw) (v : F32) : tqQuantize d tq v = quantFree d tq v :=
  if_neg (h ▸ Bool.false_ne_true)

/-- R308: while the authority is connected it retunes the request. -/
theorem tqQuantize_tuned {tq : Tq} (h : tq.auth = true) (d : Draw) (v : F32) :
    tqQuantize d tq v = tqAuthority (d.at 5) (quantClamp v) (quantFree d tq v) := if_pos h

/-- R304: the octave of every request is found, and added exactly but for the last sum. -/
theorem quantFree_octave (d : Draw) (tq : Tq) (v : F32) :
    ∃ j, OctaveOf (quantClamp v) (quantRem (d.at 0) (quantClamp v)) j ∧
      quantFree d tq v = fadd (d.at 1) (toF32 (1200 * j)) (quantBest (d.at 4) tq (quantRem (d.at 0) (quantClamp v))) := by
  obtain ⟨finite, range⟩ := quantClamp_range v
  obtain ⟨j, hj⟩ := exists_octaveOf (d.at 0) finite range
  have octave := quantOct_eq (d.at 3) finite (quantRem_value (d.at 0) finite).1 hj
  have exact : j.natAbs ≤ 2 ^ 24 := hj.bound.trans (by norm_num)
  exact ⟨j, hj, by simp only [quantFree, octave, fmul_octave _ exact]⟩

theorem isFinite_entry {tq : Tq} (h : tq.scaleOk = true) {k : Nat} (hk : k < tq.scale.length) :
    isFinite (tq.scale.getD k f0) = true := by
  simp only [Tq.scaleOk, Bool.and_eq_true, decide_eq_true_eq] at h
  obtain ⟨⟨⟨⟨_, finite⟩, _⟩, _⟩, _⟩ := h
  rw [List.getD_eq_getElem _ _ hk]
  exact List.all_eq_true.1 finite _ (List.getElem_mem hk)

theorem len_of_scaleOk {tq : Tq} (h : tq.scaleOk = true) : tq.len = tq.scale.length := by
  simp only [Tq.scaleOk, Bool.and_eq_true, decide_eq_true_eq] at h
  obtain ⟨⟨⟨⟨⟨⟨⟨⟨len, _⟩, _⟩, _⟩, _⟩, _⟩, _⟩, _⟩, _⟩ := h
  exact len

/-- The places of the roundings of `TQ.QUANT` and of the authority's answer, in the order of R304 and R308. -/
def quantPlaces (d : Draw) : Nat → Draw :=
  placesOf [d.at 0, (d.at 3).at 0, (d.at 3).at 1, (d.at 3).at 2, noDraw, d.at 1, d.at 2, (d.at 5).at 0, (d.at 5).at 1,
    (d.at 5).at 3, (d.at 5).at 4, (d.at 5).at 2]

/-- Settles O53: the octave is bounded, so its sum with a finite entry is finite; the scan ends at the first nearest
entry. -/
theorem quantizerAnswerIsFinite : Obligations.QuantizerAnswerIsFinite := by
  intro s v hok
  have finiteRem := (quantRem_value (s.draw.at 0) (quantClamp_range v).1).1
  obtain ⟨k, ⟨hk, nearest, first⟩, best⟩ := quantBest_firstNearest (s.draw.at 4) s.tq _ finiteRem hok
  refine ⟨quantPlaces s.draw, k, tqQuantize s.draw s.tq v, ?_⟩
  intro entry cC rem oct dist q note retuned
  have request : quantClamp v = cC := quantClamp_eq v
  have finite : isFinite (quantFree s.draw s.tq v) = true := by
    obtain ⟨j, hj, answer⟩ := quantFree_octave s.draw s.tq v
    rw [answer, best]
    exact isFinite_octave_fadd _ hj.bound (isFinite_entry hok hk)
  rw [request] at best nearest first
  have answer : quantFree s.draw s.tq v = q := by
    simp only [quantFree, request, best]
    rfl
  rw [answer] at finite
  have free (hauth : s.tq.auth = false) : tqQuantize s.draw s.tq v = q := (tqQuantize_free hauth _ v).trans answer
  have tuned (hauth : s.tq.auth = true) : tqQuantize s.draw s.tq v = if isFinite retuned then retuned else q := by
    rw [tqQuantize_tuned hauth, request, answer]
    rfl
  rw [len_of_scaleOk hok]
  refine ⟨rfl, ?_, hk, nearest, first, free, tuned⟩
  cases hauth : s.tq.auth with
  | false => rw [free hauth]; exact finite
  | true => rw [tuned hauth]; exact guardF_isFinite retuned q finite

/-! ### 12-EDO (R306, R307) -/

/-- The quantizer holds 12-EDO, and the authority is not connected. -/
structure Tq.Free12Edo (tq : Tq) : Prop where
  len : tq.len = 13
  scale : tq.scale = scale12
  auth : tq.auth = false

theorem scale12_getD {k : Nat} (hk : k < 13) : scale12.getD k f0 = toF32 (100 * (k : Int)) := by
  simp [scale12, List.getD_eq_getElem?_getD, hk]

theorem scale12_length : scale12.length = 13 := by simp [scale12]

/-- R304: the scan of a 12-EDO scale, with any description. -/
theorem quantBest_edo (d : Draw) {tq : Tq} (h : tq.Free12Edo) {rem : F32} (hr : isFinite rem = true) :
    ∃ k, firstNearest rem scale12 k ∧ quantBest d tq rem = toF32 (100 * (k : Int)) := by
  have ok : Tq.reset.scaleOk = true :=
    tqInstall_scaleOk Tq.reset (tuningScale_scaleEntriesOk 0 (by decide)) (tuningDesc_length 0 (by decide)) (Nat.zero_le _)
  have len : Tq.reset.len = 13 := rfl
  have scale : Tq.reset.scale = scale12 := tuningScale_zero
  obtain ⟨k, nearest, best⟩ := quantBest_firstNearest d Tq.reset rem hr ok
  rw [scale] at nearest best
  have hk : k < 13 := scale12_length ▸ nearest.1
  refine ⟨k, nearest, ?_⟩
  rw [← scale12_getD hk, ← best, quantBest, quantBest, h.len, h.scale, len, scale]

/-- The exact distance of two whole numbers of cents. -/
theorem quantDist_cents (d : Draw) {rem : F32} {r e : Int} (hf : isFinite rem = true) (hs : isNeg rem = false)
    (hv : intOf rem = r * (unitsPerOne : Int)) (hr : r.natAbs ≤ 1200) (he : e.natAbs ≤ 1200) :
    isFinite (quantDist d rem (toF32 e)) = true ∧
      intOf (quantDist d rem (toF32 e)) = ((r - e).natAbs : Int) * (unitsPerOne : Int) := by
  obtain ⟨finite, value⟩ := toF32_exact_int (i := e) (by omega)
  obtain ⟨hd, _⟩ := toF32_exact_int (i := r - e) (by omega)
  have difference : fsub d rem (toF32 e) = toF32 (r - e) := by
    refine fadd_eq_toF32 d hf ((isFinite_fneg _).trans finite) (by rw [hs, Bool.false_and]) ?_
    rw [hv, intOf_fneg, value]
    ring
  have mag : magOf (fabs (toF32 (r - e))) = magOf (toF32 (r - e)) := magOf_mkF _ _ (magOf_lt _)
  have sign : isNeg (fabs (toF32 (r - e))) = false := isNeg_mkF _ _ (magOf_lt _)
  have units : unitsOf (fabs (toF32 (r - e))) = unitsOf (toF32 (r - e)) := by simp only [unitsOf, mag]
  rw [quantDist, difference]
  refine ⟨by rw [isFinite, mag]; exact hd, ?_⟩
  rw [intOf, sign, units, unitsOf_toF32 (by omega)]
  push_cast
  rfl

/-- R304: of whole cents the first nearest of the hundreds is taken, the lower one of a tie. -/
theorem nearest_hundred {rem : F32} {r : Int} {k : Nat} (hf : isFinite rem = true) (hs : isNeg rem = false)
    (hv : intOf rem = r * (unitsPerOne : Int)) (hr : 0 ≤ r ∧ r < 1200) (h : firstNearest rem scale12 k) :
    (k : Int) = (r + 49) / 100 := by
  have closer (i j : Nat) (hi : i < 13) (hj : j < 13) :
      flt (quantDist noDraw rem (scale12.getD i f0)) (quantDist noDraw rem (scale12.getD j f0)) = true ↔
        (r - 100 * i).natAbs < (r - 100 * j).natAbs := by
    obtain ⟨fi, vi⟩ := quantDist_cents noDraw (e := 100 * i) hf hs hv (by omega) (by omega)
    obtain ⟨fj, vj⟩ := quantDist_cents noDraw (e := 100 * j) hf hs hv (by omega) (by omega)
    rw [scale12_getD hi, scale12_getD hj, flt_iff_intOf _ _ fi fj, vi, vj,
      Int.mul_lt_mul_right unitsPerOne_pos, Int.ofNat_lt]
  obtain ⟨hk, nearest, first⟩ := h
  rw [scale12_length] at hk nearest
  obtain ⟨n, hn⟩ : ∃ n : Nat, (n : Int) = (r + 49) / 100 := ⟨((r + 49) / 100).toNat, by omega⟩
  have hn13 : n < 13 := by omega
  obtain lt | eq | gt := Nat.lt_trichotomy k n
  · have notNearer := nearest n hn13
    rw [Bool.eq_false_iff, ne_eq, closer n k hn13 hk] at notNearer
    omega
  · omega
  · have nearer := (closer k n hk hn13).1 (first n gt)
    omega

/-- R304: the answer of 12-EDO is the octave and the first nearest hundred. -/
theorem tqQuantize_edo (d : Draw) {tq : Tq} (h : tq.Free12Edo) (v : F32) :
    ∃ (j : Int) (k : Nat), OctaveOf (quantClamp v) (quantRem (d.at 0) (quantClamp v)) j ∧
      firstNearest (quantRem (d.at 0) (quantClamp v)) scale12 k ∧ tqQuantize d tq v = toF32 (1200 * j + 100 * k) := by
  obtain ⟨j, hj, answer⟩ := quantFree_octave d tq v
  obtain ⟨k, nearest, best⟩ := quantBest_edo (d.at 4) h (quantRem_value (d.at 0) (quantClamp_range v).1).1
  have hk : k < 13 := scale12_length ▸ nearest.1
  have bound := hj.bound
  obtain ⟨finiteOctave, valueOctave⟩ := toF32_exact_int (i := 1200 * j) (by omega)
  obtain ⟨finiteEntry, valueEntry⟩ := toF32_exact_int (i := 100 * (k : Int)) (by omega)
  have positive : isNeg (toF32 (100 * (k : Int))) = false := by
    rw [isNeg_toF32]
    exact decide_eq_false (by omega)
  refine ⟨j, k, hj, nearest, ?_⟩
  rw [tqQuantize_free h.auth, answer, best]
  refine fadd_eq_toF32 _ finiteOctave finiteEntry (by rw [positive, Bool.and_false]) ?_
  rw [valueOctave, valueEntry]
  ring

/-- The whole number of cents that 12-EDO answers to `n` cents: the nearest hundred, the lower one of a tie. -/
def snap (n : Int) : Int := 1200 * (n / 1200) + 100 * ((n % 1200 + 49) / 100)

/-- R307: the grid repeats with the octave. -/
theorem snap_octave (n : Int) : snap (n + 1200) = snap n + 1200 := by
  unfold snap
  omega

/-- R306: hundreds are answered by themselves. -/
theorem snap_hundred (m : Int) : snap (100 * m) = 100 * m := by
  unfold snap
  omega

theorem snap_bound {n : Int} (h : n.natAbs ≤ 153600) : (snap n).natAbs ≤ 153600 := by
  unfold snap
  omega

/-- R304: the remainder of a whole number of cents is exact. -/
theorem quantRem_toF32 (d : Draw) {n : Int} (h : n.natAbs ≤ 153600) :
    intOf (quantRem d (toF32 n)) = n % 1200 * (unitsPerOne : Int) := by
  obtain ⟨finite, _⟩ := toF32_exact_int (i := n) (by omega)
  obtain ⟨t, ht, cents⟩ : ∃ t : Nat, t < 2400 ∧ (t : Int) % 1200 = n % 1200 ∧
      octaveUp (toF32 n) = t * unitsPerOne := by
    have rest : n.natAbs * unitsPerOne % (1200 * unitsPerOne) = n.natAbs % 1200 * unitsPerOne := Nat.mul_mod_mul_right _ _ _
    rw [octaveUp, isNeg_toF32, unitsOf_toF32 (by omega), rest, ← Nat.sub_mul, ← Nat.add_mul]
    by_cases neg : n < 0
    · exact ⟨1200 - n.natAbs % 1200, by omega, by omega, by simp [neg]⟩
    · exact ⟨1200 + n.natAbs % 1200, by omega, by omega, by simp [neg]⟩
  obtain ⟨residue, raised⟩ := cents
  have exact : unitsOf (roundTo false (octaveUp (toF32 n)) 1) = t * unitsPerOne := by
    have whole : roundTo false (octaveUp (toF32 n)) 1 = toF32 (t : Int) := by
      rw [raised, toF32, decide_eq_false (by omega), Int.natAbs_natCast]
    rw [whole, unitsOf_toF32 (by omega), Int.natAbs_natCast]
  rw [(quantRem_value d finite).2.2, exact, Nat.mul_mod_mul_right, ← residue]
  push_cast
  rfl

/-- R304: 12-EDO answers a whole number of cents with the nearest hundred. -/
theorem tqQuantize_toF32 (d : Draw) {tq : Tq} (h : tq.Free12Edo) {n : Int} (hn : n.natAbs ≤ 153600) :
    tqQuantize d tq (toF32 n) = toF32 (snap n) := by
  obtain ⟨finite, value⟩ := toF32_exact_int (i := n) (by omega)
  obtain ⟨finiteRem, sign, _⟩ := quantRem_value (d.at 0) finite
  have rem := quantRem_toF32 (d.at 0) hn
  obtain ⟨j, k, ⟨_, near, _⟩, nearest, answer⟩ := tqQuantize_edo d h (toF32 n)
  rw [quantClamp_toF32 hn] at near nearest
  have octave : j = n / 1200 := by
    rw [value, rem] at near
    simp only [unitsPerOne] at near
    omega
  rw [answer, nearest_hundred finiteRem sign rem (by omega) nearest, octave, snap]

/-- R306: 12-EDO answers every request with a hundred inside the clamp range. -/
theorem tqQuantize_hundred (d : Draw) {tq : Tq} (h : tq.Free12Edo) (v : F32) :
    ∃ m : Int, m.natAbs ≤ 1536 ∧ tqQuantize d tq v = toF32 (100 * m) := by
  obtain ⟨finite, sign, _⟩ := quantRem_value (d.at 0) (quantClamp_range v).1
  obtain ⟨j, k, ⟨bound, _, last⟩, nearest, answer⟩ := tqQuantize_edo d h v
  have hk : k < 13 := scale12_length ▸ nearest.1
  have unison (hlast : j = 128) : (k : Int) = 0 :=
    nearest_hundred (r := 0) finite sign (by rw [last hlast, Int.zero_mul]) (by omega) nearest
  have hundreds : 1200 * j + 100 * (k : Int) = 100 * (12 * j + k) := by ring
  exact ⟨12 * j + k, by omega, by rw [answer, hundreds]⟩

/-- Settles O54: the first answer is a hundred, and hundreds are answered by themselves. -/
theorem quantizerIsIdempotentOn12Edo : Obligations.QuantizerIsIdempotentOn12Edo := by
  intro d d' tq v len scale auth
  have free : tq.Free12Edo := ⟨len, scale, auth⟩
  obtain ⟨m, hm, answer⟩ := tqQuantize_hundred d free v
  rw [answer, tqQuantize_toF32 d' free (by omega), snap_hundred]

/-- Settles O55: the grid of hundreds repeats with the octave, and the sum with an octave is exact. -/
theorem quantizerOctaveSymmetryOn12Edo : Obligations.QuantizerOctaveSymmetryOn12Edo := by
  intro d d' tq n len scale auth hlo hhi
  have free : tq.Free12Edo := ⟨len, scale, auth⟩
  have bound := snap_bound (n := n) (by omega)
  obtain ⟨finite, value⟩ := toF32_exact_int (i := snap n) (by omega)
  have octave : isNeg f1200 = false := by decide
  rw [tqQuantize_toF32 d' free (by omega), tqQuantize_toF32 d free (by omega), snap_octave]
  refine (fadd_eq_toF32 d' finite (by decide) (by rw [octave, Bool.and_false]) ?_).symm
  rw [value, intOf_f1200]
  ring

end Sys2Proof.Machine
end

section
/-! PROOFS. The router (47_router.md): its configure and reset by the units' own commands (R332, R333), its setters
(R334, R335), a frame channel by channel (R336 to R341), and that `RT.quantEn` is only a record (R344). -/

namespace Sys2Proof.Machine

/-! ### Configure and reset (R332, R333) -/

/-- R212: a tape configure reads and writes no delay line and no pitch shifter. -/
theorem State.tpConfigure_withUnits (s : State) (dl : Dl) (ps : Ps) (d : Draw) (v : F32) :
    { s with dl := dl, ps := ps }.tpConfigure d v = { s.tpConfigure d v with dl := dl, ps := ps } :=
  (apply_ite (fun t : State => ({ t with dl := dl, ps := ps } : State))
    (rateUnchanged s.tp.cfg s.tp.sr (clampRate v) = true) s (s.tpReallocate d (clampRate v))).symm

/-- R332: the units as their own configures leave them, and the router's registers cleared if one of them reallocated. -/
theorem State.rtConfigure_eq (s : State) (d : Draw) (v : F32) :
    s.rtConfigure d v =
      { s.tpConfigure (d.at 1) v with
        dl := dlConfigure (d.at 0) s.dl v, ps := psConfigure s.ps v,
        rt := if s.rtReallocates v then rtClear s.rt else s.rt } := by
  have units : s.rtConfigureUnits d v = { s.tpConfigure (d.at 1) v with
      dl := dlConfigure (d.at 0) s.dl v, ps := psConfigure s.ps v } := s.tpConfigure_withUnits _ _ _ v
  have registers := s.tpConfigure_rt (d.at 1) v
  unfold State.rtConfigure
  rw [units]
  cases s.rtReallocates v with
  | true => simp only [if_true, registers]
  | false => simp only [Bool.false_eq_true, if_false, ← registers]

/-- R332: no unit reallocates when all three are at the clamped rate already. -/
theorem State.ite_rtReallocates {α : Type} (s : State) (v : F32) (a b : α) :
    (if s.rtReallocates v then a else b) =
      if rateUnchanged s.dl.cfg s.dl.sr (clampRate v) && rateUnchanged s.ps.cfg s.ps.sr (clampRate v) &&
        rateUnchanged s.tp.cfg s.tp.sr (clampRate v) then b else a := by
  simp only [State.rtReallocates, Bool.not_eq_true', Bool.eq_false_iff, ne_eq, ite_not]

/-- Settles O58: each unit as its own configure leaves it, and each as its own reset does. -/
theorem routerConfigureAndReset : Obligations.RouterConfigureAndReset := by
  intro s v same
  refine ⟨⟨_, next_retire (s.rtConfigure_eq s.draw v), ?_⟩, ⟨_, _, _, rfl, rfl, rfl, rfl⟩⟩
  exact ⟨congrArg (· + 1) (s.tpConfigure_cix _ v), s.tpConfigure_status _ v, s.tpConfigure_cmd _ v,
    s.tpConfigure_rsp _ v, s.tpConfigure_tq _ v, ⟨_, rfl⟩, rfl, ⟨_, rfl, rfl, rfl⟩, s.ite_rtReallocates v _ _⟩

/-! ### Setters (R334, R335) -/

/-- R335: the enable of `RT.SETPITCH`, as its word gives it. -/
theorem selEnable_ite (on : Bool) : selEnable (if on then 1 else 0) = some on := by cases on <;> rfl

/-- Settles O59: the enable selects the quantizer, and the pitch is stored as `PS.SETPITCH` stores it. -/
theorem routerSetters : Obligations.RouterSetters := fun s on _ =>
  ⟨rfl, placesOf [s.draw.at 0, s.draw.at 1], _, next_withSel (selEnable_ite on) s _, rfl⟩

/-! ### A frame (R336 to R341) -/

/-- Where channel `c` of a frame takes its draws. -/
def State.frameDraw (s : State) : Chan → Draw
  | .ch0 => s.draw.at 0
  | .ch1 => s.draw.at 1

/-- R336: channel `c` of a frame on the inputs `x`, from the state before the frame. -/
def State.frameStep (s : State) (x : PerCh F32) (c : Chan) : ChanState × F32 := s.chanStep (s.frameDraw c) c (x.get c)

/-- The state with both channels of a frame written. -/
def State.frameUnits (s : State) (x : PerCh F32) : State :=
  (s.setChan .ch0 (s.frameStep x .ch0).1).setChan .ch1 (s.frameStep x .ch1).1

/-- R336: the answers of a frame. -/
def State.frameAnswer (s : State) (x : PerCh F32) : PerCh F32 := ⟨(s.frameStep x .ch0).2, (s.frameStep x .ch1).2⟩

/-- R336, R340: a frame is both channels from the state before it, and then its end. -/
theorem State.rtRun_eq (s : State) (x : PerCh F32) :
    s.rtRun x.c0 x.c1 =
      ((s.frameUnits x).rtFinish (s.draw.at 2)).respond [(s.frameAnswer x).c0, (s.frameAnswer x).c1] := by
  have second (k : ChanState) :
      (s.setChan .ch0 k).chanStep (s.draw.at 1) .ch1 x.c1 = s.chanStep (s.draw.at 1) .ch1 x.c1 :=
    State.chanStep_setChan_other _ _ (by decide) s k
  unfold State.rtRun
  simp only [State.rtChannel_eq_setChan, second]
  rfl

/-- R336: a frame on a configured block runs. -/
theorem exec_rtFrame {s : State} (h : s.Running) (x0 x1 : F32) :
    exec (.rtFrame x0 x1) s = .next (s.rtRun x0 x1).retire := by
  show Host.Outcome.next (s.whenConfigured (s.dl.cfg && s.ps.cfg && s.tp.cfg) _) = _
  rw [h.dl, h.ps, h.tp]
  rfl

/-- R336: the pitch shifter and the delay line of a channel are what its part of the frame left. -/
theorem State.frameUnits_get (s : State) (x : PerCh F32) (c : Chan) :
    (s.frameUnits x).ps.ch.get c = (s.frameStep x c).1.ps ∧ (s.frameUnits x).dl.ch.get c = (s.frameStep x c).1.dl := by
  cases c <;> exact ⟨rfl, rfl⟩

/-- R336: the answer of a channel and its tape path are those of its part of the frame. -/
theorem State.frameTape_get {s : State} {x : PerCh F32} {c : Chan} {p : TpPath} {y : F32}
    (h : (s.frameStep x c).1.tp = p ∧ (s.frameStep x c).2 = y) :
    (s.frameAnswer x).get c = y ∧ (s.frameUnits x).tp.ch.get c = p.ch ∧ (s.frameUnits x).bqh.get c = p.hist := by
  obtain ⟨rfl, rfl⟩ := h
  cases c <;> exact ⟨rfl, rfl, rfl⟩

/-- R340: the history after a frame, channel by channel. -/
theorem rtHistory_get (dl : Dl) (c : Chan) : (rtHistory dl).get c = guardF (dl.ch.get c).delayed f0 := by
  cases c <;> rfl

theorem tpPathStep_off {tp : Tp} (h : tp.mode = false) (d : Draw) (bq : Four BqParams) (c : Chan) (p : TpPath)
    (x : F32) : tpPathStep d tp bq c p x = (p, x) := if_neg (h ▸ Bool.false_ne_true)

theorem tpPathStep_on {tp : Tp} (h : tp.mode = true) (d : Draw) (bq : Four BqParams) (c : Chan) (p : TpPath)
    (x : F32) : tpPathStep d tp bq c p x = tpProcess d tp bq c p x := if_pos h

/-- R250, R252: the tape's part of a channel keeps a finite signal finite, by the mode or by the limiter. -/
theorem tpPathStep_isFinite (d : Draw) (tp : Tp) (bq : Four BqParams) (c : Chan) (p : TpPath) {x : F32}
    (h : isFinite x = true) : isFinite (tpPathStep d tp bq c p x).2 = true := by
  cases hm : tp.mode with
  | false => rw [tpPathStep_off hm]; exact h
  | true => rw [tpPathStep_on hm]; exact (tpProcess_range d tp bq c p x).1

/-- R338: whatever comes in, a channel of a frame answers a finite value. -/
theorem State.chanStep_isFinite (s : State) (d : Draw) (c : Chan) (x : F32) : isFinite (s.chanStep d c x).2 = true := by
  have input : isFinite (guardF x f0) = true := guardF_isFinite x f0 (by decide)
  exact tpPathStep_isFinite _ _ _ _ _ (guardF_isFinite _ _ (guardF_isFinite _ _ input))

/-- R130: the delay line's sample with the tap's two cells as the rule names them, and the draw of each rounding. -/
theorem dlProcess_eq (e : Draw) (dl : Dl) (line : DlChan) (x xfb : F32) :
    dlProcess e dl line x xfb =
      let A := line.buf.read ((((line.w : Int) - dl.dInt) % (dl.N : Int)).toNat)
      let B := line.buf.read ((((line.w : Int) - dl.dInt - 1) % (dl.N : Int)).toNat)
      let delayed :=
        fadd (e.at 0) (fmul ((e.at 0).at 0) A (fsub ((e.at 0).at 1) f1 dl.dFrac)) (fmul ((e.at 0).at 2) B dl.dFrac)
      let fbs := fadd (e.at 1) (fmul (e.at 2) dl.fb delayed) xfb
      (⟨line.buf.write line.w (fadd (e.at 3) x fbs), (line.w + 1) % dl.N, delayed⟩,
        fadd (e.at 4) (fmul (e.at 5) x (fsub (e.at 6) f1 dl.mix)) (fmul (e.at 7) delayed dl.mix)) := by
  simp only [← ringIdx_succ]
  rfl

/-- The roundings of a channel's delay stage (R336): those of R130, and the product of the cross-feedback. -/
def delayPlaces (d : Draw) : Nat → Draw :=
  let e := d.at 2
  placesOf [e.at 0, (e.at 0).at 0, (e.at 0).at 1, (e.at 0).at 2, d.at 1, e.at 1, e.at 2, e.at 4, e.at 5, e.at 6, e.at 7,
    e.at 3]

/-- R336, R338: what a channel of a frame leaves and answers, by the units' own procedures. -/
theorem State.chanStep_spec (s : State) (d : Draw) (c : Chan) (x : F32) :
    let r := s.chanStep d c x
    let xin := guardF x f0
    let pr := psProcess (d.at 0) s.ps (s.ps.ch.get c) xin
    let p := guardF pr.2 xin
    let xfb := fmul (d.at 1) s.rt.xfbAmt (s.rt.prevDelayed.get (otherChan c))
    let dr := dlProcess (d.at 2) s.dl (s.dl.ch.get c) p xfb
    let dv := guardF dr.2 p
    let tr := tpProcess (d.at 3) s.tp s.bq c (s.tpPath c) dv
    r.1.ps = pr.1 ∧ r.1.dl = dr.1 ∧ (s.tp.mode = false → r.1.tp = s.tpPath c ∧ r.2 = dv) ∧
      (s.tp.mode = true → r.1.tp = tr.1 ∧ r.2 = tr.2) :=
  ⟨rfl, rfl, fun hm => Prod.ext_iff.1 (tpPathStep_off hm (d.at 3) s.bq c (s.tpPath c) _),
    fun hm => Prod.ext_iff.1 (tpPathStep_on hm (d.at 3) s.bq c (s.tpPath c) _)⟩

/-- R341: the poll is counted, and the count starts again when it is due. -/
theorem State.rtFinish_pollCnt (s : State) (d : Draw) :
    (s.rtFinish d).rt.pollCnt = if s.rt.pollCnt + 1 = 64 then 0 else s.rt.pollCnt + 1 := by
  simp only [State.rtFinish, decide_eq_true_eq]
  rfl

/-- R341: the authority is asked when the poll is due, and only then. -/
theorem State.rtFinish_auth (s : State) (d : Draw) :
    (s.rtFinish d).tq.auth =
      if s.rt.pollCnt + 1 = 64 then Config.authConnected d.step d.path else s.tq.auth := by
  simp only [State.rtFinish, decide_eq_true_eq]
  rfl

/-- Settles O60: both channels from the state before the frame, then the frame's end. -/
theorem routerFrame : Obligations.RouterFrame := by
  intro s x hdl hps htp
  have step := exec_rtFrame ⟨hdl, hps, htp⟩ x.c0 x.c1
  have poll := (s.frameUnits x).rtFinish_pollCnt (s.draw.at 2)
  have auth := (s.frameUnits x).rtFinish_auth (s.draw.at 2)
  rw [s.rtRun_eq x] at step
  refine ⟨_, s.frameAnswer x, step, rfl, s.chanStep_isFinite _ _ _, s.chanStep_isFinite _ _ _, rfl, fun c => ?_,
    rtHistory_get _, poll, fun h => auth.trans (if_neg h), fun h => ⟨_, _, auth.trans (if_pos h)⟩⟩
  let d := s.frameDraw c
  obtain ⟨ps, dl⟩ := s.frameUnits_get x c
  obtain ⟨pitch, delay, off, on⟩ := s.chanStep_spec d c (x.get c)
  rw [dlProcess_eq] at delay off on
  exact ⟨d.at 0, d.at 3, delayPlaces d, ps.trans pitch, dl.trans delay, fun hm => State.frameTape_get (off hm),
    fun hm => State.frameTape_get (on hm)⟩

/-! ### `RT.quantEn` is never read (R335, R344) -/

/-- The state with another choice recorded in `RT.quantEn`. -/
def State.withQuantEn (s : State) (b : Bool) : State := { s with rt := { s.rt with quantEn := b } }

section
variable (s : State) (b : Bool)

theorem withQuantEn_raise (c : Cause) : (s.raise c).withQuantEn b = (s.withQuantEn b).raise c :=
  apply_ite (State.withQuantEn · b) (s.faulted = true) s { s with status := statusWord c s.cix }

theorem withQuantEn_tpConfigure (d : Draw) (v : F32) :
    (s.tpConfigure d v).withQuantEn b = (s.withQuantEn b).tpConfigure d v :=
  apply_ite (State.withQuantEn · b) (rateUnchanged s.tp.cfg s.tp.sr (clampRate v) = true) s
    (s.tpReallocate d (clampRate v))

variable {s b}

theorem withQuantEn_whenConfigured (cfg : Bool) {body body' : State} (h : body.withQuantEn b = body') :
    (s.whenConfigured cfg body).withQuantEn b = (s.withQuantEn b).whenConfigured cfg body' := by
  cases cfg with
  | true => exact congrArg State.retire h
  | false => exact withQuantEn_raise s b .notConfigured

theorem withQuantEn_withSel {α : Type} (sel : Option α) {body body' : α → State}
    (h : ∀ v, (body v).withQuantEn b = body' v) :
    (s.withSel sel body).withQuantEn b = (s.withQuantEn b).withSel sel body' := by
  cases sel with
  | some v => exact h v
  | none => exact withQuantEn_raise s b .badSel

variable (s b)

theorem withQuantEn_tpRun (c : Chan) (x : F32) : (s.tpRun c x).withQuantEn b = (s.withQuantEn b).tpRun c x := by
  simp only [State.tpRun, State.tpThrough_eq]
  rfl

/-- R332: whether the router clears its registers depends on the units' rates alone. -/
theorem withQuantEn_rtConfigure (d : Draw) (v : F32) :
    (s.rtConfigure d v).withQuantEn b = (s.withQuantEn b).rtConfigure d v := by
  rw [State.rtConfigure_eq, State.rtConfigure_eq, ← withQuantEn_tpConfigure]
  show _ = ({ s.tpConfigure (d.at 1) v with rt := if s.rtReallocates v then _ else _, dl := _, ps := _ } : State)
  cases s.rtReallocates v <;> rfl

/-- R335: `RT.SETPITCH` records its own choice, or raises. -/
theorem withQuantEn_rtSetPitch (sel : Option Bool) (v : F32) :
    ∃ b', ((s.withQuantEn b).withSel sel fun on => ((s.withQuantEn b).rtSetPitch on v).retire) =
      (s.withSel sel fun on => (s.rtSetPitch on v).retire).withQuantEn b' := by
  cases sel with
  | some on => exact ⟨on, rfl⟩
  | none => exact ⟨b, (withQuantEn_raise s b .badSel).symm⟩

/-- R336: of the router's registers a frame reads the amount, the history and the poll counter. -/
theorem withQuantEn_rtRun (x0 x1 : F32) : (s.rtRun x0 x1).withQuantEn b = (s.withQuantEn b).rtRun x0 x1 :=
  (congrArg (State.withQuantEn · b) (s.rtRun_eq ⟨x0, x1⟩)).trans ((s.withQuantEn b).rtRun_eq ⟨x0, x1⟩).symm

end

/-- A command does the same whatever `RT.quantEn` holds; `RT.SETPITCH` overwrites it. -/
theorem exec_withQuantEn {i : Instr} {s t : State} (b : Bool) (h : exec i s = .next t) :
    ∃ b', exec i (s.withQuantEn b) = .next (t.withQuantEn b') := by
  cases i <;> obtain rfl := Host.Outcome.next.inj h
  case rtSetpitch e v =>
    obtain ⟨b', h⟩ := withQuantEn_rtSetPitch s b (selEnable e) v
    exact ⟨b', congrArg Host.Outcome.next h⟩
  all_goals refine ⟨b, (congrArg Host.Outcome.next ?_).symm⟩
  case sysNop | sysStat | dlCfg | dlRst | dlSetdelay | dlSetfb | dlSetmix | psCfg | psRst | psSetpitch | psSetdrift
    | tpRst | tpSetsat | tpSetage | tpSetinst | tqSetdef | tqSclclr | tqSclb | tqQuant | tqLoad | tqGetdesc | rtRst
    | rtSetxfb => rfl
  case dlProc | dlProcXfb | dlGetd | dlGetw | psProc | tpSethb | tpSetroll => exact withQuantEn_whenConfigured _ rfl
  case bqRst | tpSetmode | tpSetwf | tpSetheads | tpSetnoise | tqSettuning => exact withQuantEn_withSel _ fun _ => rfl
  case bqSetlp | bqSetpk | bqSeths | bqProc => exact withQuantEn_withSel _ fun _ => withQuantEn_whenConfigured _ rfl
  case tpCfg v => exact congrArg State.retire (withQuantEn_tpConfigure s b s.draw v)
  case tpProc c x => exact withQuantEn_whenConfigured _ (withQuantEn_tpRun s b c x)
  case rtCfg v => exact congrArg State.retire (withQuantEn_rtConfigure s b s.draw v)
  case rtFrame x0 x1 => exact withQuantEn_whenConfigured _ (withQuantEn_rtRun s b x0 x1)

/-- Settles O28: only `RT.SETPITCH` writes the register, and it reads its own operand. -/
theorem quantEnableNeverRead : Obligations.QuantEnableNeverRead := fun _ _ _ b h => exec_withQuantEn b h

end Sys2Proof.Machine
end

section
/-! PROOFS. Faults (60_exceptions.md R351 to R359): what `STATUS` records, that a step leaves it alone or is a precise raise,
which commands raise, and what a halted block and a block with words missing do. -/

namespace Sys2Proof.Machine

/-! ### The word a raise records (R23, R351, R352) -/

theorem causeCode_range (c : Cause) : 1 ≤ causeCode c ∧ causeCode c ≤ 5 := by cases c <;> decide

/-- The three fields of the word do not overlap. -/
theorem statusWord_toNat (c : Cause) (cix : Nat) :
    (statusWord c cix).toNat = cix % 2 ^ 24 * 2 ^ 8 + causeCode c * 2 ^ 4 + 1 := by
  obtain ⟨_, hi⟩ := causeCode_range c
  rw [statusWord, BitVec.toNat_ofNat]
  omega

/-- Bits 3:1. -/
theorem statusWord_unused (c : Cause) (cix : Nat) : (statusWord c cix).toNat / 2 % 8 = 0 := by
  rw [statusWord_toNat]
  omega

/-- `CAUSE`. -/
theorem statusWord_cause (c : Cause) (cix : Nat) : (statusWord c cix).toNat / 2 ^ 4 % 2 ^ 4 = causeCode c := by
  obtain ⟨_, hi⟩ := causeCode_range c
  rw [statusWord_toNat]
  omega

/-- `FCIX`. -/
theorem statusWord_fcix (c : Cause) (cix : Nat) : (statusWord c cix).toNat / 2 ^ 8 = cix % 2 ^ 24 := by
  obtain ⟨_, hi⟩ := causeCode_range c
  rw [statusWord_toNat]
  omega

/-- `FAULTED` is a question of `STATUS` alone. -/
theorem State.faulted_congr {s t : State} (h : t.status = s.status) : t.faulted = s.faulted := by
  rw [State.faulted, h, State.faulted]

/-- Legality is a question of `STATUS` alone. -/
theorem State.statusOk_congr {s t : State} (h : t.status = s.status) : t.statusOk = s.statusOk := by
  rw [State.statusOk, State.statusOk, State.faulted_congr h, State.cause, State.cause, h]

/-- The word a raise records is a legal `STATUS`. -/
theorem State.statusOk_recorded {t : State} {c : Cause} {cix : Nat} (h : t.status = statusWord c cix) :
    t.statusOk = true := by
  obtain ⟨lo, hi⟩ := causeCode_range c
  have halted : t.faulted = true := by rw [State.faulted, h]; exact decide_eq_true (statusWord_odd c cix)
  have cause : t.cause = causeCode c := by rw [State.cause, h, statusWord_cause]
  have unused : t.status.toNat / 2 % 8 = 0 := by rw [h, statusWord_unused]
  simp [State.statusOk, halted, cause, unused, lo, hi]

/-! ### A step leaves `STATUS` alone or is a raise (R352) -/

/-- A command leaves `STATUS` alone, or raising is all it does. -/
theorem exec_status {i : Instr} {s t : State} (h : exec i s = .next t) :
    t.status = s.status ∨ ∃ c, t = s.raise c := by
  cases exec_ends i s t h with
  | raised c => exact .inr ⟨c, rfl⟩
  | silent he => exact .inl he.sameStreams.status
  | answered he ys => exact .inl he.sameStreams.status

/-- A step leaves `STATUS` alone, or it is the raise of a running block: it consumes words, records the cause and `cix`, and
changes nothing else. -/
theorem step_status {s t : State} (h : step s = .next t) :
    t.status = s.status ∨
      ∃ c used, s.faulted = false ∧ used ≠ [] ∧ s.cmd = used ++ t.cmd ∧
        t = { s with cmd := t.cmd, status := statusWord c s.cix } := by
  obtain ⟨rest, _, rfl⟩ | ⟨_, w, rest, _, _, rfl⟩ | ⟨running, w, rest, c, _, hc, _, rfl⟩ | ⟨running, i, rest, hd, he⟩ :=
    step_cases s t h
  · exact .inl rfl
  · exact .inl rfl
  · exact .inr ⟨c, [w], running, List.cons_ne_nil _ _, hc, rfl⟩
  · obtain kept | ⟨c, rfl⟩ := exec_status he
    · exact .inl kept
    · obtain ⟨used, nonempty, consumed⟩ := decode_ok_consumes hd
      rw [State.raise_running { s with cmd := rest } c running]
      exact .inr ⟨c, used, running, nonempty, consumed, rfl⟩

/-- Settles O12: a step leaves `STATUS` alone or is a raise, and the word of a raise is legal. -/
theorem faultsArePrecise : Obligations.FaultsArePrecise := by
  intro s t h
  refine ⟨step_status h, fun legal => ?_⟩
  obtain kept | ⟨c, used, -, -, -, raised⟩ := step_status h
  · rw [State.statusOk_congr kept, legal]
  · exact State.statusOk_recorded (congrArg State.status raised)

/-- Settles O11: a step leaves `STATUS` alone, or the block is halted after it. -/
theorem onlyPowerOnRecovers : Obligations.OnlyPowerOnRecovers := by
  refine ⟨fun s t halted h => ?_, rfl⟩
  obtain ⟨-, -, ⟨-, kept⟩ | ⟨-, halted', -⟩⟩ := step_streams h
  · rw [State.faulted_congr kept, halted]
  · exact halted'

/-! ### Malformed headers and halted blocks (R351, R353) -/

/-- The header of `SYS.STAT` is not malformed. -/
theorem ne_statWord_of_bad {w : Word} {rest : List Word} {c : Cause} (h : decode (w :: rest) = .bad c) : w ≠ statWord := by
  rintro rfl
  cases (decode_statWord rest).symm.trans h

/-- Settles O6: the raise of a malformed header, and the fields of the word it records. -/
theorem malformedHeaderFaults : Obligations.MalformedHeaderFaults := by
  intro s w rest c running hcmd bad
  have raised := step_malformed hcmd (ne_statWord_of_bad bad) running (hcmd ▸ bad)
  refine ⟨statusWord c s.cix, raised, statusWord_odd c _, statusWord_unused c _, statusWord_fcix c _, ?_⟩
  rw [statusWord_cause]
  cases c <;> rfl

/-- Settles O10: every word but the header of `SYS.STAT` is ignored. -/
theorem haltedBlockIgnoresWords : Obligations.HaltedBlockIgnoresWords := by
  intro s w rest halted hcmd
  refine ⟨fun other => step_halted hcmd other halted, ?_⟩
  rintro rfl
  exact step_stat hcmd

/-! ### Which commands raise (R86, R88, R357) -/

theorem selEnable_of_le {e : Nat} (h : e ≤ 1) : ∃ on, selEnable e = some on :=
  match e, h with
  | 0, _ => ⟨false, rfl⟩
  | 1, _ => ⟨true, rfl⟩

theorem selWaveform_of_le {i : Nat} (h : i ≤ 2) : ∃ w, selWaveform i = some w :=
  match i, h with
  | 0, _ => ⟨.sine, rfl⟩
  | 1, _ => ⟨.triangle, rfl⟩
  | 2, _ => ⟨.randomWalk, rfl⟩

theorem State.rtConfigure_cix (s : State) (d : Draw) (v : F32) : (s.rtConfigure d v).cix = s.cix :=
  (Effects.rtConfigure s d v).sameStreams.cix

theorem State.rtChannel_cix (s : State) (d : Draw) (c : Chan) (x : F32) : (s.rtChannel d c x).1.cix = s.cix :=
  (Effects.rtChannel s d c x).sameStreams.cix

theorem State.rtRun_cix (s : State) (x0 x1 : F32) : (s.rtRun x0 x1).cix = s.cix :=
  (State.rtChannel_cix _ _ .ch1 x1).trans (State.rtChannel_cix s _ .ch0 x0)

/-- R88: a well-formed command asks for its units, and then runs a body that does not count commands; its selector is legal,
so it cannot be refused for that. -/
theorem exec_whenReady {i : Instr} (s : State) (hw : i.wellFormed = true) :
    ∃ body, exec i s = .next (s.whenConfigured (s.ready i) body) ∧ body.cix = s.cix := by
  cases i
  case sysNop | sysStat | dlCfg | dlRst | dlSetdelay | dlSetfb | dlSetmix | dlProc | dlProcXfb | dlGetd | dlGetw | psCfg
    | psRst | psSetpitch | psSetdrift | psProc | tpRst | tpSetsat | tpSethb | tpSetroll | tpSetage | tpSetinst | tqSetdef
    | tqSclclr | tqSclb | tqQuant | tqLoad | tqGetdesc | rtRst | rtSetxfb => exact ⟨_, rfl, rfl⟩
  case bqRst | bqSetlp | bqSetpk | bqSeths | bqProc | tpSetheads =>
    obtain ⟨k, legal, -⟩ := selFour_of_le _ (of_decide_eq_true hw)
    exact ⟨_, next_withSel legal s _, rfl⟩
  case tpSetmode | tpSetnoise | rtSetpitch =>
    obtain ⟨on, legal⟩ := selEnable_of_le (of_decide_eq_true hw)
    exact ⟨_, next_withSel legal s _, rfl⟩
  case tpSetwf =>
    obtain ⟨hwow, hflut⟩ := Bool.and_eq_true_iff.1 hw
    obtain ⟨wow, legalWow⟩ := selWaveform_of_le (of_decide_eq_true hwow)
    obtain ⟨flut, legalFlut⟩ := selWaveform_of_le (of_decide_eq_true hflut)
    exact ⟨_, next_withSel (selWaveforms_some legalWow legalFlut) s _, rfl⟩
  case tqSettuning => exact ⟨_, next_withSel (selTuning_of_le (of_decide_eq_true hw)) s _, rfl⟩
  case tpCfg v => exact ⟨_, rfl, s.tpConfigure_cix s.draw v⟩
  case tpProc c x => exact ⟨_, rfl, s.tpThrough_cix s.draw c x⟩
  case rtCfg v => exact ⟨_, rfl, s.rtConfigure_cix s.draw v⟩
  case rtFrame x0 x1 => exact ⟨_, rfl, s.rtRun_cix x0 x1⟩

/-- Settles O7: without its units a well-formed command raises `NOT_CONFIGURED`. -/
theorem unconfiguredCommandsFault : Obligations.UnconfiguredCommandsFault := by
  intro s i hw running unready
  obtain ⟨body, runs, -⟩ := exec_whenReady s hw
  rw [runs, unready, State.whenConfigured_false, State.raise_running s _ running]
  rfl

/-- Settles O8: with its units a well-formed command counts itself, so it raised nothing. -/
theorem configuredCommandsExecute : Obligations.ConfiguredCommandsExecute := by
  intro s i hw ready
  obtain ⟨body, runs, uncounted⟩ := exec_whenReady s hw
  rw [ready, State.whenConfigured_true] at runs
  have counted : body.retire.cix = s.cix + 1 := congrArg (· + 1) uncounted
  obtain ⟨cmd, rsp, ⟨-, status⟩ | ⟨uncounted', -⟩⟩ := (exec_ends i s _ runs).streamEffect
  · exact ⟨body.retire, runs, counted, status, cmd, rsp⟩
  · omega

/-! ### Missing words (R24, R359) -/

/-- What has arrived of a command is not yet a command. -/
theorem decode_truncated {i : Instr} {present missing : List Word} (hd : decode (present ++ missing) = .ok i [])
    (hp : present ≠ []) (hm : missing ≠ []) : decode present = .wait := by
  obtain ⟨w, ops, r, hall, passes, narg, -⟩ := decode_ok_cases hd
  obtain ⟨w', here, rfl⟩ := List.exists_cons_of_ne_nil hp
  rw [List.append_nil, List.cons_append] at hall
  obtain ⟨rfl, rfl⟩ := List.cons.inj hall
  have short : here.length < field w' 23 20 := by
    have := List.length_pos_iff.2 hm
    rw [← narg, List.length_append]
    omega
  rw [passes.decode, if_pos short]

/-- Settles O9: the part that has arrived does not decode, and the whole does. -/
theorem truncatedCommandWaits : Obligations.TruncatedCommandWaits := by
  intro s i present missing running hw henc hp hm hcmd
  have whole : decode (present ++ missing) = .ok i [] := by
    rw [← henc, ← List.append_nil (encode i)]
    exact decodeInvertsEncode i [] hw
  constructor
  · exact (step_waits s).2 running (hcmd ▸ hp) (hcmd ▸ decode_truncated whole hp hm)
  · exact step_decoded (s := s.deliver missing) running (by rw [State.deliver_cmd, hcmd, whole])

end Sys2Proof.Machine
end

section
/-! PROOFS. Power-on (70_reset_and_hazards.md R380): the values the spec states, and that the reset state meets the
invariants. -/

namespace Sys2Proof.Machine

/-! ### Signs and ranges (R107) -/

theorem key_fneg (x : F32) : key (fneg x) = -key x := by
  rw [key, key, isNeg_fneg, magOf_fneg]
  cases isNeg x <;> simp

/-- Negation reverses the order of R107. -/
theorem fle_fneg {a b : F32} (h : fle a b = true) : fle (fneg b) (fneg a) = true := by
  obtain ⟨ha, hb, hkey⟩ := (fle_iff a b).1 h
  have nan (x : F32) : isNaN (fneg x) = isNaN x := by rw [isNaN, isNaN, magOf_fneg]
  refine (fle_iff _ _).2 ⟨(nan b).trans hb, (nan a).trans ha, ?_⟩
  rw [key_fneg, key_fneg]
  omega

/-- Values equal in the comparison of R107 are in the same ranges. -/
theorem between_of_feq {lo hi a b : F32} (h : feq a b = true) (hb : between lo hi b = true) : between lo hi a = true := by
  simp only [feq, Bool.and_eq_true, Bool.not_eq_true', decide_eq_true_eq] at h
  simp only [between, Bool.and_eq_true, fle_iff] at hb ⊢
  obtain ⟨⟨ha, -⟩, same⟩ := h
  obtain ⟨⟨hlo, -, above⟩, -, hhi, below⟩ := hb
  rw [same]
  exact ⟨⟨hlo, ha, above⟩, ha, hhi, below⟩

/-! ### The filters and the heads after power-on (R27, R30, R224) -/

/-- R7: pre-emphasis does not attenuate. -/
theorem preEmphGain_range :
    fle f0 Config.params.preEmphGainDb = true ∧ fle Config.params.preEmphGainDb Config.bqGainMaxDb = true :=
  Bool.and_eq_true_iff.1 Config.params.pre_emph_gain_legal

theorem isFinite_preEmphGain : isFinite Config.params.preEmphGainDb = true :=
  isFinite_of_between f0 Config.bqGainMaxDb _ (by decide) (by decide) preEmphGain_range.1 preEmphGain_range.2

/-- R27: the gain of de-emphasis takes no draw. -/
theorem deEmphGain_eq (d : Draw) :
    fsub noDraw f0 Config.params.preEmphGainDb = fsub d f0 Config.params.preEmphGainDb :=
  fadd_draw_free _ _ _ _ (by decide) (by rw [isFinite_fneg]; exact isFinite_preEmphGain)

/-- R30: the heads of configuration 0. -/
theorem Tp.reset_headDelay (h : Fin 4) : Tp.reset.headDelay.get h = Config.params.headDelayMs 0 h :=
  match h with
  | 0 | 1 | 2 | 3 => rfl

/-- R176: a window has one sample for each of the frame's. -/
theorem psWindow_length : psWindow.length = 2048 := by
  rw [psWindow, List.length_map, List.length_range]
  rfl

/-- R176: sample `n` of a window, by the rule's formula. -/
theorem psWindow_getElem? (d : Nat → Draw) {n : Nat} (hn : n < 2048) :
    psWindow[n]? = some (fmul (d 6) (fsqrt (d 4) (fdiv (d 5) f2 f3)) (fmul (d 0) fHalf (fsub (d 1) f1
      (Config.num.cos (fdiv (d 2) (fmul (d 3) 0x40C90FDB (toF32 n)) (toF32 2048)))))) := by
  have inside : n < psWindow.length := psWindow_length ▸ hn
  rw [List.getElem?_eq_getElem inside, ← List.getD_eq_getElem psWindow f0 inside]
  exact congrArg some (psWindow_spec (placesOf [d 6, d 4, d 5, d 0, d 1, d 2, d 3]) n hn)

theorem State.reset_winA : State.reset.ps.winA = psWindow := by rw [State.reset, Ps.reset]

/-- Settles O21: the registers by what `State.reset` holds, de-emphasis and the windows without a draw. -/
theorem powerOnValues : Obligations.PowerOnValues := by
  have taps (c : Chan) : (State.reset.dl.ch.get c).delayed = f0 := by cases c <;> rfl
  have histories (c : Chan) (j : Fin 4) : (State.reset.bqh.get c).get j = ⟨f0, f0⟩ := by
    cases c <;> match j with | 0 | 1 | 2 | 3 => rfl
  have samples : State.reset.ps.winA.length = 2048 := by rw [State.reset_winA, psWindow_length]
  have heard (c : Chan) : State.reset.rt.prevDelayed.get c = f0 := by cases c <;> rfl
  refine ⟨rfl, rfl, rfl, rfl, rfl, rfl, rfl, rfl, rfl, rfl, taps, rfl, rfl, rfl, rfl, rfl, rfl, Tp.reset_headDelay, rfl, rfl,
    rfl, rfl, rfl, rfl, rfl, rfl, rfl, rfl, rfl, rfl, rfl, rfl, rfl, rfl, rfl, rfl, rfl, rfl, rfl, rfl, rfl, deEmphGain_eq,
    rfl, rfl, rfl, rfl, histories, rfl, tuningScale_zero, rfl, tuningDesc_zero, rfl, rfl, rfl, rfl, heard, rfl,
    samples, rfl, fun d n hn => ?_⟩
  rw [State.reset_winA]
  exact psWindow_getElem? d hn

/-! ### The invariants (logs 5 and 6) -/

/-- R27: the gain of de-emphasis is the gain of pre-emphasis with its sign changed. -/
theorem feq_deEmphGain : feq (fsub noDraw f0 Config.params.preEmphGainDb) (fneg Config.params.preEmphGainDb) = true := by
  have finite : isFinite (fneg Config.params.preEmphGainDb) = true := by rw [isFinite_fneg, isFinite_preEmphGain]
  rw [fsub, fadd_comm_finite noDraw (by decide) finite]
  exact feq_fadd_zero noDraw finite (by decide)

/-- R7, R27: the gain of de-emphasis is legal, as that of pre-emphasis lies between 0.0 and the greatest gain. -/
theorem between_deEmphGain :
    between Config.bqGainMinDb Config.bqGainMaxDb (fsub noDraw f0 Config.params.preEmphGainDb) = true := by
  obtain ⟨lo, hi⟩ := preEmphGain_range
  refine between_of_feq feq_deEmphGain (Bool.and_eq_true_iff.2 ⟨?_, ?_⟩)
  · exact fle_fneg hi
  · exact fle_trans _ _ _ (fle_fneg lo) (by decide)

/-- R7, R27: the gains and q values of the four filters after power-on are legal. -/
theorem bqReset_gainOk : bqReset.all BqParams.gainOk = true := by
  have preEmphGain : between Config.bqGainMinDb Config.bqGainMaxDb Config.params.preEmphGainDb = true := by
    obtain ⟨lo, hi⟩ := preEmphGain_range
    exact Bool.and_eq_true_iff.2 ⟨fle_trans _ f0 _ (by decide) lo, hi⟩
  have flat : between Config.bqGainMinDb Config.bqGainMaxDb f0 = true := by decide
  refine (Four.all_iff _ _).2 fun j => Bool.and_eq_true_iff.2 ?_
  match j with
  | 0 => exact ⟨preEmphGain, Config.params.pre_emph_q_legal⟩
  | 1 => exact ⟨Config.params.hb_gain_legal, Config.params.hb_q_legal⟩
  | 2 => exact ⟨flat, Config.params.roll_q_legal⟩
  | 3 => exact ⟨between_deEmphGain, Config.params.pre_emph_q_legal⟩

/-- R30, R224: the heads of configuration 0 are in range or disabled. -/
theorem Tp.reset_heads : Tp.reset.headDelay.all headDelayOk = true := by
  refine (Four.all_iff _ _).2 fun h => ?_
  rw [Tp.reset_headDelay, ← headDelayOf_table]
  exact headDelayOk_headDelayOf _

/-- R28: the ratio of 0.0 cents is 1.0. -/
theorem Ps.reset_ratioOk : Ps.reset.ratioOk := (Config.num.exp2_zero _ (by decide)).symm

/-- R21: the parameters, sample rates and filter frequencies after power-on. -/
theorem State.reset_legal : State.reset.Legal where
  dl := by decide
  ps := by decide
  ratio := Ps.reset_ratioOk
  tp := (Tp.paramsOk_iff _).2
    { heads := Tp.reset_heads
      wowRate := by decide
      wowDepth := by decide
      flutRate := by decide
      flutDepth := by decide
      drive := by decide
      satAmt := by decide
      aging := by decide
      instab := by decide
      noiseAmt := by decide }
  gains := bqReset_gainOk
  xfb := by decide
  dlRate := rfl
  psRate := rfl
  tpRate := rfl
  freqs := nofun

/-- R291, R292: the quantizer after power-on holds the legal scale of tuning 0. -/
theorem Tq.reset_scaleOk : Tq.reset.scaleOk = true := by
  have installed : Tq.reset = tqInstallTuning Tq.reset 0 := rfl
  rw [installed]
  exact tqInstall_scaleOk _ (tuningScale_scaleEntriesOk 0 (by decide)) (tuningDesc_length 0 (by decide)) (by decide)

/-- Settles O20: no unit is configured, every memory is empty, and every register holds a legal value. -/
theorem resetMeetsInvariants : Obligations.ResetMeetsInvariants := by
  obtain ⟨params, ratio, rates, freqs⟩ := State.legal_iff _ |>.1 State.reset_legal
  have memories : State.reset.memoriesOk = true := by decide
  have cursors : State.reset.cursorsOk = true := by decide
  have capacities : State.reset.capacitiesOk = true := by decide
  have dynamics : State.reset.dynamicOk = true := by decide
  have status : State.reset.statusOk = true := by decide
  have offset : State.reset.dlOffsetOk := nofun
  exact ⟨memories, cursors, capacities, params, ratio, rates, freqs, dynamics, Tq.reset_scaleOk, status, offset⟩

end Sys2Proof.Machine
end
